-- ==== Sys2Proof/Word.lean ====
section
/-! DEFINITION. The words and bytes the part's ports carry. -/

namespace Sys2Proof

/-- One Line Port transfer: D0 to D15 (09_ports.md, section 9.1). -/
abbrev Word := BitVec 16

/-- One byte of the Inspection Link or the Reel Link. -/
abbrev Byte := BitVec 8

/-- The greatest value of P and of every 32-bit position (R3): 4,294,967,295 pu. -/
def posMax : Int := 4294967295

/-- The greatest value of a tally and of every 16-bit count (R148). -/
def countMax : Nat := 65535

end Sys2Proof
end

