-- ==== Sys2Proof/Config.lean ====
section
/-! DEFINITION. The values the manual leaves open, as constants without a body. -/

namespace Sys2Proof

/-- FREE VALUE (log 25). The stop point of a target that has left the Track List, or whose set has closed, while the
web runs backwards: R131 has STOP_ERROR show P less that point and R142 holds the target, but no rule gives the point
of a target that is gone. The argument is the target's identity (the entry's, or the set number of a length stop). -/
opaque Config.departedStopPoint : Nat → Int

end Sys2Proof
end

