-- ==== Sys2Proof/Syntax.lean ====
section
/-! DEFINITION. The commands of the part: one constructor for each row of spec/opcode_table.json. -/

namespace Sys2Proof

/-- Which of a pair of Line Port words a write addresses: EVENT A or B, ENABLE A or B, LANE GRADE CHANGE 18 or 19. -/
inductive Bank where
  | a
  | b
  deriving DecidableEq, Repr

/-- A character on RXD: its data bits, and the number of taken writes of REEL_PARITY or FRAME_GAP between its start bit and
its stop bit. A setting applies from the next character that begins after its write (R173, log 21). -/
structure Character where
  data : Byte
  writes : Nat
  deriving DecidableEq, Repr

/-- The commands. An operand is given only where State does not already hold what the command acts on. -/
inductive Instr where
  /-- COLD_RESET: the encoder levels and the address straps present at the reset. -/
  | coldReset (encA encB : Bool) (adr : BitVec 3)
  /-- ENCODER_TRANSITION: the new levels of ENCA and ENCB. -/
  | encoderTransition (encA encB : Bool)
  | tick
  /-- PULSE_END: the comparator channel whose output is negated. -/
  | pulseEnd (channel : Fin 4)
  | speedSample
  | knifePassage
  | commit
  | walkStep
  | confirmation
  | marking
  | liveSplicePlacement
  | detection
  | mapRelease
  | trackRecordLatch
  | rollEndEmptying
  | stoppedMarkWrite
  | skippedMarkWrite
  | spliceSensorEdge
  | latchedSightingTaken
  | spliceSighting
  | mapBegin
  | mapRecord
  | mapClose
  | beacon
  | inspectionMessage
  | repeatedStart
  | holdExpiry
  /-- STATUS_READ: the number of bytes the part sends before the master's missing acknowledge. -/
  | statusRead (count : Nat)
  | poll
  | fetch
  | release
  | unknownFrame
  | reelFrameDiscard
  | frameGapExpiry
  | replyTransmitStart
  | rollMount
  | rollEnd
  | mapClear
  | setStart
  | setChange
  | setEnd
  | stopRelease
  | stopCancel
  | preset
  | snapTallies
  | warmReset
  /-- UNKNOWN_COMMAND: the word written to COMMAND. -/
  | unknownCommand (d : Word)
  | posHiRead
  | webShiftWrite (d : Word)
  | eventWrite (bank : Bank) (d : Word)
  | enableWrite (bank : Bank) (d : Word)
  | laneGradeChangeWrite (bank : Bank) (d : Word)
  | tableSelectWrite (d : Word)
  | tableDataRead
  | tableDataWrite (d : Word)
  /-- REGISTER_WRITE: the word number on A1 to A5 and the data. -/
  | registerWrite (word : Fin 32) (d : Word)
  /-- INSPECTION_LINK_BYTE: the byte clocked on the link. -/
  | inspectionLinkByte (b : Byte)
  /-- CHARACTER_RECEIVED: the data bits with the writes since the start bit, the parity bit (read only under EVEN or ODD)
  and the level of the stop bit. -/
  | characterReceived (b : Character) (parityBit stopBit : Bool)
  | dataStrobeNegated
  deriving DecidableEq, Repr

end Sys2Proof
end

