-- ==== Sys2Proof/WellFormed.lean ====
section
/-! DEFINITION. Which commands are spelled as their row of the table means them. An ill-formed command is still a
Line Port write or a status read, and the machine gives it the meaning of that access (log 33). -/

namespace Sys2Proof

/-- The COMMAND codes that name a command (R164). -/
def namedCommandCodes : List Nat := [0x01, 0x02, 0x03, 0x04, 0x05, 0x06, 0x07, 0x08, 0x09, 0x0A, 0x5A]

/-- The Line Port words whose write has a row of its own in the table: COMMAND, WEB_SHIFT, EVENT A and B, ENABLE A and
B, LANE GRADE CHANGE (two words), TABLE_SELECT, TABLE_DATA. -/
def ownRowWords : List Nat := [2, 11, 14, 15, 16, 17, 18, 19, 20, 22]

/-- UNKNOWN_COMMAND carries a code that names no command; REGISTER_WRITE addresses a word without a row of its own;
STATUS_READ sends at least one byte (R171: the part sends the first byte before the master can withhold its
acknowledge). -/
def Instr.wf : Instr → Bool
  | .unknownCommand d => !(namedCommandCodes.contains (d.toNat % 256))
  | .registerWrite word _ => !(ownRowWords.contains word.val)
  | .statusRead count => 0 < count
  | _ => true

end Sys2Proof
end

