-- ==== Sys2Proof/Decode.lean ====
section
/-! DEFINITION. Decoding of command words. No row of spec/opcode_table.json gives bits ("fields" is empty for all 59),
so no word spells a command. -/

namespace Sys2Proof

/-- The command that a word spells by the table's bits: none, since the table gives no row any bits (log 37). -/
def decodeTableWord (_nbits _w : Nat) : Option Instr := none

end Sys2Proof
end

