-- ==== Sys2Proof/Machine/State.lean ====
section
/-! DEFINITION. The state of the part, block by block (00_scope.md, "Block diagram"), the reasons a step can stop, and
the state after a cold reset. -/

namespace Sys2Proof.Machine

/-! ### Pins -/

/-- The input levels the part reads other than through a command: the encoder pair (R1) and the address straps (R169). -/
structure Pins where
  encA : Bool
  encB : Bool
  adr : BitVec 3
  deriving DecidableEq, Repr

/-! ### Position Unit (chapter 01) -/

/-- The roll state (R12, R13). -/
inductive RollState where
  | noRoll
  | mounted
  deriving DecidableEq, Repr

/-- The five stations of the film path (00_scope.md). -/
inductive Station where
  | splice
  | inspect
  | table
  | knife
  | nip
  deriving DecidableEq, Repr

/-- The Position Unit (chapter 01, opening table). -/
structure PositionUnit where
  /-- Accepted level of ENCA (R1). -/
  encA : Bool
  /-- Accepted level of ENCB (R1). -/
  encB : Bool
  /-- Line position P, pu: the integer part of the accumulator (R2). -/
  p : Int
  /-- Fraction of the accumulator in 1/65,536 pu (R2). -/
  frac : Int
  pitch : Int
  dirInvert : Bool
  roll : RollState
  /-- CLK periods counted in the tick in progress (R6). Between commands it is 0 (log 7). -/
  tickCount : Nat
  /-- Ticks ended in the speed sample in progress, 0 to 9 (R6, R7). -/
  sampleCount : Nat
  /-- MODEL's own: a tenth tick has ended and its speed sample has not been made (log 6). -/
  sampleDue : Bool
  clkdiv : Nat
  /-- The divisor of the tick in progress (R6). -/
  tickDivisor : Nat
  sampleBase : Int
  /-- Speed v, mm/s (R7). -/
  v : Int
  overspeed : Bool
  settle : Nat
  offSplice : Int
  offInspect : Int
  offTable : Int
  offKnife : Int
  offNip : Int
  deriving DecidableEq, Repr

/-! ### Position Comparators (sections 1.6, 1.7) -/

inductive Reference where
  | absolute
  | set
  deriving DecidableEq, Repr

/-- One comparator channel (section 1.6). Channel 0 shows STROBE_PITCH as its base value and reload (R21). -/
structure Channel where
  base : Int
  matchPoint : Int
  reload : Int
  reference : Reference
  run : Bool
  skipped : Nat
  /-- The output line: STRB, CMP1, CMP2 or CMP3 (R17). -/
  out : Bool
  /-- MODEL's own: a tick has ended since the latest match of the pulse in progress (log 8). -/
  outTicked : Bool
  deriving DecidableEq, Repr

structure Comparators where
  ch0 : Channel
  ch1 : Channel
  ch2 : Channel
  ch3 : Channel
  strobeSeq : Nat
  deriving DecidableEq, Repr

/-! ### Press Map (sections 3.1, 3.2) -/

inductive ItemKind where
  | flag
  | splice
  deriving DecidableEq, Repr

inductive MapState where
  | empty
  | opened
  | closed
  deriving DecidableEq, Repr

inductive RecordStatus where
  | unreleased
  | released
  | retired
  deriving DecidableEq, Repr

inductive MatchState where
  | unmatched
  | matched
  | missed
  deriving DecidableEq, Repr

/-- One map record (section 3.1). Fields a SPLICE does not have hold 0 (log 36). -/
structure MapRecord where
  kind : ItemKind
  m : Int
  len : Int
  x0 : Int
  x1 : Int
  cls : Fin 8
  sev : Fin 4
  status : RecordStatus
  matchState : MatchState
  deriving DecidableEq, Repr

structure PressMap where
  state : MapState
  /-- The map id; absent while EMPTY. -/
  id : Option Nat
  mEnd : Int
  d0 : Int
  /-- Map order; the place in the list is the map index. -/
  records : List MapRecord
  truncated : Bool
  horizon : Int
  xOffset : Int
  /-- The class 4 request is withheld until room is signalled (R54). -/
  withheld : Bool
  deriving DecidableEq, Repr

/-! ### Alignment Unit (sections 3.3 to 3.5) -/

structure Anchor where
  m : Int
  w : Int
  deriving DecidableEq, Repr

inductive SpliceSource where
  | sensor
  | camera
  | both
  deriving DecidableEq, Repr

/-- Where one sighting came from (R60). -/
inductive SightingSource where
  | sensor
  | camera
  deriving DecidableEq, Repr

/-- A write of the Alignment Unit's write queue (R67). -/
inductive AlignWrite where
  | confirmation (index : Nat) (w : Int)
  | marking (bound : Int)
  | liveSplice (w : Int) (source : SightingSource) (unsynced : Bool)
  deriving DecidableEq, Repr

/-- R67: which requests were waiting when the latest walk step completed and have not been granted since; the next step
is requested after them. -/
structure Yields where
  /-- A DETECTION at the head of the DIQ: class 3. -/
  detection : Bool
  /-- A release of the Press Map: class 4. -/
  release : Bool
  /-- An access of the Line Port: class 5. -/
  access : Bool
  deriving DecidableEq, Repr

structure AlignmentUnit where
  /-- Newest first (R57). -/
  anchors : List Anchor
  dLast : Int
  queue : List AlignWrite
  /-- The sensor latch (R60). -/
  latch : Option Int
  lastGuarded : Option Int
  /-- The requests ahead of the next walk step (R67). -/
  yields : Yields
  matchWindow : Int
  spliceGuard : Int
  source : SpliceSource
  deriving DecidableEq, Repr

/-! ### Detection Input Queue (section 4.1) -/

/-- RESULT and the last result code (section 9.5, Codes). -/
inductive ResultCode where
  | ok
  | noRoll
  | rollMounted
  | mapOpen
  | setOpen
  | noSet
  | queueFull
  | badPlan
  | badGeometry
  | notStopped
  | badArg
  | mapState
  | mapFull
  | mapOrder
  | badField
  deriving DecidableEq, Repr

/-- A message as taken from the Inspection Link. MAP RECORD keeps its packed byte whole: it is checked when served. -/
inductive Message where
  | mapBegin (id : Nat) (mEnd d0 : Int)
  | mapRecord (m len x0 x1 : Int) (packed : Byte)
  | mapClose (count : Nat)
  | detection (c len x0 x1 : Int) (cls : Fin 8) (sev : Fin 4)
  | beacon (number : Nat) (position : Int)
  | spliceSighting (stamp : Int)
  deriving DecidableEq, Repr

structure InputQueue where
  /-- Head first. -/
  messages : List Message
  resume : Nat
  lastResult : ResultCode
  deriving DecidableEq, Repr

/-! ### Offset Tracker (sections 4.2, 4.3) -/

inductive PeakMode where
  | peak
  | current
  deriving DecidableEq, Repr

/-- One Strobe History entry (R77). -/
structure Strobe where
  number : Nat
  p : Int
  deriving DecidableEq, Repr

structure OffsetTracker where
  /-- The offset estimate o. -/
  o : Int
  valid : Bool
  latest : Option Int
  peak : Int
  gNarrow : Nat
  gWide : Nat
  wideWindow : Int
  captureLimit : Int
  peakMode : PeakMode
  strobePitch : Int
  /-- Newest first, up to 4. -/
  history : List Strobe
  deriving DecidableEq, Repr

/-! ### Track List (chapter 02) -/

inductive Source where
  | map
  | live
  | merged
  | sensor
  | camera
  | confirmed
  deriving DecidableEq, Repr

/-- The state of an entry; SLIT carries its lane set (ascending lane numbers) and its knife shift (R98). -/
inductive Passage where
  | ahead
  | slit (lanes : List Nat) (shift : Int)
  deriving DecidableEq, Repr

/-- One Track List entry (section 2.1). Fields a SPLICE does not have hold 0 (log 36). -/
structure Entry where
  /-- The part's own identity of the entry, not shown at any port (R22, log 29). -/
  ident : Nat
  seq : Nat
  kind : ItemKind
  source : Source
  w : Int
  len : Int
  x0 : Int
  x1 : Int
  cls : Fin 8
  sev : Fin 4
  mapIndex : Option Nat
  passage : Passage
  unsynced : Bool
  stopped : Bool
  skipped : Bool
  /-- The mark PENDING_REPLACE. -/
  pendingReplace : Bool
  deriving DecidableEq, Repr

/-- The Late Record (R33); no kind is NONE. -/
structure LateRecord where
  kind : Option ItemKind
  w : Int
  cls : Fin 8
  deriving DecidableEq, Repr

structure TrackList where
  /-- In list order (R24). -/
  entries : List Entry
  seq : Nat
  nextIdent : Nat
  late : LateRecord
  mergeWindow : Int
  deriving DecidableEq, Repr

/-! ### Slit Plan (chapter 05) -/

inductive Shaft where
  | none
  | upper
  | lower
  deriving DecidableEq, Repr

inductive Disposition where
  | wound
  | trim
  | forcedReject
  deriving DecidableEq, Repr

structure LaneRecord where
  used : Bool
  left : Int
  width : Int
  shaft : Shaft
  disposition : Disposition
  deriving DecidableEq, Repr

inductive PlanStatus where
  | valid
  | noLanes
  | laneGap
  | laneEdge
  | shaftMismatch
  | laneOrder
  | noReel
  deriving DecidableEq, Repr

structure SlitPlan where
  /-- The records of lanes 1 to 24, in order. -/
  lanes : List LaneRecord
  shiftLimit : Int
  webShift : Int
  deriving DecidableEq, Repr

/-! ### Reel Table and Completed Reel Queue (chapter 06) -/

inductive Grade where
  | accept
  | downgrade
  | reject
  deriving DecidableEq, Repr

inductive Cause where
  | none
  | cls (n : Fin 8)
  | splices
  | forced
  | shortLength
  deriving DecidableEq, Repr

structure FlagItem where
  depth : Int
  across : Int
  cls : Fin 8
  sev : Fin 4
  source : Source
  unsynced : Bool
  deriving DecidableEq, Repr

/-- A reel record (section 6.2). -/
structure ReelRecord where
  setNumber : Nat
  lane : Nat
  shaft : Shaft
  mapId : Option Nat
  wStart : Int
  wEnd : Option Int
  /-- Length in mm. -/
  length : Int
  grade : Grade
  cause : Cause
  /-- Eight counts, class 0 first. -/
  classCounts : List Nat
  spliceCount : Nat
  committed : Nat
  unlisted : Nat
  /-- Ascending depth, up to 20. -/
  flags : List FlagItem
  deriving DecidableEq, Repr

inductive LengthStop where
  | none
  | pending
  | done
  | skipped
  deriving DecidableEq, Repr

/-- The open set (R104). Its reel count is the number of its records. -/
structure OpenSet where
  number : Nat
  wStart : Int
  /-- Length target in m; 0 is no target. -/
  target : Nat
  lengthStop : LengthStop
  /-- Ascending lane number. -/
  reels : List ReelRecord
  deriving DecidableEq, Repr

/-- The grading table (R117). -/
structure Grading where
  classDown : List Nat
  classReject : List Nat
  spliceDown : Nat
  spliceReject : Nat
  minLength : Nat
  deriving DecidableEq, Repr

structure ReelTable where
  openSet : Option OpenSet
  nextSet : Nat
  grading : Grading
  /-- Grade-change indications: bit k is lane k + 1 (R119). -/
  indications : BitVec 24
  deriving DecidableEq, Repr

structure ReelQueue where
  /-- Head first. -/
  records : List ReelRecord
  roomWanted : Bool
  deriving DecidableEq, Repr

/-! ### Stop Planner (chapter 07) -/

inductive PlannerState where
  | idle
  | armed
  | slowing
  | creeping
  | halting
  | stopped
  deriving DecidableEq, Repr

/-- The target (R131): an entry by its identity, with its kind, or the length stop of a numbered set. -/
inductive Target where
  | none
  | entry (ident : Nat) (kind : ItemKind)
  | length (setNumber : Nat)
  deriving DecidableEq, Repr

inductive TargetKind where
  | none
  | flag
  | splice
  | length
  deriving DecidableEq, Repr

inductive StopOutcome where
  | onTarget
  | overshoot
  | undershoot
  deriving DecidableEq, Repr

/-- The Stop Record (R143). -/
structure StopRecord where
  kind : TargetKind
  seq : Option Nat
  setNumber : Option Nat
  targetP : Int
  finalP : Int
  e : Int
  outcome : StopOutcome
  short : Bool
  retargeted : Bool
  deriving DecidableEq, Repr

/-- The fields of the STOP PARAMS table (R127). -/
structure StopParams where
  creepSpeed : Int
  decel : Int
  reaction : Int
  margin : Int
  haltDist : Int
  stopLead : Int
  tolerance : Int
  settle : Nat
  flagStop : Bool
  classMask : BitVec 8
  minSeverity : Nat
  /-- Bit 0 MAP, bit 1 LIVE, bit 2 MERGED. -/
  sourceMask : BitVec 3
  spliceStop : Bool
  lengthStop : Bool
  deriving DecidableEq, Repr

structure StopPlanner where
  state : PlannerState
  target : Target
  /-- Fixed at entry to HALTING (R141). -/
  targetPoint : Int
  /-- The target entry's seq as noted at entry to HALTING (R141). -/
  notedSeq : Option Nat
  short : Bool
  retargeted : Bool
  /-- The identity of the entry set aside by a release or cancel in progress (R144). -/
  setAside : Option Nat
  record : StopRecord
  params : StopParams
  deriving DecidableEq, Repr

/-! ### Tally and Event Unit (chapter 08) -/

/-- The 16 totals, in the order of the table of section 8.1. -/
inductive Total where
  | placed
  | merged
  | lost
  | released
  | withdrawn
  | late
  | unwound
  | unassigned
  | stopsMade
  | shortStops
  | staleBeacons
  | linkDropped
  | shortMessages
  | encoderFaults
  | sightingsIgnored
  | framesDiscarded
  deriving DecidableEq, Repr

structure LaneTally where
  flags : Nat
  splices : Nat
  metres : Nat
  reels : Nat
  deriving DecidableEq, Repr

structure TallyBank where
  /-- The 16 totals by place. -/
  totals : List Nat
  /-- Lanes 1 to 24. -/
  lanes : List LaneTally
  deriving DecidableEq, Repr

inductive SnapCause where
  | none
  | command
  | setEnd
  | setChange
  deriving DecidableEq, Repr

structure Tallies where
  live : TallyBank
  snap : TallyBank
  snapCause : SnapCause
  snapSet : Option Nat
  autosnap : Bool
  deriving DecidableEq, Repr

/-- EVENT A, EVENT B, ENABLE A, ENABLE B (R154, R156). -/
structure Events where
  flagsA : Word
  flagsB : Word
  enableA : Word
  enableB : Word
  deriving DecidableEq, Repr

/-! ### Line Port (sections 9.1, 9.2) -/

inductive Table where
  | config
  | slitPlan
  | grading
  | stopParams
  | comparators
  | track
  | map
  | anchors
  | openReels
  | queue
  | tallyLive
  | tallySnap
  | strobes
  | stopRecord
  | lateRecord
  deriving DecidableEq, Repr

/-- The writable fields of the writable tables (section 9.5, Tables). Lanes and channels are counted from 0 here:
lane `i` is lane i + 1 and channel `i` is channel i + 1. -/
inductive Field where
  | pitch
  | dirInvert
  | clkdiv
  | offset (st : Station)
  | mergeWindow
  | horizon
  | mapXOffset
  | matchWindow
  | spliceGuard
  | spliceSource
  | resume
  | holdLimit
  | gNarrow
  | gWide
  | wideWindow
  | captureLimit
  | peakMode
  | strobePitch
  | autosnap
  | reelParity
  | reelDivisor
  | frameGap
  | shiftLimit
  | laneUse (i : Fin 24)
  | laneLeft (i : Fin 24)
  | laneWidth (i : Fin 24)
  | laneShaft (i : Fin 24)
  | laneDisposition (i : Fin 24)
  | classDown (c : Fin 8)
  | classReject (c : Fin 8)
  | spliceDown
  | spliceReject
  | minLength
  | creepSpeed
  | decel
  | reaction
  | margin
  | haltDist
  | stopLead
  | tolerance
  | settle
  | flagStop
  | classMask
  | minSeverity
  | sourceMask
  | spliceStop
  | lengthStop
  | chBase (i : Fin 3)
  | chReload (i : Fin 3)
  | chReference (i : Fin 3)
  | chRun (i : Fin 3)
  deriving DecidableEq, Repr

/-- One access of the bus: a read or a write of a word, as A1 to A5, R/W and D0 to D15 give it (R161). -/
inductive BusAccess where
  | read (word : Fin 32)
  | write (word : Fin 32) (d : Word)
  deriving DecidableEq, Repr

/-- An access that waits for its class 5 Track List operation (R28, R161). -/
inductive WaitingAccess where
  | rollEnd
  | stopRelease
  | stopCancel
  | trackRead
  deriving DecidableEq, Repr

/-- The record latch (R166). -/
structure RecordLatch where
  table : Table
  record : Nat
  words : List Word
  deriving DecidableEq, Repr

structure LinePort where
  result : ResultCode
  arg0 : Word
  arg1 : Word
  arg2 : Word
  arg3 : Word
  posLatch : Word
  tableSelect : Table
  tableAddr : Nat
  latch : Option RecordLatch
  /-- The held part: a field and its upper word (R167). -/
  held : Option (Field × Word)
  /-- DS, as the master last signalled it. -/
  ds : Bool
  /-- The access being served, while it waits for its class 5 operation. -/
  access : Option WaitingAccess
  /-- DS was negated before the access being served completed (R161). -/
  early : Bool
  /-- The access that CS and DS ask for while one whose DS was negated early is still being served (R161). -/
  next : Option BusAccess
  xack : Bool
  bflt : Bool
  /-- D0 to D15 as driven by the part; none while released. -/
  dout : Option Word
  deriving DecidableEq, Repr

/-! ### Inspection Link (section 9.3) -/

inductive MessageKind where
  | mapBegin
  | mapRecord
  | mapClose
  | detection
  | beacon
  | spliceSighting
  deriving DecidableEq, Repr

/-- Where the link stands in a transfer (R169, R171). -/
inductive LinkPhase where
  /-- No transfer: the next byte follows a start condition. -/
  | idle
  /-- A repeated start has come; the next byte is an address. -/
  | restarted
  /-- The transfer is ignored until the next stop or start condition. -/
  | ignored
  /-- Address and write direction acknowledged: a message is open and its kind byte is due. -/
  | addressed
  /-- The kind byte is acknowledged; the bytes after it, in order. -/
  | message (kind : MessageKind) (bytes : List Byte)
  /-- Address and read direction acknowledged: the part sends status bytes. -/
  | reading
  deriving DecidableEq, Repr

structure InspectionLink where
  phase : LinkPhase
  /-- SCL is held low (R170). -/
  holding : Bool
  /-- Ticks ended since the hold began. -/
  holdTicks : Nat
  /-- The HOLD_LIMIT in force for the hold. -/
  holdLimitNow : Nat
  holdLimit : Nat
  /-- MODEL's own record of the SDA output: the acknowledge given to the latest byte. -/
  ack : Bool
  /-- The six status bytes taken for the latest read transfer (R171). -/
  status : List Byte
  /-- The bytes sent in the latest read transfer. -/
  sent : List Byte
  deriving DecidableEq, Repr

/-! ### Reel Link (section 9.4) -/

inductive Parity where
  | none
  | even
  | odd
  deriving DecidableEq, Repr

/-- A received byte with its marks (R173) and the mark that more than FRAME_GAP ticks passed before it (R174). -/
structure RxByte where
  value : Byte
  parityError : Bool
  framingError : Bool
  overrun : Bool
  afterGap : Bool
  deriving DecidableEq, Repr

/-- The frame assembler (R174). -/
inductive Assembler where
  | hunting
  /-- C3h taken; the kind byte is due. -/
  | needKind
  | needLength (kind : Byte)
  /-- Body bytes taken so far; when they are `length` in number the check byte is due. -/
  | body (kind : Byte) (length : Nat) (bytes : List Byte)
  /-- A frame whose check holds, to be served by its own command (log 20). -/
  | complete (kind : Byte) (bytes : List Byte)
  /-- An opened frame that took a marked byte or failed its check, to be discarded by REEL_FRAME_DISCARD (log 20). -/
  | failed
  deriving DecidableEq, Repr

/-- The settings that the receiver reads for a character (R173). -/
structure ReceiveSettings where
  parity : Parity
  frameGap : Nat
  deriving DecidableEq, Repr

/-- The settings that the transmitter reads for a character (R173). -/
structure SendSettings where
  parity : Parity
  divisor : Nat
  deriving DecidableEq, Repr

structure ReelLink where
  parity : Parity
  divisor : Nat
  frameGap : Nat
  /-- MODEL's own: the settings before each taken write of REEL_PARITY or FRAME_GAP since the latest character, newest
  first. A character that began before a write is received under the setting before it (R173, log 21). -/
  earlier : List ReceiveSettings
  holdingStage : Option RxByte
  shiftStage : Option RxByte
  /-- A byte was lost; the next byte is marked with an overrun (R173). -/
  overrunNext : Bool
  /-- More than FRAME_GAP ticks have passed; the next byte is marked with it (log 23). -/
  gapNext : Bool
  /-- Ticks ended since the latest character, kept to at most 256. -/
  gapTicks : Nat
  /-- The FRAME_GAP in force for the gap after the latest character. -/
  gapLimit : Nat
  assembler : Assembler
  /-- The bytes of the reply being sent that are not yet wholly sent; empty while the transmitter is idle. -/
  sending : List Byte
  /-- CLK periods left of the character on the line. -/
  charLeft : Nat
  /-- The settings that the character on the line began under (R173). -/
  onLine : SendSettings
  /-- A built reply that waits for the transmitter (R175). -/
  waiting : Option (List Byte)
  deriving DecidableEq, Repr

/-! ### The machine -/

/-- The whole part, and the queue of the commands that wait for it. -/
structure State where
  pins : Pins
  pos : PositionUnit
  comps : Comparators
  pmap : PressMap
  align : AlignmentUnit
  diq : InputQueue
  tracker : OffsetTracker
  track : TrackList
  plan : SlitPlan
  reels : ReelTable
  queue : ReelQueue
  planner : StopPlanner
  tally : Tallies
  events : Events
  port : LinePort
  link : InspectionLink
  reel : ReelLink
  pending : List Instr
  deriving DecidableEq, Repr

/-- The faults of a step. There are none: no command stops the part, and a refused bus access (BFLT, R162) is an
output. Nobody raises a fault, which is safe: nothing is cut short (log 38). -/
inductive Fault
  deriving DecidableEq, Repr

/-- The refusals of a step. -/
inductive Refusal where
  /-- Raised by exec's arm of a command without a meaning; safe, since the run stops. No arm raises it. -/
  | notModelled (mnemonic : String)
  deriving DecidableEq, Repr

namespace State

def setPins (s : State) (x : Pins) : State := { s with pins := x }
def setPos (s : State) (x : PositionUnit) : State := { s with pos := x }
def setComps (s : State) (x : Comparators) : State := { s with comps := x }
def setPmap (s : State) (x : PressMap) : State := { s with pmap := x }
def setAlign (s : State) (x : AlignmentUnit) : State := { s with align := x }
def setDiq (s : State) (x : InputQueue) : State := { s with diq := x }
def setTracker (s : State) (x : OffsetTracker) : State := { s with tracker := x }
def setTrack (s : State) (x : TrackList) : State := { s with track := x }
def setPlan (s : State) (x : SlitPlan) : State := { s with plan := x }
def setReels (s : State) (x : ReelTable) : State := { s with reels := x }
def setQueue (s : State) (x : ReelQueue) : State := { s with queue := x }
def setPlanner (s : State) (x : StopPlanner) : State := { s with planner := x }
def setTally (s : State) (x : Tallies) : State := { s with tally := x }
def setEvents (s : State) (x : Events) : State := { s with events := x }
def setPort (s : State) (x : LinePort) : State := { s with port := x }
def setLink (s : State) (x : InspectionLink) : State := { s with link := x }
def setReel (s : State) (x : ReelLink) : State := { s with reel := x }
def setPending (s : State) (x : List Instr) : State := { s with pending := x }

end State

/-! ### Reset values -/

/-- R10, R5, R6, R11: the Position Unit after a cold reset with the encoder at the levels given. -/
def PositionUnit.cold (encA encB : Bool) : PositionUnit where
  encA := encA
  encB := encB
  p := 0
  frac := 0
  pitch := 65536
  dirInvert := false
  roll := .noRoll
  tickCount := 0
  sampleCount := 0
  sampleDue := false
  clkdiv := 20000
  tickDivisor := 20000
  sampleBase := 0
  v := 0
  overspeed := false
  settle := 0
  offSplice := 0
  offInspect := 0
  offTable := 10000
  offKnife := 20000
  offNip := 30000

/-- R21. -/
def Channel.cold : Channel where
  base := 0
  matchPoint := 0
  reload := 0
  reference := .absolute
  run := false
  skipped := 0
  out := false
  outTicked := false

/-- R21. -/
def Comparators.cold : Comparators where
  ch0 := Channel.cold
  ch1 := Channel.cold
  ch2 := Channel.cold
  ch3 := Channel.cold
  strobeSeq := 0

/-- R56. -/
def PressMap.cold : PressMap where
  state := .empty
  id := none
  mEnd := 0
  d0 := 0
  records := []
  truncated := false
  horizon := 1000000
  xOffset := 0
  withheld := false

/-- No request stands ahead of the next walk step (R67). -/
def Yields.none : Yields where
  detection := false
  release := false
  access := false

/-- R71. -/
def AlignmentUnit.cold : AlignmentUnit where
  anchors := []
  dLast := 0
  queue := []
  latch := none
  lastGuarded := none
  yields := Yields.none
  matchWindow := 20000
  spliceGuard := 5000
  source := .both

/-- R76. -/
def InputQueue.cold : InputQueue where
  messages := []
  resume := 24
  lastResult := .ok

/-- R83. -/
def OffsetTracker.cold : OffsetTracker where
  o := 0
  valid := false
  latest := none
  peak := 0
  gNarrow := 3
  gWide := 1
  wideWindow := 50
  captureLimit := 2000
  peakMode := .peak
  strobePitch := 100000
  history := []

/-- R48. -/
def LateRecord.cold : LateRecord where
  kind := none
  w := 0
  cls := 0

/-- R48. -/
def TrackList.cold : TrackList where
  entries := []
  seq := 0
  nextIdent := 0
  late := LateRecord.cold
  mergeWindow := 300

/-- R103. -/
def LaneRecord.cold : LaneRecord where
  used := false
  left := 0
  width := 1
  shaft := .none
  disposition := .trim

/-- R103. -/
def SlitPlan.cold : SlitPlan where
  lanes := List.replicate 24 LaneRecord.cold
  shiftLimit := 500
  webShift := 0

/-- R117. -/
def Grading.cold : Grading where
  classDown := List.replicate 8 255
  classReject := List.replicate 8 255
  spliceDown := 255
  spliceReject := 255
  minLength := 0

/-- R126. -/
def ReelTable.cold : ReelTable where
  openSet := none
  nextSet := 1
  grading := Grading.cold
  indications := 0

/-- R126. -/
def ReelQueue.cold : ReelQueue where
  records := []
  roomWanted := false

/-- R143: the Stop Record after either reset. -/
def StopRecord.cold : StopRecord where
  kind := .none
  seq := none
  setNumber := none
  targetP := 0
  finalP := 0
  e := 0
  outcome := .onTarget
  short := false
  retargeted := false

/-- R127. -/
def StopParams.cold : StopParams where
  creepSpeed := 500
  decel := 800
  reaction := 50
  margin := 2000
  haltDist := 1000
  stopLead := 0
  tolerance := 500
  settle := 5
  flagStop := false
  classMask := 0xFF
  minSeverity := 0
  sourceMask := 7
  spliceStop := false
  lengthStop := false

/-- R147. -/
def StopPlanner.cold : StopPlanner where
  state := .idle
  target := .none
  targetPoint := 0
  notedSeq := none
  short := false
  retargeted := false
  setAside := none
  record := StopRecord.cold
  params := StopParams.cold

/-- A bank with every tally at 0 (R150, R153). -/
def TallyBank.zero : TallyBank where
  totals := List.replicate 16 0
  lanes := List.replicate 24 { flags := 0, splices := 0, metres := 0, reels := 0 }

/-- R153. -/
def Tallies.cold : Tallies where
  live := TallyBank.zero
  snap := TallyBank.zero
  snapCause := .none
  snapSet := none
  autosnap := false

/-- R157. -/
def Events.cold : Events where
  flagsA := 0
  flagsB := 0
  enableA := 0
  enableB := 0

/-- R168; the handshake outputs negated and D0 to D15 released (PRESUMED, log 13). -/
def LinePort.cold : LinePort where
  result := .ok
  arg0 := 0
  arg1 := 0
  arg2 := 0
  arg3 := 0
  posLatch := 0
  tableSelect := .config
  tableAddr := 0
  latch := none
  held := none
  ds := false
  access := none
  early := false
  next := none
  xack := false
  bflt := false
  dout := none

/-- R172. -/
def InspectionLink.cold : InspectionLink where
  phase := .idle
  holding := false
  holdTicks := 0
  holdLimitNow := 100
  holdLimit := 100
  ack := false
  status := []
  sent := []

/-- R173, R176. -/
def ReelLink.cold : ReelLink where
  parity := .even
  divisor := 65
  frameGap := 20
  earlier := []
  holdingStage := none
  shiftStage := none
  overrunNext := false
  gapNext := false
  gapTicks := 0
  gapLimit := 20
  assembler := .hunting
  sending := []
  charLeft := 0
  onLine := ⟨.even, 65⟩
  waiting := none

/-- The part right after a cold reset: every block in the state its chapter states. The levels on the pins are the
model's choice (log 9). -/
def State.reset : State where
  pins := { encA := false, encB := false, adr := 0 }
  pos := PositionUnit.cold false false
  comps := Comparators.cold
  pmap := PressMap.cold
  align := AlignmentUnit.cold
  diq := InputQueue.cold
  tracker := OffsetTracker.cold
  track := TrackList.cold
  plan := SlitPlan.cold
  reels := ReelTable.cold
  queue := ReelQueue.cold
  planner := StopPlanner.cold
  tally := Tallies.cold
  events := Events.cold
  port := LinePort.cold
  link := InspectionLink.cold
  reel := ReelLink.cold
  pending := []

end Sys2Proof.Machine
end

