-- ==== Sys2Proof/Machine/Operands.lean ====
section
/-! DEFINITION. Arithmetic, words, bytes and codes: the forms in which operands reach the part and values leave it. -/

namespace Sys2Proof.Machine

/-! ### Rounding and clamping (00_scope.md, "Rounding", "Counters", "Clamping and refusal") -/

/-- `n / d` rounded to the nearest integer, halves away from zero, for `d` above 0. -/
def roundDiv (n d : Int) : Int :=
  if 0 ≤ n then (2 * n + d) / (2 * d) else -((2 * (-n) + d) / (2 * d))

/-- The ceiling of `n / d`, for `d` above 0. -/
def ceilDiv (n d : Int) : Int := -((-n) / d)

/-- `x` clamped to `lo` to `hi`. -/
def clampInt (lo hi x : Int) : Int := if x < lo then lo else if hi < x then hi else x

/-- A counter with a maximum counts `n` more and saturates (00_scope.md, "Counters"). -/
def saturate (max n x : Nat) : Nat := min max (x + n)

/-- The size of a difference. -/
def absInt (x : Int) : Int := if 0 ≤ x then x else -x

/-! ### Words and bytes, most significant part first (R160) -/

/-- 1 or 0, for a flag placed in a word. -/
def flagBit (b : Bool) : Nat := if b then 1 else 0

/-- The 16-bit word of a value, in two's complement when negative (R160). -/
def wordOf (x : Int) : Word := BitVec.ofInt 16 x

/-- The two words of a 32-bit value, high word first (R160). -/
def words32 (x : Int) : List Word := [wordOf (x / 65536), wordOf x]

/-- The three words of a 48-bit value, most significant first (R160). -/
def words48 (x : Int) : List Word := [wordOf (x / 4294967296), wordOf (x / 65536), wordOf x]

/-- The value of two words, high word first, unsigned. -/
def unsigned32 (hi lo : Word) : Int := (hi.toNat * 65536 + lo.toNat : Nat)

/-- The value of two words, high word first, in two's complement. -/
def signed32 (hi lo : Word) : Int :=
  if hi.toNat < 32768 then unsigned32 hi lo else unsigned32 hi lo - 4294967296

/-- A word as an unsigned value. -/
def unsigned16 (w : Word) : Int := w.toNat

/-- A word as a two's complement value. -/
def signed16 (w : Word) : Int := w.toInt

/-- The value of bytes, most significant first. -/
def unsignedBytes : List Byte → Nat
  | [] => 0
  | b :: bs => b.toNat * 256 ^ bs.length + unsignedBytes bs

/-- A value's low byte. -/
def byteOf (x : Int) : Byte := BitVec.ofInt 8 x

/-- The two bytes of a 16-bit value, most significant first. -/
def bytes16 (x : Int) : List Byte := [byteOf (x / 256), byteOf x]

/-- The four bytes of a 32-bit value, most significant first. -/
def bytes32 (x : Int) : List Byte :=
  [byteOf (x / 16777216), byteOf (x / 65536), byteOf (x / 256), byteOf x]

/-- Two bytes as a two's complement value (d0 of MAP BEGIN). -/
def signedBytes16 (hi lo : Byte) : Int :=
  let n : Int := hi.toNat * 256 + lo.toNat
  if hi.toNat < 128 then n else n - 65536

/-- The low three bits of a number, as a class. -/
def classOf (n : Nat) : Fin 8 := ⟨n % 8, Nat.mod_lt _ (by decide)⟩

/-- The low two bits of a number, as a severity. -/
def severityOf (n : Nat) : Fin 4 := ⟨n % 4, Nat.mod_lt _ (by decide)⟩

/-- Class in bits 4 to 2 and severity in bits 1 to 0: the byte of DETECTION and of a FETCH item (section 9.5). -/
def packClass (cls : Fin 8) (sev : Fin 4) : Byte := BitVec.ofNat 8 (cls.val * 4 + sev.val)

/-! ### Codes (section 9.5) -/

def ResultCode.code : ResultCode → Nat
  | .ok => 0
  | .noRoll => 1
  | .rollMounted => 2
  | .mapOpen => 3
  | .setOpen => 4
  | .noSet => 5
  | .queueFull => 6
  | .badPlan => 7
  | .badGeometry => 8
  | .notStopped => 9
  | .badArg => 10
  | .mapState => 11
  | .mapFull => 12
  | .mapOrder => 13
  | .badField => 14

def Table.code : Table → Nat
  | .config => 0
  | .slitPlan => 1
  | .grading => 2
  | .stopParams => 3
  | .comparators => 4
  | .track => 5
  | .map => 6
  | .anchors => 7
  | .openReels => 8
  | .queue => 9
  | .tallyLive => 10
  | .tallySnap => 11
  | .strobes => 12
  | .stopRecord => 13
  | .lateRecord => 14

/-- The table a TABLE_SELECT value names. -/
def Table.ofCode : Nat → Option Table
  | 0 => some .config
  | 1 => some .slitPlan
  | 2 => some .grading
  | 3 => some .stopParams
  | 4 => some .comparators
  | 5 => some .track
  | 6 => some .map
  | 7 => some .anchors
  | 8 => some .openReels
  | 9 => some .queue
  | 10 => some .tallyLive
  | 11 => some .tallySnap
  | 12 => some .strobes
  | 13 => some .stopRecord
  | 14 => some .lateRecord
  | _ => none

/-- Number of records of a table (section 9.5, Tables). -/
def Table.records : Table → Nat
  | .config => 1
  | .slitPlan => 25
  | .grading => 1
  | .stopParams => 1
  | .comparators => 4
  | .track => 1024
  | .map => 4097
  | .anchors => 9
  | .openReels => 25
  | .queue => 64
  | .tallyLive => 25
  | .tallySnap => 25
  | .strobes => 5
  | .stopRecord => 1
  | .lateRecord => 1

/-- Words of one record of a table (section 9.5, Tables). -/
def Table.stride : Table → Nat
  | .config => 37
  | .slitPlan => 8
  | .grading => 19
  | .stopParams => 17
  | .comparators => 16
  | .track => 16
  | .map => 12
  | .anchors => 8
  | .openReels => 128
  | .queue => 128
  | .tallyLive => 32
  | .tallySnap => 32
  | .strobes => 16
  | .stopRecord => 11
  | .lateRecord => 5

def ItemKind.code : ItemKind → Nat
  | .flag => 1
  | .splice => 2

/-- A kind that may be absent: 0 is NONE. -/
def kindCode : Option ItemKind → Nat
  | none => 0
  | some k => k.code

def Source.code : Source → Nat
  | .map => 0
  | .live => 1
  | .merged => 2
  | .sensor => 3
  | .camera => 4
  | .confirmed => 5

def MapState.code : MapState → Nat
  | .empty => 0
  | .opened => 1
  | .closed => 2

def RecordStatus.code : RecordStatus → Nat
  | .unreleased => 0
  | .released => 1
  | .retired => 2

def MatchState.code : MatchState → Nat
  | .unmatched => 0
  | .matched => 1
  | .missed => 2

def Shaft.code : Shaft → Nat
  | .none => 0
  | .upper => 1
  | .lower => 2

def Shaft.ofCode : Nat → Option Shaft
  | 0 => some .none
  | 1 => some .upper
  | 2 => some .lower
  | _ => Option.none

def Disposition.code : Disposition → Nat
  | .wound => 0
  | .trim => 1
  | .forcedReject => 2

def Disposition.ofCode : Nat → Option Disposition
  | 0 => some .wound
  | 1 => some .trim
  | 2 => some .forcedReject
  | _ => none

def PlanStatus.code : PlanStatus → Nat
  | .valid => 0
  | .noLanes => 1
  | .laneGap => 2
  | .laneEdge => 3
  | .shaftMismatch => 4
  | .laneOrder => 5
  | .noReel => 6

def Grade.code : Grade → Nat
  | .accept => 0
  | .downgrade => 1
  | .reject => 2

def Cause.code : Cause → Nat
  | .none => 0
  | .cls n => n.val + 1
  | .splices => 9
  | .forced => 10
  | .shortLength => 11

def PlannerState.code : PlannerState → Nat
  | .idle => 0
  | .armed => 1
  | .slowing => 2
  | .creeping => 3
  | .halting => 4
  | .stopped => 5

def TargetKind.code : TargetKind → Nat
  | .none => 0
  | .flag => 1
  | .splice => 2
  | .length => 3

def StopOutcome.code : StopOutcome → Nat
  | .onTarget => 0
  | .overshoot => 1
  | .undershoot => 2

def LengthStop.code : LengthStop → Nat
  | .none => 0
  | .pending => 1
  | .done => 2
  | .skipped => 3

def Reference.code : Reference → Nat
  | .absolute => 0
  | .set => 1

def Reference.ofCode : Nat → Option Reference
  | 0 => some .absolute
  | 1 => some .set
  | _ => none

def SpliceSource.code : SpliceSource → Nat
  | .sensor => 0
  | .camera => 1
  | .both => 2

def SpliceSource.ofCode : Nat → Option SpliceSource
  | 0 => some .sensor
  | 1 => some .camera
  | 2 => some .both
  | _ => none

def PeakMode.code : PeakMode → Nat
  | .peak => 0
  | .current => 1

def PeakMode.ofCode : Nat → Option PeakMode
  | 0 => some .peak
  | 1 => some .current
  | _ => none

def Parity.code : Parity → Nat
  | .none => 0
  | .even => 1
  | .odd => 2

def Parity.ofCode : Nat → Option Parity
  | 0 => some .none
  | 1 => some .even
  | 2 => some .odd
  | _ => Option.none

def SnapCause.code : SnapCause → Nat
  | .none => 0
  | .command => 1
  | .setEnd => 2
  | .setChange => 3

/-- The status byte of a Reel Link reply (section 9.5, Codes). -/
inductive ReelStatus where
  | ok
  | empty
  | mismatch
  | unknown
  deriving DecidableEq, Repr

def ReelStatus.code : ReelStatus → Byte
  | .ok => 0
  | .empty => 1
  | .mismatch => 2
  | .unknown => 3

/-! ### Inspection Link messages (section 9.5) -/

def MessageKind.ofByte (b : Byte) : Option MessageKind :=
  if b = 0x21 then some .mapBegin
  else if b = 0x22 then some .mapRecord
  else if b = 0x23 then some .mapClose
  else if b = 0x11 then some .detection
  else if b = 0x12 then some .beacon
  else if b = 0x13 then some .spliceSighting
  else none

/-- Number of bytes after the kind byte. -/
def MessageKind.bodyLength : MessageKind → Nat
  | .mapBegin => 10
  | .mapRecord => 11
  | .mapClose => 2
  | .detection => 11
  | .beacon => 5
  | .spliceSighting => 4

/-- The message a kind and its whole body spell; none when the body has not its length. -/
def Message.ofBytes : MessageKind → List Byte → Option Message
  | .mapBegin, [i0, i1, i2, i3, e0, e1, e2, e3, d0, d1] =>
    some (.mapBegin (unsignedBytes [i0, i1, i2, i3]) (unsignedBytes [e0, e1, e2, e3]) (signedBytes16 d0 d1))
  | .mapRecord, [m0, m1, m2, m3, l0, l1, a0, a1, b0, b1, packed] =>
    some (.mapRecord (unsignedBytes [m0, m1, m2, m3]) (unsignedBytes [l0, l1]) (unsignedBytes [a0, a1])
      (unsignedBytes [b0, b1]) packed)
  | .mapClose, [n0, n1] => some (.mapClose (unsignedBytes [n0, n1]))
  | .detection, [c0, c1, c2, c3, l0, l1, a0, a1, b0, b1, packed] =>
    some (.detection (unsignedBytes [c0, c1, c2, c3]) (unsignedBytes [l0, l1]) (unsignedBytes [a0, a1])
      (unsignedBytes [b0, b1]) (classOf (packed.toNat / 4)) (severityOf packed.toNat))
  | .beacon, [n, c0, c1, c2, c3] => some (.beacon n.toNat (unsignedBytes [c0, c1, c2, c3]))
  | .spliceSighting, [s0, s1, s2, s3] => some (.spliceSighting (unsignedBytes [s0, s1, s2, s3]))
  | _, _ => none

/-- The kind in bits 7 to 5 of MAP RECORD's packed byte: 0 FLAG, 1 SPLICE, any other is BAD_FIELD. -/
def packedKind (packed : Byte) : Option ItemKind :=
  match packed.toNat / 32 with
  | 0 => some .flag
  | 1 => some .splice
  | _ => none

/-! ### Reel Link frames (R174) -/

/-- The 8-bit sum of bytes. -/
def byteSum : List Byte → Byte
  | [] => 0
  | b :: bs => b + byteSum bs

/-- A frame: lead byte, kind, length, body, and the check byte that makes the 8-bit sum 0. -/
def frameOf (kind : Byte) (body : List Byte) : List Byte :=
  let length : Byte := BitVec.ofNat 8 body.length
  [0xC3, kind, length] ++ body ++ [-(byteSum (kind :: length :: body))]

/-- The check of a received frame holds (R174). -/
def frameChecks (kind : Byte) (length : Nat) (body : List Byte) (check : Byte) : Bool :=
  byteSum (kind :: BitVec.ofNat 8 length :: body) + check == 0

/-- Number of ones among the data bits of a character. -/
def onesOf (b : Byte) : Nat :=
  (List.range 8).foldl (fun n i => n + flagBit (b.getLsbD i)) 0

/-- R173: the parity bit is wrong for the parity in force (its sense: log 42). Under NONE a character has no parity bit. -/
def parityWrong (parity : Parity) (b : Byte) (parityBit : Bool) : Bool :=
  match parity with
  | .none => false
  | .even => (onesOf b + flagBit parityBit) % 2 == 1
  | .odd => (onesOf b + flagBit parityBit) % 2 == 0

/-- R173: the level of the stop bit, which TXD also holds between frames (R175): high. -/
def stopLevel : Bool := true

/-- R173: the parity bit of a sent character, which brings the ones among data and parity to an even or an odd number;
there is none under NONE (log 42). -/
def parityBits (parity : Parity) (b : Byte) : List Bool :=
  match parity with
  | .none => []
  | .even => [onesOf b % 2 == 1]
  | .odd => [onesOf b % 2 == 0]

/-- R173: the levels of a character on the line, in their order: a start bit, the 8 data bits from the least significant,
the parity bit if there is one, a stop bit. The start bit is at the level opposite to the stop level (log 42). -/
def characterBits (parity : Parity) (b : Byte) : List Bool :=
  (!stopLevel) :: ((List.range 8).map (fun i => b.getLsbD i) ++ parityBits parity b ++ [stopLevel])

end Sys2Proof.Machine
end

