-- ==== Sys2Proof/Machine/Flags.lean ====
section
/-! DEFINITION. The Tally and Event Unit: counts, events, LIRQ (chapter 08). -/

namespace Sys2Proof.Machine

/-- The 22 events (section 8.3). -/
inductive Event where
  | stopDone
  | stopShort
  | laneGrade
  | queueRoom
  | registerFull
  | lateFlag
  | spliceMatched
  | spliceMissed
  | spliceUnexpected
  | anchorRejected
  | offsetJump
  | encoderFault
  | overspeed
  | positionLimit
  | linkDrop
  | mapTruncated
  | shiftClamped
  | cmp1
  | cmp2
  | cmp3
  | tallySat
  | reelLinkError
  deriving DecidableEq, Repr

/-- The place of an event: in EVENT A below 16, in EVENT B from 16 on (section 9.5). -/
def Event.place : Event → Nat
  | .stopDone => 0
  | .stopShort => 1
  | .laneGrade => 2
  | .queueRoom => 3
  | .registerFull => 4
  | .lateFlag => 5
  | .spliceMatched => 6
  | .spliceMissed => 7
  | .spliceUnexpected => 8
  | .anchorRejected => 9
  | .offsetJump => 10
  | .encoderFault => 11
  | .overspeed => 12
  | .positionLimit => 13
  | .linkDrop => 14
  | .mapTruncated => 15
  | .shiftClamped => 16
  | .cmp1 => 17
  | .cmp2 => 18
  | .cmp3 => 19
  | .tallySat => 20
  | .reelLinkError => 21

/-- The places of EVENT B and ENABLE B that hold an event (section 9.5). -/
def eventPlacesB : Word := 0x003F

/-- The flag of an event. -/
def Events.flag (ev : Events) (e : Event) : Bool :=
  if e.place < 16 then ev.flagsA.getLsbD e.place else ev.flagsB.getLsbD (e.place - 16)

/-- The enable of an event. -/
def Events.enable (ev : Events) (e : Event) : Bool :=
  if e.place < 16 then ev.enableA.getLsbD e.place else ev.enableB.getLsbD (e.place - 16)

/-- R154: a cause sets the flag. -/
def Events.raise (ev : Events) (e : Event) : Events :=
  if e.place < 16 then { ev with flagsA := ev.flagsA ||| (1#16 <<< e.place) }
  else { ev with flagsB := ev.flagsB ||| (1#16 <<< (e.place - 16)) }

/-- R154: an event raised in the machine. -/
def raise (e : Event) (s : State) : State := s.setEvents (s.events.raise e)

/-- R156: LIRQ is asserted while an event has both its flag and its enable set. -/
def State.lirq (s : State) : Bool :=
  (s.events.flagsA &&& s.events.enableA) != 0 || (s.events.flagsB &&& s.events.enableB) != 0

/-- R155: a write to EVENT A or B clears each flag whose place holds 1. -/
def Events.clear (ev : Events) : Bank → Word → Events
  | .a, d => { ev with flagsA := ev.flagsA &&& ~~~d }
  | .b, d => { ev with flagsB := ev.flagsB &&& ~~~d }

/-- R156: a write to ENABLE A or B sets the enables; places that hold no event stay 0. -/
def Events.setEnables (ev : Events) : Bank → Word → Events
  | .a, d => { ev with enableA := d }
  | .b, d => { ev with enableB := d &&& eventPlacesB }

/-! ### Tallies -/

/-- The place of a total in the table of section 8.1. -/
def Total.place : Total → Nat
  | .placed => 0
  | .merged => 1
  | .lost => 2
  | .released => 3
  | .withdrawn => 4
  | .late => 5
  | .unwound => 6
  | .unassigned => 7
  | .stopsMade => 8
  | .shortStops => 9
  | .staleBeacons => 10
  | .linkDropped => 11
  | .shortMessages => 12
  | .encoderFaults => 13
  | .sightingsIgnored => 14
  | .framesDiscarded => 15

/-- The four tallies of a lane (section 8.1). -/
inductive LaneCount where
  | flags
  | splices
  | metres
  | reels
  deriving DecidableEq, Repr

def LaneTally.get (t : LaneTally) : LaneCount → Nat
  | .flags => t.flags
  | .splices => t.splices
  | .metres => t.metres
  | .reels => t.reels

def LaneTally.set (t : LaneTally) (c : LaneCount) (n : Nat) : LaneTally :=
  match c with
  | .flags => { t with flags := n }
  | .splices => { t with splices := n }
  | .metres => { t with metres := n }
  | .reels => { t with reels := n }

/-- A total of a bank. -/
def TallyBank.total (b : TallyBank) (t : Total) : Nat := b.totals.getD t.place 0

/-- The tallies of lane `lane`, 1 to 24. -/
def TallyBank.lane (b : TallyBank) (lane : Nat) : LaneTally :=
  b.lanes.getD (lane - 1) { flags := 0, splices := 0, metres := 0, reels := 0 }

/-- R148: a count of `n` that finds a tally at `x` brings it to 65,535 from below. -/
def countSaturates (n x : Nat) : Bool := x < countMax && countMax ≤ x + n

/-- The event of a count that saturates (R148). -/
def raiseIf (c : Bool) (e : Event) (s : State) : State := if c then raise e s else s

/-- R148: a count of `n` added to a total of the live bank. -/
def countTotal (t : Total) (n : Nat) (s : State) : State :=
  let old := s.tally.live.total t
  let live := { s.tally.live with totals := s.tally.live.totals.set t.place (saturate countMax n old) }
  raiseIf (countSaturates n old) .tallySat (s.setTally { s.tally with live := live })

/-- R148, R149: a count of `n` added to a tally of lane `lane` of the live bank. -/
def countLane (lane : Nat) (c : LaneCount) (n : Nat) (s : State) : State :=
  let t := s.tally.live.lane lane
  let lanes := s.tally.live.lanes.set (lane - 1) (t.set c (saturate countMax n (t.get c)))
  raiseIf (countSaturates n (t.get c)) .tallySat
    (s.setTally { s.tally with live := { s.tally.live with lanes := lanes } })

/-- R150: the live bank is copied into the snapshot bank and cleared, in one step. -/
def snapTallies (cause : SnapCause) (set : Option Nat) (s : State) : State :=
  s.setTally { s.tally with snap := s.tally.live, live := TallyBank.zero, snapCause := cause, snapSet := set }

end Sys2Proof.Machine
end

