-- ==== Sys2Proof/Machine/Ops.lean ====
section
/-! DEFINITION. Shared operations over the blocks: lines of the film path, the prediction, the plan and its lane sets,
the comparators, the DIQ, and the requests that wait at the Track List arbiter. -/

namespace Sys2Proof.Machine

/-! ### The film path (00_scope.md, "Line position and web coordinate") -/

/-- The web coordinate now under the knives. -/
def State.knifeLine (s : State) : Int := s.pos.p - s.pos.offKnife

/-- The web coordinate now at the nip. -/
def State.commitLine (s : State) : Int := s.pos.p - s.pos.offNip

/-- A roll is mounted (R12). -/
def State.mounted (s : State) : Bool := s.pos.roll == .mounted

/-- The open set's length (00_scope.md; R15), while a set is open. -/
def State.setLength (s : State) : Option Int := s.reels.openSet.map fun o => s.commitLine - o.wStart

/-- Setting RESULT (R164). -/
def setResult (r : ResultCode) (s : State) : State := s.setPort { s.port with result := r }

/-- Setting the last result code of the DIQ (R75). -/
def setLastResult (r : ResultCode) (s : State) : State := s.setDiq { s.diq with lastResult := r }

/-! ### Prediction (R58) -/

/-- First row of R58: past the newest anchor. -/
def predictPast (a : Anchor) (dLast m : Int) : Int :=
  a.w + roundDiv ((a.m - m) * 10 * (1000000 + dLast)) 1000000

/-- Second row of R58: in exact proportion between a newer anchor `a` and the next older one `b`. -/
def predictBetween (a b : Anchor) (m : Int) : Int :=
  b.w + roundDiv ((b.m - m) * (a.w - b.w)) (b.m - a.m)

/-- Second and third rows of R58 over a table of two anchors or more, newest first. -/
def predictAmong : List Anchor → Int → Int
  | [], _ => 0
  | [_], _ => 0
  | [a, b], m => predictBetween a b m
  | a :: b :: c :: rest, m => if m < b.m then predictBetween a b m else predictAmong (b :: c :: rest) m

/-- R58: the predicted w of press coordinate `m`. -/
def predictFrom : List Anchor → Int → Int → Int
  | [], _, _ => 0
  | [a], dLast, m => predictPast a dLast m
  | a :: b :: rest, dLast, m => if m < a.m then predictPast a dLast m else predictAmong (a :: b :: rest) m

/-- R58 with the Anchor Table and d_last as they stand. -/
def State.predict (s : State) (m : Int) : Int := predictFrom s.align.anchors s.align.dLast m

/-! ### Slit Plan (chapter 05) -/

/-- The lane numbers 1 to 24. -/
def laneNumbers : List Nat := List.range' 1 24

/-- The record of lane `n`, 1 to 24. -/
def SlitPlan.lane (plan : SlitPlan) (n : Nat) : LaneRecord := plan.lanes.getD (n - 1) LaneRecord.cold

/-- "Every lane of the plan" (section 5.1): the numbers of the USED records, ascending. -/
def SlitPlan.usedLanes (plan : SlitPlan) : List Nat := laneNumbers.filter fun n => (plan.lane n).used

/-- A lane has a reel: WOUND or FORCED_REJECT. -/
def LaneRecord.hasReel (l : LaneRecord) : Bool := l.disposition != .trim

/-- The lanes of the plan that have reels, ascending (R93, R110). -/
def SlitPlan.reelLanes (plan : SlitPlan) : List Nat := plan.usedLanes.filter fun n => (plan.lane n).hasReel

/-- The reel count of the plan (R93). -/
def SlitPlan.reelCount (plan : SlitPlan) : Nat := plan.reelLanes.length

/-- The last machine position of a lane. -/
def LaneRecord.right (l : LaneRecord) : Int := l.left + l.width - 1

/-- Test 4 of R91: shaft NONE exactly for a TRIM lane. -/
def LaneRecord.shaftFits (l : LaneRecord) : Bool :=
  match l.disposition with
  | .trim => l.shaft == .none
  | .wound => l.shaft != .none
  | .forcedReject => l.shaft != .none

/-- R91: the plan check, first failing test first. -/
def SlitPlan.status (plan : SlitPlan) : PlanStatus :=
  let used := plan.usedLanes
  let n := used.length
  if used = [] then .noLanes
  else if used != List.range' 1 n then .laneGap
  else if used.any fun l => 65535 < (plan.lane l).right then .laneEdge
  else if used.any fun l => !(plan.lane l).shaftFits then .shaftMismatch
  else if used.any fun l => l < n && (plan.lane (l + 1)).left < (plan.lane l).left + (plan.lane l).width then .laneOrder
  else if plan.reelLanes = [] then .noReel
  else .valid

/-- R98: the USED lanes that share at least one pu with the machine extent. -/
def SlitPlan.laneSet (plan : SlitPlan) (x0 x1 : Int) : List Nat :=
  plan.usedLanes.filter fun n =>
    x0 + plan.webShift ≤ (plan.lane n).right && (plan.lane n).left ≤ x1 + plan.webShift

/-- R98, R99: the lane set a knife passage gives an item. -/
def SlitPlan.lanesOf (plan : SlitPlan) (kind : ItemKind) (x0 x1 : Int) : List Nat :=
  match kind with
  | .flag => plan.laneSet x0 x1
  | .splice => plan.usedLanes

/-- R95: WEB_SHIFT stores the value clamped to SHIFT_LIMIT, and a clamp raises SHIFT_CLAMPED. -/
def storeWebShift (x : Int) (s : State) : State :=
  let y := clampInt (-s.plan.shiftLimit) s.plan.shiftLimit x
  raiseIf (y != x) .shiftClamped (s.setPlan { s.plan with webShift := y })

/-! ### Position Comparators (sections 1.6, 1.7) -/

def Comparators.get (c : Comparators) : Fin 4 → Channel
  | 0 => c.ch0
  | 1 => c.ch1
  | 2 => c.ch2
  | 3 => c.ch3

def Comparators.put (c : Comparators) (x : Channel) : Fin 4 → Comparators
  | 0 => { c with ch0 := x }
  | 1 => { c with ch1 := x }
  | 2 => { c with ch2 := x }
  | 3 => { c with ch3 := x }

/-- R15: a running channel with a match point other than 0 matches at a rise to or past it. -/
def Channel.matches (ch : Channel) (r : Int) : Bool := ch.run && ch.matchPoint != 0 && ch.matchPoint ≤ r

/-- R16, R17: what a match with reference value `r` makes of a channel whose reload is `reload`. With a reload, `n`
advances would bring the match point above `r`; only those that stay at or below 4,294,967,295 are made. -/
def Channel.fire (ch : Channel) (reload r : Int) : Channel :=
  let n := (r - ch.matchPoint) / reload + 1
  let room := (posMax - ch.matchPoint) / reload
  let pulsed := { ch with out := true, outTicked := false }
  if reload = 0 then { pulsed with run := false }
  else if n ≤ room then
    { pulsed with
      matchPoint := ch.matchPoint + n * reload
      skipped := saturate countMax (n - 1).toNat ch.skipped }
  else
    { pulsed with
      run := false
      matchPoint := ch.matchPoint + room * reload
      skipped := saturate countMax (room - 1).toNat ch.skipped }

/-- The reference value of a channel (R15); none for a SET channel while no set is open. -/
def State.referenceOf (s : State) (ch : Channel) : Option Int :=
  match ch.reference with
  | .absolute => some s.pos.p
  | .set => s.setLength

/-- R15, R16: channel `i` of 1 to 3 tested at a rise, with its event. -/
def testChannel (i : Fin 4) (e : Event) (s : State) : State :=
  let ch := s.comps.get i
  match s.referenceOf ch with
  | none => s
  | some r =>
    if ch.matches r then raise e (s.setComps (s.comps.put (ch.fire ch.reload r) i)) else s

/-- R20: channel 0 tested at a rise of P; a match is a strobe. -/
def testStrobe (s : State) : State :=
  let ch := s.comps.ch0
  if ch.matches s.pos.p then
    let n := (s.comps.strobeSeq + 1) % 256
    let s := s.setComps { s.comps with ch0 := ch.fire s.tracker.strobePitch s.pos.p, strobeSeq := n }
    s.setTracker { s.tracker with history := (⟨n, s.pos.p⟩ :: s.tracker.history).take 4 }
  else s

/-- R15: every channel tested at a rise of P. -/
def testComparators (s : State) : State :=
  testChannel 3 .cmp3 (testChannel 2 .cmp2 (testChannel 1 .cmp1 (testStrobe s)))

/-- R18: the base value becomes the match point and the skipped-match count 0. -/
def Channel.preset (ch : Channel) : Channel := { ch with matchPoint := ch.base, skipped := 0 }

/-- R19: the preset of a running SET channel at the opening of a set. -/
def Channel.presetForSet (ch : Channel) : Channel :=
  if ch.reference = .set ∧ ch.run = true then ch.preset else ch

/-- R19: channels 1 to 3 at the opening of a set. -/
def presetSetChannels (s : State) : State :=
  s.setComps { s.comps with
    ch1 := s.comps.ch1.presetForSet
    ch2 := s.comps.ch2.presetForSet
    ch3 := s.comps.ch3.presetForSet }

/-! ### Press Map (section 3.2) -/

/-- The record with a map index. -/
def State.mapRecord (s : State) (i : Nat) : Option MapRecord := s.pmap.records[i]?

/-- R54: the release cursor, the place of the first UNRELEASED record. -/
def PressMap.cursor (m : PressMap) : Option Nat := m.records.findIdx? fun r => r.status == .unreleased

/-- Changing one record of the map. -/
def PressMap.modify (m : PressMap) (i : Nat) (f : MapRecord → MapRecord) : PressMap :=
  { m with records := m.records.modify i f }

/-- R44, R53: a status report on the record of an entry, when the entry is map-sourced. -/
def setStatus (index : Option Nat) (st : RecordStatus) (s : State) : State :=
  match index with
  | none => s
  | some i => s.setPmap (s.pmap.modify i fun r => { r with status := st })

/-- R52, R56: the map with its header and records discarded; HORIZON and MAP_X_OFFSET stay. -/
def PressMap.emptied (m : PressMap) : PressMap :=
  { m with state := .empty, id := none, mEnd := 0, d0 := 0, records := [], truncated := false }

/-! ### Detection Input Queue (section 4.1) -/

/-- R73: a resume ends a hold; without a hold it changes nothing. -/
def signalResume (s : State) : State :=
  if s.link.holding then s.setLink { s.link with holding := false, holdTicks := 0 } else s

/-- R73, R74: the head leaves the DIQ, and a fall of the fill to RESUME or below signals resume. -/
def popMessage (s : State) : State :=
  let s := s.setDiq { s.diq with messages := s.diq.messages.tail }
  if s.diq.messages.length ≤ s.diq.resume then signalResume s else s

/-- R75: a message discarded at the head, with its result. -/
def discardMessage (r : ResultCode) (s : State) : State :=
  setLastResult r (countTotal .linkDropped 1 (popMessage s))

/-! ### Offset Tracker (section 4.3) -/

/-- R82: OFFSET_VALID cleared, and with it o, the peak and the latest sample. -/
def OffsetTracker.invalidated (t : OffsetTracker) : OffsetTracker :=
  { t with o := 0, valid := false, latest := none, peak := 0 }

/-- The o that a conversion uses: 0 while OFFSET_VALID is clear (R84, R85). -/
def OffsetTracker.used (t : OffsetTracker) : Int := if t.valid then t.o else 0

/-! ### The Track List arbiter (R26, R27): which requests wait -/

/-- R40: an entry is due for knife passage or for commit. -/
def State.due (s : State) (e : Entry) : Bool :=
  match e.passage with
  | .ahead => e.w + s.pos.offKnife ≤ s.pos.p
  | .slit _ _ => e.w + s.pos.offNip ≤ s.pos.p

/-- R40: the first due entry in list order. -/
def State.firstDue (s : State) : Option Entry := s.track.entries.find? s.due

/-- Class 1: while any entry is due. -/
def State.classOne (s : State) : Bool := s.track.entries.any s.due

/-- Class 3: a DETECTION at the head of the DIQ that passes the tests of R75. -/
def State.classThree (s : State) : Bool :=
  match s.diq.messages with
  | .detection _ _ x0 x1 _ _ :: _ => s.mounted && x0 ≤ x1
  | _ => false

/-- R54: the record at the cursor qualifies for release. -/
def State.cursorQualifies (s : State) : Bool :=
  match s.pmap.cursor with
  | none => false
  | some i =>
    match s.mapRecord i with
    | none => false
    | some r => s.mounted && s.predict r.m ≤ s.pos.p + s.pmap.horizon && s.predict r.m ≤ posMax

/-- Class 4: the record at the cursor qualifies and the request is not withheld (R54). -/
def State.classFour (s : State) : Bool := s.cursorQualifies && !s.pmap.withheld

/-- Class 5: a Line Port access waits for the Track List (R28). -/
def State.classFive (s : State) : Bool := s.port.access.isSome

/-- R67: walk steps are due: the write queue is empty and an entry carries PENDING_REPLACE. -/
def State.walkDue (s : State) : Bool :=
  s.align.queue.isEmpty && s.track.entries.any fun e => e.pendingReplace

/-- R67: a request that was waiting when the latest walk step completed waits still (log 5). -/
def State.yielding (s : State) : Bool :=
  (s.align.yields.detection && s.classThree) || (s.align.yields.release && s.classFour) ||
  (s.align.yields.access && s.classFive)

/-- R67: a walk step is requested: due, and not behind a request of class 3, 4 or 5. -/
def State.walkRequested (s : State) : Bool := s.walkDue && !s.yielding

/-- Class 2: the head of the write queue, or a walk step. -/
def State.classTwo (s : State) : Bool := !s.align.queue.isEmpty || s.walkRequested

/-- R26: a class 2 request is the highest waiting. -/
def State.grantsTwo (s : State) : Bool := !s.classOne

/-- R26: a class 3 request is the highest waiting. -/
def State.grantsThree (s : State) : Bool := !s.classOne && !s.classTwo

/-- R26: a class 4 request is the highest waiting. -/
def State.grantsFour (s : State) : Bool := !s.classOne && !s.classTwo && !s.classThree

/-- R26: a class 5 request is the highest waiting. -/
def State.grantsFive (s : State) : Bool := !s.classOne && !s.classTwo && !s.classThree && !s.classFour

def setYields (y : Yields) (s : State) : State := s.setAlign { s.align with yields := y }

/-- R67: a walk step has completed; the next is requested after the requests of class 3, 4 and 5 that now wait. -/
def settleYields (s : State) : State := setYields ⟨s.classThree, s.classFour, s.classFive⟩ s

/-- R67: the class 3 request is granted. -/
def grantDetection (s : State) : State := setYields { s.align.yields with detection := false } s

/-- R67: the class 4 request is granted. -/
def grantRelease (s : State) : State := setYields { s.align.yields with release := false } s

/-- R67: the class 5 request is granted. -/
def grantAccess (s : State) : State := setYields { s.align.yields with access := false } s

/-- R67, log 5: a class 4 request that has gone without a grant no longer stands ahead of the next walk step. -/
def lapseRelease (s : State) : State :=
  setYields { s.align.yields with release := s.align.yields.release && s.classFour } s

/-- R69: "walk in progress". -/
def State.walking (s : State) : Bool :=
  (s.align.queue.any fun w => match w with
    | .marking _ => true
    | .confirmation _ _ => false
    | .liveSplice _ _ _ => false) ||
  s.track.entries.any fun e => e.pendingReplace

/-! ### Conditions of STATUS (R158) -/

/-- R25. -/
def State.registerFull (s : State) : Bool := 1024 ≤ s.track.entries.length

/-- Free slots of the Completed Reel Queue (R121). -/
def State.freeSlots (s : State) : Nat := 64 - s.queue.records.length

/-- R124: queue room for a set. -/
def State.queueRoom (s : State) : Bool := s.plan.reelCount ≤ s.freeSlots

end Sys2Proof.Machine
end

