-- ==== Sys2Proof/Machine/ReelOps.lean ====
section
/-! DEFINITION. Shared operations of the Reel Table and the Completed Reel Queue: creation, delivery, flag lists,
grading, opening and closing a set (chapter 06). -/

namespace Sys2Proof.Machine

/-! ### Flag lists (R115, R116) -/

/-- R115: an item inserted after every listed item of equal or lower depth. -/
def insertFlag (it : FlagItem) : List FlagItem → List FlagItem
  | [] => [it]
  | x :: xs => if it.depth < x.depth then it :: x :: xs else x :: insertFlag it xs

/-- `b` is considered in place of `a`, which stands before it in the list: of lower severity, or of equal severity and
not shallower (R116). -/
def FlagItem.yieldsTo (a b : FlagItem) : Bool := b.sev < a.sev || (b.sev == a.sev && a.depth ≤ b.depth)

/-- R116: the listed item considered for removal, with its place: lowest severity, then deepest, then last in order. -/
def weakestFrom : Nat → List FlagItem → Option (Nat × FlagItem)
  | _, [] => none
  | i, x :: xs =>
    match weakestFrom (i + 1) xs with
    | none => some (i, x)
    | some (j, y) => if x.yieldsTo y then some (j, y) else some (i, x)

/-- R115, R116: an item offered to a flag list. -/
def offerFlag (it : FlagItem) (r : ReelRecord) : ReelRecord :=
  if r.flags.length < 20 then { r with flags := insertFlag it r.flags }
  else
    let r := { r with unlisted := saturate countMax 1 r.unlisted }
    match weakestFrom 0 r.flags with
    | none => r
    | some (i, x) => if x.sev < it.sev then { r with flags := insertFlag it (r.flags.eraseIdx i) } else r

/-! ### Grading (R118 to R120) -/

/-- The first class whose count exceeds its limit (R118, tests 2 and 4). -/
def firstOver (counts limits : List Nat) : Option (Fin 8) :=
  (List.finRange 8).find? fun c => limits.getD c.val 255 < counts.getD c.val 0

/-- R118: the computed grade and cause. -/
def computeGrade (g : Grading) (forced : Bool) (r : ReelRecord) : Grade × Cause :=
  if forced then (.reject, .forced)
  else match firstOver r.classCounts g.classReject with
  | some c => (.reject, .cls c)
  | none =>
    if g.spliceReject < r.spliceCount then (.reject, .splices)
    else match firstOver r.classCounts g.classDown with
    | some c => (.downgrade, .cls c)
    | none => if g.spliceDown < r.spliceCount then (.downgrade, .splices) else (.accept, .none)

/-- A computed grade is worse than the one held (R118). -/
def Grade.worse (computed held : Grade) : Bool := held.code < computed.code

/-- R118: the grade held after a recomputation. -/
def regrade (g : Grading) (forced : Bool) (r : ReelRecord) : ReelRecord :=
  let c := computeGrade g forced r
  if c.1.worse r.grade then { r with grade := c.1, cause := c.2 } else r

/-- R120: the final grading of a record whose length is fixed. -/
def gradeFinally (g : Grading) (forced : Bool) (r : ReelRecord) : ReelRecord :=
  let r := regrade g forced r
  if r.grade ≠ .reject ∧ 0 < g.minLength ∧ r.length < g.minLength * 1000 then
    { r with grade := .reject, cause := .shortLength }
  else r

/-- The lane of a record is FORCED_REJECT (R118, test 1). -/
def SlitPlan.forced (plan : SlitPlan) (lane : Nat) : Bool := (plan.lane lane).disposition == .forcedReject

/-! ### Delivery (R101, R102, R113, R114) -/

/-- Depth in mm of a web coordinate in a set (R42, R113). -/
def depthIn (wStart w : Int) : Int := (w - wStart) / 10

/-- R102: the position across the reel of a lane. -/
def acrossOf (l : LaneRecord) (machineX0 : Int) : Int := clampInt 0 (l.width - 1) (machineX0 - l.left)

/-- R113, steps 1 to 4: a flag item taken by a reel record. -/
def takeFlag (it : FlagItem) (r : ReelRecord) : ReelRecord :=
  offerFlag it
    { r with
      classCounts := r.classCounts.modify it.cls.val (saturate 255 1)
      committed := saturate countMax 1 r.committed }

/-- R119: a recomputation that made the grade of `lane` worse sets its indication and raises LANE_GRADE. -/
def indicateWorse (lane : Nat) (old new : Grade) (s : State) : State :=
  if new.worse old then
    raise .laneGrade
      (s.setReels { s.reels with indications := s.reels.indications ||| (1#24 <<< (lane - 1)) })
  else s

/-- The records of the open set put in place. -/
def setOpenReels (rs : List ReelRecord) (s : State) : State :=
  match s.reels.openSet with
  | none => s
  | some o => s.setReels { s.reels with openSet := some { o with reels := rs } }

/-- The records of the open set. -/
def State.openReels (s : State) : List ReelRecord :=
  match s.reels.openSet with
  | none => []
  | some o => o.reels

/-- A delivery to the records of the open set whose lanes are named, each regraded live (R113, R114, R118, R119). -/
def deliverTo (lanes : List Nat) (take : ReelRecord → ReelRecord) (s : State) : State :=
  let g := s.reels.grading
  let change := fun (r : ReelRecord) =>
    if lanes.contains r.lane then regrade g (s.plan.forced r.lane) (take r) else r
  let old := s.openReels
  let s := setOpenReels (old.map change) s
  old.foldl (fun s r => indicateWorse r.lane r.grade (change r).grade s) s

/-- The flag item of one lane (R102, R113). -/
def flagItemOf (e : Entry) (shift wStart : Int) (l : LaneRecord) : FlagItem where
  depth := depthIn wStart e.w
  across := acrossOf l (e.x0 + shift)
  cls := e.cls
  sev := e.sev
  source := e.source
  unsynced := e.unsynced

/-- R101: the lanes of a flag's lane set that are USED in the plan. -/
def SlitPlan.taken (plan : SlitPlan) (lanes : List Nat) : List Nat := lanes.filter fun n => (plan.lane n).used

/-- R101, R113: a flag delivered into the open set that began at `wStart`. -/
def deliverFlag (e : Entry) (lanes : List Nat) (shift wStart : Int) (s : State) : State :=
  let taken := s.plan.taken lanes
  if taken = [] then countTotal .unassigned 1 s
  else
    let s := taken.foldl (fun s n => countLane n .flags 1 s) s
    taken.foldl
      (fun s n =>
        if (s.plan.lane n).hasReel then
          deliverTo [n] (takeFlag (flagItemOf e shift wStart (s.plan.lane n))) s
        else s) s

/-- R101, R114: a splice delivered into the open set. -/
def deliverSplice (s : State) : State :=
  let s := s.plan.usedLanes.foldl (fun s n => countLane n .splices 1 s) s
  deliverTo (s.openReels.map fun r => r.lane)
    (fun r => { r with spliceCount := saturate 255 1 r.spliceCount }) s

/-! ### Opening and closing a set (R104 to R111) -/

/-- R110: the record of a lane at the opening of a set. -/
def newReel (number lane : Nat) (l : LaneRecord) (mapId : Option Nat) (wStart : Int) : ReelRecord where
  setNumber := number
  lane := lane
  shaft := l.shaft
  mapId := mapId
  wStart := wStart
  wEnd := none
  length := 0
  grade := if l.disposition = .forcedReject then .reject else .accept
  cause := if l.disposition = .forcedReject then .forced else .none
  classCounts := List.replicate 8 0
  spliceCount := 0
  committed := 0
  unlisted := 0
  flags := []

/-- R109: the map id a new record carries: that of a CLOSED map. -/
def PressMap.idForReels (m : PressMap) : Option Nat := if m.state = .closed then m.id else none

/-- The set number after `n`: 1 to 65,535, and then 1 again (R104). -/
def nextSetNumber (n : Nat) : Nat := if countMax ≤ n then 1 else n + 1

/-- R104, R110: a set opened with `wStart` and a length target in m, with its records. -/
def openSetAt (wStart : Int) (target : Nat) (s : State) : State :=
  let number := s.reels.nextSet
  let reels := s.plan.reelLanes.map fun n => newReel number n (s.plan.lane n) s.pmap.idForReels wStart
  s.setReels { s.reels with
    openSet := some
      { number := number
        wStart := wStart
        target := target
        lengthStop := if target = 0 then .none else .pending
        reels := reels }
    nextSet := nextSetNumber number }

/-- R111: the length in mm of a set from `wStart` to `wEnd`. -/
def lengthMm (wStart wEnd : Int) : Int := if wStart < wEnd then (wEnd - wStart) / 10 else 0

/-- R111, R120: a record closed at `wEnd` and graded finally. -/
def closeReel (g : Grading) (plan : SlitPlan) (wEnd : Int) (r : ReelRecord) : ReelRecord :=
  gradeFinally g (plan.forced r.lane) { r with wEnd := some wEnd, length := lengthMm r.wStart wEnd }

/-- R106, step 4: metres wound and reels completed of a closed record's lane. -/
def countReel (r : ReelRecord) (s : State) : State :=
  countLane r.lane .reels 1 (countLane r.lane .metres (r.length / 1000).toNat s)

/-- R106, steps 1 to 5, for the open set `o` at the commit line `line`: close, grade, queue, count, snap. -/
def closeRecords (o : OpenSet) (line : Int) (cause : SnapCause) (s : State) : State :=
  let closed := o.reels.map (closeReel s.reels.grading s.plan line)
  let s := s.setQueue { s.queue with records := s.queue.records ++ closed }
  let s := closed.foldl (fun s r => countReel r s) s
  if s.tally.autosnap then snapTallies cause (some o.number) s else s

/-- R106, step 6: the open set is closed; the number, the grading table and the indications stay. -/
def dropOpenSet (s : State) : State := s.setReels { s.reels with openSet := none }

/-- R106, R107: a refusal with QUEUE_FULL sets room wanted (R124). -/
def refuseQueueFull (s : State) : State :=
  setResult .queueFull (s.setQueue { s.queue with roomWanted := true })

end Sys2Proof.Machine
end

