-- ==== Sys2Proof/Machine/PlannerOps.lean ====
section
/-! DEFINITION. Shared operations of the Stop Planner: candidates, selection, evaluation and position test
(chapter 07). -/

namespace Sys2Proof.Machine

/-- The entry with an identity, while it is in the Track List. -/
def State.entryOf (s : State) (ident : Nat) : Option Entry := s.track.entries.find? fun e => e.ident == ident

/-! ### Stop points and the slow-down distance (R129, R130) -/

/-- R129: the stop point of an entry. -/
def State.entryPoint (s : State) (e : Entry) : Int := e.w + s.pos.offTable + s.planner.params.stopLead

/-- R129: the stop point of the length stop of a set. -/
def State.lengthPoint (s : State) (o : OpenSet) : Int := o.wStart + o.target * 10000 + s.pos.offNip

/-- The open set, when it has the number given. -/
def State.setNumbered (s : State) (n : Nat) : Option OpenSet :=
  match s.reels.openSet with
  | none => none
  | some o => if o.number = n then some o else none

/-- R129: the stop point of a target as it stands; none when its entry has left the list or its set has closed. -/
def State.targetPoint (s : State) : Target → Option Int
  | .none => none
  | .entry ident _ => (s.entryOf ident).map s.entryPoint
  | .length n => (s.setNumbered n).map s.lengthPoint

/-- The number by which the free value of a departed target is asked for (log 25). -/
def Target.tag : Target → Nat
  | .none => 0
  | .entry ident _ => ident
  | .length n => n

/-- The stop point of the target held; the free value where the target has gone (log 25). -/
def State.heldPoint (s : State) : Int :=
  (s.targetPoint s.planner.target).getD (Config.departedStopPoint s.planner.target.tag)

/-- R130: the slow-down distance D. -/
def slowDown (v : Int) (q : StopParams) : Int :=
  if q.creepSpeed < v then
    ceilDiv (5 * (v * v - q.creepSpeed * q.creepSpeed)) q.decel + ceilDiv (v * q.reaction) 100 + q.margin
  else 0

/-- D with the speed of the latest sample and the parameters in force. -/
def State.slowDown (s : State) : Int := Machine.slowDown s.pos.v s.planner.params

/-- The remaining distance R of the target held (R129). -/
def State.remaining (s : State) : Int := s.heldPoint - s.pos.p

/-! ### Candidates and selection (R128, R133) -/

/-- The source mask of the stop filter (R127): FLAG sources only. -/
def StopParams.takesSource (q : StopParams) : Source → Bool
  | .map => q.sourceMask.getLsbD 0
  | .live => q.sourceMask.getLsbD 1
  | .merged => q.sourceMask.getLsbD 2
  | .sensor => false
  | .camera => false
  | .confirmed => false

/-- R128: the stop filter selects an entry. -/
def StopParams.selects (q : StopParams) (e : Entry) : Bool :=
  match e.kind with
  | .flag =>
    q.flagStop && q.classMask.getLsbD e.cls.val && decide (q.minSeverity ≤ e.sev.val) && q.takesSource e.source
  | .splice => q.spliceStop

/-- R128: an entry is a candidate, its stop point apart. -/
def State.isCandidate (s : State) (e : Entry) : Bool :=
  s.planner.params.selects e && !e.stopped && !e.skipped && s.planner.setAside != some e.ident

/-- R128: the length stop of a set is a candidate, its stop point apart. -/
def State.lengthCandidate (s : State) (o : OpenSet) : Bool :=
  s.planner.params.lengthStop && decide (0 < o.target) && o.lengthStop == .pending

/-- R133: the candidates whose stop points lie above P, entries in list order and then the length stop. -/
def State.candidates (s : State) : List (Target × Int) :=
  let entries := (s.track.entries.filter fun e => s.isCandidate e && s.pos.p < s.entryPoint e).map
    fun e => (Target.entry e.ident e.kind, s.entryPoint e)
  let length := match s.reels.openSet with
    | none => []
    | some o => if s.lengthCandidate o && s.pos.p < s.lengthPoint o then [(Target.length o.number, s.lengthPoint o)] else []
  entries ++ length

/-- The first of the lowest stop points. -/
def firstLowest : List (Target × Int) → Option (Target × Int)
  | [] => none
  | c :: cs =>
    match firstLowest cs with
    | none => some c
    | some d => if d.2 < c.2 then some d else some c

/-- R133: the selection. -/
def State.select (s : State) : Option (Target × Int) := firstLowest s.candidates

/-- R139: the target held no longer qualifies for a reason other than its stop point. -/
def State.targetLost (s : State) : Bool :=
  match s.planner.target with
  | .none => true
  | .entry ident _ =>
    match s.entryOf ident with
    | none => true
    | some e => !s.isCandidate e
  | .length n =>
    match s.setNumbered n with
    | none => true
    | some o => !s.lengthCandidate o

/-! ### State tests (R134 to R137) -/

/-- R134, R147: the planner at IDLE with no target and the marks cleared. -/
def StopPlanner.idled (pl : StopPlanner) : StopPlanner :=
  { pl with state := .idle, target := .none, notedSeq := none, short := false, retargeted := false }

/-- The seq of a target that is an entry in the list (R141). -/
def State.seqOf (s : State) : Target → Option Nat
  | .none => none
  | .entry ident _ => (s.entryOf ident).map fun e => e.seq
  | .length _ => none

/-- R131, R141, R9: entry to HALTING: HALT asserted, the target point fixed, kind and seq noted, the settle count 0. -/
def enterHalting (short : Bool) (s : State) : State :=
  let pl := { s.planner with
    state := .halting
    targetPoint := s.heldPoint
    notedSeq := s.seqOf s.planner.target
    short := short }
  (s.setPlanner pl).setPos { s.pos with settle := 0 }

/-- R136. -/
def testCreeping (s : State) : State :=
  if s.remaining ≤ s.planner.params.haltDist then enterHalting (s.planner.short || decide (s.remaining < 0)) s else s

/-- R135. -/
def testSlowing (s : State) : State :=
  if s.pos.v ≤ s.planner.params.creepSpeed then testCreeping (s.setPlanner { s.planner with state := .creeping })
  else if s.remaining < 0 then enterHalting true s
  else if s.remaining ≤ s.planner.params.haltDist then enterHalting true s
  else s

/-- R134, the test of ARMED. -/
def testArmed (s : State) : State :=
  if s.remaining ≤ s.slowDown ∨ s.remaining ≤ s.planner.params.haltDist then
    testSlowing (s.setPlanner { s.planner with state := .slowing })
  else s

/-- R134: a target taken in IDLE or ARMED, SHORT set when its remaining distance is below D. -/
def armWith (c : Target × Int) (s : State) : State :=
  s.setPlanner { s.planner with
    state := .armed
    target := c.1
    short := decide (c.2 - s.pos.p < s.slowDown)
    retargeted := false }

/-- R138, R139: the target held in SLOWING or CREEPING after the selection; none where the planner has left for IDLE or
ARMED, so that no test of SLOWING or CREEPING follows. -/
def retarget (s : State) : State × Bool :=
  if s.targetLost then
    match s.select with
    | none => (s.setPlanner s.planner.idled, false)
    | some c =>
      let r := c.2 - s.pos.p
      if s.slowDown < r ∧ s.planner.params.haltDist < r then
        (s.setPlanner { s.planner with state := .armed, target := c.1, short := false, retargeted := false }, false)
      else (s.setPlanner { s.planner with target := c.1, retargeted := true }, true)
  else
    match s.select with
    | none => (s, true)
    | some c =>
      if c.2 < s.heldPoint then (s.setPlanner { s.planner with target := c.1, retargeted := true }, true) else (s, true)

/-- R132 to R142: an evaluation, but for HALTING's test, which only a speed sample makes (R137). -/
def evaluate (s : State) : State :=
  if s.pos.v < 0 then s
  else match s.planner.state with
  | .idle =>
    match s.select with
    | none => s
    | some c => testArmed (armWith c s)
  | .armed =>
    match s.select with
    | none => s.setPlanner s.planner.idled
    | some c => if c.1 = s.planner.target then testArmed s else testArmed (armWith c s)
  | .slowing =>
    let r := retarget s
    if r.2 then testSlowing r.1 else r.1
  | .creeping =>
    let r := retarget s
    if r.2 then testCreeping r.1 else r.1
  | .halting => s
  | .stopped => s

/-- R132, R142: the position test at a change of P. -/
def positionTest (s : State) : State :=
  if s.pos.v < 0 then s
  else match s.planner.state with
  | .idle => s
  | .armed => testArmed s
  | .slowing => testSlowing s
  | .creeping => testCreeping s
  | .halting => s
  | .stopped => s

/-! ### The Stop Record (R143) -/

/-- The kind of a target, as STOP_STATE and the Stop Record show it. -/
def Target.kind : Target → TargetKind
  | .none => .none
  | .entry _ .flag => .flag
  | .entry _ .splice => .splice
  | .length _ => .length

/-- R143: the outcome of an error. -/
def outcomeOf (e tolerance : Int) : StopOutcome :=
  if tolerance < e then .overshoot else if e < -tolerance then .undershoot else .onTarget

/-- R143: the record of the stop in progress, with P as it stands. -/
def stopRecordOf (s : State) : StopRecord where
  kind := s.planner.target.kind
  seq := s.planner.notedSeq
  setNumber := match s.planner.target with
    | .none => none
    | .entry _ _ => none
    | .length n => some n
  targetP := s.planner.targetPoint
  finalP := s.pos.p
  e := s.pos.p - s.planner.targetPoint
  outcome := outcomeOf (s.pos.p - s.planner.targetPoint) s.planner.params.tolerance
  short := s.planner.short
  retargeted := s.planner.retargeted

/-- R137, R143: the move to STOPPED, with its record, events and counts. -/
def enterStopped (s : State) : State :=
  let s := s.setPlanner { s.planner with state := .stopped, record := stopRecordOf s }
  let s := countTotal .stopsMade 1 (raise .stopDone s)
  if s.planner.short then countTotal .shortStops 1 (raise .stopShort s) else s

/-- R132, R137: the evaluation a speed sample makes. -/
def evaluateAtSample (s : State) : State :=
  if s.pos.v < 0 then s
  else match s.planner.state with
  | .halting => if s.planner.params.settle ≤ s.pos.settle then enterStopped s else s
  | .idle => evaluate s
  | .armed => evaluate s
  | .slowing => evaluate s
  | .creeping => evaluate s
  | .stopped => s

/-! ### Outputs (R131) -/

/-- SLOW is driven from the planner's state. -/
def State.slow (s : State) : Bool :=
  match s.planner.state with
  | .idle => false
  | .armed => false
  | .slowing => true
  | .creeping => true
  | .halting => true
  | .stopped => true

/-- HALT is driven from the planner's state. -/
def State.halt (s : State) : Bool :=
  match s.planner.state with
  | .idle => false
  | .armed => false
  | .slowing => false
  | .creeping => false
  | .halting => true
  | .stopped => true

/-- R131: the live error, from the fixed target point from HALTING on, clipped; 0 in IDLE. -/
def State.stopError (s : State) : Int :=
  match s.planner.state with
  | .idle => 0
  | .armed => clampInt (-32767) 32767 (s.pos.p - s.heldPoint)
  | .slowing => clampInt (-32767) 32767 (s.pos.p - s.heldPoint)
  | .creeping => clampInt (-32767) 32767 (s.pos.p - s.heldPoint)
  | .halting => clampInt (-32767) 32767 (s.pos.p - s.planner.targetPoint)
  | .stopped => clampInt (-32767) 32767 (s.pos.p - s.planner.targetPoint)

/-! ### Release and cancel (R144, R145) -/

/-- R144, step 1: outputs negated, IDLE, no target, marks cleared; an entry target is set aside (step 2). -/
def endStop (s : State) : State :=
  let aside := match s.planner.target with
    | .none => none
    | .entry ident _ => some ident
    | .length _ => none
  s.setPlanner { s.planner.idled with setAside := aside }

/-- R144, step 3: the length-stop state of the open set, when it is the set of the target. -/
def setLengthStop (n : Nat) (st : LengthStop) (s : State) : State :=
  match s.setNumbered n with
  | none => s
  | some o => s.setReels { s.reels with openSet := some { o with lengthStop := st } }

/-- R144, steps 2 and 4: the mark written into the entry set aside, the set-aside cleared, an evaluation made. -/
def writeMark (mark : Entry → Entry) (s : State) : State :=
  let entries := match s.planner.setAside with
    | none => s.track.entries
    | some ident => s.track.entries.map fun e => if e.ident = ident then mark e else e
  evaluate ((s.setTrack { s.track with entries := entries }).setPlanner { s.planner with setAside := none })

end Sys2Proof.Machine
end

