-- ==== Sys2Proof/Machine/TrackOps.lean ====
section
/-! DEFINITION. Shared operations of the Track List: order, placement, late items, merging, knife passage, commit,
re-placement, withdrawal, and what an operation hands on when it completes (chapter 02). -/

namespace Sys2Proof.Machine

/-! ### List order (R24) -/

/-- R24: an entry inserted after every entry of equal or lower w. -/
def insertEntry (e : Entry) : List Entry → List Entry
  | [] => [e]
  | x :: xs => if e.w < x.w then e :: x :: xs else x :: insertEntry e xs

/-- The list without the entry of an identity. -/
def removeEntry (ident : Nat) (l : List Entry) : List Entry := l.filter fun e => e.ident != ident

def setEntries (l : List Entry) (s : State) : State := s.setTrack { s.track with entries := l }

/-- An entry put into the list (R24). -/
def putEntry (e : Entry) (s : State) : State := setEntries (insertEntry e s.track.entries) s

/-- An entry taken out of the list. -/
def takeEntry (e : Entry) (s : State) : State := setEntries (removeEntry e.ident s.track.entries) s

/-! ### Items and entries (R22) -/

/-- A new item, with its fields filled (section 2.3). -/
structure Item where
  kind : ItemKind
  source : Source
  w : Int
  len : Int
  x0 : Int
  x1 : Int
  cls : Fin 8
  sev : Fin 4
  mapIndex : Option Nat
  unsynced : Bool
  deriving DecidableEq, Repr

/-- R22: the entry an item makes, with the present seq and a new identity, AHEAD and without further marks. -/
def entryOfItem (it : Item) (s : State) : Entry where
  ident := s.track.nextIdent
  seq := s.track.seq
  kind := it.kind
  source := it.source
  w := it.w
  len := it.len
  x0 := it.x0
  x1 := it.x1
  cls := it.cls
  sev := it.sev
  mapIndex := it.mapIndex
  passage := .ahead
  unsynced := it.unsynced
  stopped := false
  skipped := false
  pendingReplace := false

/-- R22: an entry has been made: the seq counter advances, from 65,535 back to 0, and the identity is used up. -/
def entryMade (s : State) : State :=
  s.setTrack { s.track with seq := (s.track.seq + 1) % 65536, nextIdent := s.track.nextIdent + 1 }

/-! ### Knife passage, commit and late items (R31 to R33, R41 to R44) -/

/-- R41, R98, R99: knife passage of an AHEAD entry with the plan and the WEB_SHIFT as they stand; a SLIT entry keeps its
lane set (R100). -/
def passKnife (s : State) (e : Entry) : Entry :=
  match e.passage with
  | .ahead => { e with passage := .slit (s.plan.lanesOf e.kind e.x0 e.x1) s.plan.webShift }
  | .slit _ _ => e

/-- The lane set an entry carries; none while AHEAD. -/
def Entry.lanes (e : Entry) : List Nat :=
  match e.passage with
  | .ahead => []
  | .slit lanes _ => lanes

/-- The knife shift an entry carries; 0 while AHEAD. -/
def Entry.knifeShift (e : Entry) : Int :=
  match e.passage with
  | .ahead => 0
  | .slit _ shift => shift

/-- R42: an entry delivered into the open set that began at `wStart`. -/
def deliverEntry (e : Entry) (wStart : Int) (s : State) : State :=
  match e.kind with
  | .flag => deliverFlag e e.lanes e.knifeShift wStart s
  | .splice => deliverSplice s

/-- R42 to R44: the commit of an entry that has left the list: delivered, or counted as unwound. -/
def commitEntry (e : Entry) (s : State) : State :=
  let s := match s.reels.openSet with
    | none => countTotal .unwound 1 s
    | some o => if o.wStart ≤ e.w then deliverEntry e o.wStart s else countTotal .unwound 1 s
  setStatus e.mapIndex .retired s

/-- R33: the Late Record of an item. -/
def lateRecordOf (kind : ItemKind) (w : Int) (cls : Fin 8) : LateRecord where
  kind := some kind
  w := if w < -2147483648 then -2147483648 else w
  cls := match kind with
    | .flag => cls
    | .splice => 0

/-- R32: a late item is counted, raises LATE_FLAG, overwrites the Late Record and retires its map record (R44). -/
def lateItem (kind : ItemKind) (w : Int) (cls : Fin 8) (mapIndex : Option Nat) (s : State) : State :=
  let s := raise .lateFlag (countTotal .late 1 s)
  setStatus mapIndex .retired (s.setTrack { s.track with late := lateRecordOf kind w cls })

/-- R30, R31: a set is open and began at or before `w`. -/
def State.openFor (s : State) (w : Int) : Bool :=
  match s.reels.openSet with
  | none => false
  | some o => o.wStart ≤ w

/-! ### Entries that have been given a new w (R35, R45, R46) -/

/-- R45: an entry taken from the list and given a new w, tested there. R35 and R46 test a merged and a confirmed entry
alike. -/
def placeMoved (e : Entry) (s : State) : State :=
  if s.commitLine < e.w then
    if s.knifeLine < e.w then putEntry e s else putEntry (passKnife s e) s
  else if s.openFor e.w then commitEntry (passKnife s e) s
  else lateItem e.kind e.w e.cls e.mapIndex s

/-- R69: the prediction for an entry's map record; its own w for an entry without a record (log 31). -/
def State.predictionFor (s : State) (e : Entry) : Int :=
  match e.mapIndex with
  | none => e.w
  | some i =>
    match s.mapRecord i with
    | none => e.w
    | some r => s.predict r.m

/-- R45, R69: the re-placement step of an entry: the mark cleared, w set to the prediction, the entry moved and tested.
A prediction below 0 makes it late; one above 4,294,967,295 is held there. -/
def replaceEntry (e : Entry) (s : State) : State :=
  let w := s.predictionFor e
  let s := takeEntry e s
  if w < 0 then lateItem e.kind w e.cls e.mapIndex s
  else placeMoved { e with pendingReplace := false, w := min w posMax } s

/-! ### Placement (R30, R34 to R39) -/

/-- What a placement came to. -/
inductive Placed where
  | stored
  | committed
  | late
  | lost
  /-- R37: a map release held back by a full list. -/
  | heldBack
  deriving DecidableEq, Repr

/-- R38: an entry that can be withdrawn. -/
def Entry.withdrawable (e : Entry) : Bool := e.source == .map && e.passage == .ahead

/-- R38: the entry withdrawn: the highest w, and the last inserted of equal w. -/
def withdrawFrom : List Entry → Option Entry
  | [] => none
  | e :: es =>
    match withdrawFrom es with
    | some f => if e.withdrawable && f.w < e.w then some e else some f
    | none => if e.withdrawable then some e else none

/-- R38: an entry withdrawn, its record returned to UNRELEASED and counted. The cursor may now stand on it (log 5). -/
def withdraw (e : Entry) (s : State) : State :=
  lapseRelease (setStatus e.mapIndex .unreleased (countTotal .withdrawn 1 (takeEntry e s)))

/-- R22, R24, R30: an item stored as an entry, SLIT when it lies at or behind the knife line. -/
def storeItem (it : Item) (s : State) : State :=
  let e := entryOfItem it s
  let e := if s.knifeLine < it.w then e else passKnife s e
  entryMade (putEntry e s)

/-- An item comes from the map: a release (R37), and not a live item (R38). -/
def Item.fromMap (it : Item) : Bool := it.mapIndex.isSome

/-- R30 step 4, R37 to R39: an item to be stored, the list full or not. -/
def storeOrMakeRoom (it : Item) (s : State) : State × Placed :=
  if s.track.entries.length < 1024 then (storeItem it s, .stored)
  else if it.fromMap then (s, .heldBack)
  else match withdrawFrom s.track.entries with
  | some e => (storeItem it (withdraw e s), .stored)
  | none => (raise .registerFull (countTotal .lost 1 s), .lost)

/-- R30 step 3: an item placed by where its w lies. -/
def placeItem (it : Item) (s : State) : State × Placed :=
  if s.commitLine < it.w then storeOrMakeRoom it s
  else if s.openFor it.w then
    (commitEntry (passKnife s (entryOfItem it s)) (entryMade s), .committed)
  else (lateItem it.kind it.w it.cls it.mapIndex s, .late)

/-- R34: the entry a live flag merges into. -/
def mergeTarget (it : Item) (s : State) : Option Entry :=
  s.track.entries.find? fun e =>
    e.source == .map && e.kind == .flag && e.passage == .ahead &&
    absInt (it.w - e.w) ≤ s.track.mergeWindow &&
    (e.x0 ≤ it.x1 && it.x0 ≤ e.x1) && e.cls == it.cls

/-- R35: the entry after a merge. -/
def mergedEntry (e : Entry) (it : Item) : Entry :=
  { e with
    w := it.w
    x0 := min e.x0 it.x0
    x1 := max e.x1 it.x1
    sev := max e.sev it.sev
    len := max e.len it.len
    source := .merged
    unsynced := it.unsynced
    pendingReplace := false }

/-! ### Completion of an operation (R25, R29) -/

/-- R25, R54: an operation that found 1,024 entries or more and leaves fewer signals room to the Press Map. -/
def signalRoom (before : Nat) (s : State) : State :=
  if 1024 ≤ before ∧ s.track.entries.length < 1024 then s.setPmap { s.pmap with withheld := false } else s

/-- R29: an operation completes: room, and a hand-on to the Stop Planner when it made, removed, moved or merged an
entry. `before` is the state at the grant. -/
def completeOp (handOn : Bool) (before s : State) : State :=
  let s := signalRoom before.track.entries.length s
  if handOn then evaluate s else s

/-- R29: a placement made or removed an entry. -/
def Placed.handsOn : Placed → Bool
  | .stored => true
  | .committed => true
  | .late => false
  | .lost => false
  | .heldBack => false

end Sys2Proof.Machine
end

