-- ==== Sys2Proof/Machine/AlignOps.lean ====
section
/-! DEFINITION. Shared operations of the Alignment Unit: sightings, matching, anchors (sections 3.3, 3.4). -/

namespace Sys2Proof.Machine

/-- R59: d_new of an anchor `b` offered against the newest anchor `a`. -/
def newRatio (a b : Anchor) : Int := roundDiv ((b.w - a.w) * 1000000) ((a.m - b.m) * 10) - 1000000

/-- R59: an offered anchor is accepted. -/
def anchorAccepted (a b : Anchor) : Bool :=
  b.m < a.m && -50000 ≤ newRatio a b && newRatio a b ≤ 50000

/-- R62: a map record is a candidate that matches a sighting at `w`. -/
def State.matchesSighting (s : State) (w : Int) (r : MapRecord) : Bool :=
  r.kind == .splice && r.matchState == .unmatched && absInt (s.predict r.m - w) ≤ s.align.matchWindow

/-- R62, R84: the map index of the first candidate in map order that matches; an UNSYNCED sighting, or one whose w is
below 0 or above 4,294,967,295, matches none. -/
def State.matchFor (s : State) (w : Int) (unsynced : Bool) : Option Nat :=
  if unsynced || w < 0 || posMax < w then none else s.pmap.records.findIdx? (s.matchesSighting w)

/-- A write appended to the write queue (R67). -/
def appendWrite (x : AlignWrite) (s : State) : State := s.setAlign { s.align with queue := s.align.queue ++ [x] }

/-- R57: an anchor enters the table, and its ratio becomes d_last. A walk that begins here has no step behind it (R69). -/
def enterAnchor (a b : Anchor) (s : State) : State :=
  lapseRelease (s.setAlign { s.align with
    anchors := (b :: s.align.anchors).take 8
    dLast := newRatio a b
    yields := if s.walking then s.align.yields else Yields.none })

/-- R57, R63: an accepted anchor. -/
def acceptAnchor (i : Nat) (r : MapRecord) (a b : Anchor) (s : State) : State :=
  let s := enterAnchor a b s
  let s := s.setPmap (s.pmap.modify i fun r => { r with matchState := .matched })
  let s := raise .spliceMatched s
  let s := if r.status = .released then appendWrite (.confirmation i b.w) s else s
  appendWrite (.marking a.m) s

/-- R61 to R65: a sighting that has been taken, handled whole. -/
def takeSighting (w : Int) (source : SightingSource) (unsynced : Bool) (s : State) : State :=
  let guarded := match s.align.lastGuarded with
    | none => false
    | some last => absInt (w - last) ≤ s.align.spliceGuard
  if guarded then countTotal .sightingsIgnored 1 s
  else
    let s := s.setAlign { s.align with lastGuarded := some w }
    let place := appendWrite (.liveSplice w source unsynced)
    match s.matchFor w unsynced with
    | none => place (raise .spliceUnexpected s)
    | some i =>
      match s.mapRecord i, s.align.anchors with
      | some r, a :: _ =>
        if anchorAccepted a ⟨r.m, w⟩ then acceptAnchor i r a ⟨r.m, w⟩ s
        else place (raise .anchorRejected s)
      -- No anchor stands in the table only before the first ROLL MOUNT (R57, log 31).
      | _, _ => place (raise .anchorRejected s)

/-- R60: free places of the write queue. -/
def State.freeWrites (s : State) : Nat := 8 - s.align.queue.length

/-- R60: sightings of a source are taken. -/
def SpliceSource.selects : SpliceSource → SightingSource → Bool
  | .sensor, .sensor => true
  | .sensor, .camera => false
  | .camera, .sensor => false
  | .camera, .camera => true
  | .both, _ => true

/-- R60: the Alignment Unit has room for a sighting. -/
def State.takesSighting (s : State) : Bool := 2 ≤ s.freeWrites

/-- R60: a camera sighting is not taken: it finds no room, or a latched sensor sighting goes before it. -/
def State.holdsCamera (s : State) : Bool := !s.takesSighting || s.align.latch.isSome

/-- R60, R84: a SPLICE SIGHTING waits for room at the head of the DIQ. -/
def State.sightingWaits (s : State) : Bool :=
  match s.diq.messages with
  | .spliceSighting _ :: _ => s.align.source.selects .camera && s.holdsCamera
  | _ => false

/-- R67: the head of the write queue leaves it at its grant. -/
def popWrite (s : State) : State := s.setAlign { s.align with queue := s.align.queue.tail }

/-- The Track List source of a live splice. -/
def SightingSource.source : SightingSource → Source
  | .sensor => .sensor
  | .camera => .camera

/-- R66: UNMATCHED splices whose window has passed the splice sensor. -/
def State.isMissed (s : State) (r : MapRecord) : Bool :=
  r.kind == .splice && r.matchState == .unmatched &&
  s.predict r.m + s.align.matchWindow < s.pos.p - s.pos.offSplice

/-- R66: the check for missed splices at a speed sample. -/
def declareMissed (s : State) : State :=
  if s.mounted && s.pmap.records.any s.isMissed then
    raise .spliceMissed (s.setPmap { s.pmap with
      records := s.pmap.records.map fun r => if s.isMissed r then { r with matchState := .missed } else r })
  else s

end Sys2Proof.Machine
end

