-- ==== Sys2Proof/Machine/Reset.lean ====
section
/-! DEFINITION. The two resets, block by block. -/

namespace Sys2Proof.Machine

/-- R10, R6: the Position Unit after a warm reset with the encoder at the levels given. The configuration is kept; a new
tick begins under the present CLKDIV. -/
def PositionUnit.warm (x : PositionUnit) (encA encB : Bool) : PositionUnit :=
  { x with
    encA := encA
    encB := encB
    p := 0
    frac := 0
    roll := .noRoll
    tickCount := 0
    sampleCount := 0
    sampleDue := false
    tickDivisor := x.clkdiv
    sampleBase := 0
    v := 0
    overspeed := false
    settle := 0 }

/-- R21: RUN cleared and the output negated; the rest of a channel is kept. -/
def Channel.warm (x : Channel) : Channel := { x with run := false, out := false, outTicked := false }

/-- R21. -/
def Comparators.warm (x : Comparators) : Comparators where
  ch0 := x.ch0.warm
  ch1 := x.ch1.warm
  ch2 := x.ch2.warm
  ch3 := x.ch3.warm
  strobeSeq := 0

/-- R56. -/
def PressMap.warm (x : PressMap) : PressMap := { x.emptied with withheld := false }

/-- R71. -/
def AlignmentUnit.warm (x : AlignmentUnit) : AlignmentUnit :=
  { x with anchors := [], dLast := 0, queue := [], latch := none, lastGuarded := none, yields := Yields.none }

/-- R76. -/
def InputQueue.warm (x : InputQueue) : InputQueue := { x with messages := [], lastResult := .ok }

/-- R82, R83. -/
def OffsetTracker.warm (x : OffsetTracker) : OffsetTracker := { x.invalidated with history := [] }

/-- R48. -/
def TrackList.warm (x : TrackList) : TrackList :=
  { x with entries := [], seq := 0, nextIdent := 0, late := LateRecord.cold }

/-- R103. -/
def SlitPlan.warm (x : SlitPlan) : SlitPlan := { x with webShift := 0 }

/-- R126: an open set is discarded, and its number is given again. -/
def ReelTable.warm (x : ReelTable) : ReelTable :=
  { x with
    openSet := none
    nextSet := match x.openSet with
      | none => x.nextSet
      | some o => o.number
    indications := 0 }

/-- R126: the queue is kept. -/
def ReelQueue.warm (x : ReelQueue) : ReelQueue := { x with roomWanted := false }

/-- R147, R143: IDLE with nothing held and the Stop Record reset; parameters and filter are kept. -/
def StopPlanner.warm (x : StopPlanner) : StopPlanner := { StopPlanner.cold with params := x.params }

/-- R153: the live bank is cleared. -/
def Tallies.warm (x : Tallies) : Tallies := { x with live := TallyBank.zero }

/-- R157: the flags are cleared, the enables kept. -/
def Events.warm (x : Events) : Events := { x with flagsA := 0, flagsB := 0 }

/-- R168, R164: as after a cold reset, but ARG0 to ARG3 are kept; the access in progress, which is the WARM RESET command
itself, goes on. -/
def LinePort.warm (x : LinePort) : LinePort :=
  { x with result := .ok, posLatch := 0, tableSelect := .config, tableAddr := 0, latch := none, held := none }

/-- R172: a transfer in progress is ignored until its stop condition or the next start condition. -/
def LinkPhase.afterReset : LinkPhase → LinkPhase
  | .idle => .idle
  | .restarted => .ignored
  | .ignored => .ignored
  | .addressed => .ignored
  | .message _ _ => .ignored
  | .reading => .ignored

/-- R172. -/
def InspectionLink.warm (x : InspectionLink) : InspectionLink :=
  { x with phase := x.phase.afterReset, holding := false, holdTicks := 0, ack := false, status := [], sent := [] }

/-- R176: transmitter, stages, marks and assembler as after a cold reset; the settings are kept. -/
def ReelLink.warm (x : ReelLink) : ReelLink :=
  { ReelLink.cold with parity := x.parity, divisor := x.divisor, frameGap := x.frameGap, gapLimit := x.frameGap }

/-- R164: WARM RESET puts every block in its warm reset state. -/
def warmReset (s : State) : State where
  pins := s.pins
  pos := s.pos.warm s.pins.encA s.pins.encB
  comps := s.comps.warm
  pmap := s.pmap.warm
  align := s.align.warm
  diq := s.diq.warm
  tracker := s.tracker.warm
  track := s.track.warm
  plan := s.plan.warm
  reels := s.reels.warm
  queue := s.queue.warm
  planner := s.planner.warm
  tally := s.tally.warm
  events := s.events.warm
  port := s.port.warm
  link := s.link.warm
  reel := s.reel.warm
  pending := s.pending

/-- Every block in its cold reset state, with the pins at the levels given (R10 and each block's table). Of the past
only the transfer in progress on the Inspection Link matters: the link waits for its end (R172). -/
def coldReset (encA encB : Bool) (adr : BitVec 3) (s : State) : State where
  pins := { encA := encA, encB := encB, adr := adr }
  pos := PositionUnit.cold encA encB
  comps := Comparators.cold
  pmap := PressMap.cold
  align := AlignmentUnit.cold
  diq := InputQueue.cold
  tracker := OffsetTracker.cold
  track := TrackList.cold
  plan := SlitPlan.cold
  reels := ReelTable.cold
  queue := ReelQueue.cold
  planner := StopPlanner.cold
  tally := Tallies.cold
  events := Events.cold
  port := LinePort.cold
  link := { InspectionLink.cold with phase := s.link.phase.afterReset }
  reel := ReelLink.cold
  pending := s.pending

end Sys2Proof.Machine
end

