-- ==== Sys2Proof/Machine/ReelLinkOps.lean ====
section
/-! DEFINITION. Shared operations of the Reel Link: receive stages, frame assembler, replies, transmitter (section 9.4). -/

namespace Sys2Proof.Machine

/-! ### Transmitter (R173, R175) -/

/-- R173: CLK periods of one bit. -/
def SendSettings.bitTime (f : SendSettings) : Nat := 16 * f.divisor

/-- R173: CLK periods of one character: a start bit, 8 data bits, a parity bit unless NONE, a stop bit. -/
def SendSettings.charTime (f : SendSettings) : Nat := (if f.parity = .none then 10 else 11) * f.bitTime

/-- R173: the settings as they stand, under which the next character begins. -/
def ReelLink.sendSettings (x : ReelLink) : SendSettings := ⟨x.parity, x.divisor⟩

/-- The reply's bytes and the CLK periods left of the first, after `periods` of CLK. -/
def drainBytes (charTime : Nat) : List Byte → Nat → Nat → List Byte × Nat
  | [], _, _ => ([], 0)
  | b :: bs, left, periods =>
    if periods < left then (b :: bs, left - periods) else drainBytes charTime bs charTime (periods - left)

/-- R173, log 22: the transmitter after `periods` CLK periods. A character on the line keeps the settings it began under;
the characters behind it begin under the settings as they stand. -/
def ReelLink.transmit (x : ReelLink) (periods : Nat) : ReelLink :=
  let r := drainBytes x.sendSettings.charTime x.sending x.charLeft periods
  { x with sending := r.1, charLeft := r.2, onLine := if periods < x.charLeft then x.onLine else x.sendSettings }

/-- R175: a frame starts being sent. -/
def ReelLink.startSending (x : ReelLink) (frame : List Byte) : ReelLink :=
  { x with sending := frame, charLeft := x.sendSettings.charTime, onLine := x.sendSettings }

/-- R173, R175: the level of TXD: the bit of the character on the line that its time has reached, and the stop level while
nothing is sent. -/
def ReelLink.txd (x : ReelLink) : Bool :=
  match x.sending with
  | [] => stopLevel
  | b :: _ =>
    ((characterBits x.onLine.parity b)[(x.onLine.charTime - x.charLeft) / x.onLine.bitTime]?).getD stopLevel

/-- The level of TXD `periods` CLK periods on from here, within a tick (log 22). -/
def ReelLink.txdAfter (x : ReelLink) (periods : Nat) : Bool := (x.transmit periods).txd

/-- TXD, an output of the part. -/
def State.txd (s : State) : Bool := s.reel.txd

/-- R175: a built reply starts at once while the transmitter is idle, and waits otherwise. -/
def ReelLink.reply (x : ReelLink) (frame : List Byte) : ReelLink :=
  if x.sending = [] ∧ x.waiting = none then x.startSending frame else { x with waiting := some frame }

/-! ### Frame assembler (R174) -/

/-- A byte carries an error mark. -/
def RxByte.marked (b : RxByte) : Bool := b.parityError || b.framingError || b.overrun

/-- A frame has been opened and is being collected. -/
def Assembler.collecting : Assembler → Bool
  | .hunting => false
  | .needKind => true
  | .needLength _ => true
  | .body _ _ _ => true
  | .complete _ _ => false
  | .failed => false

/-- R174, R175: the assembler takes no byte while a built reply waits, nor while a frame of its own waits to be served
or discarded (log 20). -/
def ReelLink.blocked (x : ReelLink) : Bool :=
  x.waiting.isSome ||
  match x.assembler with
  | .hunting => false
  | .needKind => false
  | .needLength _ => false
  | .body _ _ _ => false
  | .complete _ _ => true
  | .failed => true

/-- R174, Hunting: C3h without an error opens a frame; every other byte is dropped. -/
def huntByte (b : RxByte) : Assembler := if b.value = 0xC3 ∧ b.marked = false then .needKind else .hunting

/-- R174, Collecting: what the assembler makes of the next byte of an opened frame. -/
def collectByte (b : RxByte) : Assembler → Assembler
  | .hunting => huntByte b
  | .needKind => if b.marked then .failed else .needLength b.value
  | .needLength kind => if b.marked then .failed else .body kind b.value.toNat []
  | .body kind length bytes =>
    if b.marked then .failed
    else if bytes.length < length then .body kind length (bytes ++ [b.value])
    else if frameChecks kind length bytes b.value then .complete kind bytes
    else .failed
  | .complete kind bytes => .complete kind bytes
  | .failed => .failed

/-- R174: an opened frame discarded: counted, and REEL_LINK_ERROR raised; the assembler hunts again. -/
def discardFrame (s : State) : State :=
  let s := raise .reelLinkError (countTotal .framesDiscarded 1 s)
  s.setReel { s.reel with assembler := .hunting }

/-- R174: the assembler takes one byte. A byte that follows a gap beyond FRAME_GAP finds an opened frame discarded and
is taken while hunting. -/
def takeByte (b : RxByte) (s : State) : State :=
  if b.afterGap && s.reel.assembler.collecting then
    let s := discardFrame s
    s.setReel { s.reel with assembler := huntByte b }
  else s.setReel { s.reel with assembler := collectByte b s.reel.assembler }

/-- R173, R174: the assembler takes the byte of the holding stage, if it may, and the shift stage moves up. -/
def pumpOnce (s : State) : State :=
  if s.reel.blocked then s
  else match s.reel.holdingStage with
  | none => s
  | some b =>
    takeByte b (s.setReel { s.reel with holdingStage := s.reel.shiftStage, shiftStage := none })

/-- The assembler takes the bytes that wait: the two stages hold at most two. -/
def pump (s : State) : State := pumpOnce (pumpOnce s)

/-- R173: a completed byte enters the stages, or is lost and marks the byte after it. -/
def ReelLink.enter (x : ReelLink) (b : RxByte) : ReelLink :=
  let b := { b with overrun := x.overrunNext, afterGap := x.gapNext }
  match x.holdingStage, x.shiftStage with
  | none, _ => { x with holdingStage := some b, overrunNext := false, gapNext := false }
  | some _, none => { x with shiftStage := some b, overrunNext := false, gapNext := false }
  | some _, some _ => { x with overrunNext := true }

/-- R173: the settings as they stand. -/
def ReelLink.settings (x : ReelLink) : ReceiveSettings := ⟨x.parity, x.frameGap⟩

/-- R173, log 21: the settings noted before a taken write of REEL_PARITY or FRAME_GAP. -/
def ReelLink.noted (x : ReelLink) : ReelLink := { x with earlier := x.settings :: x.earlier }

/-- R173: the settings of a character that began before the latest `writes` taken writes of its settings. -/
def ReelLink.settingsBefore (x : ReelLink) (writes : Nat) : ReceiveSettings :=
  (x.earlier.take writes).getLast?.getD x.settings

/-- The frame that waits to be served. -/
def ReelLink.frame (x : ReelLink) : Option (Byte × List Byte) :=
  match x.assembler with
  | .hunting => none
  | .needKind => none
  | .needLength _ => none
  | .body _ _ _ => none
  | .complete kind bytes => some (kind, bytes)
  | .failed => none

/-- R175: a frame has been served: its reply is built, the assembler hunts, and bytes that wait are taken. -/
def replyWith (kind : Byte) (body : List Byte) (s : State) : State :=
  let x := { s.reel with assembler := .hunting }
  pump (s.setReel (x.reply (frameOf kind body)))

/-! ### Reply bodies (section 9.5, Reel Link frames) -/

/-- The POLL reply: count, and the head's set number and lane, 0 and 0 when empty. -/
def pollBody : List ReelRecord → List Byte
  | [] => [0] ++ bytes16 0 ++ [0]
  | r :: rs => [byteOf (rs.length + 1 : Nat)] ++ bytes16 r.setNumber ++ [byteOf r.lane]

/-- The source code of a flag item: 0 MAP, 1 LIVE, 2 MERGED. -/
def FlagItem.sourceCode (it : FlagItem) : Nat := it.source.code

/-- One item of the reel record body, 8 bytes. -/
def itemBytes (it : FlagItem) : List Byte :=
  bytes32 it.depth ++ bytes16 it.across ++ [packClass it.cls it.sev] ++
    [BitVec.ofNat 8 (it.sourceCode + 128 * flagBit it.unsynced)]

/-- The reel record body, 28 + 8n bytes. -/
def recordBytes (r : ReelRecord) : List Byte :=
  bytes16 r.setNumber ++ [byteOf r.lane] ++
  [BitVec.ofNat 8 (r.shaft.code + 128 * flagBit r.mapId.isSome)] ++
  [BitVec.ofNat 8 r.grade.code, BitVec.ofNat 8 r.cause.code] ++
  bytes32 r.length ++ bytes32 ((r.mapId.getD 0 : Nat)) ++ [byteOf r.spliceCount] ++
  (r.classCounts.map fun (n : Nat) => byteOf n) ++
  bytes16 r.committed ++ bytes16 r.unlisted ++ [byteOf r.flags.length] ++
  r.flags.flatMap itemBytes

/-- The FETCH reply: status OK with the head record, or EMPTY. -/
def fetchBody : List ReelRecord → List Byte
  | [] => [ReelStatus.empty.code]
  | r :: _ => ReelStatus.ok.code :: recordBytes r

/-- R123: the answer to a RELEASE. -/
def releaseStatus (records : List ReelRecord) (set lane : Nat) : ReelStatus :=
  match records with
  | [] => .empty
  | r :: _ => if r.setNumber = set ∧ r.lane = lane then .ok else .mismatch

/-- R123, R124: the head removed; QUEUE_ROOM raised and room wanted cleared when the free slots reach the reel count. -/
def removeHead (s : State) : State :=
  let s := s.setQueue { s.queue with records := s.queue.records.tail }
  if s.queue.roomWanted && s.queueRoom then
    raise .queueRoom (s.setQueue { s.queue with roomWanted := false })
  else s

/-- R175: the body length a request kind has; none for an unknown kind. -/
def requestLength (kind : Byte) : Option Nat :=
  if kind = 0x01 then some 0 else if kind = 0x02 then some 0 else if kind = 0x03 then some 3 else none

end Sys2Proof.Machine
end

