-- ==== Sys2Proof/Machine/LinkOps.lean ====
section
/-! DEFINITION. Shared operations of the Inspection Link (section 9.3). -/

namespace Sys2Proof.Machine

/-- R169: the part's address byte: the 7-bit address 0101b followed by ADR2 to ADR0, then the direction bit, 1 for a read
(log 14). -/
def addressByte (adr : BitVec 3) (read : Bool) : Byte := BitVec.ofNat 8 (0x50 + adr.toNat * 2 + flagBit read)

/-- R73: the DIQ is full. -/
def State.diqFull (s : State) : Bool := 32 ≤ s.diq.messages.length

/-- The six status bytes (section 9.5). -/
def State.statusBytes (s : State) : List Byte :=
  [byteOf (32 - s.diq.messages.length),
   BitVec.ofNat 8 (flagBit s.tracker.valid + 2 * flagBit s.link.holding + 4 * s.pmap.state.code +
     16 * flagBit s.pmap.truncated),
   BitVec.ofNat 8 s.diq.lastResult.code] ++
  bytes16 s.pmap.records.length ++
  [byteOf (min 255 s.tracker.peak)]

/-- R171: byte `i` of a read transfer: the status bytes and then FFh. -/
def readByte (status : List Byte) (i : Nat) : Byte := status.getD i 0xFF

/-- A start condition inside a transfer (R169): an open message, complete or not, is abandoned and counted short, and a
hold ends with it (log 15). -/
def abandonMessage (s : State) : State :=
  let s := match s.link.phase with
    | .idle => s
    | .restarted => s
    | .ignored => s
    | .addressed => countTotal .shortMessages 1 s
    | .message _ _ => countTotal .shortMessages 1 s
    | .reading => s
  s.setLink { s.link with phase := .restarted, holding := false, holdTicks := 0 }

/-- R72: a message appended at the tail of the DIQ, which never holds more than 32 (log 18). -/
def appendMessage (m : Message) (s : State) : State :=
  if s.diqFull then s else s.setDiq { s.diq with messages := s.diq.messages ++ [m] }

/-- R169: a byte after a start condition: an address with its direction bit. -/
def takeAddress (b : Byte) (s : State) : State :=
  if b = addressByte s.pins.adr false then s.setLink { s.link with phase := .addressed, ack := true }
  else if b = addressByte s.pins.adr true then
    s.setLink { s.link with phase := .reading, ack := true, status := s.statusBytes, sent := [] }
  else s.setLink { s.link with phase := .ignored, ack := false }

/-- R169, R170: the kind byte. An acknowledged one starts a hold while the DIQ is full. A transfer whose kind byte is
unknown is ignored from there, and neither its stop nor a repeated start counts it short (log 40). -/
def takeKind (b : Byte) (s : State) : State :=
  match MessageKind.ofByte b with
  | none => s.setLink { s.link with phase := .ignored, ack := false }
  | some k =>
    let x := { s.link with phase := .message k [], ack := true }
    if s.diqFull then s.setLink { x with holding := true, holdTicks := 0, holdLimitNow := s.link.holdLimit }
    else s.setLink x

/-- R169: a later byte: stored up to the message length, and not acknowledged beyond it. -/
def takeBody (k : MessageKind) (bytes : List Byte) (b : Byte) (s : State) : State :=
  if bytes.length < k.bodyLength then s.setLink { s.link with phase := .message k (bytes ++ [b]), ack := true }
  else s.setLink { s.link with ack := false }

/-- R169 to R171: a byte with its acknowledge clock. While SCL is held no byte can be clocked (log 15). -/
def takeLinkByte (b : Byte) (s : State) : State :=
  if s.link.holding then s
  else match s.link.phase with
  | .idle => takeAddress b s
  | .restarted => takeAddress b s
  | .ignored => s.setLink { s.link with ack := false }
  | .addressed => takeKind b s
  | .message k bytes => takeBody k bytes b s
  | .reading =>
    s.setLink { s.link with ack := false, sent := s.link.sent ++ [readByte s.link.status s.link.sent.length] }

/-- R169: a stop condition. A complete message goes to the DIQ, an incomplete one is counted short; after the address
alone nothing is appended or counted. -/
def takeStop (s : State) : State :=
  let s := match s.link.phase with
    | .idle => s
    | .restarted => s
    | .ignored => s
    | .addressed => s
    | .message k bytes =>
      match Message.ofBytes k bytes with
      | some m => appendMessage m s
      | none => countTotal .shortMessages 1 s
    | .reading => s
  s.setLink { s.link with phase := .idle, holding := false, holdTicks := 0 }

end Sys2Proof.Machine
end

