-- ==== Sys2Proof/Machine/Tables.lean ====
section
/-! DEFINITION. The tables behind the Line Port's window: what each record reads as (section 9.5, Tables) and what a
write of each field does. -/

namespace Sys2Proof.Machine

/-! ### Reading: the words of a record -/

/-- A word of packed fields. -/
def packed (n : Nat) : Word := BitVec.ofNat 16 n

/-- A count as a word. -/
def wordN (n : Nat) : Word := BitVec.ofNat 16 n

/-- Words filled up with 0 to a length: words that hold no field read 0 (R160, R165). -/
def padTo (n : Nat) (l : List Word) : List Word := l ++ List.replicate (n - l.length) 0

/-- CONFIG (R160: high words first). -/
def configWords (s : State) : List Word :=
  words32 s.pos.pitch ++ [packed (flagBit s.pos.dirInvert), wordN s.pos.clkdiv] ++
  words32 s.pos.offSplice ++ words32 s.pos.offInspect ++ words32 s.pos.offTable ++
  words32 s.pos.offKnife ++ words32 s.pos.offNip ++
  [wordOf s.track.mergeWindow] ++ words32 s.pmap.horizon ++ [wordOf s.pmap.xOffset] ++
  words32 s.align.matchWindow ++ words32 s.align.spliceGuard ++
  [wordN s.align.source.code, wordN s.diq.resume, wordN s.link.holdLimit,
   wordN s.tracker.gNarrow, wordN s.tracker.gWide, wordOf s.tracker.wideWindow] ++
  words32 s.tracker.captureLimit ++ [wordN s.tracker.peakMode.code] ++ words32 s.tracker.strobePitch ++
  [packed (flagBit s.tally.autosnap), wordN s.reel.parity.code, wordN s.reel.divisor, wordN s.reel.frameGap]

/-- SLIT PLAN: the header, or a lane's record. -/
def slitPlanWords (s : State) (r : Nat) : List Word :=
  if r = 0 then
    [wordOf s.plan.shiftLimit, wordN s.plan.usedLanes.length, wordN s.plan.reelCount, wordN s.plan.status.code]
  else
    let l := s.plan.lane r
    [packed (flagBit l.used), wordOf l.left, wordOf l.width, wordN l.shaft.code, wordN l.disposition.code]

/-- GRADING. -/
def gradingWords (s : State) : List Word :=
  let g := s.reels.grading
  g.classDown.map wordN ++ g.classReject.map wordN ++ [wordN g.spliceDown, wordN g.spliceReject, wordN g.minLength]

/-- STOP PARAMS. -/
def stopParamsWords (s : State) : List Word :=
  let q := s.planner.params
  [wordOf q.creepSpeed, wordOf q.decel, wordOf q.reaction] ++ words32 q.margin ++ words32 q.haltDist ++
  words32 q.stopLead ++
  [wordOf q.tolerance, wordN q.settle, packed (flagBit q.flagStop), packed q.classMask.toNat, wordN q.minSeverity,
   packed q.sourceMask.toNat, packed (flagBit q.spliceStop), packed (flagBit q.lengthStop)]

/-- COMPARATORS: channel 0 shows STROBE_PITCH as its base value and reload (section 1.7), and the strobe sequence. -/
def comparatorWords (s : State) (r : Nat) : List Word :=
  let ch := s.comps.get ⟨r % 4, Nat.mod_lt _ (by decide)⟩
  let base := if r = 0 then s.tracker.strobePitch else ch.base
  let reload := if r = 0 then s.tracker.strobePitch else ch.reload
  words32 base ++ words32 ch.matchPoint ++ words32 reload ++
  [wordN ch.reference.code, packed (flagBit ch.run), wordN ch.skipped, if r = 0 then wordN s.comps.strobeSeq else 0]

/-- Lanes `first` to `first + 15` of a lane set as bits: bit k for lane `first` + k. -/
def laneBits (lanes : List Nat) (first count : Nat) : Nat :=
  (List.range count).foldl (fun n k => n + flagBit (lanes.contains (first + k)) * 2 ^ k) 0

/-- TRACK: an entry's record. -/
def entryWords (e : Entry) : List Word :=
  let slit := match e.passage with
    | .ahead => false
    | .slit _ _ => true
  [packed (e.kind.code + e.source.code * 16 + flagBit slit * 256 + flagBit e.unsynced * 4096 +
     flagBit e.stopped * 8192 + flagBit e.skipped * 16384 + flagBit e.pendingReplace * 32768),
   wordN e.seq] ++ words32 e.w ++
  [wordOf e.len, wordOf e.x0, wordOf e.x1, packed (e.cls.val + e.sev.val * 16),
   packed (e.mapIndex.getD 0 + flagBit e.mapIndex.isSome * 32768),
   packed (laneBits e.lanes 1 16), packed (laneBits e.lanes 17 8 + flagBit slit * 32768), wordOf e.knifeShift]

/-- R28: slot `i` of TRACK; vacant when the count is `i` or less. -/
def trackWords (s : State) (i : Nat) : List Word :=
  match s.track.entries[i]? with
  | none => []
  | some e => entryWords e

/-- MAP: the header, or a map record with its predicted w computed at the copy. -/
def mapWords (s : State) (r : Nat) : List Word :=
  if r = 0 then
    [packed (s.pmap.state.code + flagBit s.pmap.truncated * 16 + flagBit s.pmap.id.isSome * 256)] ++
    words32 ((s.pmap.id.getD 0 : Nat)) ++ words32 s.pmap.mEnd ++
    [wordOf s.pmap.d0, wordN s.pmap.records.length, wordN (s.pmap.cursor.getD 4096)]
  else
    match s.mapRecord (r - 1) with
    | none => []
    | some m =>
      [packed (m.kind.code + m.status.code * 16 + m.matchState.code * 256)] ++ words32 m.m ++
      [wordOf m.len, wordOf m.x0, wordOf m.x1, packed (m.cls.val + m.sev.val * 16)] ++ words48 (s.predict m.m)

/-- ANCHORS: d_last and the count, or an anchor, newest first. -/
def anchorWords (s : State) (r : Nat) : List Word :=
  if r = 0 then words32 s.align.dLast ++ [wordN s.align.anchors.length]
  else match s.align.anchors[r - 1]? with
  | none => []
  | some a => [1] ++ words32 a.m ++ words48 a.w

/-- The four words of one flag item of a reel record. -/
def flagWords (it : FlagItem) : List Word :=
  words32 it.depth ++ [wordOf it.across,
    packed (it.cls.val + it.sev.val * 16 + it.source.code * 256 + flagBit it.unsynced * 4096)]

/-- Class counts, two per word, the even class in bits 15 to 8. -/
def classWords (counts : List Nat) : List Word :=
  (List.range 4).map fun i => packed (counts.getD (2 * i) 0 * 256 + counts.getD (2 * i + 1) 0)

/-- A reel record, with the length it is to show. -/
def reelWords (r : ReelRecord) (length : Int) : List Word :=
  [wordN r.setNumber,
   packed (r.lane + r.shaft.code * 256 + flagBit r.wEnd.isSome * 8192 + flagBit r.mapId.isSome * 16384 + 32768),
   packed (r.grade.code + r.cause.code * 256)] ++
  words32 ((r.mapId.getD 0 : Nat)) ++ words48 r.wStart ++ words48 (r.wEnd.getD 0) ++ words32 length ++
  classWords r.classCounts ++
  [wordN r.spliceCount, wordN r.committed, wordN r.unlisted, wordN r.flags.length, 0, 0, 0] ++
  r.flags.flatMap flagWords

/-- R111: the length the open set shows, from the open set's length now. -/
def State.openLength (s : State) (o : OpenSet) : Int := lengthMm o.wStart s.commitLine

/-- R112: OPEN REELS, the set header or a record of the open set. -/
def openReelsWords (s : State) (r : Nat) : List Word :=
  if r = 0 then
    match s.reels.openSet with
    | none => [0, wordN s.reels.nextSet]
    | some o =>
      [1, wordN o.number] ++ words48 o.wStart ++
      [wordN o.target, wordN o.lengthStop.code, wordN o.reels.length] ++ words32 (s.openLength o)
  else
    match s.reels.openSet with
    | none => []
    | some o =>
      match o.reels[r - 1]? with
      | none => []
      | some x => reelWords x (s.openLength o)

/-- R125: QUEUE, the record at place `i` from the head. -/
def queueWords (s : State) (i : Nat) : List Word :=
  match s.queue.records[i]? with
  | none => []
  | some r => reelWords r r.length

/-- The four tallies of a lane as words. -/
def laneTallyWords (t : LaneTally) : List Word := [wordN t.flags, wordN t.splices, wordN t.metres, wordN t.reels]

/-- R152: TALLY LIVE. -/
def tallyLiveWords (s : State) (r : Nat) : List Word :=
  if r = 0 then s.tally.live.totals.map wordN else laneTallyWords (s.tally.live.lane r)

/-- R152: TALLY SNAP. -/
def tallySnapWords (s : State) (r : Nat) : List Word :=
  if r = 0 then s.tally.snap.totals.map wordN ++ [wordN s.tally.snapCause.code, wordN (s.tally.snapSet.getD 0)]
  else laneTallyWords (s.tally.snap.lane r)

/-- R87: STROBES, the tracker record or a history entry, newest first. -/
def strobeWords (s : State) (r : Nat) : List Word :=
  if r = 0 then
    words48 s.tracker.o ++
    [packed (flagBit s.tracker.valid + flagBit s.tracker.latest.isSome * 2 + s.tracker.peakMode.code * 4)] ++
    words48 (s.tracker.latest.getD 0) ++ words32 s.tracker.peak ++ [wordN s.comps.strobeSeq]
  else match s.tracker.history[r - 1]? with
  | none => []
  | some h => [1, wordN h.number] ++ words32 h.p

/-- R143: STOP RECORD. -/
def stopRecordWords (s : State) : List Word :=
  let x := s.planner.record
  [packed (x.kind.code + x.outcome.code * 16 + flagBit x.short * 256 + flagBit x.retargeted * 512 +
     flagBit x.seq.isSome * 4096 + flagBit x.setNumber.isSome * 8192),
   wordN (x.seq.getD 0), wordN (x.setNumber.getD 0)] ++ words48 x.targetP ++ words32 x.finalP ++ words48 x.e

/-- R33: LATE RECORD. -/
def lateRecordWords (s : State) : List Word :=
  [wordN (kindCode s.track.late.kind)] ++ words48 s.track.late.w ++ [wordN s.track.late.cls.val]

/-- The words of record `r` of a table, as its owner holds it, vacant words 0. -/
def recordWords (s : State) (t : Table) (r : Nat) : List Word :=
  padTo t.stride (match t with
  | .config => configWords s
  | .slitPlan => slitPlanWords s r
  | .grading => gradingWords s
  | .stopParams => stopParamsWords s
  | .comparators => comparatorWords s r
  | .track => trackWords s r
  | .map => mapWords s r
  | .anchors => anchorWords s r
  | .openReels => openReelsWords s r
  | .queue => queueWords s r
  | .tallyLive => tallyLiveWords s r
  | .tallySnap => tallySnapWords s r
  | .strobes => strobeWords s r
  | .stopRecord => stopRecordWords s
  | .lateRecord => lateRecordWords s)

/-! ### Writing: which field a word holds -/

/-- A word of a writable field: the field, and whether it is the field's last word (R167). -/
structure FieldWord where
  field : Field
  last : Bool
  deriving DecidableEq, Repr

/-- A field of one word. -/
def oneWord (f : Field) : Option FieldWord := some ⟨f, true⟩

/-- The upper word of a field of two words. -/
def upperWord (f : Field) : Option FieldWord := some ⟨f, false⟩

/-- The last word of a field of two words. -/
def lowerWord (f : Field) : Option FieldWord := some ⟨f, true⟩

def configField : Nat → Option FieldWord
  | 0 => upperWord .pitch
  | 1 => lowerWord .pitch
  | 2 => oneWord .dirInvert
  | 3 => oneWord .clkdiv
  | 4 => upperWord (.offset .splice)
  | 5 => lowerWord (.offset .splice)
  | 6 => upperWord (.offset .inspect)
  | 7 => lowerWord (.offset .inspect)
  | 8 => upperWord (.offset .table)
  | 9 => lowerWord (.offset .table)
  | 10 => upperWord (.offset .knife)
  | 11 => lowerWord (.offset .knife)
  | 12 => upperWord (.offset .nip)
  | 13 => lowerWord (.offset .nip)
  | 14 => oneWord .mergeWindow
  | 15 => upperWord .horizon
  | 16 => lowerWord .horizon
  | 17 => oneWord .mapXOffset
  | 18 => upperWord .matchWindow
  | 19 => lowerWord .matchWindow
  | 20 => upperWord .spliceGuard
  | 21 => lowerWord .spliceGuard
  | 22 => oneWord .spliceSource
  | 23 => oneWord .resume
  | 24 => oneWord .holdLimit
  | 25 => oneWord .gNarrow
  | 26 => oneWord .gWide
  | 27 => oneWord .wideWindow
  | 28 => upperWord .captureLimit
  | 29 => lowerWord .captureLimit
  | 30 => oneWord .peakMode
  | 31 => upperWord .strobePitch
  | 32 => lowerWord .strobePitch
  | 33 => oneWord .autosnap
  | 34 => oneWord .reelParity
  | 35 => oneWord .reelDivisor
  | 36 => oneWord .frameGap
  | _ => none

/-- SLIT PLAN: the header's SHIFT_LIMIT and the five fields of each lane record. -/
def slitPlanField (r k : Nat) : Option FieldWord :=
  if r = 0 then (if k = 0 then oneWord .shiftLimit else none)
  else
    let i : Fin 24 := ⟨(r - 1) % 24, Nat.mod_lt _ (by decide)⟩
    match k with
    | 0 => oneWord (.laneUse i)
    | 1 => oneWord (.laneLeft i)
    | 2 => oneWord (.laneWidth i)
    | 3 => oneWord (.laneShaft i)
    | 4 => oneWord (.laneDisposition i)
    | _ => none

def gradingField (k : Nat) : Option FieldWord :=
  if k < 8 then oneWord (.classDown (classOf k))
  else if k < 16 then oneWord (.classReject (classOf k))
  else if k = 16 then oneWord .spliceDown
  else if k = 17 then oneWord .spliceReject
  else if k = 18 then oneWord .minLength
  else none

def stopParamsField : Nat → Option FieldWord
  | 0 => oneWord .creepSpeed
  | 1 => oneWord .decel
  | 2 => oneWord .reaction
  | 3 => upperWord .margin
  | 4 => lowerWord .margin
  | 5 => upperWord .haltDist
  | 6 => lowerWord .haltDist
  | 7 => upperWord .stopLead
  | 8 => lowerWord .stopLead
  | 9 => oneWord .tolerance
  | 10 => oneWord .settle
  | 11 => oneWord .flagStop
  | 12 => oneWord .classMask
  | 13 => oneWord .minSeverity
  | 14 => oneWord .sourceMask
  | 15 => oneWord .spliceStop
  | 16 => oneWord .lengthStop
  | _ => none

/-- COMPARATORS: the writable fields of channels 1 to 3; everything of channel 0 is read-only (R14, R167). -/
def comparatorField (r k : Nat) : Option FieldWord :=
  if r = 0 then none
  else
    let i : Fin 3 := ⟨(r - 1) % 3, Nat.mod_lt _ (by decide)⟩
    match k with
    | 0 => upperWord (.chBase i)
    | 1 => lowerWord (.chBase i)
    | 4 => upperWord (.chReload i)
    | 5 => lowerWord (.chReload i)
    | 6 => oneWord (.chReference i)
    | 7 => oneWord (.chRun i)
    | _ => none

/-- The writable field that word `k` of record `r` holds; none for a read-only table or field and for a word without a
field (R165, R167). -/
def fieldAt (t : Table) (r k : Nat) : Option FieldWord :=
  match t with
  | .config => configField k
  | .slitPlan => slitPlanField r k
  | .grading => gradingField k
  | .stopParams => stopParamsField k
  | .comparators => comparatorField r k
  | .track => none
  | .map => none
  | .anchors => none
  | .openReels => none
  | .queue => none
  | .tallyLive => none
  | .tallySnap => none
  | .strobes => none
  | .stopRecord => none
  | .lateRecord => none

/-- R5, R11, R56, R83, R167: CONFIG fields locked while a roll is mounted. -/
def Field.rollLocked : Field → Bool
  | .pitch => true
  | .dirInvert => true
  | .offset _ => true
  | .mapXOffset => true
  | .gNarrow => true
  | .gWide => true
  | .wideWindow => true
  | .captureLimit => true
  | .peakMode => true
  | .strobePitch => true
  | _ => false

/-! ### Writing: values and their effects -/

def PositionUnit.offset (x : PositionUnit) : Station → Int
  | .splice => x.offSplice
  | .inspect => x.offInspect
  | .table => x.offTable
  | .knife => x.offKnife
  | .nip => x.offNip

def PositionUnit.setOffset (x : PositionUnit) (v : Int) : Station → PositionUnit
  | .splice => { x with offSplice := v }
  | .inspect => { x with offInspect := v }
  | .table => { x with offTable := v }
  | .knife => { x with offKnife := v }
  | .nip => { x with offNip := v }

/-- R11: the five offsets together are a valid geometry. -/
def PositionUnit.geometryOk (x : PositionUnit) : Bool :=
  0 ≤ x.offSplice && x.offSplice ≤ x.offInspect && x.offInspect < x.offTable && x.offTable < x.offKnife &&
  x.offKnife < x.offNip && x.offNip ≤ 2000000

/-- The channel of a field: field channel `i` is channel i + 1. -/
def channelIndex (i : Fin 3) : Fin 4 := ⟨i.val + 1, by omega⟩

/-- The lane number of a field: field lane `i` is lane i + 1. -/
def laneIndex (i : Fin 24) : Nat := i.val + 1

/-- Changing one channel. -/
def onChannel (i : Fin 3) (f : Channel → Channel) (s : State) : State :=
  s.setComps (s.comps.put (f (s.comps.get (channelIndex i))) (channelIndex i))

/-- Changing one lane record. -/
def onLane (i : Fin 24) (f : LaneRecord → LaneRecord) (s : State) : State :=
  s.setPlan { s.plan with lanes := s.plan.lanes.modify i.val f }

def onParams (f : StopParams → StopParams) (s : State) : State :=
  s.setPlanner { s.planner with params := f s.planner.params }

def onGrading (f : Grading → Grading) (s : State) : State :=
  s.setReels { s.reels with grading := f s.reels.grading }

/-- The value a field shows now, for the upper word of a field written only by its last word (R167). -/
def fieldValue (s : State) : Field → Int
  | .pitch => s.pos.pitch
  | .offset st => s.pos.offset st
  | .horizon => s.pmap.horizon
  | .matchWindow => s.align.matchWindow
  | .spliceGuard => s.align.spliceGuard
  | .captureLimit => s.tracker.captureLimit
  | .strobePitch => s.tracker.strobePitch
  | .margin => s.planner.params.margin
  | .haltDist => s.planner.params.haltDist
  | .stopLead => s.planner.params.stopLead
  | .chBase i => (s.comps.get (channelIndex i)).base
  | .chReload i => (s.comps.get (channelIndex i)).reload
  | _ => 0

/-- A value taken when it lies in a range, and refused with BAD_ARG otherwise. -/
def takeRange (lo hi v : Int) (f : State → State) (s : State) : State :=
  if lo ≤ v ∧ v ≤ hi then setResult .ok (f s) else setResult .badArg s

/-- A code taken when it is in its list, and refused with BAD_ARG otherwise (section 9.5, Codes). -/
def takeCode {α : Type} (c : Option α) (f : α → State → State) (s : State) : State :=
  match c with
  | some x => setResult .ok (f x s)
  | none => setResult .badArg s

/-- A value taken whatever it is. -/
def takeAny (f : State → State) (s : State) : State := setResult .ok (f s)

/-- Bit 0 of a word, for an on/off, set/clear or 0/1 field (section 9.5, Codes; log 24). -/
def bitZero (d : Word) : Bool := d.getLsbD 0

/-- R127: a taken write of a field of the stop filter causes an evaluation. -/
def onFilter (f : StopParams → StopParams) (s : State) : State := evaluate (onParams f s)

/-- R73: a taken write of RESUME that finds the fill at or below the new value signals resume. -/
def storeResume (n : Nat) (s : State) : State :=
  let s := s.setDiq { s.diq with resume := n }
  if s.diq.messages.length ≤ n then signalResume s else s

/-- R96: a taken write of SHIFT_LIMIT, and its test of WEB_SHIFT. -/
def storeShiftLimit (v : Int) (s : State) : State :=
  let s := s.setPlan { s.plan with shiftLimit := v }
  storeWebShift s.plan.webShift s

/-- The write of a field whose value is the two words `hi`, `lo`, or `lo` alone for a field of one word, as the rule of the
field states: taken or refused, and RESULT set. -/
def writeField (f : Field) (hi lo : Word) (s : State) : State :=
  let v := unsigned32 hi lo
  let w := unsigned16 lo
  let n := lo.toNat
  match f with
  | .pitch => takeRange 1 16777216 v (fun s => s.setPos { s.pos with pitch := v }) s
  | .dirInvert => takeAny (fun s => s.setPos { s.pos with dirInvert := bitZero lo }) s
  | .clkdiv => takeRange 1000 65535 w (fun s => s.setPos { s.pos with clkdiv := n }) s
  | .offset st =>
    if (s.pos.setOffset v st).geometryOk then setResult .ok (s.setPos (s.pos.setOffset v st))
    else setResult .badGeometry s
  | .mergeWindow => takeAny (fun s => s.setTrack { s.track with mergeWindow := w }) s
  | .horizon => takeRange 1 100000000 v (fun s => lapseRelease (s.setPmap { s.pmap with horizon := v })) s
  | .mapXOffset => takeRange (-10000) 10000 (signed16 lo) (fun s => s.setPmap { s.pmap with xOffset := signed16 lo }) s
  | .matchWindow => takeRange 1 1000000 v (fun s => s.setAlign { s.align with matchWindow := v }) s
  | .spliceGuard => takeRange 0 1000000 v (fun s => s.setAlign { s.align with spliceGuard := v }) s
  | .spliceSource => takeCode (SpliceSource.ofCode n) (fun c s => s.setAlign { s.align with source := c }) s
  | .resume => takeRange 0 31 w (storeResume n) s
  | .holdLimit => takeRange 0 1000 w (fun s => s.setLink { s.link with holdLimit := n }) s
  | .gNarrow => takeRange 0 7 w (fun s => s.setTracker { s.tracker with gNarrow := n }) s
  | .gWide => takeRange 0 7 w (fun s => s.setTracker { s.tracker with gWide := n }) s
  | .wideWindow => takeRange 1 65535 w (fun s => s.setTracker { s.tracker with wideWindow := w }) s
  | .captureLimit =>
    takeRange 1 1000000 v (fun s => s.setTracker { s.tracker.invalidated with captureLimit := v }) s
  | .peakMode => takeCode (PeakMode.ofCode n) (fun c s => s.setTracker { s.tracker with peakMode := c }) s
  | .strobePitch => takeRange 1000 1000000 v (fun s => s.setTracker { s.tracker with strobePitch := v }) s
  | .autosnap => takeAny (fun s => s.setTally { s.tally with autosnap := bitZero lo }) s
  | .reelParity => takeCode (Parity.ofCode n) (fun c s => s.setReel { s.reel.noted with parity := c }) s
  | .reelDivisor => takeRange 1 65535 w (fun s => s.setReel { s.reel with divisor := n }) s
  | .frameGap => takeRange 1 255 w (fun s => s.setReel { s.reel.noted with frameGap := n }) s
  | .shiftLimit => takeRange 0 10000 w (storeShiftLimit w) s
  | .laneUse i => takeRange 0 1 w (onLane i fun l => { l with used := n == 1 }) s
  | .laneLeft i => takeAny (onLane i fun l => { l with left := w }) s
  | .laneWidth i => takeRange 1 65535 w (onLane i fun l => { l with width := w }) s
  | .laneShaft i => takeCode (Shaft.ofCode n) (fun c => onLane i fun l => { l with shaft := c }) s
  | .laneDisposition i => takeCode (Disposition.ofCode n) (fun c => onLane i fun l => { l with disposition := c }) s
  | .classDown c => takeRange 1 255 w (onGrading fun g => { g with classDown := g.classDown.set c.val n }) s
  | .classReject c => takeRange 1 255 w (onGrading fun g => { g with classReject := g.classReject.set c.val n }) s
  | .spliceDown => takeRange 1 255 w (onGrading fun g => { g with spliceDown := n }) s
  | .spliceReject => takeRange 1 255 w (onGrading fun g => { g with spliceReject := n }) s
  | .minLength => takeAny (onGrading fun g => { g with minLength := n }) s
  | .creepSpeed => takeRange 50 2000 w (onParams fun q => { q with creepSpeed := w }) s
  | .decel => takeRange 50 5000 w (onParams fun q => { q with decel := w }) s
  | .reaction => takeRange 0 500 w (onParams fun q => { q with reaction := w }) s
  | .margin => takeRange 0 1000000 v (onParams fun q => { q with margin := v }) s
  | .haltDist => takeRange 0 100000 v (onParams fun q => { q with haltDist := v }) s
  | .stopLead =>
    takeRange (-100000) 100000 (signed32 hi lo) (onParams fun q => { q with stopLead := signed32 hi lo }) s
  | .tolerance => takeRange 0 10000 w (onParams fun q => { q with tolerance := w }) s
  | .settle => takeRange 1 255 w (onParams fun q => { q with settle := n }) s
  | .flagStop => takeAny (onFilter fun q => { q with flagStop := bitZero lo }) s
  | .classMask => takeAny (onFilter fun q => { q with classMask := BitVec.ofNat 8 n }) s
  | .minSeverity => takeRange 0 3 w (onFilter fun q => { q with minSeverity := n }) s
  | .sourceMask => takeAny (onFilter fun q => { q with sourceMask := BitVec.ofNat 3 n }) s
  | .spliceStop => takeAny (onFilter fun q => { q with spliceStop := bitZero lo }) s
  | .lengthStop => takeAny (onFilter fun q => { q with lengthStop := bitZero lo }) s
  | .chBase i => takeAny (onChannel i fun ch => { ch with base := v }) s
  | .chReload i => takeAny (onChannel i fun ch => { ch with reload := v }) s
  | .chReference i => takeCode (Reference.ofCode n) (fun c => onChannel i fun ch => { ch with reference := c }) s
  | .chRun i => takeAny (onChannel i fun ch => { ch with run := bitZero lo }) s

end Sys2Proof.Machine
end

