-- ==== Sys2Proof/Machine/LinePortOps.lean ====
section
/-! DEFINITION. The Line Port: the single words, the commands, the table window and the handshake (sections 9.1, 9.2;
the commands by the rules that R164 names). -/

namespace Sys2Proof.Machine

/-- What serving an access comes to: XACK with the data driven, BFLT, or a wait for a class 5 operation. -/
inductive Served where
  | ack (dout : Option Word)
  | fault
  | wait (w : WaitingAccess)
  deriving DecidableEq, Repr

/-- A write that has been taken, or a command carried out. -/
def taken (s : State) : State × Served := (s, .ack none)

/-! ### Commands (R164) -/

/-- W0 of ROLL MOUNT: a signed 32-bit value, ARG0 high, ARG1 low. -/
def State.mountArg (s : State) : Int := signed32 s.port.arg0 s.port.arg1

/-- R12, R20, R57, R61, R82, R88: an accepted ROLL MOUNT with the outer end of the roll at `w0`. -/
def mountRoll (w0 : Int) (s : State) : State :=
  let s := s.setPos { s.pos with p := 0, frac := 0, sampleBase := 0, roll := .mounted }
  let s := s.setComps { s.comps with
    ch0 := { s.comps.ch0 with matchPoint := s.tracker.strobePitch, skipped := 0, run := true }
    strobeSeq := 0 }
  let s := s.setTracker { s.tracker.invalidated with history := [] }
  s.setAlign { s.align with anchors := [{ m := s.pmap.mEnd, w := w0 }], dLast := s.pmap.d0, lastGuarded := none }

/-- R12. -/
def cmdRollMount (s : State) : State :=
  if s.mounted then setResult .rollMounted s
  else if s.pmap.state = .opened then setResult .mapOpen s
  else if s.mountArg < -2000000 ∨ 2000000 < s.mountArg then setResult .badArg s
  else setResult .ok (mountRoll s.mountArg s)

/-- R13: the checks of ROLL END; an accepted one waits for its class 5 operation. -/
def cmdRollEnd (s : State) : State × Served :=
  if !s.mounted then taken (setResult .noRoll s)
  else if s.reels.openSet.isSome then taken (setResult .setOpen s)
  else (s, .wait .rollEnd)

/-- R52. -/
def cmdMapClear (s : State) : State :=
  if s.mounted then setResult .rollMounted s else setResult .ok (s.setPmap s.pmap.emptied)

/-- R104, R105, R110, R19: a set opened at `line` with its records, its comparators preset. -/
def openSet (line : Int) (target : Word) (s : State) : State := presetSetChannels (openSetAt line target.toNat s)

/-- R105. -/
def cmdSetStart (s : State) : State :=
  if !s.mounted then setResult .noRoll s
  else if s.reels.openSet.isSome then setResult .setOpen s
  else if s.plan.status ≠ .valid then setResult .badPlan s
  else setResult .ok (evaluate (openSet s.commitLine s.port.arg0 s))

/-- R107: the old set closed and the new one opened at one commit line. -/
def cmdSetChange (s : State) : State :=
  match s.reels.openSet with
  | none => setResult .noSet s
  | some o =>
    if s.plan.status ≠ .valid then setResult .badPlan s
    else if s.freeSlots < o.reels.length then refuseQueueFull s
    else setResult .ok (evaluate (openSet s.commitLine s.port.arg0 (dropOpenSet (closeRecords o s.commitLine .setChange s))))

/-- R106. -/
def cmdSetEnd (s : State) : State :=
  match s.reels.openSet with
  | none => setResult .noSet s
  | some o =>
    if s.freeSlots < o.reels.length then refuseQueueFull s
    else setResult .ok (evaluate (dropOpenSet (closeRecords o s.commitLine .setEnd s)))

/-- R144, R145, steps 1 to 4, with the length-stop state `st` for a length target; an entry target waits for its mark. -/
def dropTarget (st : LengthStop) (w : WaitingAccess) (s : State) : State × Served :=
  match s.planner.target with
  | .entry _ _ => (endStop s, .wait w)
  | .length n => taken (setResult .ok (evaluate (setLengthStop n st (endStop s))))
  | .none => taken (setResult .ok (evaluate (endStop s)))

/-- R144. -/
def cmdStopRelease (s : State) : State × Served :=
  if s.planner.state = .stopped then dropTarget .done .stopRelease s else taken (setResult .notStopped s)

/-- R145. -/
def cmdStopCancel (s : State) : State × Served :=
  if s.planner.state = .idle then taken (setResult .notStopped s) else dropTarget .skipped .stopCancel s

/-- A channel number that PRESET takes (R18). -/
def presetChannel : Nat → Option (Fin 4)
  | 1 => some 1
  | 2 => some 2
  | 3 => some 3
  | _ => none

/-- R18. -/
def cmdPreset (s : State) : State :=
  match presetChannel s.port.arg0.toNat with
  | some c => setResult .ok (s.setComps (s.comps.put (s.comps.get c).preset c))
  | none => setResult .badArg s

/-- R150. -/
def cmdSnapTallies (s : State) : State := setResult .ok (snapTallies .command none s)

/-- R164: the command whose code is the low byte of the word written (log 33). -/
def carryOut (d : Word) (s : State) : State × Served :=
  match d.toNat % 256 with
  | 0x01 => taken (cmdRollMount s)
  | 0x02 => cmdRollEnd s
  | 0x03 => taken (cmdMapClear s)
  | 0x04 => taken (cmdSetStart s)
  | 0x05 => taken (cmdSetChange s)
  | 0x06 => taken (cmdSetEnd s)
  | 0x07 => cmdStopRelease s
  | 0x08 => cmdStopCancel s
  | 0x09 => taken (cmdPreset s)
  | 0x0A => taken (cmdSnapTallies s)
  | 0x5A => taken (warmReset s)
  | _ => taken (setResult .badArg s)

/-! ### Single words (R158, R163) -/

/-- STATUS (R158). -/
def State.statusWord (s : State) : Word :=
  packed (flagBit s.mounted + flagBit s.reels.openSet.isSome * 2 + s.pmap.state.code * 4 +
    flagBit s.tracker.valid * 16 + flagBit s.registerFull * 32 + flagBit s.queueRoom * 64 +
    flagBit s.link.holding * 128 + flagBit s.pos.overspeed * 256 + flagBit s.walking * 512)

/-- STOP_STATE (R131). -/
def State.stopStateWord (s : State) : Word :=
  packed (s.planner.state.code + s.planner.target.kind.code * 16 + flagBit s.planner.short * 256 +
    flagBit s.planner.retargeted * 512)

/-- LANE GRADE CHANGE: lanes 1 to 16, and lanes 17 to 24 (R119). -/
def State.indicationWord (s : State) : Bank → Word
  | .a => s.reels.indications.setWidth 16
  | .b => (s.reels.indications >>> 16).setWidth 16

/-- R119: a write of LANE GRADE CHANGE clears each indication written with 1. -/
def clearIndications (bank : Bank) (d : Word) (s : State) : State :=
  let mask : BitVec 24 := match bank with
    | .a => d.setWidth 24
    | .b => (d.setWidth 24) <<< 16
  s.setReels { s.reels with indications := s.reels.indications &&& ~~~mask }

/-- The high half of P (R163). -/
def State.posHigh (s : State) : Word := wordOf (s.pos.p / 65536)

/-- R163: a read of POS_HI latches the low half of the same P. -/
def latchPosition (s : State) : State := s.setPort { s.port with posLatch := wordOf s.pos.p }

/-! ### The table window (R165 to R167) -/

/-- R165: TABLE_ADDR after an access that is not faulted. -/
def nextAddr (a : Nat) : Nat := min 65535 (a + 1)

/-- The address lies in the selected table (R165). -/
def LinePort.inTable (x : LinePort) : Bool := x.tableAddr < x.tableSelect.records * x.tableSelect.stride

/-- The record and the word of it that TABLE_ADDR names (R165). -/
def LinePort.recordNumber (x : LinePort) : Nat := x.tableAddr / x.tableSelect.stride
def LinePort.wordNumber (x : LinePort) : Nat := x.tableAddr % x.tableSelect.stride

/-- R81, R166: the copy of STROBES record 0 clears the peak in PEAK mode; other copies change nothing at their owner. -/
def copyEffect (t : Table) (r : Nat) (s : State) : State :=
  if t = .strobes ∧ r = 0 ∧ s.tracker.peakMode = .peak then s.setTracker { s.tracker with peak := 0 } else s

/-- R166: word 0 of a record: the whole record goes into the latch, and TABLE_ADDR advances. -/
def latchRecord (t : Table) (r : Nat) (s : State) : State :=
  let s := s.setPort { s.port with
    latch := some { table := t, record := r, words := recordWords s t r }
    tableAddr := nextAddr s.port.tableAddr }
  copyEffect t r s

/-- Word `k` of the record latch, when it holds record `r` of table `t`; 0 when it does not (R166). -/
def LinePort.latched (x : LinePort) (t : Table) (r k : Nat) : Word :=
  match x.latch with
  | none => 0
  | some l => if l.table = t ∧ l.record = r then l.words.getD k 0 else 0

/-- R165, R166: a read of TABLE_DATA. -/
def readTable (s : State) : State × Served :=
  let t := s.port.tableSelect
  let r := s.port.recordNumber
  let k := s.port.wordNumber
  if !s.port.inTable then (s, .fault)
  else if k = 0 then
    if t = .track then (s, .wait .trackRead)
    else (latchRecord t r s, .ack (some ((recordWords s t r).getD 0 0)))
  else (s.setPort { s.port with tableAddr := nextAddr s.port.tableAddr }, .ack (some (s.port.latched t r k)))

/-- R90, R165, R167: the field a write of TABLE_DATA reaches; none where the write ends in a bus fault. -/
def State.writableField (s : State) : Option FieldWord :=
  if !s.port.inTable then none
  else match fieldAt s.port.tableSelect s.port.recordNumber s.port.wordNumber with
  | none => none
  | some fw =>
    if s.port.tableSelect = .slitPlan ∧ s.reels.openSet.isSome then none
    else if s.port.tableSelect = .config ∧ fw.field.rollLocked ∧ s.mounted then none
    else some fw

/-- R167: the upper word of a field whose last word is written: the one held for it, or the one it has. -/
def State.upperOf (s : State) (f : Field) : Word :=
  let present := wordOf (fieldValue s f / 65536)
  match s.port.held with
  | none => present
  | some (g, u) => if g = f then u else present

/-- R165 to R167: the port after a TABLE_DATA write that is not faulted, with the held part it leaves. -/
def LinePort.afterWrite (x : LinePort) (held : Option (Field × Word)) : LinePort :=
  { x with latch := none, held := held, tableAddr := nextAddr x.tableAddr }

/-- R167: a write of TABLE_DATA. -/
def writeTable (d : Word) (s : State) : State × Served :=
  match s.writableField with
  | none => (s, .fault)
  | some fw =>
    if fw.last then
      let s := writeField fw.field (s.upperOf fw.field) d s
      taken (s.setPort (s.port.afterWrite none))
    else taken (s.setPort (s.port.afterWrite (some (fw.field, d))))

/-- R162, R165: a write of TABLE_SELECT. -/
def selectTable (d : Word) (s : State) : State × Served :=
  match Table.ofCode d.toNat with
  | none => (s, .fault)
  | some t => taken (s.setPort { s.port with tableSelect := t, tableAddr := 0, latch := none, held := none })

/-! ### Serving an access (R161 to R163) -/

/-- A read: the word of R163; BFLT for COMMAND and for words 24 to 31 (R162). -/
def serveRead (word : Fin 32) (s : State) : State × Served :=
  let gives := fun (w : Word) => (s, Served.ack (some w))
  match word.val with
  | 0 => gives 0x4601
  | 1 => gives s.statusWord
  | 3 => gives (wordN s.port.result.code)
  | 4 => gives s.port.arg0
  | 5 => gives s.port.arg1
  | 6 => gives s.port.arg2
  | 7 => gives s.port.arg3
  | 8 => (latchPosition s, .ack (some s.posHigh))
  | 9 => gives s.port.posLatch
  | 10 => gives (wordOf s.pos.v)
  | 11 => gives (wordOf s.plan.webShift)
  | 12 => gives s.stopStateWord
  | 13 => gives (wordOf s.stopError)
  | 14 => gives s.events.flagsA
  | 15 => gives s.events.flagsB
  | 16 => gives s.events.enableA
  | 17 => gives s.events.enableB
  | 18 => gives (s.indicationWord .a)
  | 19 => gives (s.indicationWord .b)
  | 20 => gives (wordN s.port.tableSelect.code)
  | 21 => gives (wordN s.port.tableAddr)
  | 22 => readTable s
  | 23 => gives (wordN s.queue.records.length)
  | _ => (s, .fault)

/-- A write; BFLT for the read-only words and for words 24 to 31 (R162). -/
def serveWrite (word : Fin 32) (d : Word) (s : State) : State × Served :=
  match word.val with
  | 2 => carryOut d s
  | 4 => taken (s.setPort { s.port with arg0 := d })
  | 5 => taken (s.setPort { s.port with arg1 := d })
  | 6 => taken (s.setPort { s.port with arg2 := d })
  | 7 => taken (s.setPort { s.port with arg3 := d })
  | 11 => taken (storeWebShift (signed16 d) s)
  | 14 => taken (s.setEvents (s.events.clear .a d))
  | 15 => taken (s.setEvents (s.events.clear .b d))
  | 16 => taken (s.setEvents (s.events.setEnables .a d))
  | 17 => taken (s.setEvents (s.events.setEnables .b d))
  | 18 => taken (clearIndications .a d s)
  | 19 => taken (clearIndications .b d s)
  | 20 => selectTable d s
  | 21 => taken (s.setPort { s.port with tableAddr := d.toNat })
  | 22 => writeTable d s
  | _ => (s, .fault)

/-- R161: an access served. -/
def serve (a : BusAccess) (s : State) : State × Served :=
  match a with
  | .read word => serveRead word s
  | .write word d => serveWrite word d s

/-! ### The handshake (R161, R162) -/

/-- The outputs an access served puts on the handshake lines, with DS asserted. -/
def answer (r : State × Served) : State :=
  match r.2 with
  | .ack d => r.1.setPort { r.1.port with ds := true, xack := true, bflt := false, dout := d }
  | .fault => r.1.setPort { r.1.port with ds := true, xack := false, bflt := true, dout := none }
  | .wait w => r.1.setPort { r.1.port with ds := true, xack := false, bflt := false, dout := none, access := some w }

/-- R161: CS and DS asserted for an access. While one whose DS was negated early is still being served, the new one
begins when that access completes (log 10, log 11). -/
def beginAccess (a : BusAccess) (s : State) : State :=
  if s.port.access.isSome then s.setPort { s.port with ds := true, early := true, next := some a }
  else answer (serve a s)

/-- R161: the access that waited for its class 5 operation completes. XACK is not asserted when DS was negated early;
an access asked for behind it then begins. -/
def finishAccess (dout : Option Word) (s : State) : State :=
  if s.port.early then
    let asked := s.port.next
    let s := s.setPort { s.port with access := none, early := false, next := none }
    match asked with
    | none => s
    | some a => beginAccess a s
  else s.setPort { s.port with access := none, xack := true, dout := dout }

/-- R161, R162: DS negated. An access still being served goes on without its acknowledge. -/
def negateStrobe (s : State) : State :=
  s.setPort { s.port with
    ds := false
    xack := false
    bflt := false
    dout := none
    early := s.port.access.isSome
    next := none }

end Sys2Proof.Machine
end

