-- ==== Sys2Proof/Machine/Position.lean ====
section
/-! DEFINITION. The meanings of COLD_RESET, ENCODER_TRANSITION, TICK, PULSE_END and SPEED_SAMPLE (chapter 01). -/

namespace Sys2Proof.Machine

/-! ### Encoder (R1 to R4) -/

/-- What a change of the level pair is (R1). -/
inductive Turn where
  | unchanged
  | forward
  | reverse
  | illegal
  deriving DecidableEq, Repr

/-- The place of a pair in the cycle 00, 10, 11, 01 (R1). -/
def quarter : Bool → Bool → Nat
  | false, false => 0
  | true, false => 1
  | true, true => 2
  | false, true => 3

/-- R1: the transition from the accepted pair to a new one. -/
def PositionUnit.turn (x : PositionUnit) (a b : Bool) : Turn :=
  match (quarter a b + 4 - quarter x.encA x.encB) % 4 with
  | 0 => .unchanged
  | 1 => if x.dirInvert then .reverse else .forward
  | 2 => .illegal
  | _ => if x.dirInvert then .forward else .reverse

/-- The accumulator in 1/65,536 pu (R2). -/
def PositionUnit.accumulator (x : PositionUnit) : Int := x.p * 65536 + x.frac

/-- R2, R3: the accumulator after a count that adds `d`, and whether it was clamped. -/
def PositionUnit.counted (x : PositionUnit) (d : Int) : PositionUnit × Bool :=
  let n := x.accumulator + d
  if n < 0 then ({ x with p := 0, frac := 0 }, true)
  else if posMax * 65536 + 65535 < n then ({ x with p := posMax, frac := 65535 }, true)
  else ({ x with p := n / 65536, frac := n % 65536 }, false)

/-- R2: a changed P handed to the comparators, which test only a rise, and to the Stop Planner. Due entries and the
release cursor are read from P by the arbiter (log 4); a release that a fall of P takes back is noted (log 5). -/
def handOnP (old : Int) (s : State) : State :=
  if s.pos.p = old then s
  else lapseRelease (positionTest (if old < s.pos.p then testComparators s else s))

/-- R2, R3: a count. -/
def count (d : Int) (s : State) : State :=
  let r := s.pos.counted d
  handOnP s.pos.p (raiseIf r.2 .positionLimit (s.setPos r.1))

/-- R1: the new pair stands on the pins and is the accepted pair. -/
def acceptPair (a b : Bool) (s : State) : State :=
  (s.setPins { s.pins with encA := a, encB := b }).setPos { s.pos with encA := a, encB := b }

/-- R1 to R4. -/
def transition (a b : Bool) (s : State) : State :=
  match s.pos.turn a b with
  | .unchanged => acceptPair a b s
  | .forward => count s.pos.pitch (acceptPair a b s)
  | .reverse => count (-s.pos.pitch) (acceptPair a b s)
  | .illegal => raise .encoderFault (countTotal .encoderFaults 1 (acceptPair a b s))

/-! ### Timebase and speed (R6 to R9) -/

/-- R6, R7: a tick ends and the next begins under the present CLKDIV; the tenth makes a speed sample due. -/
def PositionUnit.ticked (x : PositionUnit) : PositionUnit :=
  { x with
    tickCount := 0
    tickDivisor := x.clkdiv
    sampleCount := (x.sampleCount + 1) % 10
    sampleDue := x.sampleDue || 9 ≤ x.sampleCount }

/-- R17: a tick has ended since the latest match of an asserted output (log 8). -/
def Channel.ticked (ch : Channel) : Channel := { ch with outTicked := ch.out }

def Comparators.ticked (c : Comparators) : Comparators :=
  { c with ch0 := c.ch0.ticked, ch1 := c.ch1.ticked, ch2 := c.ch2.ticked, ch3 := c.ch3.ticked }

/-- R170: the hold timer, which no HOLD_LIMIT exceeds at 1,000. -/
def InspectionLink.ticked (x : InspectionLink) : InspectionLink :=
  if x.holding then { x with holdTicks := min 1000 (x.holdTicks + 1) } else x

/-- R173, R174: the transmitter and the gap timer, which no FRAME_GAP exceeds at 256, after a tick of `periods`. -/
def ReelLink.ticked (x : ReelLink) (periods : Nat) : ReelLink :=
  { x.transmit periods with gapTicks := min 256 (x.gapTicks + 1) }

/-- R6: one tick of the timebase, and what it times. -/
def tick (s : State) : State :=
  let s' := (s.setPos s.pos.ticked).setComps s.comps.ticked
  (s'.setLink s.link.ticked).setReel (s.reel.ticked s.pos.tickDivisor)

/-- R17: the output of channel `i` is negated when a tick has ended since its latest match. -/
def endPulse (i : Fin 4) (s : State) : State :=
  let ch := s.comps.get i
  if ch.out ∧ ch.outTicked then s.setComps (s.comps.put { ch with out := false, outTicked := false } i) else s

/-- R7: ΔP of the sample. -/
def PositionUnit.delta (x : PositionUnit) : Int := x.p - x.sampleBase

/-- R7, R8, R9: the Position Unit at a speed sample. -/
def PositionUnit.sampled (x : PositionUnit) : PositionUnit :=
  let v := clampInt (-20000) 20000 (x.delta * 10)
  { x with
    sampleDue := false
    v := v
    sampleBase := x.p
    overspeed := decide (2000 < absInt x.delta)
    settle := if v = 0 then saturate 255 1 x.settle else 0 }

/-- R7, R8: the sample measured, with the rise of OVERSPEED. -/
def measure (s : State) : State :=
  raiseIf (s.pos.sampled.overspeed && !s.pos.overspeed) .overspeed (s.setPos s.pos.sampled)

/-- R7: a speed sample, handed to the Stop Planner and the Alignment Unit. -/
def speedSample (s : State) : State :=
  if s.pos.sampleDue then declareMissed (evaluateAtSample (measure s)) else s

/-! ### Meanings -/

/-- COLD_RESET (R10 and every block's reset rule). -/
def execColdReset (encA encB : Bool) (adr : BitVec 3) (s : State) : Host.Outcome State Fault Refusal :=
  .next (coldReset encA encB adr s)

/-- ENCODER_TRANSITION (R1 to R4). -/
def execEncoderTransition (encA encB : Bool) (s : State) : Host.Outcome State Fault Refusal :=
  .next (transition encA encB s)

/-- TICK (R6). -/
def execTick (s : State) : Host.Outcome State Fault Refusal := .next (tick s)

/-- PULSE_END (R17). -/
def execPulseEnd (channel : Fin 4) (s : State) : Host.Outcome State Fault Refusal := .next (endPulse channel s)

/-- SPEED_SAMPLE (R7). -/
def execSpeedSample (s : State) : Host.Outcome State Fault Refusal := .next (speedSample s)

end Sys2Proof.Machine
end

