-- ==== Sys2Proof/Machine/TrackList.lean ====
section
/-! DEFINITION. The meanings of the Track List operations, each one grant of the arbiter (R26): KNIFE_PASSAGE, COMMIT,
WALK_STEP, CONFIRMATION, MARKING, LIVE_SPLICE_PLACEMENT, DETECTION, MAP_RELEASE, TRACK_RECORD_LATCH, ROLL_END_EMPTYING,
STOPPED_MARK_WRITE, SKIPPED_MARK_WRITE. An operation that is not the one the arbiter grants changes nothing (log 2,
log 4). -/

namespace Sys2Proof.Machine

/-! ### Class 1 (R40 to R42) -/

/-- R41: an entry passed in its place; its w and its order do not change. -/
def passInPlace (e : Entry) (s : State) : State :=
  setEntries (s.track.entries.map fun f => if f.ident = e.ident then passKnife s f else f) s

/-- R41: the first due entry, AHEAD, passes the knife; one with PENDING_REPLACE is re-placed first and tested there. -/
def knifePassage (s : State) : State :=
  match s.firstDue with
  | none => s
  | some e =>
    match e.passage with
    | .slit _ _ => s
    | .ahead => if e.pendingReplace then completeOp true s (replaceEntry e s) else completeOp false s (passInPlace e s)

/-- R42: the first due entry, SLIT, is committed; one with PENDING_REPLACE is re-placed first and tested there. -/
def commitDue (s : State) : State :=
  match s.firstDue with
  | none => s
  | some e =>
    match e.passage with
    | .ahead => s
    | .slit _ _ =>
      if e.pendingReplace then completeOp true s (replaceEntry e s)
      else completeOp true s (commitEntry e (takeEntry e s))

/-! ### Class 2 (R46, R65, R67 to R69) -/

/-- R69: the first entry in list order that carries PENDING_REPLACE. -/
def State.firstPending (s : State) : Option Entry := s.track.entries.find? fun e => e.pendingReplace

/-- R69. -/
def walkStep (s : State) : State :=
  if s.grantsTwo ∧ s.walkRequested then
    match s.firstPending with
    | none => s
    | some e => settleYields (completeOp true s (replaceEntry e s))
  else s

/-- R46: an entry confirmed at the sighting's w. -/
def confirmedEntry (e : Entry) (w : Int) : Entry := { e with source := .confirmed, w := w, pendingReplace := false }

/-- R46, R67: the confirmation at the head of the write queue, for the entry that carries the map index. -/
def confirmEntry (index : Nat) (w : Int) (s : State) : State :=
  match s.track.entries.find? fun e => e.mapIndex == some index with
  | none => popWrite s
  | some e => completeOp true s (placeMoved (confirmedEntry e w) (takeEntry e (popWrite s)))

/-- The write the Alignment Unit keeps waiting, when the arbiter grants class 2 (R26, R67). -/
def State.grantedWrite (s : State) : Option AlignWrite := if s.grantsTwo then s.align.queue.head? else none

/-- R46. -/
def confirmation (s : State) : State :=
  match s.grantedWrite with
  | some (.confirmation index w) => confirmEntry index w s
  | some (.marking _) => s
  | some (.liveSplice _ _ _) => s
  | none => s

/-- R68: an entry that a marking marks. -/
def State.isMarked (s : State) (bound : Int) (e : Entry) : Bool :=
  e.source == .map &&
  match e.mapIndex with
  | none => false
  | some i =>
    match s.mapRecord i with
    | none => false
    | some r => r.m < bound

/-- R68: PENDING_REPLACE set on every MAP entry whose press coordinate lies below the bound. -/
def markBelow (bound : Int) (s : State) : State :=
  setEntries (s.track.entries.map fun e => if s.isMarked bound e then { e with pendingReplace := true } else e) s

/-- R68. -/
def marking (s : State) : State :=
  match s.grantedWrite with
  | some (.marking bound) => markBelow bound (popWrite s)
  | some (.confirmation _ _) => s
  | some (.liveSplice _ _ _) => s
  | none => s

/-- R65: the item of a live splice. -/
def liveSpliceItem (w : Int) (source : SightingSource) (unsynced : Bool) : Item where
  kind := .splice
  source := source.source
  w := w
  len := 0
  x0 := 0
  x1 := 0
  cls := 0
  sev := 0
  mapIndex := none
  unsynced := unsynced

/-- R30, R84: a live splice placed; one above 4,294,967,295 is discarded, one below 0 is late. -/
def placeLiveSplice (it : Item) (s : State) : State :=
  if posMax < it.w then countTotal .linkDropped 1 s
  else if it.w < 0 then lateItem .splice it.w it.cls none s
  else
    let r := placeItem it s
    completeOp r.2.handsOn s r.1

/-- R65. -/
def liveSplicePlacement (s : State) : State :=
  match s.grantedWrite with
  | some (.liveSplice w source unsynced) => placeLiveSplice (liveSpliceItem w source unsynced) (popWrite s)
  | some (.confirmation _ _) => s
  | some (.marking _) => s
  | none => s

/-! ### Class 3 (R75, R85) -/

/-- R85: the item of a detection, converted with o as it stands. -/
def detectionItem (s : State) (c len x0 x1 : Int) (cls : Fin 8) (sev : Fin 4) : Item where
  kind := .flag
  source := .live
  w := c + s.tracker.used - s.pos.offInspect
  len := len
  x0 := x0
  x1 := x1
  cls := cls
  sev := sev
  mapIndex := none
  unsynced := !s.tracker.valid

/-- R35: a detection merged into an entry, which is moved and tested at the detection's w. -/
def mergeInto (e : Entry) (it : Item) (s : State) : State :=
  countTotal .merged 1 (placeMoved (mergedEntry e it) (takeEntry e s))

/-- R30: a live flag that merges with none, and its count. -/
def placeFlag (it : Item) (s : State) : State × Bool :=
  let r := placeItem it s
  (if r.2.handsOn then countTotal .placed 1 r.1 else r.1, r.2.handsOn)

/-- R30, R85: a detection placed; above 4,294,967,295 it is dropped, below 0 it is late. -/
def placeDetection (it : Item) (s : State) : State :=
  if posMax < it.w then setLastResult .badField (countTotal .linkDropped 1 s)
  else if it.w < 0 then setLastResult .ok (lateItem .flag it.w it.cls none s)
  else match mergeTarget it s with
  | some e => setLastResult .ok (completeOp true s (mergeInto e it s))
  | none =>
    let r := placeFlag it s
    setLastResult .ok (completeOp r.2 s r.1)

/-- R75, R85: a DETECTION at the head, tested when it is served (log 32) and placed at its grant. -/
def detection (s : State) : State :=
  match s.diq.messages with
  | .detection c len x0 x1 cls sev :: _ =>
    if !s.mounted then discardMessage .noRoll s
    else if x1 < x0 then discardMessage .badField s
    else if s.grantsThree then placeDetection (detectionItem s c len x0 x1 cls sev) (grantDetection (popMessage s))
    else s
  | _ => s

/-! ### Class 4 (R54, R55) -/

/-- R55: an extent's edge with MAP_X_OFFSET added. -/
def shiftEdge (offset x : Int) : Int := clampInt 0 65535 (x + offset)

/-- R55: the item of map record `i`. -/
def releaseItem (s : State) (i : Nat) (r : MapRecord) : Item where
  kind := r.kind
  source := if r.kind = .splice ∧ r.matchState = .matched then .confirmed else .map
  w := s.predict r.m
  len := match r.kind with
    | .flag => min (r.len * 10) 65535
    | .splice => 0
  x0 := match r.kind with
    | .flag => shiftEdge s.pmap.xOffset r.x0
    | .splice => 0
  x1 := match r.kind with
    | .flag => shiftEdge s.pmap.xOffset r.x1
    | .splice => 0
  cls := r.cls
  sev := r.sev
  mapIndex := some i
  unsynced := false

/-- R37, R54: the class 4 request is withheld until room is signalled. -/
def withholdRelease (s : State) : State := s.setPmap { s.pmap with withheld := true }

/-- R53, R55: the release of a record as an item. -/
def releaseRecord (i : Nat) (it : Item) (s : State) : State :=
  if it.w < 0 then countTotal .released 1 (lateItem it.kind it.w it.cls it.mapIndex s)
  else
    let r := placeItem it s
    match r.2 with
    | .stored => completeOp true s (countTotal .released 1 (setStatus (some i) .released r.1))
    | .committed => completeOp true s (countTotal .released 1 r.1)
    | .late => countTotal .released 1 r.1
    | .lost => r.1
    | .heldBack => withholdRelease r.1

/-- R55: the record at the release cursor, when the arbiter grants class 4. -/
def mapRelease (s : State) : State :=
  if s.grantsFour ∧ s.classFour then
    match s.pmap.cursor with
    | none => s
    | some i =>
      match s.mapRecord i with
      | none => s
      | some r => releaseRecord i (releaseItem s i r) (grantRelease s)
  else s

/-! ### Class 5 (R28, R47, R144, R145) -/

/-- The Line Port access whose class 5 operation the arbiter grants. -/
def State.grantedAccess (s : State) : Option WaitingAccess := if s.grantsFive then s.port.access else none

/-- R28, R166: a TRACK record latched. -/
def latchTrack (s : State) : State :=
  let r := s.port.recordNumber
  finishAccess (some ((recordWords s .track r).getD 0 0)) (latchRecord .track r s)

/-- R28. -/
def trackRecordLatch (s : State) : State :=
  if s.grantedAccess = some .trackRead then latchTrack (grantAccess s) else s

/-- R84: a SPLICE SIGHTING that waits for room at the head when the roll becomes NO_ROLL is discarded. -/
def dropWaitingSighting (s : State) : State := if s.sightingWaits then discardMessage .noRoll s else s

/-- R13, R47, R61, R70, R84, R147: the effects of an accepted ROLL END. -/
def emptyRoll (s : State) : State :=
  let s := dropWaitingSighting s
  let s := signalRoom s.track.entries.length
    (setEntries [] (countTotal .unwound s.track.entries.length s))
  let s := s.setPmap s.pmap.emptied
  let s := s.setAlign { s.align with queue := [], latch := none, lastGuarded := none, yields := Yields.none }
  let s := s.setPlanner { s.planner.idled with setAside := none }
  let s := s.setComps { s.comps with ch0 := { s.comps.ch0 with run := false, out := false, outTicked := false } }
  setResult .ok (s.setPos { s.pos with roll := .noRoll })

/-- R13, R47. -/
def rollEndEmptying (s : State) : State :=
  if s.grantedAccess = some .rollEnd then finishAccess none (emptyRoll s) else s

/-- R23: the mark STOPPED. -/
def markStopped (e : Entry) : Entry := { e with stopped := true }

/-- R23: the mark SKIPPED. -/
def markSkipped (e : Entry) : Entry := { e with skipped := true }

/-- R144, step 2 and step 4; RESULT is written here (log 39). -/
def stoppedMarkWrite (s : State) : State :=
  if s.grantedAccess = some .stopRelease then
    finishAccess none (setResult .ok (writeMark markStopped (grantAccess s)))
  else s

/-- R145. -/
def skippedMarkWrite (s : State) : State :=
  if s.grantedAccess = some .stopCancel then
    finishAccess none (setResult .ok (writeMark markSkipped (grantAccess s)))
  else s

/-! ### Meanings -/

/-- KNIFE_PASSAGE (R41). -/
def execKnifePassage (s : State) : Host.Outcome State Fault Refusal := .next (knifePassage s)

/-- COMMIT (R42). -/
def execCommit (s : State) : Host.Outcome State Fault Refusal := .next (commitDue s)

/-- WALK_STEP (R69). -/
def execWalkStep (s : State) : Host.Outcome State Fault Refusal := .next (walkStep s)

/-- CONFIRMATION (R46). -/
def execConfirmation (s : State) : Host.Outcome State Fault Refusal := .next (confirmation s)

/-- MARKING (R68). -/
def execMarking (s : State) : Host.Outcome State Fault Refusal := .next (marking s)

/-- LIVE_SPLICE_PLACEMENT (R65). -/
def execLiveSplicePlacement (s : State) : Host.Outcome State Fault Refusal := .next (liveSplicePlacement s)

/-- DETECTION (R85). -/
def execDetection (s : State) : Host.Outcome State Fault Refusal := .next (detection s)

/-- MAP_RELEASE (R55). -/
def execMapRelease (s : State) : Host.Outcome State Fault Refusal := .next (mapRelease s)

/-- TRACK_RECORD_LATCH (R28). -/
def execTrackRecordLatch (s : State) : Host.Outcome State Fault Refusal := .next (trackRecordLatch s)

/-- ROLL_END_EMPTYING (R47). -/
def execRollEndEmptying (s : State) : Host.Outcome State Fault Refusal := .next (rollEndEmptying s)

/-- STOPPED_MARK_WRITE (R144). -/
def execStoppedMarkWrite (s : State) : Host.Outcome State Fault Refusal := .next (stoppedMarkWrite s)

/-- SKIPPED_MARK_WRITE (R145). -/
def execSkippedMarkWrite (s : State) : Host.Outcome State Fault Refusal := .next (skippedMarkWrite s)

end Sys2Proof.Machine
end

