-- ==== Sys2Proof/Machine/Messages.lean ====
section
/-! DEFINITION. The meanings of the splice sightings (SPLICE_SENSOR_EDGE, LATCHED_SIGHTING_TAKEN, SPLICE_SIGHTING) and of
the messages at the head of the DIQ (MAP_BEGIN, MAP_RECORD, MAP_CLOSE, BEACON). A command whose message is not at the
head changes nothing (log 2). -/

namespace Sys2Proof.Machine

/-! ### Sightings (R60, R84) -/

/-- R60: the w of a sensor sighting. -/
def State.sensorW (s : State) : Int := s.pos.p - s.pos.offSplice

/-- R60: an edge of SPLC while a roll is mounted and the sensor is selected. -/
def sensorSighting (s : State) : State :=
  if s.align.latch.isSome then countTotal .sightingsIgnored 1 s
  else if s.takesSighting then takeSighting s.sensorW .sensor false s
  else s.setAlign { s.align with latch := some s.sensorW }

/-- R60: a rising edge of SPLC. -/
def sensorEdge (s : State) : State :=
  if s.mounted ∧ s.align.source.selects .sensor then sensorSighting s else s

/-- R60: the latched sighting, when two places have come free. SPLICE_SOURCE selected the sensor at its edge and is not
tested again; SPLICE_GUARD and MATCH_WINDOW are those that stand as it is taken. DESIGN CHOICE (log 41): the rules do not
say whether a write of these made meanwhile applies to it. -/
def takeLatched (s : State) : State :=
  match s.align.latch with
  | none => s
  | some w =>
    if s.takesSighting then takeSighting w .sensor false (s.setAlign { s.align with latch := none }) else s

/-- R84: the w of a camera stamp. -/
def State.cameraW (s : State) (stamp : Int) : Int := stamp + s.tracker.used - s.pos.offSplice

/-- R84: a camera sighting that passes the roll test. A latched sensor sighting goes before it (R60). -/
def cameraSighting (stamp : Int) (s : State) : State :=
  if !s.align.source.selects .camera then setLastResult .ok (popMessage s)
  else if s.holdsCamera then s
  else setLastResult .ok (takeSighting (s.cameraW stamp) .camera (!s.tracker.valid) (popMessage s))

/-- R75, R84: a SPLICE SIGHTING at the head. -/
def spliceSighting (s : State) : State :=
  match s.diq.messages with
  | .spliceSighting stamp :: _ => if s.mounted then cameraSighting stamp s else discardMessage .noRoll s
  | _ => s

/-! ### Press map messages (R49 to R51) -/

/-- R49: the checks of MAP BEGIN, in order. -/
def beginResult (s : State) (mEnd d0 : Int) : ResultCode :=
  if s.mounted then .rollMounted
  else if s.pmap.state = .opened then .mapState
  else if mEnd < 1 ∨ d0 < -32768 ∨ 32767 < d0 then .badField
  else .ok

/-- R49: the map an accepted MAP BEGIN opens. -/
def PressMap.openedWith (m : PressMap) (id : Nat) (mEnd d0 : Int) : PressMap :=
  { m with state := .opened, id := some id, mEnd := mEnd, d0 := d0, records := [], truncated := false }

/-- R49, R75: a MAP BEGIN at the head. -/
def serveMapBegin (id : Nat) (mEnd d0 : Int) (s : State) : State :=
  let r := beginResult s mEnd d0
  let s := setLastResult r (popMessage s)
  if r = .ok then s.setPmap (s.pmap.openedWith id mEnd d0) else s

def mapBegin (s : State) : State :=
  match s.diq.messages with
  | .mapBegin id mEnd d0 :: _ => serveMapBegin id mEnd d0 s
  | _ => s

/-- R50: m is at or below the m of the last record taken. -/
def PressMap.inOrder (m : PressMap) (x : Int) : Bool :=
  match m.records.getLast? with
  | none => true
  | some r => x ≤ r.m

/-- R50: the fields of a record are in their ranges. -/
def PressMap.fieldsOk (pm : PressMap) (m x0 x1 : Int) (packed : Byte) : Bool :=
  match packedKind packed with
  | none => false
  | some .flag => m ≤ pm.mEnd && x0 ≤ x1
  | some .splice => m ≤ pm.mEnd

/-- R50: the checks of MAP RECORD, in order. -/
def PressMap.recordResult (pm : PressMap) (m x0 x1 : Int) (packed : Byte) : ResultCode :=
  if pm.state ≠ .opened then .mapState
  else if 4096 ≤ pm.records.length then .mapFull
  else if !pm.fieldsOk m x0 x1 packed then .badField
  else if !pm.inOrder m then .mapOrder
  else .ok

/-- R50: the record taken; a SPLICE keeps no length, extent, class or severity. -/
def recordOf (m len x0 x1 : Int) (packed : Byte) : MapRecord :=
  match packedKind packed with
  | some .splice =>
    { kind := .splice, m := m, len := 0, x0 := 0, x1 := 0, cls := 0, sev := 0
      status := .unreleased, matchState := .unmatched }
  | _ =>
    { kind := .flag, m := m, len := len, x0 := x0, x1 := x1
      cls := classOf (packed.toNat / 4), sev := severityOf packed.toNat
      status := .unreleased, matchState := .unmatched }

/-- R50: what the result of a MAP RECORD makes of the map. -/
def PressMap.afterRecord (pm : PressMap) (r : ResultCode) (rec : MapRecord) : PressMap :=
  if r = .ok then { pm with records := pm.records ++ [rec] }
  else if r = .mapFull then { pm with truncated := true }
  else pm

/-- R50, R75: a MAP RECORD at the head. -/
def serveMapRecord (m len x0 x1 : Int) (packed : Byte) (s : State) : State :=
  let r := s.pmap.recordResult m x0 x1 packed
  let s := setLastResult r (popMessage s)
  s.setPmap (s.pmap.afterRecord r (recordOf m len x0 x1 packed))

def mapRecord (s : State) : State :=
  match s.diq.messages with
  | .mapRecord m len x0 x1 packed :: _ => serveMapRecord m len x0 x1 packed s
  | _ => s

/-- R51: the map closed by a sender that sent `count` records. -/
def PressMap.closedWith (pm : PressMap) (count : Nat) : PressMap :=
  { pm with state := .closed, truncated := pm.truncated || count != pm.records.length }

/-- R51, R75: a MAP CLOSE at the head. -/
def serveMapClose (count : Nat) (s : State) : State :=
  let s := popMessage s
  if s.pmap.state = .opened then
    let s := setLastResult .ok (s.setPmap (s.pmap.closedWith count))
    raiseIf s.pmap.truncated .mapTruncated s
  else setLastResult .mapState s

def mapClose (s : State) : State :=
  match s.diq.messages with
  | .mapClose count :: _ => serveMapClose count s
  | _ => s

/-! ### Beacons (R78 to R81) -/

/-- R77, R78: the history entry of a strobe number. -/
def OffsetTracker.strobe (t : OffsetTracker) (number : Nat) : Option Strobe :=
  t.history.find? fun h => h.number == number

/-- R80: the new o for a residual `r` of a sample `e`. -/
def OffsetTracker.step (t : OffsetTracker) (e r : Int) : Int :=
  if t.captureLimit < absInt r then e
  else if t.wideWindow < absInt r then t.o + roundDiv r (2 ^ t.gWide)
  else t.o + roundDiv r (2 ^ t.gNarrow)

/-- R81: the peak register after a residual `r`. -/
def OffsetTracker.peakAfter (t : OffsetTracker) (r : Int) : Int :=
  let a := min (absInt r) posMax
  match t.peakMode with
  | .peak => max t.peak a
  | .current => a

/-- R79: the tracker after its first sample. -/
def OffsetTracker.started (t : OffsetTracker) (e : Int) : OffsetTracker :=
  { t with o := e, valid := true, latest := some e, peak := 0 }

/-- R80, R81: the tracker after a later sample. -/
def OffsetTracker.followed (t : OffsetTracker) (e : Int) : OffsetTracker :=
  { t with o := t.step e (e - t.o), latest := some e, peak := t.peakAfter (e - t.o) }

/-- R79, R80: a sample taken. -/
def takeSample (e : Int) (s : State) : State :=
  if s.tracker.valid then
    raiseIf (s.tracker.captureLimit < absInt (e - s.tracker.o)) .offsetJump (s.setTracker (s.tracker.followed e))
  else s.setTracker (s.tracker.started e)

/-- R78: a BEACON at the head, taken or stale. -/
def serveBeacon (number : Nat) (position : Int) (s : State) : State :=
  let s := popMessage s
  match s.tracker.strobe number with
  | none => countTotal .staleBeacons 1 s
  | some h => setLastResult .ok (takeSample (h.p - position) s)

def beacon (s : State) : State :=
  match s.diq.messages with
  | .beacon number position :: _ => serveBeacon number position s
  | _ => s

/-! ### Meanings -/

/-- SPLICE_SENSOR_EDGE (R60). -/
def execSpliceSensorEdge (s : State) : Host.Outcome State Fault Refusal := .next (sensorEdge s)

/-- LATCHED_SIGHTING_TAKEN (R60). -/
def execLatchedSightingTaken (s : State) : Host.Outcome State Fault Refusal := .next (takeLatched s)

/-- SPLICE_SIGHTING (R84). -/
def execSpliceSighting (s : State) : Host.Outcome State Fault Refusal := .next (spliceSighting s)

/-- MAP_BEGIN (R49). -/
def execMapBegin (s : State) : Host.Outcome State Fault Refusal := .next (mapBegin s)

/-- MAP_RECORD (R50). -/
def execMapRecord (s : State) : Host.Outcome State Fault Refusal := .next (mapRecord s)

/-- MAP_CLOSE (R51). -/
def execMapClose (s : State) : Host.Outcome State Fault Refusal := .next (mapClose s)

/-- BEACON (R78). -/
def execBeacon (s : State) : Host.Outcome State Fault Refusal := .next (beacon s)

end Sys2Proof.Machine
end

