-- ==== Sys2Proof/Machine/Links.lean ====
section
/-! DEFINITION. The meanings of the commands of the Inspection Link and of the Reel Link (sections 9.3, 9.4). -/

namespace Sys2Proof.Machine

/-! ### Inspection Link -/

/-- R170: the hold limit has passed. -/
def InspectionLink.expired (x : InspectionLink) : Bool :=
  x.holding && x.holdLimitNow != 0 && x.holdLimitNow ≤ x.holdTicks

/-- R170: the hold ends by expiry; the message is dropped. -/
def dropHeld (s : State) : State :=
  let s := raise .linkDrop (countTotal .linkDropped 1 s)
  s.setLink { s.link with phase := .ignored, holding := false, holdTicks := 0 }

/-- R170. -/
def holdExpiry (s : State) : State := if s.link.expired then dropHeld s else s

/-- R171: a status read of `count` bytes, from its start condition to its stop condition (log 17). -/
def statusRead (count : Nat) (s : State) : State :=
  let s := abandonMessage s
  s.setLink { s.link with
    phase := .idle
    ack := true
    status := s.statusBytes
    sent := (List.range count).map (readByte s.statusBytes) }

/-! ### Reel Link -/

/-- R173: a character with its marks; the overrun and gap marks come from the receiver. -/
def characterOf (parity : Parity) (b : Byte) (parityBit stopBit : Bool) : RxByte where
  value := b
  parityError := parityWrong parity b parityBit
  framingError := !stopBit
  overrun := false
  afterGap := false

/-- R173, R174: a character enters the stages, and the gap after it begins under the FRAME_GAP of the character. -/
def ReelLink.receive (x : ReelLink) (b : RxByte) (frameGap : Nat) : ReelLink :=
  { x.enter b with gapTicks := 0, gapLimit := frameGap, earlier := [] }

/-- R173, R174: a character completes, with the settings that stood at its start bit. -/
def receiveCharacter (c : Character) (parityBit stopBit : Bool) (s : State) : State :=
  let f := s.reel.settingsBefore c.writes
  pump (s.setReel (s.reel.receive (characterOf f.parity c.data parityBit stopBit) f.frameGap))

/-- R122, R175: a complete POLL frame answered. -/
def servePoll (s : State) : State :=
  match s.reel.frame with
  | some (kind, body) => if kind = 0x01 ∧ body = [] then replyWith 0x81 (pollBody s.queue.records) s else s
  | none => s

/-- R122, R175: a complete FETCH frame answered. -/
def serveFetch (s : State) : State :=
  match s.reel.frame with
  | some (kind, body) => if kind = 0x02 ∧ body = [] then replyWith 0x82 (fetchBody s.queue.records) s else s
  | none => s

/-- R123: the effect of a RELEASE on the queue. -/
def releaseEffect (set lane : Nat) (s : State) : State :=
  if releaseStatus s.queue.records set lane = .ok then removeHead s else s

/-- R123, R175: a RELEASE of a set number and a lane answered. -/
def answerRelease (set lane : Nat) (s : State) : State :=
  replyWith 0x83 [(releaseStatus s.queue.records set lane).code] (releaseEffect set lane s)

/-- R123, R175: a complete RELEASE frame. -/
def serveRelease (s : State) : State :=
  match s.reel.frame with
  | some (kind, [b0, b1, lane]) => if kind = 0x03 then answerRelease (unsignedBytes [b0, b1]) lane.toNat s else s
  | some (_, _) => s
  | none => s

/-- R175: a complete frame of an unknown kind, or of a known kind with another length, answered with UNKNOWN. -/
def serveUnknown (s : State) : State :=
  match s.reel.frame with
  | some (kind, body) =>
    if requestLength kind = some body.length then s else replyWith 0xFF [ReelStatus.unknown.code] s
  | none => s

/-- R174: a frame that took a marked byte or failed its check is discarded; the assembler hunts from the next byte. -/
def reelDiscard (s : State) : State := if s.reel.assembler = .failed then pump (discardFrame s) else s

/-- R174: more than FRAME_GAP ticks have passed since the latest character. -/
def ReelLink.gapPassed (x : ReelLink) : Bool := x.gapLimit < x.gapTicks

/-- R174, log 23: the gap discards an opened frame; while bytes of it still wait in the stages, the gap is marked on the
next byte instead. -/
def gapExpiry (s : State) : State :=
  if s.reel.gapPassed then
    if s.reel.holdingStage.isSome then s.setReel { s.reel with gapNext := true }
    else if s.reel.assembler.collecting then discardFrame s
    else s
  else s

/-- R175: a built reply that waits starts when the transmitter is idle, and the assembler takes the bytes that wait. -/
def startWaiting (s : State) : State :=
  match s.reel.waiting with
  | none => s
  | some frame =>
    if s.reel.sending = [] then pump (s.setReel { s.reel.startSending frame with waiting := none }) else s

/-! ### Meanings -/

/-- INSPECTION_LINK_BYTE (R169, R170). -/
def execInspectionLinkByte (b : Byte) (s : State) : Host.Outcome State Fault Refusal := .next (takeLinkByte b s)

/-- INSPECTION_MESSAGE (R169): a stop condition. -/
def execInspectionMessage (s : State) : Host.Outcome State Fault Refusal := .next (takeStop s)

/-- REPEATED_START (R169). -/
def execRepeatedStart (s : State) : Host.Outcome State Fault Refusal := .next (abandonMessage s)

/-- HOLD_EXPIRY (R170). -/
def execHoldExpiry (s : State) : Host.Outcome State Fault Refusal := .next (holdExpiry s)

/-- STATUS_READ (R171). -/
def execStatusRead (count : Nat) (s : State) : Host.Outcome State Fault Refusal := .next (statusRead count s)

/-- CHARACTER_RECEIVED (R173, R174). -/
def execCharacterReceived (c : Character) (parityBit stopBit : Bool) (s : State) : Host.Outcome State Fault Refusal :=
  .next (receiveCharacter c parityBit stopBit s)

/-- POLL (R122). -/
def execPoll (s : State) : Host.Outcome State Fault Refusal := .next (servePoll s)

/-- FETCH (R122). -/
def execFetch (s : State) : Host.Outcome State Fault Refusal := .next (serveFetch s)

/-- RELEASE (R123). -/
def execRelease (s : State) : Host.Outcome State Fault Refusal := .next (serveRelease s)

/-- UNKNOWN_FRAME (R175). -/
def execUnknownFrame (s : State) : Host.Outcome State Fault Refusal := .next (serveUnknown s)

/-- REEL_FRAME_DISCARD (R174). -/
def execReelFrameDiscard (s : State) : Host.Outcome State Fault Refusal := .next (reelDiscard s)

/-- FRAME_GAP_EXPIRY (R174). -/
def execFrameGapExpiry (s : State) : Host.Outcome State Fault Refusal := .next (gapExpiry s)

/-- REPLY_TRANSMIT_START (R175). -/
def execReplyTransmitStart (s : State) : Host.Outcome State Fault Refusal := .next (startWaiting s)

end Sys2Proof.Machine
end

