-- ==== Sys2Proof/Machine/LinePort.lean ====
section
/-! DEFINITION. The meanings of the Line Port commands and register accesses: each is one access of the bus (R161),
served by `serve`. -/

namespace Sys2Proof.Machine

/-- A write of COMMAND (R164). -/
def commandWrite (d : Word) (s : State) : State := beginAccess (.write 2 d) s

/-- The words of EVENT A and B, ENABLE A and B, LANE GRADE CHANGE. -/
def eventWord : Bank → Fin 32
  | .a => 14
  | .b => 15

def enableWord : Bank → Fin 32
  | .a => 16
  | .b => 17

def laneGradeWord : Bank → Fin 32
  | .a => 18
  | .b => 19

/-- ROLL_MOUNT (R12). -/
def execRollMount (s : State) : Host.Outcome State Fault Refusal := .next (commandWrite 0x01 s)

/-- ROLL_END (R13). -/
def execRollEnd (s : State) : Host.Outcome State Fault Refusal := .next (commandWrite 0x02 s)

/-- MAP_CLEAR (R52). -/
def execMapClear (s : State) : Host.Outcome State Fault Refusal := .next (commandWrite 0x03 s)

/-- SET_START (R105). -/
def execSetStart (s : State) : Host.Outcome State Fault Refusal := .next (commandWrite 0x04 s)

/-- SET_CHANGE (R107). -/
def execSetChange (s : State) : Host.Outcome State Fault Refusal := .next (commandWrite 0x05 s)

/-- SET_END (R106). -/
def execSetEnd (s : State) : Host.Outcome State Fault Refusal := .next (commandWrite 0x06 s)

/-- STOP_RELEASE (R144). -/
def execStopRelease (s : State) : Host.Outcome State Fault Refusal := .next (commandWrite 0x07 s)

/-- STOP_CANCEL (R145). -/
def execStopCancel (s : State) : Host.Outcome State Fault Refusal := .next (commandWrite 0x08 s)

/-- PRESET (R18). -/
def execPreset (s : State) : Host.Outcome State Fault Refusal := .next (commandWrite 0x09 s)

/-- SNAP_TALLIES (R150). -/
def execSnapTallies (s : State) : Host.Outcome State Fault Refusal := .next (commandWrite 0x0A s)

/-- WARM_RESET (R164). -/
def execWarmReset (s : State) : Host.Outcome State Fault Refusal := .next (commandWrite 0x5A s)

/-- UNKNOWN_COMMAND (R164). -/
def execUnknownCommand (d : Word) (s : State) : Host.Outcome State Fault Refusal := .next (commandWrite d s)

/-- POS_HI_READ (R163). -/
def execPosHiRead (s : State) : Host.Outcome State Fault Refusal := .next (beginAccess (.read 8) s)

/-- WEB_SHIFT_WRITE (R95). -/
def execWebShiftWrite (d : Word) (s : State) : Host.Outcome State Fault Refusal := .next (beginAccess (.write 11 d) s)

/-- EVENT_WRITE (R155). -/
def execEventWrite (bank : Bank) (d : Word) (s : State) : Host.Outcome State Fault Refusal :=
  .next (beginAccess (.write (eventWord bank) d) s)

/-- ENABLE_WRITE (R156). -/
def execEnableWrite (bank : Bank) (d : Word) (s : State) : Host.Outcome State Fault Refusal :=
  .next (beginAccess (.write (enableWord bank) d) s)

/-- LANE_GRADE_CHANGE_WRITE (R119). -/
def execLaneGradeChangeWrite (bank : Bank) (d : Word) (s : State) : Host.Outcome State Fault Refusal :=
  .next (beginAccess (.write (laneGradeWord bank) d) s)

/-- TABLE_SELECT_WRITE (R165). -/
def execTableSelectWrite (d : Word) (s : State) : Host.Outcome State Fault Refusal :=
  .next (beginAccess (.write 20 d) s)

/-- TABLE_DATA_READ (R166). -/
def execTableDataRead (s : State) : Host.Outcome State Fault Refusal := .next (beginAccess (.read 22) s)

/-- TABLE_DATA_WRITE (R167). -/
def execTableDataWrite (d : Word) (s : State) : Host.Outcome State Fault Refusal :=
  .next (beginAccess (.write 22 d) s)

/-- REGISTER_WRITE (R162 to R165). -/
def execRegisterWrite (word : Fin 32) (d : Word) (s : State) : Host.Outcome State Fault Refusal :=
  .next (beginAccess (.write word d) s)

/-- DATA_STROBE_NEGATED (R161). -/
def execDataStrobeNegated (s : State) : Host.Outcome State Fault Refusal := .next (negateStrobe s)

end Sys2Proof.Machine
end

