-- ==== Sys2Proof/Machine/Dispatch.lean ====
section
/-! DEFINITION. The meaning of every command, one arm each. -/

namespace Sys2Proof.Machine

def exec (i : Instr) (s : State) : Host.Outcome State Fault Refusal :=
  match i with
  | .coldReset encA encB adr => Sys2Proof.Machine.execColdReset encA encB adr s
  | .encoderTransition encA encB => Sys2Proof.Machine.execEncoderTransition encA encB s
  | .tick => Sys2Proof.Machine.execTick s
  | .pulseEnd channel => Sys2Proof.Machine.execPulseEnd channel s
  | .speedSample => Sys2Proof.Machine.execSpeedSample s
  | .knifePassage => Sys2Proof.Machine.execKnifePassage s
  | .commit => Sys2Proof.Machine.execCommit s
  | .walkStep => Sys2Proof.Machine.execWalkStep s
  | .confirmation => Sys2Proof.Machine.execConfirmation s
  | .marking => Sys2Proof.Machine.execMarking s
  | .liveSplicePlacement => Sys2Proof.Machine.execLiveSplicePlacement s
  | .detection => Sys2Proof.Machine.execDetection s
  | .mapRelease => Sys2Proof.Machine.execMapRelease s
  | .trackRecordLatch => Sys2Proof.Machine.execTrackRecordLatch s
  | .rollEndEmptying => Sys2Proof.Machine.execRollEndEmptying s
  | .stoppedMarkWrite => Sys2Proof.Machine.execStoppedMarkWrite s
  | .skippedMarkWrite => Sys2Proof.Machine.execSkippedMarkWrite s
  | .spliceSensorEdge => Sys2Proof.Machine.execSpliceSensorEdge s
  | .latchedSightingTaken => Sys2Proof.Machine.execLatchedSightingTaken s
  | .spliceSighting => Sys2Proof.Machine.execSpliceSighting s
  | .mapBegin => Sys2Proof.Machine.execMapBegin s
  | .mapRecord => Sys2Proof.Machine.execMapRecord s
  | .mapClose => Sys2Proof.Machine.execMapClose s
  | .beacon => Sys2Proof.Machine.execBeacon s
  | .inspectionMessage => Sys2Proof.Machine.execInspectionMessage s
  | .repeatedStart => Sys2Proof.Machine.execRepeatedStart s
  | .holdExpiry => Sys2Proof.Machine.execHoldExpiry s
  | .statusRead count => Sys2Proof.Machine.execStatusRead count s
  | .poll => Sys2Proof.Machine.execPoll s
  | .fetch => Sys2Proof.Machine.execFetch s
  | .release => Sys2Proof.Machine.execRelease s
  | .unknownFrame => Sys2Proof.Machine.execUnknownFrame s
  | .reelFrameDiscard => Sys2Proof.Machine.execReelFrameDiscard s
  | .frameGapExpiry => Sys2Proof.Machine.execFrameGapExpiry s
  | .replyTransmitStart => Sys2Proof.Machine.execReplyTransmitStart s
  | .rollMount => Sys2Proof.Machine.execRollMount s
  | .rollEnd => Sys2Proof.Machine.execRollEnd s
  | .mapClear => Sys2Proof.Machine.execMapClear s
  | .setStart => Sys2Proof.Machine.execSetStart s
  | .setChange => Sys2Proof.Machine.execSetChange s
  | .setEnd => Sys2Proof.Machine.execSetEnd s
  | .stopRelease => Sys2Proof.Machine.execStopRelease s
  | .stopCancel => Sys2Proof.Machine.execStopCancel s
  | .preset => Sys2Proof.Machine.execPreset s
  | .snapTallies => Sys2Proof.Machine.execSnapTallies s
  | .warmReset => Sys2Proof.Machine.execWarmReset s
  | .unknownCommand d => Sys2Proof.Machine.execUnknownCommand d s
  | .posHiRead => Sys2Proof.Machine.execPosHiRead s
  | .webShiftWrite d => Sys2Proof.Machine.execWebShiftWrite d s
  | .eventWrite bank d => Sys2Proof.Machine.execEventWrite bank d s
  | .enableWrite bank d => Sys2Proof.Machine.execEnableWrite bank d s
  | .laneGradeChangeWrite bank d => Sys2Proof.Machine.execLaneGradeChangeWrite bank d s
  | .tableSelectWrite d => Sys2Proof.Machine.execTableSelectWrite d s
  | .tableDataRead => Sys2Proof.Machine.execTableDataRead s
  | .tableDataWrite d => Sys2Proof.Machine.execTableDataWrite d s
  | .registerWrite word d => Sys2Proof.Machine.execRegisterWrite word d s
  | .inspectionLinkByte b => Sys2Proof.Machine.execInspectionLinkByte b s
  | .characterReceived b parityBit stopBit => Sys2Proof.Machine.execCharacterReceived b parityBit stopBit s
  | .dataStrobeNegated => Sys2Proof.Machine.execDataStrobeNegated s

end Sys2Proof.Machine
end

