-- ==== Sys2Proof/Safety.lean ====
section
/-! DEFINITION. The terms in which claims about runs are stated: the parts of the state, which of them a command may
change, the outcome of a Line Port access, and the invariants. -/

namespace Sys2Proof.Machine

/-! ### The parts of the state -/

/-- The parts of the state, as the chapters name them. -/
inductive Part where
  | pins
  | encoder
  | position
  | positionConfig
  | roll
  | timebase
  | speed
  | settle
  | strobeChannel
  | channels
  | mapHeader
  | mapRecords
  | mapConfig
  | withheld
  | anchors
  | writeQueue
  | sightings
  | yields
  | alignConfig
  | messages
  | resume
  | lastResult
  | offset
  | offsetConfig
  | history
  | entries
  | entryCounters
  | late
  | mergeWindow
  | lanes
  | shiftLimit
  | webShift
  | openSet
  | nextSet
  | grading
  | indications
  | completed
  | roomWanted
  | plannerState
  | setAside
  | stopRecord
  | stopParams
  | liveTallies
  | snapshot
  | autosnap
  | flags
  | enables
  | result
  | args
  | posLatch
  | window
  | handshake
  | link
  | holdLimit
  | receiver
  | transmitter
  | reelConfig
  | earlier
  | pending
  deriving DecidableEq, Repr

/-- A part of two states is the same: every field of it. -/
def Same (s t : State) : Part → Prop
  | .pins => t.pins = s.pins
  | .encoder => t.pos.encA = s.pos.encA ∧ t.pos.encB = s.pos.encB
  | .position => t.pos.p = s.pos.p ∧ t.pos.frac = s.pos.frac
  | .positionConfig => t.pos.pitch = s.pos.pitch ∧ t.pos.dirInvert = s.pos.dirInvert ∧ t.pos.clkdiv = s.pos.clkdiv ∧
      t.pos.offSplice = s.pos.offSplice ∧ t.pos.offInspect = s.pos.offInspect ∧ t.pos.offTable = s.pos.offTable ∧
      t.pos.offKnife = s.pos.offKnife ∧ t.pos.offNip = s.pos.offNip
  | .roll => t.pos.roll = s.pos.roll
  | .timebase => t.pos.tickCount = s.pos.tickCount ∧ t.pos.sampleCount = s.pos.sampleCount ∧
      t.pos.sampleDue = s.pos.sampleDue ∧ t.pos.tickDivisor = s.pos.tickDivisor
  | .speed => t.pos.sampleBase = s.pos.sampleBase ∧ t.pos.v = s.pos.v ∧ t.pos.overspeed = s.pos.overspeed
  | .settle => t.pos.settle = s.pos.settle
  | .strobeChannel => t.comps.ch0 = s.comps.ch0 ∧ t.comps.strobeSeq = s.comps.strobeSeq
  | .channels => t.comps.ch1 = s.comps.ch1 ∧ t.comps.ch2 = s.comps.ch2 ∧ t.comps.ch3 = s.comps.ch3
  | .mapHeader => t.pmap.state = s.pmap.state ∧ t.pmap.id = s.pmap.id ∧ t.pmap.mEnd = s.pmap.mEnd ∧
      t.pmap.d0 = s.pmap.d0 ∧ t.pmap.truncated = s.pmap.truncated
  | .mapRecords => t.pmap.records = s.pmap.records
  | .mapConfig => t.pmap.horizon = s.pmap.horizon ∧ t.pmap.xOffset = s.pmap.xOffset
  | .withheld => t.pmap.withheld = s.pmap.withheld
  | .anchors => t.align.anchors = s.align.anchors ∧ t.align.dLast = s.align.dLast
  | .writeQueue => t.align.queue = s.align.queue
  | .sightings => t.align.latch = s.align.latch ∧ t.align.lastGuarded = s.align.lastGuarded
  | .yields => t.align.yields = s.align.yields
  | .alignConfig => t.align.matchWindow = s.align.matchWindow ∧ t.align.spliceGuard = s.align.spliceGuard ∧
      t.align.source = s.align.source
  | .messages => t.diq.messages = s.diq.messages
  | .resume => t.diq.resume = s.diq.resume
  | .lastResult => t.diq.lastResult = s.diq.lastResult
  | .offset => t.tracker.o = s.tracker.o ∧ t.tracker.valid = s.tracker.valid ∧ t.tracker.latest = s.tracker.latest ∧
      t.tracker.peak = s.tracker.peak
  | .offsetConfig => t.tracker.gNarrow = s.tracker.gNarrow ∧ t.tracker.gWide = s.tracker.gWide ∧
      t.tracker.wideWindow = s.tracker.wideWindow ∧ t.tracker.captureLimit = s.tracker.captureLimit ∧
      t.tracker.peakMode = s.tracker.peakMode ∧ t.tracker.strobePitch = s.tracker.strobePitch
  | .history => t.tracker.history = s.tracker.history
  | .entries => t.track.entries = s.track.entries
  | .entryCounters => t.track.seq = s.track.seq ∧ t.track.nextIdent = s.track.nextIdent
  | .late => t.track.late = s.track.late
  | .mergeWindow => t.track.mergeWindow = s.track.mergeWindow
  | .lanes => t.plan.lanes = s.plan.lanes
  | .shiftLimit => t.plan.shiftLimit = s.plan.shiftLimit
  | .webShift => t.plan.webShift = s.plan.webShift
  | .openSet => t.reels.openSet = s.reels.openSet
  | .nextSet => t.reels.nextSet = s.reels.nextSet
  | .grading => t.reels.grading = s.reels.grading
  | .indications => t.reels.indications = s.reels.indications
  | .completed => t.queue.records = s.queue.records
  | .roomWanted => t.queue.roomWanted = s.queue.roomWanted
  | .plannerState => t.planner.state = s.planner.state ∧ t.planner.target = s.planner.target ∧
      t.planner.targetPoint = s.planner.targetPoint ∧ t.planner.notedSeq = s.planner.notedSeq ∧
      t.planner.short = s.planner.short ∧ t.planner.retargeted = s.planner.retargeted
  | .setAside => t.planner.setAside = s.planner.setAside
  | .stopRecord => t.planner.record = s.planner.record
  | .stopParams => t.planner.params = s.planner.params
  | .liveTallies => t.tally.live = s.tally.live
  | .snapshot => t.tally.snap = s.tally.snap ∧ t.tally.snapCause = s.tally.snapCause ∧ t.tally.snapSet = s.tally.snapSet
  | .autosnap => t.tally.autosnap = s.tally.autosnap
  | .flags => t.events.flagsA = s.events.flagsA ∧ t.events.flagsB = s.events.flagsB
  | .enables => t.events.enableA = s.events.enableA ∧ t.events.enableB = s.events.enableB
  | .result => t.port.result = s.port.result
  | .args => t.port.arg0 = s.port.arg0 ∧ t.port.arg1 = s.port.arg1 ∧ t.port.arg2 = s.port.arg2 ∧
      t.port.arg3 = s.port.arg3
  | .posLatch => t.port.posLatch = s.port.posLatch
  | .window => t.port.tableSelect = s.port.tableSelect ∧ t.port.tableAddr = s.port.tableAddr ∧
      t.port.latch = s.port.latch ∧ t.port.held = s.port.held
  | .handshake => t.port.ds = s.port.ds ∧ t.port.access = s.port.access ∧ t.port.early = s.port.early ∧
      t.port.next = s.port.next ∧ t.port.xack = s.port.xack ∧ t.port.bflt = s.port.bflt ∧ t.port.dout = s.port.dout
  | .link => t.link.phase = s.link.phase ∧ t.link.holding = s.link.holding ∧ t.link.holdTicks = s.link.holdTicks ∧
      t.link.holdLimitNow = s.link.holdLimitNow ∧ t.link.ack = s.link.ack ∧ t.link.status = s.link.status ∧
      t.link.sent = s.link.sent
  | .holdLimit => t.link.holdLimit = s.link.holdLimit
  | .receiver => t.reel.holdingStage = s.reel.holdingStage ∧ t.reel.shiftStage = s.reel.shiftStage ∧
      t.reel.overrunNext = s.reel.overrunNext ∧ t.reel.gapNext = s.reel.gapNext ∧ t.reel.gapTicks = s.reel.gapTicks ∧
      t.reel.gapLimit = s.reel.gapLimit ∧ t.reel.assembler = s.reel.assembler
  | .transmitter => t.reel.sending = s.reel.sending ∧ t.reel.charLeft = s.reel.charLeft ∧
      t.reel.onLine = s.reel.onLine ∧ t.reel.waiting = s.reel.waiting
  | .reelConfig => t.reel.parity = s.reel.parity ∧ t.reel.divisor = s.reel.divisor ∧ t.reel.frameGap = s.reel.frameGap
  | .earlier => t.reel.earlier = s.reel.earlier
  | .pending => t.pending = s.pending

/-- `t` differs from `s` in the parts named at most. -/
def Touches (parts : List Part) (s t : State) : Prop := ∀ p, p ∉ parts → Same s t p

/-- What a count in the live bank can change (R148). -/
def Part.counting : List Part := [.liveTallies, .flags]

/-- What an evaluation of the Stop Planner can change (R132): its state, and the settle count at HALT (R9). -/
def Part.planning : List Part := [.plannerState, .settle]

/-- What an operation that commits, moves or withdraws entries can change (R29, R42 to R46). -/
def Part.moving : List Part :=
  [.entries, .late, .mapRecords, .openSet, .indications, .withheld] ++ Part.counting ++ Part.planning

/-- What a placement can change (R22, R30): an entry made uses up a seq, and a withdrawal can move the release cursor. -/
def Part.placing : List Part := [.entryCounters, .yields] ++ Part.moving

/-- What a message leaving the DIQ can change (R73 to R75): a resume ends a hold. -/
def Part.serving : List Part := [.messages, .lastResult, .link]

/-- What a sighting can change (R60 to R65). -/
def Part.sighting : List Part := [.sightings, .writeQueue, .anchors, .yields, .mapRecords] ++ Part.counting

/-- What a command carried out at once can change besides its own effect (R161, R164). -/
def Part.answering : List Part := [.result, .handshake]

/-- What a served frame can change (R174, R175). -/
def Part.replying : List Part := [.receiver, .transmitter] ++ Part.counting

/-- What the write of a field can change (R167): the fields, and what a taken write acts on at once. -/
def Part.fields : List Part :=
  [.positionConfig, .mergeWindow, .mapConfig, .alignConfig, .resume, .holdLimit, .offset, .offsetConfig, .autosnap,
   .reelConfig, .earlier, .yields, .lanes, .shiftLimit, .webShift, .flags, .grading, .stopParams, .channels, .link] ++ Part.planning

/-- What a warm reset can change: all but the configuration, the reel queue, the snapshot, the enables and the
arguments, which every block's reset rule keeps. -/
def Part.resetting : List Part :=
  [.encoder, .position, .roll, .timebase, .speed, .settle, .strobeChannel, .channels, .mapHeader, .mapRecords,
   .withheld, .anchors, .writeQueue, .sightings, .yields, .messages, .lastResult, .offset, .history, .entries,
   .entryCounters, .late, .webShift, .openSet, .nextSet, .indications, .roomWanted, .plannerState, .setAside,
   .stopRecord, .liveTallies, .flags, .result, .posLatch, .window, .handshake, .link, .receiver, .earlier, .transmitter]

/-- The parts each command may change, whatever the state it finds, with no access held behind the one being served.
A cold reset may change every part but the queue of commands. -/
def changes : Instr → List Part
  | .coldReset _ _ _ =>
    .pins :: Part.fields ++ Part.resetting ++ [.grading, .completed, .snapshot, .enables, .args]
  | .encoderTransition _ _ =>
    [.pins, .encoder, .position, .strobeChannel, .channels, .history, .yields] ++ Part.counting ++ Part.planning
  | .tick => [.timebase, .strobeChannel, .channels, .link, .receiver, .transmitter]
  | .pulseEnd _ => [.strobeChannel, .channels]
  | .speedSample => [.timebase, .speed, .stopRecord, .mapRecords] ++ Part.counting ++ Part.planning
  | .knifePassage => Part.moving
  | .commit => Part.moving
  | .walkStep => .yields :: Part.moving
  | .confirmation => .writeQueue :: Part.moving
  | .marking => [.entries, .writeQueue]
  | .liveSplicePlacement => .writeQueue :: Part.placing
  | .detection => Part.serving ++ Part.placing
  | .mapRelease => Part.placing
  | .trackRecordLatch => [.yields, .window, .handshake]
  | .rollEndEmptying =>
    [.roll, .entries, .withheld, .mapHeader, .mapRecords, .writeQueue, .sightings, .yields, .plannerState, .setAside,
     .strobeChannel] ++ Part.serving ++ Part.counting ++ Part.answering
  | .stoppedMarkWrite => [.entries, .setAside, .yields] ++ Part.planning ++ Part.answering
  | .skippedMarkWrite => [.entries, .setAside, .yields] ++ Part.planning ++ Part.answering
  | .spliceSensorEdge => Part.sighting
  | .latchedSightingTaken => Part.sighting
  | .spliceSighting => Part.serving ++ Part.sighting
  | .mapBegin => Part.serving ++ [.mapHeader, .mapRecords]
  | .mapRecord => Part.serving ++ [.mapHeader, .mapRecords]
  | .mapClose => Part.serving ++ [.mapHeader, .flags]
  | .beacon => Part.serving ++ .offset :: Part.counting
  | .inspectionMessage => [.link, .messages] ++ Part.counting
  | .repeatedStart => .link :: Part.counting
  | .holdExpiry => .link :: Part.counting
  | .statusRead _ => .link :: Part.counting
  | .poll => Part.replying
  | .fetch => Part.replying
  | .release => [.completed, .roomWanted] ++ Part.replying
  | .unknownFrame => Part.replying
  | .reelFrameDiscard => .receiver :: Part.counting
  | .frameGapExpiry => .receiver :: Part.counting
  | .replyTransmitStart => Part.replying
  | .rollMount =>
    [.position, .speed, .roll, .strobeChannel, .offset, .history, .anchors, .sightings] ++ Part.answering
  | .rollEnd => Part.answering
  | .mapClear => [.mapHeader, .mapRecords] ++ Part.answering
  | .setStart => [.openSet, .nextSet, .channels] ++ Part.planning ++ Part.answering
  | .setChange =>
    [.openSet, .nextSet, .channels, .completed, .roomWanted, .snapshot] ++ Part.counting ++ Part.planning ++
      Part.answering
  | .setEnd => [.openSet, .completed, .roomWanted, .snapshot] ++ Part.counting ++ Part.planning ++ Part.answering
  | .stopRelease => [.openSet, .setAside] ++ Part.planning ++ Part.answering
  | .stopCancel => [.openSet, .setAside] ++ Part.planning ++ Part.answering
  | .preset => .channels :: Part.answering
  | .snapTallies => [.liveTallies, .snapshot] ++ Part.answering
  | .warmReset => Part.resetting
  | .unknownCommand _ => Part.answering
  | .posHiRead => [.posLatch, .handshake]
  | .webShiftWrite _ => [.webShift, .flags, .handshake]
  | .eventWrite _ _ => [.flags, .handshake]
  | .enableWrite _ _ => [.enables, .handshake]
  | .laneGradeChangeWrite _ _ => [.indications, .handshake]
  | .tableSelectWrite _ => [.window, .handshake]
  | .tableDataRead => [.window, .offset, .handshake]
  | .tableDataWrite _ => .window :: Part.fields ++ Part.answering
  | .registerWrite _ _ => [.args, .window, .handshake]
  | .inspectionLinkByte _ => [.link]
  | .characterReceived _ _ _ => [.receiver, .earlier] ++ Part.counting
  | .dataStrobeNegated => [.handshake]

/-- The operations that complete a Line Port access which waited for them (R28). An access asked for behind it then
begins (R161). -/
def endsAccess (c : Instr) : Bool :=
  [.trackRecordLatch, .rollEndEmptying, .stoppedMarkWrite, .skippedMarkWrite].contains c

/-! ### The end of a Line Port access (R161, R162) -/

/-- The Line Port serves nothing: the next access is served at once. -/
def State.portFree (s : State) : Prop := s.port.access = none

/-- XACK asserted, with D0 to D15 driven on a read. -/
def State.acknowledged (s : State) (dout : Option Word) : State :=
  s.setPort { s.port with ds := true, xack := true, bflt := false, dout := dout }

/-- BFLT asserted. -/
def State.busFaulted (s : State) : State :=
  s.setPort { s.port with ds := true, xack := false, bflt := true, dout := none }

/-- The access waits for its class 5 operation. -/
def State.waitingFor (s : State) (w : WaitingAccess) : State :=
  s.setPort { s.port with ds := true, xack := false, bflt := false, dout := none, access := some w }

/-- R161: from `s`, where an access waits with none asked for behind it, to `t`, where it has been served whole: with DS
still asserted XACK answers it, over the data that it reads; with DS negated early the handshake lines stay as they are. -/
def AccessEnded (dout : Option Word) (s t : State) : Prop :=
  t.port.access = none ∧ t.port.early = false ∧ t.port.next = s.port.next ∧ t.port.ds = s.port.ds ∧
  t.port.bflt = s.port.bflt ∧
  (s.port.early = false → t.port.xack = true ∧ t.port.dout = dout) ∧
  (s.port.early = true → t.port.xack = s.port.xack ∧ t.port.dout = s.port.dout)

/-- R161: the commands that end a waiting access, each with the access that it ends. -/
def accessEndings : List (Instr × WaitingAccess) :=
  [(.trackRecordLatch, .trackRead), (.rollEndEmptying, .rollEnd), (.stoppedMarkWrite, .stopRelease),
   (.skippedMarkWrite, .stopCancel)]

/-- A command answered at once with a result and nothing else: XACK asserted and RESULT written. -/
def State.answered (s : State) (r : ResultCode) : State :=
  { s with port := { s.port with result := r, ds := true, xack := true, bflt := false, dout := none } }

/-- The bus access that a Line Port command is (R161, R163, R164). -/
def accessOf : Instr → Option BusAccess
  | .rollMount => some (.write 2 0x01)
  | .rollEnd => some (.write 2 0x02)
  | .mapClear => some (.write 2 0x03)
  | .setStart => some (.write 2 0x04)
  | .setChange => some (.write 2 0x05)
  | .setEnd => some (.write 2 0x06)
  | .stopRelease => some (.write 2 0x07)
  | .stopCancel => some (.write 2 0x08)
  | .preset => some (.write 2 0x09)
  | .snapTallies => some (.write 2 0x0A)
  | .warmReset => some (.write 2 0x5A)
  | .unknownCommand d => some (.write 2 d)
  | .posHiRead => some (.read 8)
  | .webShiftWrite d => some (.write 11 d)
  | .eventWrite .a d => some (.write 14 d)
  | .eventWrite .b d => some (.write 15 d)
  | .enableWrite .a d => some (.write 16 d)
  | .enableWrite .b d => some (.write 17 d)
  | .laneGradeChangeWrite .a d => some (.write 18 d)
  | .laneGradeChangeWrite .b d => some (.write 19 d)
  | .tableSelectWrite d => some (.write 20 d)
  | .tableDataRead => some (.read 22)
  | .tableDataWrite d => some (.write 22 d)
  | .registerWrite word d => some (.write word d)
  | _ => none

/-! ### Terms of the single claims -/

/-- A total of the live bank. -/
def State.total (s : State) (k : Total) : Nat := s.tally.live.total k

/-- R148: one count of a total. -/
def CountedOnce (k : Total) (s t : State) : Prop := t.total k = min 65535 (s.total k + 1)

/-- R148: TALLY_SAT after the counts of a step that bring the live bank of `s` to the bank `b`: a count that brings a tally
from below 65,535 to 65,535 raises it, and no other count does. -/
def SaturationIn (s : State) (b : TallyBank) (t : State) : Prop :=
  t.events.flag .tallySat = true ↔
    s.events.flag .tallySat = true ∨ (∃ k, s.total k < 65535 ∧ b.total k = 65535) ∨
    ∃ n c, 1 ≤ n ∧ n ≤ 24 ∧ (s.tally.live.lane n).get c < 65535 ∧ (b.lane n).get c = 65535

/-- R148: TALLY_SAT after the counts of a step that clears no tally. -/
def SaturationShown (s t : State) : Prop := SaturationIn s t.tally.live t

/-- R73, R170: the head has left the DIQ, which now holds `rest`: a fall of the fill to RESUME or below ends a hold, and one
that leaves it above RESUME keeps the hold; the link is otherwise as it was. -/
def TakenFromHead (rest : List Message) (s t : State) : Prop :=
  t.diq.messages = rest ∧ t.diq.resume = s.diq.resume ∧
  t.link = if s.link.holding = true ∧ rest.length ≤ s.diq.resume
    then { s.link with holding := false, holdTicks := 0 } else s.link

/-- R1: the pair after a pair in the cycle 00, 10, 11, 01. -/
def cycleNext : Bool × Bool → Bool × Bool
  | (false, false) => (true, false)
  | (true, false) => (true, true)
  | (true, true) => (false, true)
  | (false, true) => (false, false)

/-- R24: an entry stands after every entry of equal or lower w and before every other. -/
def insertedInOrder (e : Entry) (l : List Entry) : List Entry :=
  (l.filter fun f => f.w ≤ e.w) ++ e :: l.filter fun f => e.w < f.w

/-! ### The encoder (R1 to R3) -/

/-- The greatest accumulator: P at 4,294,967,295 with fraction 65,535 (R3). -/
def accumulatorMax : Int := 281474976710655

/-- R1: the levels given are the next or the previous pair of the cycle. -/
def State.turnsTo (s : State) (a b : Bool) : Prop :=
  cycleNext (s.pos.encA, s.pos.encB) = (a, b) ∨ cycleNext (a, b) = (s.pos.encA, s.pos.encB)

/-- R1, R2: the accumulator a legal transition to the levels given asks for, before the clamp of R3. -/
def State.askedFor (s : State) (a b : Bool) : Int :=
  s.pos.p * 65536 + s.pos.frac +
    if (cycleNext (s.pos.encA, s.pos.encB) == (a, b)) != s.pos.dirInvert then s.pos.pitch else -s.pos.pitch

/-- R2, R3: P after a legal transition to the levels given. -/
def State.nextP (s : State) (a b : Bool) : Int := clampInt 0 accumulatorMax (s.askedFor a b) / 65536

/-! ### The knives, the nip and entries on the move (R41 to R46) -/

/-- R98, R99: the lanes of an entry's knife passage, ascending: every USED lane for a SPLICE, and for a FLAG those that
share at least one pu with its machine extent. -/
def LaneSetOf (s : State) (e : Entry) (lanes : List Nat) : Prop :=
  lanes.Pairwise (· < ·) ∧
  ∀ n, n ∈ lanes ↔ 1 ≤ n ∧ n ≤ 24 ∧ (s.plan.lane n).used = true ∧
    (e.kind = .flag →
      e.x0 + s.plan.webShift ≤ (s.plan.lane n).left + (s.plan.lane n).width - 1 ∧
      (s.plan.lane n).left ≤ e.x1 + s.plan.webShift)

/-- R41, R98: `f` is `e` after its knife passage. -/
def PassedAs (s : State) (e f : Entry) : Prop :=
  ∃ lanes, LaneSetOf s e lanes ∧ f = { e with passage := .slit lanes s.plan.webShift }

/-- R44, R53: the report on the map record of an entry or item, if it has one; every other record stays as it was. -/
def Reported (index : Option Nat) (st : RecordStatus) (s t : State) : Prop :=
  t.pmap.records = match index with
    | none => s.pmap.records
    | some i => s.pmap.records.modify i fun r => { r with status := st }

/-- R32, R33: an item or entry found late, and its map record retired. -/
def FoundLate (kind : ItemKind) (w : Int) (cls : Fin 8) (index : Option Nat) (s t : State) : Prop :=
  CountedOnce .late s t ∧ t.events.flag .lateFlag = true ∧
  t.track.late = { kind := some kind, w := max w (-2147483648), cls := if kind = .flag then cls else 0 } ∧
  Reported index .retired s t

/-! ### Reels (R42, R101, R113 to R119) -/

/-- R113: the flag item of an entry in a reel of a lane. -/
def itemOf (s : State) (e : Entry) (shift wStart : Int) (lane : Nat) : FlagItem where
  depth := (e.w - wStart) / 10
  across := clampInt 0 ((s.plan.lane lane).width - 1) (e.x0 + shift - (s.plan.lane lane).left)
  cls := e.cls
  sev := e.sev
  source := e.source
  unsynced := e.unsynced

/-- R115: an item stands after every item of equal or lower depth and before every deeper one. -/
def flagInOrder (it : FlagItem) (l : List FlagItem) : List FlagItem :=
  (l.filter fun x => x.depth ≤ it.depth) ++ it :: l.filter fun x => it.depth < x.depth

/-- R117, R118: the tests in order; the first that holds gives the grade and the cause. A count exceeds a limit when it is
greater. -/
def Graded (g : Grading) (forced : Prop) (r : ReelRecord) (grade : Grade) (cause : Cause) : Prop :=
  let exceeds := fun (limits : List Nat) (n : Fin 8) => limits.getD n.val 255 < r.classCounts.getD n.val 0
  let firstOver := fun (limits : List Nat) (n : Fin 8) => exceeds limits n ∧ ∀ m, m < n → ¬ exceeds limits m
  (forced ∧ grade = .reject ∧ cause = .forced) ∨
  (¬ forced ∧ ∃ n, firstOver g.classReject n ∧ grade = .reject ∧ cause = .cls n) ∨
  (¬ forced ∧ (∀ n, ¬ exceeds g.classReject n) ∧
    ((g.spliceReject < r.spliceCount ∧ grade = .reject ∧ cause = .splices) ∨
     (r.spliceCount ≤ g.spliceReject ∧ ∃ n, firstOver g.classDown n ∧ grade = .downgrade ∧ cause = .cls n) ∨
     (r.spliceCount ≤ g.spliceReject ∧ (∀ n, ¬ exceeds g.classDown n) ∧
       ((g.spliceDown < r.spliceCount ∧ grade = .downgrade ∧ cause = .splices) ∨
        (r.spliceCount ≤ g.spliceDown ∧ grade = .accept ∧ cause = .none)))))

/-- R118: the grade and the cause that a recomputation leaves: the computed ones where that grade is worse than the one
held in `r`, and those held otherwise. `r'` is the record with its new counts. -/
def Recomputed (s : State) (r r' : ReelRecord) (grade : Grade) (cause : Cause) : Prop :=
  ∃ g c, Graded s.reels.grading ((s.plan.lane r.lane).disposition = .forcedReject) r' g c ∧
    (r.grade.code < g.code → grade = g ∧ cause = c) ∧
    (g.code ≤ r.grade.code → grade = r.grade ∧ cause = r.cause)

/-- R113, R115, R116, R118: a reel record that has taken a flag item and been regraded. A full list considers the item of
lowest severity, the deepest of them, the last of equal depth, and gives it up for a strictly higher severity only. -/
def TookFlag (s : State) (it : FlagItem) (r r' : ReelRecord) : Prop :=
  r' = { r with
    classCounts := r.classCounts.modify it.cls.val (fun n => min 255 (n + 1))
    committed := min 65535 (r.committed + 1)
    flags := r'.flags, unlisted := r'.unlisted, grade := r'.grade, cause := r'.cause } ∧
  Recomputed s r r' r'.grade r'.cause ∧
  (r.flags.length < 20 → r.flags.Pairwise (fun x y => x.depth ≤ y.depth) →
    r'.flags = flagInOrder it r.flags ∧ r'.unlisted = r.unlisted) ∧
  (20 ≤ r.flags.length → r.flags.Pairwise (fun x y => x.depth ≤ y.depth) →
    r'.unlisted = min 65535 (r.unlisted + 1) ∧
    ∀ (pre post : List FlagItem) (x : FlagItem), r.flags = pre ++ x :: post → (∀ y ∈ pre, x.sev ≤ y.sev) →
      (∀ y ∈ post, x.sev < y.sev) →
      (x.sev < it.sev → r'.flags = flagInOrder it (pre ++ post)) ∧ (it.sev ≤ x.sev → r'.flags = r.flags))

/-- R119: among the records of the open set before and after, those whose grade became worse set their lanes' indications,
and LANE_GRADE is raised when there is one; no other indication changes. -/
def Indicated (rs rs' : List ReelRecord) (s t : State) : Prop :=
  (∀ n, 1 ≤ n → n ≤ 24 → (t.reels.indications.getLsbD (n - 1) = true ↔
    s.reels.indications.getLsbD (n - 1) = true ∨ ∃ p ∈ rs.zip rs', p.1.lane = n ∧ p.1.grade.code < p.2.grade.code)) ∧
  (t.events.flag .laneGrade = true ↔
    s.events.flag .laneGrade = true ∨ ∃ p ∈ rs.zip rs', p.1.grade.code < p.2.grade.code)

/-- R42, R101, R113, R119: a FLAG of a lane set, with its knife shift, delivered into the open set `o`: each USED lane of
the set counts it, and the reel of each takes one item into its list, full or not, and is regraded. With no such lane the
flag is counted as unassigned. -/
def FlagDelivered (e : Entry) (lanes : List Nat) (shift : Int) (o : OpenSet) (s t : State) : Prop :=
  ((∀ n ∈ lanes, (s.plan.lane n).used = false) →
    CountedOnce .unassigned s t ∧ t.reels = s.reels ∧ t.tally.live.lanes = s.tally.live.lanes ∧
    t.events.flag .laneGrade = s.events.flag .laneGrade) ∧
  ((∃ n ∈ lanes, (s.plan.lane n).used = true) → t.total .unassigned = s.total .unassigned ∧
    (∀ n, 1 ≤ n → n ≤ 24 → (t.tally.live.lane n).flags =
      if n ∈ lanes ∧ (s.plan.lane n).used = true then min 65535 ((s.tally.live.lane n).flags + 1)
      else (s.tally.live.lane n).flags) ∧
    ∃ rs, t.reels.openSet = some { o with reels := rs } ∧
      List.Forall₂ (fun r r' =>
        if r.lane ∈ lanes ∧ (s.plan.lane r.lane).used = true ∧ (s.plan.lane r.lane).disposition ≠ .trim
        then TookFlag s (itemOf s e shift o.wStart r.lane) r r' else r' = r) o.reels rs ∧
      ((∀ r ∈ o.reels, 1 ≤ r.lane) → Indicated o.reels rs s t))

/-- R42, R101, R114, R119: a SPLICE delivered into the open set `o`, whatever its lane set: every USED lane counts it, and
every reel counts it and is regraded. -/
def SpliceDelivered (o : OpenSet) (s t : State) : Prop :=
  t.total .unassigned = s.total .unassigned ∧
  (∀ n, 1 ≤ n → n ≤ 24 → (t.tally.live.lane n).splices =
    if (s.plan.lane n).used = true then min 65535 ((s.tally.live.lane n).splices + 1)
    else (s.tally.live.lane n).splices) ∧
  ∃ rs, t.reels.openSet = some { o with reels := rs } ∧
    List.Forall₂ (fun r r' =>
      r' = { r with spliceCount := min 255 (r.spliceCount + 1), grade := r'.grade, cause := r'.cause } ∧
      Recomputed s r r' r'.grade r'.cause) o.reels rs ∧
    ((∀ r ∈ o.reels, 1 ≤ r.lane) → Indicated o.reels rs s t)

/-- R42: a SLIT entry delivered into the open set `o`. -/
def Delivered (e : Entry) (o : OpenSet) (s t : State) : Prop :=
  match e.kind with
  | .flag => ∃ lanes shift, e.passage = .slit lanes shift ∧ FlagDelivered e lanes shift o s t
  | .splice => SpliceDelivered o s t

/-- R31, R42: an entry committed into the open set, its knife made for it first while it is AHEAD: delivered, neither
late nor unwound. -/
def CommittedIn (e : Entry) (s t : State) : Prop :=
  t.total .late = s.total .late ∧ t.track.late = s.track.late ∧ t.total .unwound = s.total .unwound ∧
  ∀ o, s.reels.openSet = some o → ∃ f, (if e.passage = .ahead then PassedAs s e f else f = e) ∧ Delivered f o s t

/-! ### Entries moved, items placed (R30 to R35, R45, R46) -/

/-- R35, R45, R46: what becomes of an entry given a new w, `rest` being the list without it: ahead of the knife line it
stays as it is, between the lines it passes the knife if AHEAD, behind the commit line it is committed, or found late. -/
def MovedTo (e : Entry) (rest : List Entry) (s t : State) : Prop :=
  if s.commitLine < e.w then
    t.pmap.records = s.pmap.records ∧ t.total .late = s.total .late ∧
    ∃ f, t.track.entries = insertedInOrder f rest ∧
      if e.w ≤ s.knifeLine ∧ e.passage = .ahead then PassedAs s e f else f = e
  else
    t.track.entries = rest ∧
    if s.openFor e.w then Reported e.mapIndex .retired s t ∧ CommittedIn e s t
    else FoundLate e.kind e.w e.cls e.mapIndex s t

/-- R22: the entry an item makes, AHEAD and without further marks. -/
def newEntry (it : Item) (s : State) : Entry where
  ident := s.track.nextIdent
  seq := s.track.seq
  kind := it.kind
  source := it.source
  w := it.w
  len := it.len
  x0 := it.x0
  x1 := it.x1
  cls := it.cls
  sev := it.sev
  mapIndex := it.mapIndex
  passage := .ahead
  unsynced := it.unsynced
  stopped := false
  skipped := false
  pendingReplace := false

/-- R22: one entry has been made: the seq counter has advanced, from 65,535 back to 0. -/
def MadeOne (s t : State) : Prop := t.track.seq = (s.track.seq + 1) % 65536 ∧ t.track.nextIdent = s.track.nextIdent + 1

/-- R30, R31, R32: an item placed, the list having room, by where its w lies. -/
def PlacedIn (it : Item) (s t : State) : Prop :=
  if s.commitLine < it.w then
    MadeOne s t ∧ t.total .late = s.total .late ∧
    ∃ f, t.track.entries = insertedInOrder f s.track.entries ∧
      if it.w ≤ s.knifeLine then PassedAs s (newEntry it s) f else f = newEntry it s
  else
    t.track.entries = s.track.entries ∧
    if s.openFor it.w then MadeOne s t ∧ Reported it.mapIndex .retired s t ∧ CommittedIn (newEntry it s) s t
    else t.track.seq = s.track.seq ∧ FoundLate it.kind it.w it.cls it.mapIndex s t

/-- The entry `e` stands at a place of the list, between `pre` and `post`. -/
def State.listed (s : State) (pre : List Entry) (e : Entry) (post : List Entry) : Prop :=
  s.track.entries = pre ++ e :: post

/-- R38: a live item stored in a full list in the place of the entry `e`, which is withdrawn and
whose record is UNRELEASED again; `rest` is the list without it. -/
def StoredFor (e : Entry) (rest : List Entry) (it : Item) (s t : State) : Prop :=
  CountedOnce .withdrawn s t ∧ Reported e.mapIndex .unreleased s t ∧ t.track.entries.length = 1024 ∧
  t.pmap.withheld = s.pmap.withheld ∧ MadeOne s t ∧
  ∃ f, t.track.entries = insertedInOrder f rest ∧
    if it.w ≤ s.knifeLine then PassedAs s (newEntry it s) f else f = newEntry it s

/-- R39: a live item lost to a full list. -/
def LostItem (s t : State) : Prop :=
  t.track = s.track ∧ CountedOnce .lost s t ∧ t.events.flag .registerFull = true ∧ t.pmap.records = s.pmap.records ∧
  t.total .withdrawn = s.total .withdrawn

/-! ### Sets (R104 to R111, R120) -/

/-- R104, R105, R109, R110, R19: the next set opened at the commit line with a length target, its records made and the
running SET channels preset. -/
def OpenedAt (target : Nat) (s t : State) : Prop :=
  t.reels.nextSet = (if 65535 ≤ s.reels.nextSet then 1 else s.reels.nextSet + 1) ∧
  (∃ o, t.reels.openSet = some o ∧ o.number = s.reels.nextSet ∧ o.wStart = s.pos.p - s.pos.offNip ∧ o.target = target ∧
    o.lengthStop = (if 0 < target then .pending else .none) ∧
    (o.reels.map fun r => r.lane) = (List.range' 1 24).filter (fun n =>
      (s.plan.lane n).used && (s.plan.lane n).disposition != .trim) ∧
    ∀ r ∈ o.reels, r.setNumber = o.number ∧ r.shaft = (s.plan.lane r.lane).shaft ∧
      r.mapId = (if s.pmap.state = .closed then s.pmap.id else none) ∧ r.wStart = o.wStart ∧ r.wEnd = none ∧
      r.length = 0 ∧ r.classCounts = List.replicate 8 0 ∧ r.spliceCount = 0 ∧ r.committed = 0 ∧ r.unlisted = 0 ∧
      r.flags = [] ∧ (r.grade, r.cause) =
        if (s.plan.lane r.lane).disposition = .forcedReject then (.reject, .forced) else (.accept, .none)) ∧
  t.comps.ch0 = s.comps.ch0 ∧
  ∀ i, i ≠ 0 → t.comps.get i =
    if (s.comps.get i).reference = .set ∧ (s.comps.get i).run = true then
      { s.comps.get i with matchPoint := (s.comps.get i).base, skipped := 0 }
    else s.comps.get i

/-- R106, R111, R120: the records of the set `o` closed at the commit line and appended to the Completed Reel Queue; their
lanes count metres and reels, and AUTOSNAP snaps the tallies with a cause. -/
def ClosedInto (o : OpenSet) (cause : SnapCause) (s t : State) : Prop :=
  let line := s.pos.p - s.pos.offNip
  let bank := if s.tally.autosnap then t.tally.snap else t.tally.live
  (∃ closed, t.queue.records = s.queue.records ++ closed ∧
    List.Forall₂ (fun r r' =>
      r'.wEnd = some line ∧ r'.length = (if r.wStart < line then (line - r.wStart) / 10 else 0) ∧
      r'.setNumber = r.setNumber ∧ r'.lane = r.lane ∧ r'.shaft = r.shaft ∧ r'.mapId = r.mapId ∧
      r'.wStart = r.wStart ∧ r'.flags = r.flags ∧ r'.committed = r.committed ∧ r'.unlisted = r.unlisted ∧
      r'.classCounts = r.classCounts ∧ r'.spliceCount = r.spliceCount ∧
      (∃ g c, Recomputed s r r' g c ∧
        if g ≠ .reject ∧ 0 < s.reels.grading.minLength ∧ r'.length < s.reels.grading.minLength * 1000
        then r'.grade = .reject ∧ r'.cause = .shortLength else r'.grade = g ∧ r'.cause = c) ∧
      bank.lane r.lane = { s.tally.live.lane r.lane with
        metres := min 65535 ((s.tally.live.lane r.lane).metres + (r'.length / 1000).toNat)
        reels := min 65535 ((s.tally.live.lane r.lane).reels + 1) }) o.reels closed) ∧
  (∀ n, 1 ≤ n → n ≤ 24 → (∀ r ∈ o.reels, r.lane ≠ n) → bank.lane n = s.tally.live.lane n) ∧
  bank.totals = s.tally.live.totals ∧ SaturationIn s bank t ∧ t.events.flag .laneGrade = s.events.flag .laneGrade ∧
  (s.tally.autosnap = true → t.tally.snapCause = cause ∧ t.tally.snapSet = some o.number ∧
    (∀ k, t.total k = 0) ∧ ∀ n, 1 ≤ n → n ≤ 24 → t.tally.live.lane n = ⟨0, 0, 0, 0⟩) ∧
  (s.tally.autosnap = false → t.tally.snap = s.tally.snap ∧ t.tally.snapCause = s.tally.snapCause ∧
    t.tally.snapSet = s.tally.snapSet)

/-! ### Stops (R129, R130) -/

/-- R130: the slow-down distance D, with the ceilings of its quotients taken exactly. -/
def slowDownOf (v : Int) (q : StopParams) : Int :=
  if q.creepSpeed < v then
    ⌈((5 * (v ^ 2 - q.creepSpeed ^ 2) : Int) : ℚ) / (q.decel : ℚ)⌉ + ⌈((v * q.reaction : Int) : ℚ) / 100⌉ + q.margin
  else 0

/-- R128: the stop filter selects an entry. -/
def FilterSelects (q : StopParams) (e : Entry) : Prop :=
  (e.kind = .flag ∧ q.flagStop = true ∧ q.classMask.getLsbD e.cls.val = true ∧ q.minSeverity ≤ e.sev.val ∧
    ((e.source = .map ∧ q.sourceMask.getLsbD 0 = true) ∨ (e.source = .live ∧ q.sourceMask.getLsbD 1 = true) ∨
      (e.source = .merged ∧ q.sourceMask.getLsbD 2 = true))) ∨
  (e.kind = .splice ∧ q.spliceStop = true)

/-- R128: an entry qualifies as a candidate, its stop point apart. -/
def State.qualifies (s : State) (e : Entry) : Prop :=
  FilterSelects s.planner.params e ∧ e.stopped = false ∧ e.skipped = false ∧ s.planner.setAside ≠ some e.ident

/-- R128: the length stop of the open set qualifies as a candidate, its stop point apart. -/
def State.lengthQualifies (s : State) (o : OpenSet) : Prop :=
  s.reels.openSet = some o ∧ s.planner.params.lengthStop = true ∧ 0 < o.target ∧ o.lengthStop = .pending

/-- R129: the stop point of an entry. -/
def State.pointOf (s : State) (e : Entry) : Int := e.w + s.pos.offTable + s.planner.params.stopLead

/-- R129: the stop point of the length stop. -/
def State.lengthPointOf (s : State) (o : OpenSet) : Int := o.wStart + o.target * 10000 + s.pos.offNip

/-- R133: a selection finds no candidate. -/
def NoneSelected (s : State) : Prop :=
  (∀ e ∈ s.track.entries, s.qualifies e → s.pointOf e ≤ s.pos.p) ∧
  ∀ o, s.lengthQualifies o → s.lengthPointOf o ≤ s.pos.p

/-- R133: a selection finds the target `g` with the stop point `x`: of the candidates above P the lowest, the first in list
order of equals, and the length stop after every entry. -/
def Selected (s : State) (g : Target) (x : Int) : Prop :=
  s.pos.p < x ∧
  ((∃ pre e post, s.listed pre e post ∧ s.qualifies e ∧ g = .entry e.ident e.kind ∧ x = s.pointOf e ∧
      (∀ f ∈ pre, s.qualifies f → s.pos.p < s.pointOf f → x < s.pointOf f) ∧
      (∀ f ∈ post, s.qualifies f → s.pos.p < s.pointOf f → x ≤ s.pointOf f) ∧
      ∀ o, s.lengthQualifies o → s.pos.p < s.lengthPointOf o → x ≤ s.lengthPointOf o) ∨
   (∃ o, s.lengthQualifies o ∧ g = .length o.number ∧ x = s.lengthPointOf o ∧
      ∀ e ∈ s.track.entries, s.qualifies e → s.pos.p < s.pointOf e → x < s.pointOf e))

/-- R139: a target held still qualifies, its stop point apart. -/
def State.stillQualifies (s : State) : Target → Prop
  | .none => False
  | .entry ident _ => ∃ e ∈ s.track.entries, e.ident = ident ∧ s.qualifies e
  | .length n => ∃ o, s.lengthQualifies o ∧ o.number = n

/-- R134 to R136, R141: where the tests of the state `st` lead a planner that holds the target `g` with the stop point `x`;
`t` is the state they leave, HALTING with the target point fixed and the seq of an entry noted. -/
def Tested (g : Target) (st : PlannerState) (short retargeted : Bool) (x : Int) (t : State) : Prop :=
  let q := t.planner.params
  let r := x - t.pos.p
  t.planner.target = g ∧ t.planner.retargeted = retargeted ∧
  (t.planner.state = .halting → t.planner.targetPoint = x ∧
    (∀ e ∈ t.track.entries, ∀ k, g = .entry e.ident k → t.planner.notedSeq = some e.seq) ∧
    ∀ n, g = .length n → t.planner.notedSeq = none) ∧
  (t.planner.state, t.planner.short) =
    (if st = .armed ∧ slowDownOf t.pos.v q < r ∧ q.haltDist < r then (.armed, short)
     else if st ≠ .creeping ∧ q.creepSpeed < t.pos.v then
       (if r < 0 ∨ r ≤ q.haltDist then (.halting, true) else (.slowing, short))
     else if r ≤ q.haltDist then (.halting, short || decide (r < 0)) else (.creeping, short))

/-- The planner in IDLE, with no target and its marks cleared (R134, R144). -/
def StopPlanner.atIdle (x : StopPlanner) : StopPlanner :=
  { x with state := .idle, target := .none, notedSeq := none, short := false, retargeted := false }

/-- R9, R131 to R142: what an evaluation makes of the planner and of the settle count that `s` has. It is made against the
list, the open set, P and v that stand when it is made; they are those of `t`, the state it leaves. IDLE and ARMED take the
selection as the target, with SHORT computed for a new one; SLOWING and CREEPING give their target up for a lower stop
point, with RETARGETED, or when it no longer qualifies, which can lead back to ARMED or IDLE; the tests of the state
follow. HALTING and STOPPED are left as they are, and so is every state while v is below 0. -/
def Evaluated (s t : State) : Prop :=
  let old := s.planner
  let q := t.planner.params
  let far := fun x : Int => slowDownOf t.pos.v q < x - t.pos.p ∧ q.haltDist < x - t.pos.p
  let near := fun x : Int => decide (x - t.pos.p < slowDownOf t.pos.v q)
  (∃ st g point seq short retargeted, t.planner = { old with
    state := st, target := g, targetPoint := point, notedSeq := seq, short := short, retargeted := retargeted }) ∧
  (t.pos.settle = if t.planner.state = .halting ∧ old.state ≠ .halting then 0 else s.pos.settle) ∧
  (t.pos.v < 0 ∨ old.state = .halting ∨ old.state = .stopped → t.planner = old) ∧
  (0 ≤ t.pos.v → 1 ≤ q.decel →
    (old.state = .idle →
      (NoneSelected t → t.planner = old) ∧ ∀ g x, Selected t g x → Tested g .armed (near x) false x t) ∧
    (old.state = .armed →
      (NoneSelected t → t.planner = old.atIdle) ∧
      ∀ g x, Selected t g x →
        (g = old.target → Tested g .armed old.short old.retargeted x t) ∧
        (g ≠ old.target → Tested g .armed (near x) false x t)) ∧
    (old.state = .slowing ∨ old.state = .creeping →
      (¬ t.stillQualifies old.target →
        (NoneSelected t → t.planner = old.atIdle) ∧
        ∀ g x, Selected t g x →
          (far x → t.planner = { old with state := .armed, target := g, short := false, retargeted := false }) ∧
          (¬ far x → Tested g old.state old.short true x t)) ∧
      (t.stillQualifies old.target → ∀ y, t.targetPoint old.target = some y →
        (NoneSelected t ∨ (∃ g x, Selected t g x ∧ y ≤ x) → Tested old.target old.state old.short old.retargeted y t) ∧
        ∀ g x, Selected t g x → x < y → Tested g old.state old.short true x t)))

/-! ### What an operation hands on (R25, R29, R54) -/

/-- R25, R54: an operation that takes the list from 1,024 entries below 1,024 signals room, and the release is no longer
withheld; any other leaves that as it was. -/
def RoomSignalled (s t : State) : Prop :=
  t.pmap.withheld = (s.pmap.withheld &&
    !(decide (1024 ≤ s.track.entries.length) && decide (t.track.entries.length < 1024)))

/-- R29, R132: an operation that made, removed, moved or merged an entry hands on room and an evaluation. -/
def HandedOn (s t : State) : Prop := RoomSignalled s t ∧ Evaluated s t

/-- R29: an operation that changed no entry hands nothing to the Stop Planner. -/
def HandedNone (s t : State) : Prop := RoomSignalled s t ∧ t.planner = s.planner ∧ t.pos.settle = s.pos.settle

/-- R131, R136, R141: what the move to HALTING leaves of the planner: the target point fixed at `point`. -/
def HaltingAt (point : Int) (short : Bool) (s t : State) : Prop :=
  t.planner.state = .halting ∧ t.planner.targetPoint = point ∧ t.planner.target = s.planner.target ∧
  t.planner.short = short ∧ t.pos.settle = 0

/-- R61: a sighting at `w` passes the guard. -/
def State.passesGuard (s : State) (w : Int) : Prop :=
  ∀ last, s.align.lastGuarded = some last → s.align.spliceGuard < |w - last|

/-- R62: a sighting at `w` lies within MATCH_WINDOW of a map splice that is UNMATCHED. -/
def State.matchesRecord (s : State) (w : Int) (r : MapRecord) : Prop :=
  r.kind = .splice ∧ r.matchState = .unmatched ∧ |s.predict r.m - w| ≤ s.align.matchWindow

/-- R60, R84: the command takes a sighting at `w`, UNSYNCED or not: an edge of SPLC with two places free in the write
queue and nothing latched (log 30), the latched sighting with two places free, or a SPLICE SIGHTING at the head of the DIQ
with two places free and nothing latched; each from a source that SPLICE_SOURCE selects when the sighting is made. The
source of a latched one is not looked at again (log 41). -/
def SightingTaken (c : Instr) (s : State) (w : Int) (src : SightingSource) (u : Bool) : Prop :=
  s.align.queue.length ≤ 6 ∧
  ((c = .spliceSensorEdge ∧ s.align.source ≠ .camera ∧ s.align.latch = none ∧ w = s.pos.p - s.pos.offSplice ∧
      src = .sensor ∧ u = false) ∨
    (c = .latchedSightingTaken ∧ s.align.latch = some w ∧ src = .sensor ∧ u = false) ∨
    (c = .spliceSighting ∧ s.align.source ≠ .sensor ∧ s.align.latch = none ∧
      (∃ stamp rest, s.diq.messages = .spliceSighting stamp :: rest ∧
        w = stamp + (if s.tracker.valid then s.tracker.o else 0) - s.pos.offSplice) ∧
      src = .camera ∧ u = !s.tracker.valid))

/-- The rounding of the manual (00_scope.md): to the nearest integer, halves away from zero. -/
def roundHalfAway (x : ℚ) : Int := if 0 ≤ x then ⌊x + 1 / 2⌋ else ⌈x - 1 / 2⌉

/-- R62, R84: a sighting matches no map splice. -/
def State.matchesNone (s : State) (w : Int) (unsynced : Bool) : Prop :=
  unsynced = true ∨ w < 0 ∨ posMax < w ∨ ∀ r ∈ s.pmap.records, ¬ s.matchesRecord w r

/-- The receive stages are empty and hold no mark for the next byte. -/
def ReelLink.quiet (x : ReelLink) : Prop :=
  x.holdingStage = none ∧ x.shiftStage = none ∧ x.overrunNext = false ∧ x.gapNext = false

/-- R174: a byte opens a frame. -/
def RxByte.opens (x : RxByte) : Prop :=
  x.value = 0xC3 ∧ x.parityError = false ∧ x.framingError = false ∧ x.overrun = false

/-- R174: the assembler of `t` hunts, or collects a frame that the byte `x` has just opened. -/
def HuntedWith (x : RxByte) (t : State) : Prop :=
  (x.opens → t.reel.assembler = .needKind) ∧ (¬ x.opens → t.reel.assembler = .hunting)

/-- R174: frames discarded and counted, `n` in number, each with REEL_LINK_ERROR. -/
def FramesLost (n : Nat) (s t : State) : Prop :=
  t.total .framesDiscarded = min 65535 (s.total .framesDiscarded + n) ∧
  t.events.flag .reelLinkError = (s.events.flag .reelLinkError || decide (0 < n))

/-- R173, R174: the assembler hunts again, `n` frames having been discarded, and takes the bytes that wait in the stages. A
frame that the first of them opens is discarded when the second stands behind a gap (log 23), and is failed when that is
marked with an error. -/
def StagesTaken (n : Nat) (s t : State) : Prop :=
  match s.reel.holdingStage, s.reel.shiftStage with
  | none, _ =>
    FramesLost n s t ∧ t.reel.assembler = .hunting ∧ t.reel.holdingStage = none ∧ t.reel.shiftStage = s.reel.shiftStage
  | some x, none =>
    FramesLost n s t ∧ HuntedWith x t ∧ t.reel.holdingStage = none ∧ t.reel.shiftStage = none
  | some x, some y =>
    t.reel.holdingStage = none ∧ t.reel.shiftStage = none ∧
    (¬ x.opens → FramesLost n s t ∧ HuntedWith y t) ∧
    (x.opens → y.afterGap = true → FramesLost (n + 1) s t ∧ HuntedWith y t) ∧
    (x.opens → y.afterGap = false → FramesLost n s t ∧
      t.reel.assembler = if y.parityError || y.framingError || y.overrun then .failed else .needLength y.value)

/-- R174: the frame being collected is discarded and counted, and the bytes that wait in the stages are then taken from
hunting, unless a reply waits, which keeps them there (R175). -/
def DiscardedFrame (s t : State) : Prop :=
  match s.reel.waiting with
  | some _ =>
    FramesLost 1 s t ∧ t.reel.assembler = .hunting ∧ t.reel.holdingStage = s.reel.holdingStage ∧
    t.reel.shiftStage = s.reel.shiftStage
  | none => StagesTaken 1 s t

/-- R173: CLK periods of one bit. -/
def bitPeriods (f : SendSettings) : Nat := 16 * f.divisor

/-- R173: the bits of one character: start, 8 data, parity unless NONE, stop. -/
def bitsOf (p : Parity) : Nat := if p = .none then 10 else 11

/-- R173: the ones among the data bits of a byte. -/
def dataOnes (b : Byte) : Nat := ((List.range 8).filter fun i => b.getLsbD i).length

/-- R173: the level of bit `k` of a character on the line: the start bit low and the stop bit high (log 42), between them
the data bits from the least significant, and the parity bit that makes the ones among data and parity even or odd. -/
def LevelIs (p : Parity) (b : Byte) (k : Nat) (level : Bool) : Prop :=
  (k = 0 → level = false) ∧ (∀ i < 8, k = i + 1 → level = b.getLsbD i) ∧
  (k = 9 → p = .even → (dataOnes b + level.toNat) % 2 = 0) ∧ (k = 9 → p = .odd → (dataOnes b + level.toNat) % 2 = 1) ∧
  (k = bitsOf p - 1 → level = true)

/-- R173, R175: TXD carries the bytes being sent from here on, one character of each behind the other under one setting, at
every CLK period of every bit; then it holds the stop level. -/
def ReelLink.carries (x : ReelLink) (f : SendSettings) : Prop :=
  (∀ (i : Nat) (b : Byte) (k j : Nat), x.sending[i]? = some b → k < bitsOf f.parity → j < bitPeriods f →
    LevelIs f.parity b k (x.txdAfter ((i * bitsOf f.parity + k) * bitPeriods f + j))) ∧
  ∀ n, x.sending.length * (bitsOf f.parity * bitPeriods f) ≤ n → x.txdAfter n = true

/-- R175: the reply to a served frame. With the transmitter idle it starts at once, TXD carries it, and the bytes in the
stages are taken from hunting. While another reply is being sent it waits whole, and the bytes stay in the stages. -/
def ReplyGiven (reply : List Byte → Prop) (s t : State) : Prop :=
  if s.reel.sending = [] then
    reply t.reel.sending ∧ t.reel.waiting = none ∧ t.reel.carries ⟨s.reel.parity, s.reel.divisor⟩ ∧ StagesTaken 0 s t
  else
    (∃ frame, reply frame ∧ t.reel.waiting = some frame) ∧ t.reel.sending = s.reel.sending ∧
    t.reel.charLeft = s.reel.charLeft ∧ t.reel.onLine = s.reel.onLine ∧ FramesLost 0 s t ∧
    t.reel.assembler = .hunting ∧ t.reel.holdingStage = s.reel.holdingStage ∧ t.reel.shiftStage = s.reel.shiftStage

/-! ### Layouts (section 9.5) -/

/-- The codes of a list, in their order from 0. -/
def codeIn {α : Type} [DecidableEq α] (codes : List α) (x : α) : Nat := codes.idxOf x

/-- A word of fields, each given by its lowest bit and its value. -/
def bitsAt (fields : List (Nat × Nat)) : Word := BitVec.ofNat 16 (fields.map fun f => f.2 * 2 ^ f.1).sum

/-- A value of one word, in two's complement. -/
def w16 (x : Int) : List Word := [BitVec.ofInt 16 x]

/-- A value of two words, high word first (R160). -/
def w32 (x : Int) : List Word := [1, 0].map fun k => (BitVec.ofInt 32 x).extractLsb' (16 * k) 16

/-- A value of three words, high word first (R160). -/
def w48 (x : Int) : List Word := [2, 1, 0].map fun k => (BitVec.ofInt 48 x).extractLsb' (16 * k) 16

/-- Word `k` of a record whose fields stand from the word numbers given on; a word that holds no field reads 0 (R160). -/
def laidOut (fields : List (Nat × List Word)) (k : Nat) : Word :=
  (fields.findSome? fun f => if f.1 ≤ k then f.2[k - f.1]? else none).getD 0

def configLayout (s : State) : List (Nat × List Word) :=
  [(0, w32 s.pos.pitch), (2, w16 s.pos.dirInvert.toNat), (3, w16 s.pos.clkdiv), (4, w32 s.pos.offSplice),
   (6, w32 s.pos.offInspect), (8, w32 s.pos.offTable), (10, w32 s.pos.offKnife), (12, w32 s.pos.offNip),
   (14, w16 s.track.mergeWindow), (15, w32 s.pmap.horizon), (17, w16 s.pmap.xOffset), (18, w32 s.align.matchWindow),
   (20, w32 s.align.spliceGuard), (22, w16 (codeIn [SpliceSource.sensor, .camera, .both] s.align.source)),
   (23, w16 s.diq.resume), (24, w16 s.link.holdLimit), (25, w16 s.tracker.gNarrow), (26, w16 s.tracker.gWide),
   (27, w16 s.tracker.wideWindow), (28, w32 s.tracker.captureLimit),
   (30, w16 (codeIn [PeakMode.peak, .current] s.tracker.peakMode)), (31, w32 s.tracker.strobePitch),
   (33, w16 s.tally.autosnap.toNat), (34, w16 (codeIn [Parity.none, .even, .odd] s.reel.parity)),
   (35, w16 s.reel.divisor), (36, w16 s.reel.frameGap)]

def slitPlanLayout (s : State) (r : Nat) : List (Nat × List Word) :=
  if r = 0 then
    [(0, w16 s.plan.shiftLimit), (1, w16 s.plan.usedLanes.length), (2, w16 s.plan.reelCount),
     (3, w16 (codeIn [PlanStatus.valid, .noLanes, .laneGap, .laneEdge, .shaftMismatch, .laneOrder, .noReel]
       s.plan.status))]
  else
    let l := s.plan.lane r
    [(0, w16 l.used.toNat), (1, w16 l.left), (2, w16 l.width), (3, w16 (codeIn [Shaft.none, .upper, .lower] l.shaft)),
     (4, w16 (codeIn [Disposition.wound, .trim, .forcedReject] l.disposition))]

def gradingLayout (s : State) : List (Nat × List Word) :=
  let limit := fun (l : List Nat) (c : Nat) => w16 (l.getD c 0)
  ((List.range 8).map fun c => (c, limit s.reels.grading.classDown c)) ++
  ((List.range 8).map fun c => (8 + c, limit s.reels.grading.classReject c)) ++
  [(16, w16 s.reels.grading.spliceDown), (17, w16 s.reels.grading.spliceReject), (18, w16 s.reels.grading.minLength)]

def stopParamsLayout (q : StopParams) : List (Nat × List Word) :=
  [(0, w16 q.creepSpeed), (1, w16 q.decel), (2, w16 q.reaction), (3, w32 q.margin), (5, w32 q.haltDist),
   (7, w32 q.stopLead), (9, w16 q.tolerance), (10, w16 q.settle), (11, w16 q.flagStop.toNat),
   (12, [bitsAt ((List.range 8).map fun n => (n, (q.classMask.getLsbD n).toNat))]), (13, w16 q.minSeverity),
   (14, [bitsAt ((List.range 3).map fun n => (n, (q.sourceMask.getLsbD n).toNat))]), (15, w16 q.spliceStop.toNat),
   (16, w16 q.lengthStop.toNat)]

/-- Channel 0 shows STROBE_PITCH as its base value and its reload (R21), and the strobe sequence. -/
def comparatorLayout (s : State) (i : Fin 4) : List (Nat × List Word) :=
  let ch := s.comps.get i
  [(0, w32 (if i = 0 then s.tracker.strobePitch else ch.base)), (2, w32 ch.matchPoint),
   (4, w32 (if i = 0 then s.tracker.strobePitch else ch.reload)),
   (6, w16 (codeIn [Reference.absolute, .set] ch.reference)), (7, w16 ch.run.toNat), (8, w16 ch.skipped),
   (9, w16 (if i = 0 then s.comps.strobeSeq else 0))]

/-- A kind, with 0 for NONE. -/
def kindIn (k : Option ItemKind) : Nat := codeIn [none, some .flag, some .splice] k

def sourceIn (x : Source) : Nat := codeIn [.map, .live, .merged, .sensor, .camera, .confirmed] x

def trackLayout (e : Entry) : List (Nat × List Word) :=
  let slit := decide (e.passage ≠ .ahead)
  let lane := fun n => (e.lanes.contains n).toNat
  [(0, [bitsAt [(0, kindIn (some e.kind)), (4, sourceIn e.source), (8, slit.toNat), (12, e.unsynced.toNat),
     (13, e.stopped.toNat), (14, e.skipped.toNat), (15, e.pendingReplace.toNat)]]),
   (1, w16 e.seq), (2, w32 e.w), (4, w16 e.len), (5, w16 e.x0), (6, w16 e.x1),
   (7, [bitsAt [(0, e.cls.val), (4, e.sev.val)]]),
   (8, [bitsAt [(0, e.mapIndex.getD 0), (15, e.mapIndex.isSome.toNat)]]),
   (9, [bitsAt ((List.range 16).map fun k => (k, lane (k + 1)))]),
   (10, [bitsAt (((List.range 8).map fun k => (k, lane (k + 17))) ++ [(15, slit.toNat)])]), (11, w16 e.knifeShift)]

/-- The cursor, the first UNRELEASED record, reads 4,096 when there is none (R54). -/
def mapLayout (s : State) (r : Nat) : List (Nat × List Word) :=
  if r = 0 then
    [(0, [bitsAt [(0, codeIn [MapState.empty, .opened, .closed] s.pmap.state), (4, s.pmap.truncated.toNat),
       (8, s.pmap.id.isSome.toNat)]]),
     (1, w32 (s.pmap.id.getD 0 : Nat)), (3, w32 s.pmap.mEnd), (5, w16 s.pmap.d0), (6, w16 s.pmap.records.length),
     (7, w16 ((s.pmap.records.findIdx? fun q => q.status == .unreleased).getD 4096 : Nat))]
  else
    match s.pmap.records[r - 1]? with
    | none => []
    | some q =>
      [(0, [bitsAt [(0, kindIn (some q.kind)), (4, codeIn [RecordStatus.unreleased, .released, .retired] q.status),
         (8, codeIn [MatchState.unmatched, .matched, .missed] q.matchState)]]),
       (1, w32 q.m), (3, w16 q.len), (4, w16 q.x0), (5, w16 q.x1), (6, [bitsAt [(0, q.cls.val), (4, q.sev.val)]]),
       (7, w48 (s.predict q.m))]

def anchorLayout (s : State) (r : Nat) : List (Nat × List Word) :=
  if r = 0 then [(0, w32 s.align.dLast), (2, w16 s.align.anchors.length)]
  else match s.align.anchors[r - 1]? with
    | none => []
    | some a => [(0, [1]), (1, w32 a.m), (3, w48 a.w)]

def causeIn (c : Cause) : Nat :=
  codeIn [.none, .cls 0, .cls 1, .cls 2, .cls 3, .cls 4, .cls 5, .cls 6, .cls 7, .splices, .forced, .shortLength] c

def gradeIn (g : Grade) : Nat := codeIn [.accept, .downgrade, .reject] g

/-- A reel record up to its flag list, with the length it shows. -/
def reelLayout (r : ReelRecord) (length : Int) : List (Nat × List Word) :=
  let counts := fun c => bitsAt [(8, r.classCounts.getD c 0), (0, r.classCounts.getD (c + 1) 0)]
  [(0, w16 r.setNumber),
   (1, [bitsAt [(0, r.lane), (8, codeIn [Shaft.none, .upper, .lower] r.shaft), (13, r.wEnd.isSome.toNat),
     (14, r.mapId.isSome.toNat), (15, 1)]]),
   (2, [bitsAt [(0, gradeIn r.grade), (8, causeIn r.cause)]]), (3, w32 (r.mapId.getD 0 : Nat)), (5, w48 r.wStart),
   (8, w48 (r.wEnd.getD 0)), (11, w32 length), (13, [counts 0, counts 2, counts 4, counts 6]), (17, w16 r.spliceCount),
   (18, w16 r.committed), (19, w16 r.unlisted), (20, w16 r.flags.length)]

/-- The four words of an item of a flag list. -/
def itemWords (it : FlagItem) : List Word :=
  w32 it.depth ++ w16 it.across ++
    [bitsAt [(0, it.cls.val), (4, it.sev.val), (8, sourceIn it.source), (12, it.unsynced.toNat)]]

/-- Word `k` of a reel record: item `i` of its flag list takes words 24 + 4i to 27 + 4i. -/
def reelWord (r : ReelRecord) (length : Int) (k : Nat) : Word :=
  if k < 24 then laidOut (reelLayout r length) k
  else match r.flags[(k - 24) / 4]? with
    | none => 0
    | some it => (itemWords it).getD ((k - 24) % 4) 0

/-- The header of OPEN REELS; the open length is that of R111. -/
def openLayout (s : State) : List (Nat × List Word) :=
  match s.reels.openSet with
  | none => [(0, [0]), (1, w16 s.reels.nextSet)]
  | some o =>
    [(0, [1]), (1, w16 o.number), (2, w48 o.wStart), (5, w16 o.target),
     (6, w16 (codeIn [LengthStop.none, .pending, .done, .skipped] o.lengthStop)), (7, w16 o.reels.length),
     (8, w32 (max 0 (s.commitLine - o.wStart) / 10))]

def tallyLayout (b : TallyBank) (r : Nat) : List (Nat × List Word) :=
  if r = 0 then
    [Total.placed, .merged, .lost, .released, .withdrawn, .late, .unwound, .unassigned, .stopsMade, .shortStops,
     .staleBeacons, .linkDropped, .shortMessages, .encoderFaults, .sightingsIgnored, .framesDiscarded].mapIdx
      fun i k => (i, w16 (b.total k))
  else
    let l := b.lane r
    [(0, w16 l.flags), (1, w16 l.splices), (2, w16 l.metres), (3, w16 l.reels)]

def snapLayout (s : State) (r : Nat) : List (Nat × List Word) :=
  tallyLayout s.tally.snap r ++
  if r = 0 then
    [(16, w16 (codeIn [SnapCause.none, .command, .setEnd, .setChange] s.tally.snapCause)),
     (17, w16 (s.tally.snapSet.getD 0 : Nat))]
  else []

def strobeLayout (s : State) (r : Nat) : List (Nat × List Word) :=
  if r = 0 then
    [(0, w48 s.tracker.o),
     (3, [bitsAt [(0, s.tracker.valid.toNat), (1, s.tracker.latest.isSome.toNat),
       (2, codeIn [PeakMode.peak, .current] s.tracker.peakMode)]]),
     (4, w48 (s.tracker.latest.getD 0)), (7, w32 s.tracker.peak), (9, w16 s.comps.strobeSeq)]
  else match s.tracker.history[r - 1]? with
    | none => []
    | some h => [(0, [1]), (1, w16 h.number), (2, w32 h.p)]

def stopRecordLayout (x : StopRecord) : List (Nat × List Word) :=
  [(0, [bitsAt [(0, codeIn [TargetKind.none, .flag, .splice, .length] x.kind),
     (4, codeIn [StopOutcome.onTarget, .overshoot, .undershoot] x.outcome), (8, x.short.toNat), (9, x.retargeted.toNat),
     (12, x.seq.isSome.toNat), (13, x.setNumber.isSome.toNat)]]),
   (1, w16 (x.seq.getD 0 : Nat)), (2, w16 (x.setNumber.getD 0 : Nat)), (3, w48 x.targetP), (6, w32 x.finalP), (8, w48 x.e)]

def lateLayout (x : LateRecord) : List (Nat × List Word) :=
  [(0, w16 (kindIn x.kind)), (1, w48 x.w), (4, w16 x.cls.val)]

/-- Section 9.5, Line Port words: the single words that a read can reach, but for STOP_ERROR and TABLE_DATA. -/
def singleLayout (s : State) : List (Nat × List Word) :=
  [(0, [bitsAt [(8, 0x46), (0, 0x01)]]),
   (1, [bitsAt [(0, s.mounted.toNat), (1, s.reels.openSet.isSome.toNat),
     (2, codeIn [MapState.empty, .opened, .closed] s.pmap.state), (4, s.tracker.valid.toNat),
     (5, (decide (1024 ≤ s.track.entries.length)).toNat),
     (6, (decide (s.plan.reelCount ≤ 64 - s.queue.records.length)).toNat), (7, s.link.holding.toNat),
     (8, s.pos.overspeed.toNat),
     (9, ((s.align.queue.any fun w => match w with
        | .marking _ => true
        | .confirmation _ _ => false
        | .liveSplice _ _ _ => false) || s.track.entries.any fun e => e.pendingReplace).toNat)]]),
   (3, w16 (codeIn [ResultCode.ok, .noRoll, .rollMounted, .mapOpen, .setOpen, .noSet, .queueFull, .badPlan, .badGeometry,
     .notStopped, .badArg, .mapState, .mapFull, .mapOrder, .badField] s.port.result)),
   (4, [s.port.arg0, s.port.arg1, s.port.arg2, s.port.arg3]), (8, w16 (s.pos.p / 65536)), (9, [s.port.posLatch]),
   (10, w16 s.pos.v), (11, w16 s.plan.webShift),
   (12, [bitsAt [(0, codeIn [PlannerState.idle, .armed, .slowing, .creeping, .halting, .stopped] s.planner.state),
     (4, codeIn [TargetKind.none, .flag, .splice, .length] s.planner.target.kind), (8, s.planner.short.toNat),
     (9, s.planner.retargeted.toNat)]]),
   (14, [s.events.flagsA, s.events.flagsB, s.events.enableA, s.events.enableB]),
   (18, [s.reels.indications.extractLsb' 0 16, (s.reels.indications.extractLsb' 16 8).setWidth 16]),
   (20, w16 s.port.tableSelect.code), (21, w16 s.port.tableAddr), (23, w16 s.queue.records.length)]

/-- R131: the live error against the stop point of the target as it stands, and against the fixed target point from
HALTING on, clipped; 0 in IDLE. -/
def StopErrorIs (s : State) (x : Int) : Prop :=
  (s.planner.state = .idle ∧ x = 0) ∨
  (s.planner.state ∈ [PlannerState.armed, .slowing, .creeping] ∧ ∃ y, s.targetPoint s.planner.target = some y ∧
    x = max (-32767) (min 32767 (s.pos.p - y))) ∨
  (s.planner.state ∈ [PlannerState.halting, .stopped] ∧ x = max (-32767) (min 32767 (s.pos.p - s.planner.targetPoint)))

/-- Word `k` of record `r` of a table (section 9.5, Tables). A vacant record reads 0 throughout. -/
def tableWord (s : State) (t : Table) (r k : Nat) : Word :=
  match t with
  | .config => laidOut (configLayout s) k
  | .slitPlan => laidOut (slitPlanLayout s r) k
  | .grading => laidOut (gradingLayout s) k
  | .stopParams => laidOut (stopParamsLayout s.planner.params) k
  | .comparators => if h : r < 4 then laidOut (comparatorLayout s ⟨r, h⟩) k else 0
  | .track =>
    match s.track.entries[r]? with
    | none => 0
    | some e => laidOut (trackLayout e) k
  | .map => laidOut (mapLayout s r) k
  | .anchors => laidOut (anchorLayout s r) k
  | .openReels =>
    if r = 0 then laidOut (openLayout s) k
    else match s.reels.openSet with
      | none => 0
      | some o =>
        match o.reels[r - 1]? with
        | none => 0
        | some x => reelWord x (max 0 (s.commitLine - o.wStart) / 10) k
  | .queue =>
    match s.queue.records[r]? with
    | none => 0
    | some x => reelWord x x.length k
  | .tallyLive => laidOut (tallyLayout s.tally.live r) k
  | .tallySnap => laidOut (snapLayout s r) k
  | .strobes => laidOut (strobeLayout s r) k
  | .stopRecord => laidOut (stopRecordLayout s.planner.record) k
  | .lateRecord => laidOut (lateLayout s.track.late) k

/-- The words of a record, as many as the table's stride, each as the section lays it out. -/
def RecordLaidOut (s : State) (t : Table) (r : Nat) (ws : List Word) : Prop :=
  ∀ k, k < t.stride → ws.getD k 0 = tableWord s t r k

/-! ### Messages and frames as bytes (section 9.5, R174) -/

/-- The bytes of a value, most significant first. -/
def be16 (x : BitVec 16) : List Byte := [1, 0].map fun k => x.extractLsb' (8 * k) 8
def be32 (x : BitVec 32) : List Byte := [3, 2, 1, 0].map fun k => x.extractLsb' (8 * k) 8

/-- The bytes after a kind byte spell the message. -/
def Spells : MessageKind → List Byte → Message → Prop
  | .mapBegin, bytes, m => ∃ (id mEnd : BitVec 32) (d0 : BitVec 16), bytes = be32 id ++ be32 mEnd ++ be16 d0 ∧
      m = .mapBegin id.toNat mEnd.toNat d0.toInt
  | .mapRecord, bytes, m => ∃ (x : BitVec 32) (len x0 x1 : BitVec 16) (packed : Byte),
      bytes = be32 x ++ be16 len ++ be16 x0 ++ be16 x1 ++ [packed] ∧
      m = .mapRecord x.toNat len.toNat x0.toNat x1.toNat packed
  | .mapClose, bytes, m => ∃ count : BitVec 16, bytes = be16 count ∧ m = .mapClose count.toNat
  | .detection, bytes, m => ∃ (stamp : BitVec 32) (len x0 x1 : BitVec 16) (cls : BitVec 3) (sev : BitVec 2)
      (ignored : BitVec 3), bytes = be32 stamp ++ be16 len ++ be16 x0 ++ be16 x1 ++ [ignored ++ cls ++ sev] ∧
      m = .detection stamp.toNat len.toNat x0.toNat x1.toNat cls.toFin sev.toFin
  | .beacon, bytes, m => ∃ (number : Byte) (position : BitVec 32), bytes = number :: be32 position ∧
      m = .beacon number.toNat position.toNat
  | .spliceSighting, bytes, m => ∃ stamp : BitVec 32, bytes = be32 stamp ∧ m = .spliceSighting stamp.toNat

/-- R174: the bytes of a frame: the lead byte, the kind, the length, the body, and a check byte that brings the 8-bit sum
of kind, length, body and check to 0. -/
def FrameOf (kind : Byte) (body bytes : List Byte) : Prop :=
  ∃ check : Byte, bytes = 0xC3 :: kind :: BitVec.ofNat 8 body.length :: body ++ [check] ∧
    (kind.toNat + body.length + (body.map BitVec.toNat).sum + check.toNat) % 256 = 0

/-- One item of a reel record body, 8 bytes. -/
def itemBody (it : FlagItem) : List Byte :=
  be32 (BitVec.ofInt 32 it.depth) ++ be16 (BitVec.ofInt 16 it.across) ++
    [BitVec.ofNat 8 (it.cls.val * 4 + it.sev.val), BitVec.ofNat 8 (it.unsynced.toNat * 128 + sourceIn it.source)]

/-- The reel record body of a FETCH reply, 28 + 8n bytes. -/
def reelBody (r : ReelRecord) : List Byte :=
  be16 (BitVec.ofNat 16 r.setNumber) ++
  [BitVec.ofNat 8 r.lane,
   BitVec.ofNat 8 (r.mapId.isSome.toNat * 128 + codeIn [Shaft.none, .upper, .lower] r.shaft),
   BitVec.ofNat 8 (gradeIn r.grade), BitVec.ofNat 8 (causeIn r.cause)] ++
  be32 (BitVec.ofInt 32 r.length) ++ be32 (BitVec.ofNat 32 (r.mapId.getD 0)) ++ [BitVec.ofNat 8 r.spliceCount] ++
  (r.classCounts.map fun n => BitVec.ofNat 8 n) ++ be16 (BitVec.ofNat 16 r.committed) ++
  be16 (BitVec.ofNat 16 r.unlisted) ++ [BitVec.ofNat 8 r.flags.length] ++ r.flags.flatMap itemBody

/-! ### Invariants -/

/-- R3: "P always lies between 0 and 4,294,967,295 pu", and the fraction between 0 and 65,535. -/
def PositionBounded (s : State) : Prop := 0 ≤ s.pos.p ∧ s.pos.p ≤ posMax ∧ 0 ≤ s.pos.frac ∧ s.pos.frac ≤ 65535

/-- R24: at most 1,024 entries, in ascending w; each has an identity of its own (section 2.1), given before the next one,
and a lane set of lanes from 1 to 24, each named once (R98). -/
def TrackOrdered (s : State) : Prop :=
  s.track.entries.length ≤ 1024 ∧ (s.track.entries.Pairwise fun e f => e.w ≤ f.w) ∧
  (s.track.entries.map fun e => e.ident).Nodup ∧
  ∀ e ∈ s.track.entries, e.ident < s.track.nextIdent ∧ e.lanes.Nodup ∧
    ∀ n ∈ e.lanes, 1 ≤ n ∧ n ≤ 24

/-- Every tally of a bank is at most 65,535 (R148), and the bank has 16 totals and 24 lanes (section 8.1). -/
def TallyBank.bounded (b : TallyBank) : Prop :=
  b.totals.length = 16 ∧ b.lanes.length = 24 ∧ (∀ n ∈ b.totals, n ≤ countMax) ∧
  ∀ t ∈ b.lanes, t.flags ≤ countMax ∧ t.splices ≤ countMax ∧ t.metres ≤ countMax ∧ t.reels ≤ countMax

/-- R148, R150: both banks. -/
def TalliesBounded (s : State) : Prop := s.tally.live.bounded ∧ s.tally.snap.bounded

/-- R53: a record is RELEASED exactly when one entry carries its map index, and otherwise none does; an entry carries the
index of a record of the map. With no roll mounted the list, the write queue and the sensor latch are empty (R47, R60, R70). -/
def MapJoined (s : State) : Prop :=
  (∀ i r, s.pmap.records[i]? = some r →
    (s.track.entries.filter fun e => e.mapIndex == some i).length = if r.status = .released then 1 else 0) ∧
  (∀ e ∈ s.track.entries, ∀ i, e.mapIndex = some i → i < s.pmap.records.length) ∧
  (s.mounted = false → s.track.entries = [] ∧ s.align.queue = [] ∧ s.align.latch = none)

/-- R57, R59: the press coordinates fall strictly from the oldest anchor to the newest (which stands first); d_last lies in
-50,000 to +50,000, for a sighting's ratio does (R59), and the d0 a mount gives it is a 16-bit value (R49). -/
def AnchorsOrdered (s : State) : Prop :=
  (s.align.anchors.Pairwise fun a b => a.m < b.m) ∧ -50000 ≤ s.align.dLast ∧ s.align.dLast ≤ 50000 ∧
  -32768 ≤ s.pmap.d0 ∧ s.pmap.d0 ≤ 32767

/-- R115: a flag list never holds more than 20 items, and they are always in ascending depth. -/
def ReelRecord.listOrdered (r : ReelRecord) : Prop :=
  r.flags.length ≤ 20 ∧ r.flags.Pairwise fun x y => x.depth ≤ y.depth

/-- R115, in the open set and in the queue; and the grading table has its eight limits of each kind (R117). -/
def ListsOrdered (s : State) : Prop :=
  (∀ o, s.reels.openSet = some o → ∀ r ∈ o.reels, r.listOrdered) ∧ (∀ r ∈ s.queue.records, r.listOrdered) ∧
  s.reels.grading.classDown.length = 8 ∧ s.reels.grading.classReject.length = 8

/-- The limits of the queues and tables: the DIQ (R72), the write queue (R67), the Anchor Table (R57), the Strobe
History (R77), the map records (R50), the Completed Reel Queue (R121). -/
def WithinCapacity (s : State) : Prop :=
  s.diq.messages.length ≤ 32 ∧ s.align.queue.length ≤ 8 ∧ s.align.anchors.length ≤ 8 ∧
  s.tracker.history.length ≤ 4 ∧ s.pmap.records.length ≤ 4096 ∧ s.queue.records.length ≤ 64

/-- R173: the character on the line has part of its time left, under the settings it began with; REEL_DIVISOR is never 0. -/
def CharacterTimed (s : State) : Prop :=
  1 ≤ s.reel.divisor ∧
  (s.reel.sending ≠ [] → 1 ≤ s.reel.charLeft ∧
    s.reel.charLeft ≤ bitsOf s.reel.onLine.parity * bitPeriods s.reel.onLine)

/-- A mounted roll has no OPEN map (R12, R49); a set is open only on a mounted roll (R13, R105), under a VALID plan, and
with one record for each lane of the plan that has a reel (R90, R92, R93); a ROLL END that waits was accepted with no set
open (R13). -/
def RollConsistent (s : State) : Prop :=
  (s.mounted = true → s.pmap.state ≠ .opened) ∧
  (s.reels.openSet.isSome = true → s.mounted = true ∧ s.plan.status = .valid) ∧
  (∀ o, s.reels.openSet = some o → (o.reels.map fun r => r.lane) = s.plan.reelLanes) ∧
  (s.port.access = some .rollEnd → s.reels.openSet = none)

/-- R95, R96: WEB_SHIFT lies within SHIFT_LIMIT, and SHIFT_LIMIT in its range. -/
def ShiftBounded (s : State) : Prop :=
  0 ≤ s.plan.shiftLimit ∧ s.plan.shiftLimit ≤ 10000 ∧ -s.plan.shiftLimit ≤ s.plan.webShift ∧
  s.plan.webShift ≤ s.plan.shiftLimit

/-- R11: "the offsets in force always satisfy the order". -/
def GeometryOrdered (s : State) : Prop :=
  0 ≤ s.pos.offSplice ∧ s.pos.offSplice ≤ s.pos.offInspect ∧ s.pos.offInspect < s.pos.offTable ∧
  s.pos.offTable < s.pos.offKnife ∧ s.pos.offKnife < s.pos.offNip ∧ s.pos.offNip ≤ 2000000

/-- R80, R82: while OFFSET_VALID is set, o is within CAPTURE_LIMIT of the latest sample; while it is clear, o and the
peak are 0 and there is no sample. -/
def OffsetTracked (s : State) : Prop :=
  1 ≤ s.tracker.captureLimit ∧
  if s.tracker.valid then
    ∃ e, s.tracker.latest = some e ∧ absInt (s.tracker.o - e) ≤ s.tracker.captureLimit
  else s.tracker.o = 0 ∧ s.tracker.peak = 0 ∧ s.tracker.latest = none

/-! ### Writable fields (section 9.5, Tables, with the ranges of the rules) -/

/-- A field of one word: where it stands, when it can be written, the words it takes, and the state with a word taken. -/
structure OneWord where
  table : Table
  addr : Nat
  writable : State → Prop
  takes : Word → Prop
  put : Word → State → State

/-- A field of two words: the address of its last word, when it can be written, the value it shows, the value two words
spell, the values it takes, the result of a refusal, and the state with a value taken. -/
structure TwoWords where
  table : Table
  addr : Nat
  writable : State → Prop
  field : Field
  present : State → Int
  spell : BitVec 32 → Int
  takes : Int → State → Prop
  refusal : ResultCode
  put : Int → State → State

/-- Written at any time. -/
def always (_ : State) : Prop := True

/-- Written only with no roll mounted (R5, R11, R56, R83). -/
def noRoll (s : State) : Prop := s.mounted = false

/-- Written only with no set open (R90). -/
def noSet (s : State) : Prop := s.reels.openSet = none

/-- A value from `lo` to `hi`. -/
def within (lo hi : Nat) (d : Word) : Prop := lo ≤ d.toNat ∧ d.toNat ≤ hi

/-- Every value, of which an on/off field reads bit 0 (section 9.5, Codes). -/
def any (_ : Word) : Prop := True

/-- R173: the settings that a character begun before the write is still received under (log 21). -/
def ReelLink.remembering (x : ReelLink) : ReelLink := { x with earlier := ⟨x.parity, x.frameGap⟩ :: x.earlier }

/-- CONFIG, fields of one word. The ranges: R6, R36, R56, R71, R73, R83, R150, R170, R173. -/
def configFields : List OneWord :=
  [⟨.config, 2, noRoll, any, fun d s => { s with pos := { s.pos with dirInvert := d.getLsbD 0 } }⟩,
   ⟨.config, 3, always, within 1000 65535, fun d s => { s with pos := { s.pos with clkdiv := d.toNat } }⟩,
   ⟨.config, 14, always, any, fun d s => { s with track := { s.track with mergeWindow := d.toNat } }⟩,
   ⟨.config, 17, noRoll, fun d => -10000 ≤ d.toInt ∧ d.toInt ≤ 10000,
    fun d s => { s with pmap := { s.pmap with xOffset := d.toInt } }⟩,
   ⟨.config, 22, always, within 0 2, fun d s => { s with align := { s.align with
      source := [SpliceSource.sensor, .camera, .both].getD d.toNat .both } }⟩,
   ⟨.config, 23, always, within 0 31, fun d s => { s with
      diq := { s.diq with resume := d.toNat }
      link := if s.diq.messages.length ≤ d.toNat ∧ s.link.holding = true
        then { s.link with holding := false, holdTicks := 0 } else s.link }⟩,
   ⟨.config, 24, always, within 0 1000, fun d s => { s with link := { s.link with holdLimit := d.toNat } }⟩,
   ⟨.config, 25, noRoll, within 0 7, fun d s => { s with tracker := { s.tracker with gNarrow := d.toNat } }⟩,
   ⟨.config, 26, noRoll, within 0 7, fun d s => { s with tracker := { s.tracker with gWide := d.toNat } }⟩,
   ⟨.config, 27, noRoll, within 1 65535, fun d s => { s with tracker := { s.tracker with wideWindow := d.toNat } }⟩,
   ⟨.config, 30, noRoll, within 0 1, fun d s => { s with tracker := { s.tracker with
      peakMode := [PeakMode.peak, .current].getD d.toNat .peak } }⟩,
   ⟨.config, 33, always, any, fun d s => { s with tally := { s.tally with autosnap := d.getLsbD 0 } }⟩,
   ⟨.config, 34, always, within 0 2, fun d s => { s with reel := { s.reel.remembering with
      parity := [Parity.none, .even, .odd].getD d.toNat .even } }⟩,
   ⟨.config, 35, always, within 1 65535, fun d s => { s with reel := { s.reel with divisor := d.toNat } }⟩,
   ⟨.config, 36, always, within 1 255, fun d s => { s with reel := { s.reel.remembering with frameGap := d.toNat } }⟩]

/-- SLIT PLAN, the record of lane i + 1 (R89). -/
def laneFields (i : Fin 24) : List OneWord :=
  let lane := fun (f : Word → LaneRecord → LaneRecord) (d : Word) (s : State) =>
    ({ s with plan := { s.plan with lanes := s.plan.lanes.modify i.val (f d) } } : State)
  let first := 8 * (i.val + 1)
  [⟨.slitPlan, first, noSet, within 0 1, lane fun d l => { l with used := d.getLsbD 0 }⟩,
   ⟨.slitPlan, first + 1, noSet, any, lane fun d l => { l with left := d.toNat }⟩,
   ⟨.slitPlan, first + 2, noSet, within 1 65535, lane fun d l => { l with width := d.toNat }⟩,
   ⟨.slitPlan, first + 3, noSet, within 0 2,
    lane fun d l => { l with shaft := [Shaft.none, .upper, .lower].getD d.toNat .none }⟩,
   ⟨.slitPlan, first + 4, noSet, within 0 2,
    lane fun d l => { l with disposition := [Disposition.wound, .trim, .forcedReject].getD d.toNat .trim }⟩]

/-- GRADING (R117), with the limits of class `c`. -/
def classFields (c : Fin 8) : List OneWord :=
  [⟨.grading, c.val, always, within 1 255, fun d s => { s with reels := { s.reels with
      grading := { s.reels.grading with classDown := s.reels.grading.classDown.set c.val d.toNat } } }⟩,
   ⟨.grading, 8 + c.val, always, within 1 255, fun d s => { s with reels := { s.reels with
      grading := { s.reels.grading with classReject := s.reels.grading.classReject.set c.val d.toNat } } }⟩]

def gradingFields : List OneWord :=
  [⟨.grading, 16, always, within 1 255, fun d s => { s with reels := { s.reels with
      grading := { s.reels.grading with spliceDown := d.toNat } } }⟩,
   ⟨.grading, 17, always, within 1 255, fun d s => { s with reels := { s.reels with
      grading := { s.reels.grading with spliceReject := d.toNat } } }⟩,
   ⟨.grading, 18, always, any, fun d s => { s with reels := { s.reels with
      grading := { s.reels.grading with minLength := d.toNat } } }⟩]

/-- The parameters of the Stop Planner changed by a word (R127). -/
def onStop (f : Word → StopParams → StopParams) (d : Word) (s : State) : State :=
  { s with planner := { s.planner with params := f d s.planner.params } }

/-- STOP PARAMS (R127), but for the stop filter. -/
def stopFields : List OneWord :=
  [⟨.stopParams, 0, always, within 50 2000, onStop fun d q => { q with creepSpeed := d.toNat }⟩,
   ⟨.stopParams, 1, always, within 50 5000, onStop fun d q => { q with decel := d.toNat }⟩,
   ⟨.stopParams, 2, always, within 0 500, onStop fun d q => { q with reaction := d.toNat }⟩,
   ⟨.stopParams, 9, always, within 0 10000, onStop fun d q => { q with tolerance := d.toNat }⟩,
   ⟨.stopParams, 10, always, within 1 255, onStop fun d q => { q with settle := d.toNat }⟩]

/-- The stop filter (R127): words 11 to 16 of STOP PARAMS. A taken write of one also causes an evaluation, which follows
what `put` stores. -/
def filterFields : List OneWord :=
  [⟨.stopParams, 11, always, any, onStop fun d q => { q with flagStop := d.getLsbD 0 }⟩,
   ⟨.stopParams, 12, always, any, onStop fun d q => { q with classMask := d.setWidth 8 }⟩,
   ⟨.stopParams, 13, always, within 0 3, onStop fun d q => { q with minSeverity := d.toNat }⟩,
   ⟨.stopParams, 14, always, any, onStop fun d q => { q with sourceMask := d.setWidth 3 }⟩,
   ⟨.stopParams, 15, always, any, onStop fun d q => { q with spliceStop := d.getLsbD 0 }⟩,
   ⟨.stopParams, 16, always, any, onStop fun d q => { q with lengthStop := d.getLsbD 0 }⟩]

/-- The channel of a record of COMPARATORS that can be written: channel i + 1. -/
def channelOf (i : Fin 3) : Fin 4 := i.succ

/-- COMPARATORS, channel i + 1 (R14). -/
def channelFields (i : Fin 3) : List OneWord :=
  let channel := fun (f : Word → Channel → Channel) (d : Word) (s : State) =>
    ({ s with comps := s.comps.put (f d (s.comps.get (channelOf i))) (channelOf i) } : State)
  [⟨.comparators, 16 * (i.val + 1) + 6, always, within 0 1,
    channel fun d ch => { ch with reference := [Reference.absolute, .set].getD d.toNat .absolute }⟩,
   ⟨.comparators, 16 * (i.val + 1) + 7, always, any, channel fun d ch => { ch with run := d.getLsbD 0 }⟩]

/-- Every field of one word but SHIFT_LIMIT, whose write also tests WEB_SHIFT (R96), and the stop filter. -/
def oneWordFields : List OneWord :=
  configFields ++ (List.finRange 24).flatMap laneFields ++ (List.finRange 8).flatMap classFields ++ gradingFields ++
  stopFields ++ (List.finRange 3).flatMap channelFields

/-- An unsigned field of two words with a range, refused with BAD_ARG. -/
def TwoWords.ranged (table : Table) (addr : Nat) (writable : State → Prop) (field : Field) (lo hi : Int)
    (present : State → Int) (put : Int → State → State) : TwoWords :=
  ⟨table, addr, writable, field, present, fun v => v.toNat, fun v _ => lo ≤ v ∧ v ≤ hi, .badArg, put⟩

/-- A station's offset: a geometry out of order is refused (R11). -/
def offsetField (addr : Nat) (st : Station) (present : State → Int) (put : Int → State → State) : TwoWords :=
  ⟨.config, addr, noRoll, .offset st, present, fun v => v.toNat, fun v s => GeometryOrdered (put v s), .badGeometry, put⟩

/-- CONFIG, fields of two words. A taken CAPTURE_LIMIT clears OFFSET_VALID, and with it o, the peak and the latest sample
(R82, R83); a HORIZON can take back a waiting release (log 5). -/
def configPairs : List TwoWords :=
  [.ranged .config 1 noRoll .pitch 1 16777216 (fun s => s.pos.pitch)
    fun v s => { s with pos := { s.pos with pitch := v } },
   offsetField 5 .splice (fun s => s.pos.offSplice) fun v s => { s with pos := { s.pos with offSplice := v } },
   offsetField 7 .inspect (fun s => s.pos.offInspect) fun v s => { s with pos := { s.pos with offInspect := v } },
   offsetField 9 .table (fun s => s.pos.offTable) fun v s => { s with pos := { s.pos with offTable := v } },
   offsetField 11 .knife (fun s => s.pos.offKnife) fun v s => { s with pos := { s.pos with offKnife := v } },
   offsetField 13 .nip (fun s => s.pos.offNip) fun v s => { s with pos := { s.pos with offNip := v } },
   .ranged .config 16 always .horizon 1 100000000 (fun s => s.pmap.horizon)
    fun v s =>
      let stored : State := { s with pmap := { s.pmap with horizon := v } }
      { stored with align := { s.align with
        yields := { s.align.yields with release := s.align.yields.release && stored.classFour } } },
   .ranged .config 19 always .matchWindow 1 1000000 (fun s => s.align.matchWindow)
    fun v s => { s with align := { s.align with matchWindow := v } },
   .ranged .config 21 always .spliceGuard 0 1000000 (fun s => s.align.spliceGuard)
    fun v s => { s with align := { s.align with spliceGuard := v } },
   .ranged .config 29 noRoll .captureLimit 1 1000000 (fun s => s.tracker.captureLimit)
    fun v s => { s with tracker := { s.tracker with
      captureLimit := v, valid := false, o := 0, peak := 0, latest := none } },
   .ranged .config 32 noRoll .strobePitch 1000 1000000 (fun s => s.tracker.strobePitch)
    fun v s => { s with tracker := { s.tracker with strobePitch := v } }]

/-- STOP PARAMS, fields of two words (R127); STOP_LEAD is signed. -/
def stopPairs : List TwoWords :=
  [.ranged .stopParams 4 always .margin 0 1000000 (fun s => s.planner.params.margin)
    fun v s => { s with planner := { s.planner with params := { s.planner.params with margin := v } } },
   .ranged .stopParams 6 always .haltDist 0 100000 (fun s => s.planner.params.haltDist)
    fun v s => { s with planner := { s.planner with params := { s.planner.params with haltDist := v } } },
   { TwoWords.ranged .stopParams 8 always .stopLead (-100000) 100000 (fun s => s.planner.params.stopLead)
      (fun v s => { s with planner := { s.planner with params := { s.planner.params with stopLead := v } } }) with
     spell := fun v => v.toInt }]

/-- COMPARATORS, channel i + 1: base value and reload, of any value (R14). -/
def channelPairs (i : Fin 3) : List TwoWords :=
  let channel := fun (f : Int → Channel → Channel) (v : Int) (s : State) =>
    ({ s with comps := s.comps.put (f v (s.comps.get (channelOf i))) (channelOf i) } : State)
  [.ranged .comparators (16 * (i.val + 1) + 1) always (.chBase i) 0 4294967295
    (fun s => (s.comps.get (channelOf i)).base) (channel fun v ch => { ch with base := v }),
   .ranged .comparators (16 * (i.val + 1) + 5) always (.chReload i) 0 4294967295
    (fun s => (s.comps.get (channelOf i)).reload) (channel fun v ch => { ch with reload := v })]

def twoWordFields : List TwoWords := configPairs ++ stopPairs ++ (List.finRange 3).flatMap channelPairs

/-- R165, R167, R90: a write of TABLE_DATA ends in a bus fault: past the table, to a read-only table or field, to a word
that holds no field, to a locked field. -/
def WriteFaults (s : State) (tb : Table) (a : Nat) : Prop :=
  tb.records * tb.stride ≤ a ∨
  tb ∈ [Table.track, .map, .anchors, .openReels, .queue, .tallyLive, .tallySnap, .strobes, .stopRecord, .lateRecord] ∨
  (tb = .slitPlan ∧ (s.reels.openSet ≠ none ∨ (1 ≤ a ∧ a ≤ 7) ∨ 5 ≤ a % 8)) ∨
  (tb = .comparators ∧ (a < 16 ∨ a % 16 ∈ [2, 3] ∨ 8 ≤ a % 16)) ∨
  (tb = .config ∧ s.mounted = true ∧
    a ∈ [0, 1, 2, 4, 5, 6, 7, 8, 9, 10, 11, 12, 13, 17, 25, 26, 27, 28, 29, 30, 31, 32])

end Sys2Proof.Machine
end

