-- ==== Sys2Proof/Certificates/Slice0/Obligations.lean ====
section
/-! DEFINITION. The statements for the provers, chapter by chapter. -/

open Sys2Proof Sys2Proof.Machine

/-! ### The machine -/

/-- The command at the front of the queue acts, with the queue's rest behind it; on an empty queue the part idles. The
queue is the model's (log 1). -/
def Obligations.StepRunsFrontCommand : Prop :=
  (∀ (c : Instr) (rest : List Instr) (s : State), step (s.setPending (c :: rest)) = exec c (s.setPending rest)) ∧
  ∀ s : State, s.pending = [] → step s = .next s

/-- Every command is served whole: it answers a next state, and takes nothing from the queue behind it (log 38). -/
def Obligations.EveryCommandCompletes : Prop :=
  ∀ (c : Instr) (s : State), ∃ t, exec c s = .next t ∧ t.pending = s.pending

/-- The frame of every command: it changes at most the parts that `changes` names for it. The four operations that end a
held Line Port access are followed by the access that waits behind it, if any (R161), so none waits here. -/
def Obligations.CommandsChangeOnlyTheirParts : Prop :=
  ∀ (c : Instr) (s t : State), c.wf = true → (endsAccess c = true → s.port.next = none) → exec c s = .next t →
    Touches (changes c) s t

/-! ### Resets -/

/-- R6, R10, R21, R48, R56, R71, R76, R83, R103, R117, R126, R127, R143, R147, R153, R157, R168, R172, R173, R176. No rule
gives the handshake lines a level after a cold reset: that XACK and BFLT are negated and D0 to D15 released is the model's
(log 13). -/
def Obligations.ColdReset : Prop :=
  ∀ (a b : Bool) (adr : BitVec 3) (s : State), ∃ t, exec (.coldReset a b adr) s = .next t ∧
    (t.pos.p = 0 ∧ t.pos.frac = 0 ∧ t.pos.roll = .noRoll ∧ t.pos.sampleBase = 0 ∧ t.pos.v = 0 ∧
      t.pos.overspeed = false ∧ t.pos.settle = 0 ∧ t.pos.encA = a ∧ t.pos.encB = b ∧ t.pos.pitch = 65536 ∧
      t.pos.dirInvert = false ∧ t.pos.clkdiv = 20000 ∧ t.pos.tickDivisor = 20000 ∧ t.pos.tickCount = 0 ∧
      t.pos.sampleCount = 0 ∧ t.pos.sampleDue = false ∧ t.pos.offSplice = 0 ∧ t.pos.offInspect = 0 ∧
      t.pos.offTable = 10000 ∧ t.pos.offKnife = 20000 ∧ t.pos.offNip = 30000) ∧
    (t.comps.strobeSeq = 0 ∧ ∀ i, (t.comps.get i).base = 0 ∧ (t.comps.get i).matchPoint = 0 ∧
      (t.comps.get i).reload = 0 ∧ (t.comps.get i).reference = .absolute ∧ (t.comps.get i).run = false ∧
      (t.comps.get i).skipped = 0 ∧ (t.comps.get i).out = false) ∧
    (t.track.entries = [] ∧ t.track.seq = 0 ∧ t.track.late = ⟨none, 0, 0⟩ ∧ t.track.mergeWindow = 300) ∧
    (t.pmap.state = .empty ∧ t.pmap.id = none ∧ t.pmap.mEnd = 0 ∧ t.pmap.d0 = 0 ∧ t.pmap.records = [] ∧
      t.pmap.truncated = false ∧ t.pmap.horizon = 1000000 ∧ t.pmap.xOffset = 0) ∧
    (t.align.anchors = [] ∧ t.align.dLast = 0 ∧ t.align.queue = [] ∧ t.align.latch = none ∧
      t.align.lastGuarded = none ∧ t.walking = false ∧ t.align.matchWindow = 20000 ∧ t.align.spliceGuard = 5000 ∧
      t.align.source = .both) ∧
    (t.diq.messages = [] ∧ t.diq.lastResult = .ok ∧ t.diq.resume = 24) ∧
    (t.tracker.o = 0 ∧ t.tracker.valid = false ∧ t.tracker.latest = none ∧ t.tracker.peak = 0 ∧
      t.tracker.history = [] ∧ t.tracker.gNarrow = 3 ∧ t.tracker.gWide = 1 ∧ t.tracker.wideWindow = 50 ∧
      t.tracker.captureLimit = 2000 ∧ t.tracker.peakMode = .peak ∧ t.tracker.strobePitch = 100000) ∧
    ((∀ n, 1 ≤ n → n ≤ 24 → t.plan.lane n = ⟨false, 0, 1, .none, .trim⟩) ∧ t.plan.shiftLimit = 500 ∧
      t.plan.webShift = 0 ∧ t.plan.status = .noLanes ∧ t.plan.usedLanes = [] ∧ t.plan.reelCount = 0) ∧
    (t.reels.openSet = none ∧ t.reels.nextSet = 1 ∧ t.reels.indications = 0 ∧ t.queue.records = [] ∧
      t.queue.roomWanted = false ∧ t.reels.grading.classDown = List.replicate 8 255 ∧
      t.reels.grading.classReject = List.replicate 8 255 ∧ t.reels.grading.spliceDown = 255 ∧
      t.reels.grading.spliceReject = 255 ∧ t.reels.grading.minLength = 0) ∧
    (t.planner.state = .idle ∧ t.planner.target = .none ∧ t.planner.short = false ∧ t.planner.retargeted = false ∧
      t.planner.setAside = none ∧ t.planner.record = ⟨.none, none, none, 0, 0, 0, .onTarget, false, false⟩ ∧
      t.planner.params = ⟨500, 800, 50, 2000, 1000, 0, 500, 5, false, 0xFF, 0, 7, false, false⟩) ∧
    ((∀ k, t.tally.live.total k = 0 ∧ t.tally.snap.total k = 0) ∧ t.tally.snapCause = .none ∧
      t.tally.snapSet = none ∧ t.tally.autosnap = false ∧
      ∀ n, 1 ≤ n → n ≤ 24 → t.tally.live.lane n = ⟨0, 0, 0, 0⟩ ∧ t.tally.snap.lane n = ⟨0, 0, 0, 0⟩) ∧
    t.events = ⟨0, 0, 0, 0⟩ ∧
    (t.port.tableSelect = .config ∧ t.port.tableAddr = 0 ∧ t.port.arg0 = 0 ∧ t.port.arg1 = 0 ∧ t.port.arg2 = 0 ∧
      t.port.arg3 = 0 ∧ t.port.result = .ok ∧ t.port.latch = none ∧ t.port.held = none ∧ t.port.posLatch = 0 ∧
      t.port.access = none ∧ t.port.xack = false ∧ t.port.bflt = false ∧ t.port.dout = none) ∧
    (t.link.holding = false ∧ t.link.holdLimit = 100 ∧
      t.link.phase = if s.link.phase = .idle then .idle else .ignored) ∧
    (t.reel.parity = .even ∧ t.reel.divisor = 65 ∧ t.reel.frameGap = 20 ∧ t.reel.holdingStage = none ∧
      t.reel.shiftStage = none ∧ t.reel.overrunNext = false ∧ t.reel.assembler = .hunting ∧ t.reel.sending = [] ∧
      t.reel.waiting = none ∧ t.txd = true)

/-- The warm halves of the same rules: run state cleared, configuration, enables, snapshot and reel queue kept. -/
def Obligations.WarmReset : Prop :=
  ∀ s : State, s.portFree → ∃ t, exec .warmReset s = .next t ∧ t.port.xack = true ∧
    t.pos = { s.pos with
      encA := s.pins.encA, encB := s.pins.encB, p := 0, frac := 0, roll := .noRoll, tickCount := 0, sampleCount := 0
      sampleDue := false, tickDivisor := s.pos.clkdiv, sampleBase := 0, v := 0, overspeed := false, settle := 0 } ∧
    (t.comps.strobeSeq = 0 ∧ ∀ i, t.comps.get i =
      { s.comps.get i with run := false, out := false, outTicked := false }) ∧
    (t.track.entries = [] ∧ t.track.seq = 0 ∧ t.track.late = ⟨none, 0, 0⟩ ∧
      t.track.mergeWindow = s.track.mergeWindow) ∧
    t.pmap = { s.pmap with
      state := .empty, id := none, mEnd := 0, d0 := 0, records := [], truncated := false, withheld := false } ∧
    t.align = { s.align with
      anchors := [], dLast := 0, queue := [], latch := none, lastGuarded := none, yields := ⟨false, false, false⟩ } ∧
    t.diq = { s.diq with messages := [], lastResult := .ok } ∧
    t.tracker = { s.tracker with o := 0, valid := false, latest := none, peak := 0, history := [] } ∧
    t.plan = { s.plan with webShift := 0 } ∧
    t.reels = { s.reels with
      openSet := none, indications := 0
      nextSet := match s.reels.openSet with
        | none => s.reels.nextSet
        | some o => o.number } ∧
    t.queue = { s.queue with roomWanted := false } ∧
    (t.planner.state = .idle ∧ t.planner.target = .none ∧ t.planner.short = false ∧ t.planner.retargeted = false ∧
      t.planner.setAside = none ∧ t.planner.record = ⟨.none, none, none, 0, 0, 0, .onTarget, false, false⟩ ∧
      t.planner.params = s.planner.params) ∧
    ((∀ k, t.tally.live.total k = 0) ∧ (∀ n, 1 ≤ n → n ≤ 24 → t.tally.live.lane n = ⟨0, 0, 0, 0⟩) ∧
      t.tally.snap = s.tally.snap ∧ t.tally.snapCause = s.tally.snapCause ∧ t.tally.snapSet = s.tally.snapSet ∧
      t.tally.autosnap = s.tally.autosnap) ∧
    t.events = { s.events with flagsA := 0, flagsB := 0 } ∧
    (t.port.tableSelect = .config ∧ t.port.tableAddr = 0 ∧ t.port.arg0 = s.port.arg0 ∧ t.port.arg1 = s.port.arg1 ∧
      t.port.arg2 = s.port.arg2 ∧ t.port.arg3 = s.port.arg3 ∧ t.port.result = .ok ∧ t.port.latch = none ∧
      t.port.held = none ∧ t.port.posLatch = 0) ∧
    (t.link.holding = false ∧ t.link.holdLimit = s.link.holdLimit ∧
      t.link.phase = if s.link.phase = .idle then .idle else .ignored) ∧
    (t.reel.parity = s.reel.parity ∧ t.reel.divisor = s.reel.divisor ∧ t.reel.frameGap = s.reel.frameGap ∧
      t.reel.holdingStage = none ∧ t.reel.shiftStage = none ∧ t.reel.overrunNext = false ∧
      t.reel.assembler = .hunting ∧ t.reel.sending = [] ∧ t.reel.waiting = none ∧ t.txd = true)

/-! ### Position Unit -/

/-- R1 to R3: a legal transition moves P and the fraction by PITCH, exactly, clamped, and raises POSITION_LIMIT exactly
when clamped; a P that does not rise tests no comparator, and an unchanged P is not handed on. Levels as they were count
nothing. -/
def Obligations.EncoderCount : Prop :=
  (∀ (a b : Bool) (s : State), s.turnsTo a b → ∃ t, exec (.encoderTransition a b) s = .next t ∧
    t.pos.encA = a ∧ t.pos.encB = b ∧
    t.pos.p = s.nextP a b ∧ t.pos.frac = clampInt 0 accumulatorMax (s.askedFor a b) % 65536 ∧
    t.events.flag .positionLimit =
      (s.events.flag .positionLimit || decide (s.askedFor a b < 0) || decide (accumulatorMax < s.askedFor a b)) ∧
    (s.nextP a b ≤ s.pos.p → t.comps = s.comps ∧ t.tracker = s.tracker) ∧
    (s.nextP a b = s.pos.p → t.planner = s.planner ∧ t.pos.settle = s.pos.settle)) ∧
  ∀ s : State, ∃ t, exec (.encoderTransition s.pos.encA s.pos.encB) s = .next t ∧
    t.pos = s.pos ∧ t.comps = s.comps ∧ t.planner = s.planner ∧ t.events = s.events ∧ t.tally = s.tally

/-- R4, R148. -/
def Obligations.EncoderFault : Prop :=
  ∀ s : State, TalliesBounded s → ∃ t, exec (.encoderTransition (!s.pos.encA) (!s.pos.encB)) s = .next t ∧
    t.pos = { s.pos with encA := !s.pos.encA, encB := !s.pos.encB } ∧
    CountedOnce .encoderFaults s t ∧ SaturationShown s t ∧ t.events.flag .encoderFault = true ∧
    t.comps = s.comps ∧ t.planner = s.planner

/-- R6, R7, R17: a tick begins the next under the present CLKDIV, the tenth makes a speed sample due, and a pulse in
progress can then be ended, whatever the other channels do; before a tick has ended since its match it cannot
(logs 6, 8). -/
def Obligations.TickAndPulse : Prop :=
  (∀ s : State, ∃ t, exec .tick s = .next t ∧ t.pos.tickDivisor = s.pos.clkdiv ∧
    t.pos.sampleCount = (s.pos.sampleCount + 1) % 10 ∧
    t.pos.sampleDue = (s.pos.sampleDue || decide (9 ≤ s.pos.sampleCount)) ∧
    ∀ i, t.comps.get i = { s.comps.get i with outTicked := (s.comps.get i).out } ∧
      ∃ u, exec (.pulseEnd i) t = .next u ∧ (u.comps.get i).out = false ∧ ∀ j, j ≠ i → u.comps.get j = t.comps.get j) ∧
  (∀ (i : Fin 4) (s : State), (s.comps.get i).out = true → (s.comps.get i).outTicked = true →
    ∃ u, exec (.pulseEnd i) s = .next u ∧ (u.comps.get i).out = false ∧
      (∀ j, j ≠ i → u.comps.get j = s.comps.get j) ∧ u.comps.strobeSeq = s.comps.strobeSeq) ∧
  ∀ (i : Fin 4) (s : State), (s.comps.get i).outTicked = false → exec (.pulseEnd i) s = .next s

/-- R7, R8, R9, R66: a speed sample that is due measures v, OVERSPEED and the settle count, and the UNMATCHED splices whose
window has passed the splice sensor become MISSED, no other record changing; a sample that is not due measures nothing
(log 6). -/
def Obligations.SpeedSample : Prop :=
  ((∀ s : State, s.pos.sampleDue = true → ∃ t, exec .speedSample s = .next t ∧
     t.pos.v = clampInt (-20000) 20000 ((s.pos.p - s.pos.sampleBase) * 10) ∧ t.pos.sampleBase = s.pos.p ∧
     t.pos.p = s.pos.p ∧ t.pos.sampleDue = false ∧
     t.pos.overspeed = decide (2000 < (s.pos.p - s.pos.sampleBase).natAbs) ∧
     t.events.flag .overspeed = (s.events.flag .overspeed ||
       (decide (2000 < (s.pos.p - s.pos.sampleBase).natAbs) && !s.pos.overspeed)) ∧
     t.pos.settle =
       if s.planner.state ≠ .halting ∧ t.planner.state = .halting then 0
       else if s.pos.p = s.pos.sampleBase then min 255 (s.pos.settle + 1) else 0) ∧
   ∀ s : State, s.pos.sampleDue = false → exec .speedSample s = .next s) ∧
  ∀ s : State, s.pos.sampleDue = true → ∃ t, exec .speedSample s = .next t ∧
    let missed := fun r : MapRecord => decide (s.mounted = true ∧ r.kind = .splice ∧ r.matchState = .unmatched ∧
      s.predict r.m + s.align.matchWindow < s.pos.p - s.pos.offSplice)
    t.pmap.records = s.pmap.records.map (fun r => if missed r then { r with matchState := .missed } else r) ∧
    t.events.flag .spliceMissed = (s.events.flag .spliceMissed || s.pmap.records.any missed)

/-- R137, R143: the sample at which the web has settled makes STOPPED, with its Stop Record, events and counts. -/
def Obligations.StopMade : Prop :=
  ∀ s : State, s.pos.sampleDue = true → s.planner.state = .halting → s.pos.p = s.pos.sampleBase →
    s.planner.params.settle ≤ min 255 (s.pos.settle + 1) → TalliesBounded s →
    ∃ t, exec .speedSample s = .next t ∧ t.planner.state = .stopped ∧ t.planner.target = s.planner.target ∧
      t.planner.record.kind = s.planner.target.kind ∧ t.planner.record.seq = s.planner.notedSeq ∧
      t.planner.record.setNumber = (match s.planner.target with
        | .none => none
        | .entry _ _ => none
        | .length n => some n) ∧
      t.planner.record.targetP = s.planner.targetPoint ∧ t.planner.record.finalP = s.pos.p ∧
      t.planner.record.e = s.pos.p - s.planner.targetPoint ∧
      (t.planner.record.outcome = .overshoot ↔ s.planner.params.tolerance < s.pos.p - s.planner.targetPoint) ∧
      (0 ≤ s.planner.params.tolerance → (t.planner.record.outcome = .undershoot ↔
        s.pos.p - s.planner.targetPoint < -s.planner.params.tolerance)) ∧
      t.planner.record.short = s.planner.short ∧ t.planner.record.retargeted = s.planner.retargeted ∧
      CountedOnce .stopsMade s t ∧ SaturationShown s t ∧ t.events.flag .stopDone = true ∧
      (s.planner.short = true → CountedOnce .shortStops s t ∧ t.events.flag .stopShort = true) ∧
      (s.planner.short = false → t.total .shortStops = s.total .shortStops ∧
        t.events.flag .stopShort = s.events.flag .stopShort)

/-- R130 to R136: the position test of a count that changes P, with the target `x` ahead or passed. R132, R142: while v is
below 0, and in IDLE, HALTING and STOPPED, with a target or without, there is none. -/
def Obligations.PositionTest : Prop :=
  (∀ (a b : Bool) (s : State), s.turnsTo a b → s.nextP a b ≠ s.pos.p →
    s.pos.v < 0 ∨ s.planner.state = .idle ∨ s.planner.state = .halting ∨ s.planner.state = .stopped →
    ∃ t, exec (.encoderTransition a b) s = .next t ∧ t.planner = s.planner ∧ t.pos.settle = s.pos.settle) ∧
  ∀ (a b : Bool) (s : State) (x : Int), s.turnsTo a b → s.nextP a b ≠ s.pos.p → 0 ≤ s.pos.v →
    1 ≤ s.planner.params.decel → s.targetPoint s.planner.target = some x →
    let r := x - s.nextP a b
    let d := slowDownOf s.pos.v s.planner.params
    let halt := s.planner.params.haltDist
    let creep := s.planner.params.creepSpeed
    ∃ t, exec (.encoderTransition a b) s = .next t ∧
      (s.planner.state = .armed → d < r → halt < r → t.planner = s.planner) ∧
      (s.planner.state = .armed → (r ≤ d ∨ r ≤ halt) → creep < s.pos.v → 0 ≤ r → halt < r →
        t.planner = { s.planner with state := .slowing }) ∧
      (s.planner.state = .armed → (r ≤ d ∨ r ≤ halt) → creep < s.pos.v → r < 0 ∨ r ≤ halt →
        HaltingAt x true s t) ∧
      (s.planner.state = .armed → r ≤ halt → s.pos.v ≤ creep →
        HaltingAt x (s.planner.short || decide (r < 0)) s t) ∧
      (s.planner.state = .slowing → creep < s.pos.v → 0 ≤ r → halt < r → t.planner = s.planner) ∧
      (s.planner.state = .slowing → creep < s.pos.v → r < 0 ∨ r ≤ halt → HaltingAt x true s t) ∧
      (s.planner.state = .slowing → s.pos.v ≤ creep → halt < r →
        t.planner = { s.planner with state := .creeping }) ∧
      (s.planner.state = .slowing → s.pos.v ≤ creep → r ≤ halt →
        HaltingAt x (s.planner.short || decide (r < 0)) s t) ∧
      (s.planner.state = .creeping → halt < r → t.planner = s.planner) ∧
      (s.planner.state = .creeping → r ≤ halt → HaltingAt x (s.planner.short || decide (r < 0)) s t) ∧
      (s.planner.state = .idle ∨ s.planner.state = .halting ∨ s.planner.state = .stopped → t.planner = s.planner)

/-! ### Position Comparators -/

/-- R15 to R17, R20: channel `i` of 1 to 3 at a rise of P, with the reference value `ref` after the rise; and the strobe
channel, with STROBE_PITCH as its reload, whose match gives the strobe its number and writes the Strobe History. A count
clamped at the greatest P that still raises P is taken as a rise; that is the model's reading (log 28). -/
def Obligations.ComparatorMatch : Prop :=
  (∀ (a b : Bool) (s : State) (i : Fin 4) (ev : Event), s.turnsTo a b → s.pos.p < s.nextP a b →
     (i = 1 ∧ ev = .cmp1) ∨ (i = 2 ∧ ev = .cmp2) ∨ (i = 3 ∧ ev = .cmp3) →
     let ch := s.comps.get i
     let ref : Option Int := match ch.reference, s.reels.openSet with
       | .absolute, _ => some (s.nextP a b)
       | .set, some o => some (s.nextP a b - s.pos.offNip - o.wStart)
       | .set, none => none
     ∃ t, exec (.encoderTransition a b) s = .next t ∧
       ((ref = none ∨ ch.run = false ∨ ch.matchPoint = 0 ∨ ∃ r, ref = some r ∧ r < ch.matchPoint) →
         t.comps.get i = ch ∧ t.events.flag ev = s.events.flag ev) ∧
       ∀ r, ref = some r → ch.run = true → ch.matchPoint ≠ 0 → ch.matchPoint ≤ r → t.events.flag ev = true ∧
         (ch.reload = 0 → t.comps.get i = { ch with out := true, outTicked := false, run := false }) ∧
         (∀ k : Nat, 1 ≤ k → 0 < ch.reload → ch.matchPoint + (k - 1) * ch.reload ≤ r →
           r < ch.matchPoint + k * ch.reload → ch.matchPoint + k * ch.reload ≤ posMax →
           t.comps.get i = { ch with
             out := true, outTicked := false, matchPoint := ch.matchPoint + k * ch.reload
             skipped := min 65535 (ch.skipped + (k - 1)) }) ∧
         (∀ k : Nat, 0 < ch.reload → ch.matchPoint + k * ch.reload ≤ r → ch.matchPoint + k * ch.reload ≤ posMax →
           posMax < ch.matchPoint + (k + 1) * ch.reload →
           t.comps.get i = { ch with
             out := true, outTicked := false, run := false, matchPoint := ch.matchPoint + k * ch.reload
             skipped := min 65535 (ch.skipped + (k - 1)) })) ∧
  ∀ (a b : Bool) (s : State), s.turnsTo a b → s.pos.p < s.nextP a b →
    ∃ t, exec (.encoderTransition a b) s = .next t ∧
      (s.comps.ch0.run = true ∧ s.comps.ch0.matchPoint ≠ 0 ∧ s.comps.ch0.matchPoint ≤ s.nextP a b →
        t.comps.ch0.out = true ∧ t.comps.ch0.outTicked = false ∧ t.comps.strobeSeq = (s.comps.strobeSeq + 1) % 256 ∧
        t.tracker.history =
          (({ number := (s.comps.strobeSeq + 1) % 256, p := s.nextP a b } : Strobe) :: s.tracker.history).take 4 ∧
        let ch := s.comps.ch0
        let pitch := s.tracker.strobePitch
        (pitch = 0 → t.comps.ch0 = { ch with out := true, outTicked := false, run := false }) ∧
        (∀ k : Nat, 1 ≤ k → 0 < pitch → ch.matchPoint + (k - 1) * pitch ≤ s.nextP a b →
          s.nextP a b < ch.matchPoint + k * pitch → ch.matchPoint + k * pitch ≤ posMax →
          t.comps.ch0 = { ch with
            out := true, outTicked := false, matchPoint := ch.matchPoint + k * pitch
            skipped := min 65535 (ch.skipped + (k - 1)) }) ∧
        (∀ k : Nat, 0 < pitch → ch.matchPoint + k * pitch ≤ s.nextP a b → ch.matchPoint + k * pitch ≤ posMax →
          posMax < ch.matchPoint + (k + 1) * pitch →
          t.comps.ch0 = { ch with
            out := true, outTicked := false, run := false, matchPoint := ch.matchPoint + k * pitch
            skipped := min 65535 (ch.skipped + (k - 1)) })) ∧
      (s.comps.ch0.run = false ∨ s.comps.ch0.matchPoint = 0 ∨ s.nextP a b < s.comps.ch0.matchPoint →
        t.comps.ch0 = s.comps.ch0 ∧ t.comps.strobeSeq = s.comps.strobeSeq ∧ t.tracker.history = s.tracker.history)

/-! ### Track List -/

/-- R41, R98, R99: the knife passage of the first due entry, AHEAD and without PENDING_REPLACE; it stays in its place, and
nothing else changes. -/
def Obligations.KnifePassage : Prop :=
  ∀ (s : State) (pre post : List Entry) (e : Entry), TrackOrdered s → s.listed pre e post →
    (∀ f ∈ pre, s.due f = false) → e.passage = .ahead → e.w + s.pos.offKnife ≤ s.pos.p → e.pendingReplace = false →
    ∃ f, PassedAs s e f ∧
      exec .knifePassage s = .next { s with track := { s.track with entries := pre ++ f :: post } }

/-- R43, R44: the first due entry, SLIT, is committed with no set open or with w below w_start: it leaves the list, is
counted as unwound, reaches no reel, is not late and raises no event (but TALLY_SAT, of the count itself). R25, R29: room
and an evaluation follow. -/
def Obligations.CommitUnwound : Prop :=
  ∀ (s : State) (pre post : List Entry) (e : Entry), TrackOrdered s → TalliesBounded s → s.listed pre e post →
    (∀ f ∈ pre, s.due f = false) → e.passage ≠ .ahead → e.w + s.pos.offNip ≤ s.pos.p → e.pendingReplace = false →
    s.openFor e.w = false →
    ∃ t, exec .commit s = .next t ∧ t.track.entries = pre ++ post ∧ CountedOnce .unwound s t ∧
      SaturationShown s t ∧ t.reels = s.reels ∧ t.track.late = s.track.late ∧
      (∀ ev, ev ≠ .tallySat → t.events.flag ev = s.events.flag ev) ∧ Reported e.mapIndex .retired s t ∧ HandedOn s t

/-- R42, R101, R102, R113 to R119: the first due entry, a SLIT FLAG, is delivered into the open set `o`: each USED lane of
its lane set counts it, and the reel of each takes one item into its list, full or not, and is regraded; a grade that
became worse sets the lane's indication and raises LANE_GRADE. With no such lane the flag is counted as unassigned. R25,
R29: room and an evaluation follow. -/
def Obligations.CommitFlag : Prop :=
  ∀ (s : State) (pre post : List Entry) (e : Entry) (lanes : List Nat) (shift : Int) (o : OpenSet),
    TrackOrdered s → TalliesBounded s → s.listed pre e post → (∀ f ∈ pre, s.due f = false) → e.kind = .flag →
    e.passage = .slit lanes shift → e.w + s.pos.offNip ≤ s.pos.p → e.pendingReplace = false →
    s.reels.openSet = some o → o.wStart ≤ e.w →
    ∃ t, exec .commit s = .next t ∧ t.track.entries = pre ++ post ∧ Reported e.mapIndex .retired s t ∧
      t.total .unwound = s.total .unwound ∧ SaturationShown s t ∧ FlagDelivered e lanes shift o s t ∧ HandedOn s t

/-- R42, R101, R114, R118, R119: the first due entry, a SLIT SPLICE, is delivered into the open set `o`, whatever its lane
set: every reel counts it and is regraded; a grade that became worse sets the lane's indication and raises LANE_GRADE.
R25, R29: room and an evaluation follow. -/
def Obligations.CommitSplice : Prop :=
  ∀ (s : State) (pre post : List Entry) (e : Entry) (o : OpenSet),
    TrackOrdered s → TalliesBounded s → s.listed pre e post → (∀ f ∈ pre, s.due f = false) → e.kind = .splice →
    e.passage ≠ .ahead → e.w + s.pos.offNip ≤ s.pos.p → e.pendingReplace = false →
    s.reels.openSet = some o → o.wStart ≤ e.w →
    ∃ t, exec .commit s = .next t ∧ t.track.entries = pre ++ post ∧ Reported e.mapIndex .retired s t ∧
      t.total .unwound = s.total .unwound ∧ SaturationShown s t ∧ SpliceDelivered o s t ∧ HandedOn s t

/-- R41, R42, R45, R69: a re-placement step puts an entry with PENDING_REPLACE at the prediction for its map record, at
most 4,294,967,295, and tests it there; below 0 it is late. The walk step serves the first such entry once no due entry
and no write waits and no request stands ahead of the step (log 5); the next step stands behind the requests that then
wait. A knife passage or a commit of a due entry re-places it first: a SLIT entry that then lies behind the commit line
with no set that takes it is late, and not unwound (log 26). R25, R29: room and an evaluation follow (log 27). -/
def Obligations.ReplacementStep : Prop :=
  ∀ (c : Instr) (s : State) (pre post : List Entry) (e : Entry) (i : Nat) (r : MapRecord),
    TrackOrdered s → TalliesBounded s → s.listed pre e post → e.pendingReplace = true → e.mapIndex = some i →
    s.pmap.records[i]? = some r →
    (c = .walkStep ∧ (∀ f ∈ pre, f.pendingReplace = false) ∧ s.classOne = false ∧ s.align.queue = [] ∧
        (s.align.yields.detection && s.classThree || s.align.yields.release && s.classFour ||
          s.align.yields.access && s.classFive) = false) ∨
      (c = .knifePassage ∧ (∀ f ∈ pre, s.due f = false) ∧ e.passage = .ahead ∧ e.w + s.pos.offKnife ≤ s.pos.p) ∨
      (c = .commit ∧ (∀ f ∈ pre, s.due f = false) ∧ e.passage ≠ .ahead ∧ e.w + s.pos.offNip ≤ s.pos.p) →
    ∃ t, exec c s = .next t ∧ t.align = { s.align with yields := t.align.yields } ∧
      t.align.yields = (if c = .walkStep then ⟨t.classThree, t.classFour, t.classFive⟩ else s.align.yields) ∧
      HandedOn s t ∧ SaturationShown s t ∧
      if s.predict r.m < 0 then
        t.track.entries = pre ++ post ∧ FoundLate e.kind (s.predict r.m) e.cls e.mapIndex s t
      else MovedTo { e with pendingReplace := false, w := min (s.predict r.m) posMax } (pre ++ post) s t

/-- R46, R68: the confirmation or the marking at the head of the write queue, granted with no entry due. The confirmed
entry is moved to the sighting's w; the marking marks the MAP entries whose record lies below its bound, and changes
nothing else. R25, R29: room and an evaluation follow the confirmation alone. -/
def Obligations.ConfirmationAndMarking : Prop :=
  (∀ (s : State) (i : Nat) (w : Int) (rest : List AlignWrite), s.align.queue = .confirmation i w :: rest →
     s.classOne = false →
     (∀ (pre post : List Entry) (e : Entry), TrackOrdered s → TalliesBounded s → s.listed pre e post →
       e.mapIndex = some i → (∀ f ∈ pre, f.mapIndex ≠ some i) →
       ∃ t, exec .confirmation s = .next t ∧ t.align.queue = rest ∧ HandedOn s t ∧ SaturationShown s t ∧
         MovedTo { e with source := .confirmed, w := w, pendingReplace := false } (pre ++ post) s t) ∧
     ((∀ f ∈ s.track.entries, f.mapIndex ≠ some i) →
       exec .confirmation s = .next { s with align := { s.align with queue := rest } })) ∧
  ∀ (s : State) (bound : Int) (rest : List AlignWrite), s.align.queue = .marking bound :: rest → s.classOne = false →
    ∃ t, exec .marking s = .next t ∧
      t = { s with align := { s.align with queue := rest }, track := { s.track with entries := t.track.entries } } ∧
      List.Forall₂ (fun e f => ∃ b, f = { e with pendingReplace := b } ∧
        (b = true ↔ e.pendingReplace = true ∨
          (e.source = .map ∧ ∃ i r, e.mapIndex = some i ∧ s.pmap.records[i]? = some r ∧ r.m < bound)))
        s.track.entries t.track.entries

/-- R30, R65, R84: the live splice at the head of the write queue: placed by where its w lies, late below 0, and discarded
with a count above 4,294,967,295; ahead of the commit line with room in the list (FullList is about a full one). R29: an
evaluation follows when it was stored or committed at once. -/
def Obligations.LiveSplicePlaced : Prop :=
  ∀ (s : State) (w : Int) (src : SightingSource) (u : Bool) (rest : List AlignWrite),
    s.align.queue = .liveSplice w src u :: rest → s.classOne = false → TrackOrdered s → TalliesBounded s →
    s.track.entries.length < 1024 ∨ w < 0 ∨ posMax < w ∨ w ≤ s.commitLine →
    ∃ t, exec .liveSplicePlacement s = .next t ∧ t.align.queue = rest ∧ SaturationShown s t ∧
      if posMax < w then CountedOnce .linkDropped s t ∧ t.track = s.track ∧ HandedNone s t
      else if w < 0 then t.track.entries = s.track.entries ∧ FoundLate .splice w 0 none s t ∧ HandedNone s t
      else PlacedIn (liveSpliceItem w src u) s t ∧
        if s.commitLine < w ∨ s.openFor w = true then HandedOn s t else HandedNone s t

/-- R30, R35, R85: a DETECTION that passes its tests, at its grant: taken from the DIQ and converted with o; it is dropped
above 4,294,967,295, late below 0, merged into `e` where there is such an entry, and placed by where its w lies otherwise
(ahead of the commit line with room in the list; FullList is about a full one). R29: an evaluation follows a merge, a store
and a commit at once. R73: the fall of the fill ends a hold, or keeps it. That the grant clears the mark of class 3 alone, and
so whether a walk step stands behind a class 5 request, is the model's reading of R67 (log 5). -/
def Obligations.DetectionPlaced : Prop :=
  ∀ (s : State) (c len x0 x1 : Int) (cls : Fin 8) (sev : Fin 4) (rest : List Message),
    s.diq.messages = .detection c len x0 x1 cls sev :: rest → s.mounted = true → x0 ≤ x1 → s.grantsThree = true →
    TrackOrdered s → TalliesBounded s →
    let w := c + (if s.tracker.valid then s.tracker.o else 0) - s.pos.offInspect
    let it : Item := ⟨.flag, .live, w, len, x0, x1, cls, sev, none, !s.tracker.valid⟩
    let mergesInto := fun e : Entry => e.source = .map ∧ e.kind = .flag ∧ e.passage = .ahead ∧
      |w - e.w| ≤ s.track.mergeWindow ∧ e.x0 ≤ x1 ∧ x0 ≤ e.x1 ∧ e.cls = cls
    ∃ t, exec .detection s = .next t ∧ TakenFromHead rest s t ∧ SaturationShown s t ∧
      t.diq.lastResult = (if posMax < w then .badField else .ok) ∧
      (posMax < w → CountedOnce .linkDropped s t ∧ t.track = s.track ∧ HandedNone s t) ∧
      (w < 0 → t.track.entries = s.track.entries ∧ FoundLate .flag w cls none s t ∧
        t.total .placed = s.total .placed ∧ HandedNone s t) ∧
      t.align.yields.detection = false ∧ t.align.yields.access = s.align.yields.access ∧
      (0 ≤ w → w ≤ posMax → (∀ e ∈ s.track.entries, ¬ mergesInto e) →
        s.track.entries.length < 1024 ∨ w ≤ s.commitLine →
        PlacedIn it s t ∧ (s.commitLine < w ∨ s.openFor w = true → CountedOnce .placed s t ∧ HandedOn s t) ∧
        (w ≤ s.commitLine → s.openFor w = false → t.total .placed = s.total .placed ∧ HandedNone s t)) ∧
      (0 ≤ w → w ≤ posMax → ∀ (pre post : List Entry) (e : Entry), s.listed pre e post → mergesInto e →
        (∀ f ∈ pre, ¬ mergesInto f) →
        CountedOnce .merged s t ∧ t.track.seq = s.track.seq ∧ HandedOn s t ∧
        MovedTo { e with
          w := w, x0 := min e.x0 x0, x1 := max e.x1 x1, sev := max e.sev sev, len := max e.len len
          source := .merged, unsynced := !s.tracker.valid, pendingReplace := false } (pre ++ post) s t)

/-- R75: a DETECTION or a SPLICE SIGHTING that fails a test at the head of the DIQ is discarded and counted, with its
result. -/
def Obligations.MessageDiscarded : Prop :=
  ∀ (s : State) (rest : List Message), TalliesBounded s →
    (∀ (c len x0 x1 : Int) (cls : Fin 8) (sev : Fin 4), s.diq.messages = .detection c len x0 x1 cls sev :: rest →
      s.mounted = false ∨ x1 < x0 →
      ∃ t, exec .detection s = .next t ∧ TakenFromHead rest s t ∧ CountedOnce .linkDropped s t ∧
        SaturationShown s t ∧ t.track = s.track ∧
        t.diq.lastResult = if s.mounted then .badField else .noRoll) ∧
    (∀ stamp : Int, s.diq.messages = .spliceSighting stamp :: rest → s.mounted = false →
      ∃ t, exec .spliceSighting s = .next t ∧ TakenFromHead rest s t ∧ CountedOnce .linkDropped s t ∧
        SaturationShown s t ∧ t.align = s.align ∧ t.diq.lastResult = .noRoll)

/-- R38, R39: a live splice or a DETECTION that merges with no entry, to be stored in a full list, withdraws the MAP entry
still AHEAD of highest w, the last of equal w, and its record is UNRELEASED again; with no such entry it is lost. A
DETECTION's result is OK in either case (R85), and it counts as placed only when it is stored. R25, R29: a stored one is
handed to the Stop Planner, and neither signals room. -/
def Obligations.FullList : Prop :=
  ∀ s : State, TrackOrdered s → TalliesBounded s → s.track.entries.length = 1024 →
    let open_ := fun e : Entry => e.source = .map ∧ e.passage = .ahead
    (∀ (w : Int) (src : SightingSource) (u : Bool) (rest : List AlignWrite), s.align.queue = .liveSplice w src u :: rest →
      s.classOne = false → 0 ≤ w → w ≤ posMax → s.commitLine < w →
      ∃ t, exec .liveSplicePlacement s = .next t ∧ t.align.queue = rest ∧ SaturationShown s t ∧
        (∀ (pre post : List Entry) (e : Entry), s.listed pre e post → open_ e → (∀ f ∈ post, ¬ open_ f) →
          StoredFor e (pre ++ post) (liveSpliceItem w src u) s t ∧ HandedOn s t) ∧
        ((∀ e ∈ s.track.entries, ¬ open_ e) → LostItem s t ∧ HandedNone s t)) ∧
    ∀ (c len x0 x1 : Int) (cls : Fin 8) (sev : Fin 4) (rest : List Message),
      s.diq.messages = .detection c len x0 x1 cls sev :: rest → s.mounted = true → x0 ≤ x1 → s.grantsThree = true →
      let w := c + (if s.tracker.valid then s.tracker.o else 0) - s.pos.offInspect
      let it : Item := ⟨.flag, .live, w, len, x0, x1, cls, sev, none, !s.tracker.valid⟩
      0 ≤ w → w ≤ posMax → s.commitLine < w →
      (∀ e ∈ s.track.entries, ¬ (e.source = .map ∧ e.kind = .flag ∧ e.passage = .ahead ∧
        |w - e.w| ≤ s.track.mergeWindow ∧ e.x0 ≤ x1 ∧ x0 ≤ e.x1 ∧ e.cls = cls)) →
      ∃ t, exec .detection s = .next t ∧ TakenFromHead rest s t ∧ SaturationShown s t ∧ t.diq.lastResult = .ok ∧
        (∀ (pre post : List Entry) (e : Entry), s.listed pre e post → open_ e → (∀ f ∈ post, ¬ open_ f) →
          StoredFor e (pre ++ post) it s t ∧ CountedOnce .placed s t ∧ HandedOn s t) ∧
        ((∀ e ∈ s.track.entries, ¬ open_ e) → LostItem s t ∧ t.total .placed = s.total .placed ∧ HandedNone s t)

/-- R37, R53, R54, R55: the release of the record at the cursor, the first UNRELEASED one, granted when no higher class
waits. R29: an evaluation follows when its item was stored or committed at once. That the grant clears the mark of class 4
alone is the model's reading of R67 (log 5). -/
def Obligations.MapRelease : Prop :=
  ∀ (s : State) (i : Nat) (r : MapRecord), s.pmap.records[i]? = some r → r.status = .unreleased →
    (∀ j q, j < i → s.pmap.records[j]? = some q → q.status ≠ .unreleased) →
    s.mounted = true → s.predict r.m ≤ s.pos.p + s.pmap.horizon → s.predict r.m ≤ posMax →
    s.pmap.withheld = false → s.grantsFour = true → TrackOrdered s → TalliesBounded s →
    let w := s.predict r.m
    let edge := fun x => clampInt 0 65535 (x + s.pmap.xOffset)
    let it : Item :=
      if r.kind = .flag then ⟨.flag, .map, w, min (r.len * 10) 65535, edge r.x0, edge r.x1, r.cls, r.sev, some i, false⟩
      else ⟨.splice, if r.matchState = .matched then .confirmed else .map, w, 0, 0, 0, r.cls, r.sev, some i, false⟩
    ∃ t, exec .mapRelease s = .next t ∧ SaturationShown s t ∧
      t.align = { s.align with yields := { s.align.yields with release := false } } ∧
      (w < 0 → t.track.entries = s.track.entries ∧ FoundLate r.kind w r.cls (some i) s t ∧
        CountedOnce .released s t ∧ HandedNone s t) ∧
      (0 ≤ w → s.commitLine < w → s.track.entries.length < 1024 → PlacedIn it s t ∧ CountedOnce .released s t ∧
        Reported (some i) .released s t ∧ HandedOn s t) ∧
      (0 ≤ w → w ≤ s.commitLine → PlacedIn it s t ∧ CountedOnce .released s t ∧ Reported (some i) .retired s t ∧
        if s.openFor w = true then HandedOn s t else HandedNone s t) ∧
      (0 ≤ w → s.commitLine < w → s.track.entries.length = 1024 →
        t.track = s.track ∧ t.pmap = { s.pmap with withheld := true } ∧ t.tally = s.tally ∧ t.planner = s.planner)

/-- R26: an operation of a lower class is not made while a request of a higher class waits: a due entry (class 1), a write
of the queue (class 2), a DETECTION that passes its tests (class 3), a release (class 4). It then changes nothing
(log 4). R67: nor is a walk step while a write is queued, or while a request waits that was waiting when the last step
completed (log 5). -/
def Obligations.ArbiterOrder : Prop :=
  ∀ (c : Instr) (s : State),
    (s.classOne = true → c ∈ [Instr.walkStep, .confirmation, .marking, .liveSplicePlacement] → exec c s = .next s) ∧
    (s.align.queue ≠ [] ∨ (s.align.yields.detection = true ∧ s.classThree = true) ∨
      (s.align.yields.release = true ∧ s.classFour = true) ∨ (s.align.yields.access = true ∧ s.classFive = true) →
      exec .walkStep s = .next s) ∧
    (s.classOne = true ∨ s.classTwo = true →
      (∀ m x0 x1 l k v rest, s.diq.messages = .detection m l x0 x1 k v :: rest → s.mounted = true → x0 ≤ x1 →
        exec .detection s = .next s) ∧
      (c = .mapRelease → exec c s = .next s)) ∧
    (s.classThree = true → c = .mapRelease → exec c s = .next s) ∧
    (s.classOne = true ∨ s.classTwo = true ∨ s.classThree = true ∨ s.classFour = true →
      c ∈ [Instr.trackRecordLatch, .rollEndEmptying, .stoppedMarkWrite, .skippedMarkWrite] → exec c s = .next s)

/-- R28, R166: the read of word 0 of TRACK slot `i` that waits is served: the entry at place `i` goes into the record
latch, each word as section 9.5 lays it out, a vacant record when there is none, and the read is acknowledged with
word 0, or only latches when its DS was negated early (R161). That the grant clears the mark of class 5 alone is the model's
reading of R67 (log 5). -/
def Obligations.TrackRecordLatched : Prop :=
  ∀ (s : State), s.port.access = some .trackRead → (s.port.early = true → s.port.next = none) →
    s.grantsFive = true →
    let i := s.port.tableAddr / 16
    ∃ (t : State) (l : RecordLatch), exec .trackRecordLatch s = .next t ∧ t.port.latch = some l ∧
      l.table = .track ∧ (s.port.tableSelect = .track → l.record = i ∧ l.words.length = 16 ∧
        (∀ e, s.track.entries[i]? = some e → ∀ k, k < 16 → l.words[k]? = some (laidOut (trackLayout e) k)) ∧
        (s.track.entries.length ≤ i → l.words = List.replicate 16 0)) ∧
      AccessEnded l.words[0]? s t ∧
      t.port.tableAddr = min 65535 (s.port.tableAddr + 1) ∧ t.track = s.track ∧
      t.align = { s.align with yields := { s.align.yields with access := false } }

/-- R13, R25, R47, R61, R70, R84: the emptying of an accepted ROLL END. A SPLICE SIGHTING that waits for room at the
head of the DIQ (or behind the sensor latch, R60) is discarded with NO_ROLL; the DIQ is otherwise left as it is (R76). It is
carried out with DS negated early too, without XACK (R161). -/
def Obligations.RollEndEmpties : Prop :=
  ∀ s : State, s.port.access = some .rollEnd → (s.port.early = true → s.port.next = none) → s.grantsFive = true →
    TalliesBounded s →
    ∃ t, exec .rollEndEmptying s = .next t ∧ SaturationShown s t ∧
      t.total .unwound = min 65535 (s.total .unwound + s.track.entries.length) ∧ t.track.entries = [] ∧
      t.track.seq = s.track.seq ∧ t.track.late = s.track.late ∧ RoomSignalled s t ∧
      t.pmap.state = .empty ∧ t.pmap.records = [] ∧ t.pmap.id = none ∧ t.pmap.mEnd = 0 ∧ t.pmap.d0 = 0 ∧
      t.align.queue = [] ∧ t.align.latch = none ∧ t.align.lastGuarded = none ∧ t.align.anchors = s.align.anchors ∧
      t.planner.state = .idle ∧ t.planner.target = .none ∧ t.slow = false ∧ t.halt = false ∧
      t.planner.record = s.planner.record ∧
      t.comps.ch0.run = false ∧ t.comps.ch0.out = false ∧ t.comps.ch1 = s.comps.ch1 ∧ t.comps.ch2 = s.comps.ch2 ∧
      t.comps.ch3 = s.comps.ch3 ∧ t.mounted = false ∧ t.pos.p = s.pos.p ∧ t.pos.v = s.pos.v ∧
      t.tracker = s.tracker ∧ t.diq.resume = s.diq.resume ∧
      (∀ stamp rest, s.diq.messages = .spliceSighting stamp :: rest → s.align.source ≠ .sensor →
        7 ≤ s.align.queue.length ∨ s.align.latch ≠ none →
        TakenFromHead rest s t ∧ t.diq.lastResult = .noRoll ∧ CountedOnce .linkDropped s t) ∧
      ((∀ stamp rest, s.diq.messages = .spliceSighting stamp :: rest →
          s.align.source = .sensor ∨ (s.align.queue.length ≤ 6 ∧ s.align.latch = none)) →
        t.diq = s.diq ∧ t.link = s.link ∧ t.total .linkDropped = s.total .linkDropped) ∧
      t.port.result = .ok ∧ AccessEnded none s t

/-- R23, R144, R145: the mark of STOP RELEASE or STOP CANCEL is written into the entry set aside, if it is still in the
list; the set-aside is cleared, an evaluation made without it (R132), and the command acknowledged with OK (log 39), or
ended without XACK when its DS was negated early (R161). That the grant clears the mark of class 5 alone is the model's
reading of R67 (log 5). -/
def Obligations.StopMarksWritten : Prop :=
  ∀ (s : State) (ident : Nat), (s.port.early = true → s.port.next = none) → s.grantsFive = true →
    s.planner.setAside = some ident →
    let cleared : State := { s with planner := { s.planner with setAside := none } }
    (s.port.access = some .stopRelease → ∃ t, exec .stoppedMarkWrite s = .next t ∧
      t.track.entries = s.track.entries.map (fun e => if e.ident = ident then { e with stopped := true } else e) ∧
      t.planner.setAside = none ∧ (TrackOrdered s → Evaluated cleared t) ∧
      t.align.yields = { s.align.yields with access := false } ∧
      t.port.result = .ok ∧ AccessEnded none s t) ∧
    (s.port.access = some .stopCancel → ∃ t, exec .skippedMarkWrite s = .next t ∧
      t.track.entries = s.track.entries.map (fun e => if e.ident = ident then { e with skipped := true } else e) ∧
      t.planner.setAside = none ∧ (TrackOrdered s → Evaluated cleared t) ∧
      t.align.yields = { s.align.yields with access := false } ∧
      t.port.result = .ok ∧ AccessEnded none s t)

/-! ### Press Map, Alignment Unit, Offset Tracker -/

/-- R61, R65: the sources of a sighting at `w`: an edge of SPLC with places free, the latched sighting, a SPLICE SIGHTING
at the head of the DIQ while nothing is latched. A latched one is handled under the settings that stand when it is taken,
and its source is not looked at again (log 41). With the sighting taken nothing is latched (R60): an edge is not latched as
well, and a latched one leaves the latch. -/
def Obligations.SightingsUnexpected : Prop :=
  ∀ (c : Instr) (s : State) (w : Int) (src : SightingSource) (u : Bool), s.mounted = true →
    SightingTaken c s w src u → s.passesGuard w → s.matchesNone w u →
    ∃ t, exec c s = .next t ∧ t.align.latch = none ∧ t.align.lastGuarded = some w ∧ t.events.flag .spliceUnexpected = true ∧
      t.align.queue = s.align.queue ++ [.liveSplice w src u] ∧ t.align.anchors = s.align.anchors ∧
      t.pmap.records = s.pmap.records ∧ t.total .sightingsIgnored = s.total .sightingsIgnored ∧
      (c = .spliceSighting → TakenFromHead s.diq.messages.tail s t ∧ t.diq.lastResult = .ok)

/-- R60, R61, R84: a sighting within SPLICE_GUARD of the last guarded one is counted and ignored; an edge with fewer than
two places free goes into the latch, and one that finds the latch full is counted and ignored; a latched sighting and a
SPLICE SIGHTING wait for places, the latter behind the former; an unselected source gives no sighting. A sighting that is
taken leaves the latch empty. A latched one is guarded under the SPLICE_GUARD that stands when it is taken (log 41). -/
def Obligations.SightingsIgnoredOrHeld : Prop :=
  (∀ (c : Instr) (s : State) (w last : Int) (src : SightingSource) (u : Bool), s.mounted = true → TalliesBounded s →
    SightingTaken c s w src u → s.align.lastGuarded = some last → |w - last| ≤ s.align.spliceGuard →
    ∃ t, exec c s = .next t ∧ CountedOnce .sightingsIgnored s t ∧ SaturationShown s t ∧
      (c = .spliceSighting → TakenFromHead s.diq.messages.tail s t ∧ t.diq.lastResult = .ok) ∧
      t.align.latch = none ∧ t.align.lastGuarded = some last ∧
      t.align.queue = s.align.queue ∧ t.align.anchors = s.align.anchors ∧ t.pmap.records = s.pmap.records) ∧
  (∀ s : State, s.mounted = true → s.align.source ≠ .camera → s.align.latch = none → 7 ≤ s.align.queue.length →
    exec .spliceSensorEdge s =
      .next { s with align := { s.align with latch := some (s.pos.p - s.pos.offSplice) } }) ∧
  (∀ s : State, s.mounted = true → s.align.source ≠ .camera → s.align.latch ≠ none → TalliesBounded s →
    ∃ t, exec .spliceSensorEdge s = .next t ∧ CountedOnce .sightingsIgnored s t ∧ SaturationShown s t ∧
      t.align = s.align) ∧
  (∀ s : State, s.mounted = false ∨ s.align.source = .camera → exec .spliceSensorEdge s = .next s) ∧
  (∀ s : State, s.align.latch = none ∨ 7 ≤ s.align.queue.length → exec .latchedSightingTaken s = .next s) ∧
  ∀ (s : State) (stamp : Int) (rest : List Message), s.diq.messages = .spliceSighting stamp :: rest →
    s.mounted = true →
    (s.align.source ≠ .sensor → 7 ≤ s.align.queue.length ∨ s.align.latch ≠ none →
      exec .spliceSighting s = .next s) ∧
    (s.align.source = .sensor → ∃ t, exec .spliceSighting s = .next t ∧ TakenFromHead rest s t ∧
      t.diq.lastResult = .ok ∧ t.align = s.align ∧ t.tally = s.tally ∧ t.events = s.events)

/-- R59, R62 to R64: a sighting that passes the guard and matches the splice record `i`, the first in map order within
MATCH_WINDOW, offers an anchor against the newest one, `a`, and leaves the latch empty (R60). A latched one is guarded and
matched under the settings that stand when it is taken (log 41). -/
def Obligations.AnchorOffered : Prop :=
  ∀ (c : Instr) (s : State) (w : Int) (src : SightingSource) (i : Nat) (r : MapRecord) (a : Anchor)
    (older : List Anchor), s.mounted = true → SightingTaken c s w src false → s.passesGuard w → 0 ≤ w → w ≤ posMax →
    s.pmap.records[i]? = some r → s.matchesRecord w r →
    (∀ j q, j < i → s.pmap.records[j]? = some q → ¬ s.matchesRecord w q) → s.align.anchors = a :: older →
    let dNew := roundHalfAway (((w - a.w) * 1000000 : Int) / (((a.m - r.m) * 10 : Int) : ℚ)) - 1000000
    ∃ t, exec c s = .next t ∧ t.align.latch = none ∧ t.align.lastGuarded = some w ∧
      (c = .spliceSighting → TakenFromHead s.diq.messages.tail s t ∧ t.diq.lastResult = .ok) ∧
      (r.m < a.m ∧ -50000 ≤ dNew ∧ dNew ≤ 50000 →
        t.align.anchors = (({ m := r.m, w := w } : Anchor) :: a :: older).take 8 ∧ t.align.dLast = dNew ∧
        t.pmap.records = s.pmap.records.modify i (fun q => { q with matchState := .matched }) ∧
        t.events.flag .spliceMatched = true ∧
        t.align.queue = s.align.queue ++
          (if r.status = .released then [.confirmation i w] else []) ++ [.marking a.m]) ∧
      (a.m ≤ r.m ∨ dNew < -50000 ∨ 50000 < dNew →
        t.align.anchors = s.align.anchors ∧ t.align.dLast = s.align.dLast ∧ t.pmap.records = s.pmap.records ∧
        t.events.flag .anchorRejected = true ∧
        t.events.flag .spliceUnexpected = s.events.flag .spliceUnexpected ∧
        t.align.queue = s.align.queue ++ [.liveSplice w src false])

/-- R58: the prediction, by where m lies among the anchors, with the rounding of the manual; 0 with no anchor. -/
def Obligations.Prediction : Prop :=
  (∀ (s : State) (m : Int), s.align.anchors = [] → s.predict m = 0) ∧
  (∀ (s : State) (a : Anchor) (older : List Anchor) (m : Int), s.align.anchors = a :: older →
    (m < a.m ∨ older = []) →
    s.predict m = a.w + roundHalfAway (((a.m - m) * 10 * (1000000 + s.align.dLast) : Int) / (1000000 : ℚ))) ∧
  ∀ (s : State) (newer older : List Anchor) (a b : Anchor) (m : Int),
    s.align.anchors = newer ++ a :: b :: older → s.align.anchors.Pairwise (fun x y => x.m < y.m) →
    a.m ≤ m → (m < b.m ∨ older = []) →
    s.predict m = b.w + roundHalfAway (((b.m - m) * (a.w - b.w) : Int) / (((b.m - a.m : Int)) : ℚ))

/-- R49, R73. -/
def Obligations.MapBegin : Prop :=
  ∀ (s : State) (id : Nat) (mEnd d0 : Int) (rest : List Message), s.diq.messages = .mapBegin id mEnd d0 :: rest →
    ∃ t : State, exec .mapBegin s = .next t ∧ TakenFromHead rest s t ∧
      t = { s with diq := t.diq, link := t.link, pmap := t.pmap } ∧
      t.diq.lastResult =
        (if s.mounted then .rollMounted else if s.pmap.state = .opened then .mapState
         else if mEnd < 1 ∨ d0 < -32768 ∨ 32767 < d0 then .badField else .ok) ∧
      t.pmap = if t.diq.lastResult = .ok then
        { s.pmap with state := .opened, id := some id, mEnd := mEnd, d0 := d0, records := [], truncated := false }
        else s.pmap

/-- R50, R73, with the kind in the packed byte's bits 7 to 5, the class in bits 4 to 2 and the severity in bits 1 and 0. -/
def Obligations.MapRecordTaken : Prop :=
  ∀ (s : State) (m len x0 x1 : Int) (packed : Byte) (rest : List Message),
    s.diq.messages = .mapRecord m len x0 x1 packed :: rest →
    let k := packed.toNat / 32
    let cls : Fin 8 := ⟨packed.toNat / 4 % 8, Nat.mod_lt _ (by decide)⟩
    let sev : Fin 4 := ⟨packed.toNat % 4, Nat.mod_lt _ (by decide)⟩
    ∃ t : State, exec .mapRecord s = .next t ∧ TakenFromHead rest s t ∧
      t = { s with diq := t.diq, link := t.link, pmap := t.pmap } ∧
      t.diq.lastResult =
        (if s.pmap.state ≠ .opened then .mapState else if 4096 ≤ s.pmap.records.length then .mapFull
         else if 1 < k ∨ s.pmap.mEnd < m ∨ (k = 0 ∧ x1 < x0) then .badField
         else if ∃ r ∈ s.pmap.records.getLast?, r.m < m then .mapOrder else .ok) ∧
      t.pmap = if t.diq.lastResult = .mapFull then { s.pmap with truncated := true }
        else if t.diq.lastResult = .ok then
          { s.pmap with records := s.pmap.records ++
            [if k = 0 then ⟨.flag, m, len, x0, x1, cls, sev, .unreleased, .unmatched⟩
             else ⟨.splice, m, 0, 0, 0, 0, 0, .unreleased, .unmatched⟩] }
        else s.pmap

/-- R51, R73. -/
def Obligations.MapClose : Prop :=
  ∀ (s : State) (n : Nat) (rest : List Message), s.diq.messages = .mapClose n :: rest →
    ∃ t : State, exec .mapClose s = .next t ∧ TakenFromHead rest s t ∧
      t = { s with diq := t.diq, link := t.link, pmap := t.pmap, events := t.events } ∧
      (s.pmap.state ≠ .opened → t.pmap = s.pmap ∧ t.diq.lastResult = .mapState ∧ t.events = s.events) ∧
      (s.pmap.state = .opened → t.diq.lastResult = .ok ∧
        t.pmap = { s.pmap with
          state := .closed, truncated := s.pmap.truncated || decide (n ≠ s.pmap.records.length) } ∧
        t.events.flag .mapTruncated = (s.events.flag .mapTruncated || t.pmap.truncated))

/-- R73, R78 to R81, R148. -/
def Obligations.Beacon : Prop :=
  ∀ (s : State) (n : Nat) (cs : Int) (rest : List Message), s.diq.messages = .beacon n cs :: rest → TalliesBounded s →
    ∃ t : State, exec .beacon s = .next t ∧ TakenFromHead rest s t ∧ SaturationShown s t ∧
      t = { s with diq := t.diq, link := t.link, tracker := t.tracker, tally := t.tally, events := t.events } ∧
      ((∀ h ∈ s.tracker.history, h.number ≠ n) →
        CountedOnce .staleBeacons s t ∧ t.tracker = s.tracker ∧ t.diq.lastResult = s.diq.lastResult) ∧
      ∀ (pre post : List Strobe) (h : Strobe), s.tracker.history = pre ++ h :: post → h.number = n →
        (∀ g ∈ pre, g.number ≠ n) →
        let e := h.p - cs
        let r := e - s.tracker.o
        t.diq.lastResult = .ok ∧
        (s.tracker.valid = false →
          t.tracker = { s.tracker with o := e, valid := true, latest := some e, peak := 0 } ∧
          t.events = s.events ∧ t.tally = s.tally) ∧
        (s.tracker.valid = true →
          t.tracker = { s.tracker with
            o := if s.tracker.captureLimit < |r| then e
              else if s.tracker.wideWindow < |r| then s.tracker.o + roundHalfAway ((r : ℚ) / 2 ^ s.tracker.gWide)
              else s.tracker.o + roundHalfAway ((r : ℚ) / 2 ^ s.tracker.gNarrow)
            latest := some e
            peak := if s.tracker.peakMode = .peak then max s.tracker.peak (min |r| 4294967295)
              else min |r| 4294967295 } ∧
          t.tally = s.tally ∧ t.events.flag .offsetJump =
            (s.events.flag .offsetJump || decide (s.tracker.captureLimit < |r|)) ∧
          ∀ ev, ev ≠ .offsetJump → t.events.flag ev = s.events.flag ev)

/-! ### Inspection Link -/

/-- R169 to R171: the acknowledge of each byte of a transfer, by where the link stands; an acknowledged kind byte that
finds the DIQ full begins a hold under the present HOLD_LIMIT. A byte is not clocked during a hold (log 15). The seven
address bits are 0101 and ADR2 to ADR0, the direction bit 1 for a read (log 14). -/
def Obligations.LinkBytes : Prop :=
  ∀ (s : State) (b : Byte), s.link.holding = false → ∃ t, exec (.inspectionLinkByte b) s = .next t ∧
    (s.link.phase = .idle ∨ s.link.phase = .restarted →
      (b = (0b0101#4 ++ s.pins.adr ++ 0#1) → t.link.ack = true ∧ t.link.phase = .addressed) ∧
      (b = (0b0101#4 ++ s.pins.adr ++ 1#1) → t.link.ack = true ∧ t.link.phase = .reading ∧
        t.link.status = s.statusBytes ∧ t.link.sent = []) ∧
      (b.extractLsb' 1 7 ≠ (0b0101#4 ++ s.pins.adr) → t.link.ack = false ∧ t.link.phase = .ignored)) ∧
    (s.link.phase = .ignored → t.link.ack = false ∧ t.link.phase = .ignored) ∧
    (s.link.phase = .addressed →
      (∀ k n, (b, k, n) ∈ [((0x21 : Byte), MessageKind.mapBegin, 10), (0x22, .mapRecord, 11), (0x23, .mapClose, 2),
          (0x11, .detection, 11), (0x12, .beacon, 5), (0x13, .spliceSighting, 4)] →
        t.link.ack = true ∧ t.link.phase = .message k [] ∧ k.bodyLength = n ∧
        t.link.holding = decide (32 ≤ s.diq.messages.length) ∧
        (t.link.holding = true → t.link.holdTicks = 0 ∧ t.link.holdLimitNow = s.link.holdLimit)) ∧
      (b ∉ [(0x21 : Byte), 0x22, 0x23, 0x11, 0x12, 0x13] → t.link.ack = false ∧ t.link.phase = .ignored)) ∧
    (∀ k bytes, s.link.phase = .message k bytes →
      (bytes.length < k.bodyLength → t.link.ack = true ∧ t.link.phase = .message k (bytes ++ [b])) ∧
      (k.bodyLength ≤ bytes.length → t.link.ack = false ∧ t.link.phase = s.link.phase)) ∧
    (s.link.phase = .reading →
      t.link.sent = s.link.sent ++ [(s.link.status[s.link.sent.length]?).getD 0xFF] ∧ t.link.phase = .reading)

/-- R72, R169: a stop condition appends a complete message to the DIQ, as its bytes spell it (section 9.5), and counts an
incomplete one short; after the address alone it does neither. A repeated start abandons a message, complete or not, and
counts it short (after the address alone too: log 16). Neither counts a transfer whose kind byte was unknown, and which is
ignored from there (log 40). Either ends a hold, which R170 does not say (log 15). -/
def Obligations.StopsAndStarts : Prop :=
  ∀ s : State, TalliesBounded s →
    (∃ t, exec .inspectionMessage s = .next t ∧ t.link.phase = .idle ∧ t.link.holding = false ∧ SaturationShown s t ∧
      (∀ k bytes, s.link.phase = .message k bytes →
        (bytes.length = k.bodyLength → s.diq.messages.length < 32 →
          ∃ m, Spells k bytes m ∧ t.diq.messages = s.diq.messages ++ [m] ∧
            t.total .shortMessages = s.total .shortMessages) ∧
        (bytes.length < k.bodyLength → t.diq.messages = s.diq.messages ∧ CountedOnce .shortMessages s t)) ∧
      ((∀ k bytes, s.link.phase ≠ .message k bytes) →
        t.diq.messages = s.diq.messages ∧ t.total .shortMessages = s.total .shortMessages)) ∧
    ∃ t, exec .repeatedStart s = .next t ∧ t.link.phase = .restarted ∧ t.link.holding = false ∧ t.diq = s.diq ∧
      SaturationShown s t ∧
      ((s.link.phase = .addressed ∨ ∃ k bytes, s.link.phase = .message k bytes) → CountedOnce .shortMessages s t) ∧
      (s.link.phase = .idle ∨ s.link.phase = .restarted ∨ s.link.phase = .ignored ∨ s.link.phase = .reading →
        t.total .shortMessages = s.total .shortMessages)

/-- R170, R171: HOLD_LIMIT ticks into a hold it expires, and the message is dropped; with a limit of 0 it never does. A status
read sends the six status bytes and then FFh, as many bytes as the master takes (log 17), and changes neither the peak nor
the last result code. -/
def Obligations.HoldsAndStatusReads : Prop :=
  ((∀ s : State, s.link.holding = true → s.link.holdLimitNow ≠ 0 → s.link.holdLimitNow ≤ s.link.holdTicks →
     TalliesBounded s → ∃ t, exec .holdExpiry s = .next t ∧ t.link.holding = false ∧ t.link.phase = .ignored ∧
       CountedOnce .linkDropped s t ∧ SaturationShown s t ∧ t.events.flag .linkDrop = true ∧ t.diq = s.diq) ∧
   (∀ s : State, s.link.holding = true → s.link.holdTicks < 1000 → ∃ t, exec .tick s = .next t ∧
     t.link.holdTicks = s.link.holdTicks + 1 ∧ t.link.holdLimitNow = s.link.holdLimitNow) ∧
   ∀ s : State, s.link.holding = false ∨ s.link.holdLimitNow = 0 ∨ s.link.holdTicks < s.link.holdLimitNow →
     exec .holdExpiry s = .next s) ∧
  ∀ (s : State) (n : Nat), s.link.phase = .idle → s.link.holding = false → s.diq.messages.length ≤ 32 →
    ∃ (t : State) (free flags result hi lo peak : Byte), exec (.statusRead n) s = .next t ∧
      t.link.sent = ([free, flags, result, hi, lo, peak] ++ List.replicate (n - 6) 0xFF).take n ∧
      free = BitVec.ofNat 8 (32 - s.diq.messages.length) ∧
      flags.getLsbD 0 = s.tracker.valid ∧ flags.getLsbD 1 = false ∧ flags.getLsbD 4 = s.pmap.truncated ∧
      (flags.extractLsb' 2 2).toNat = (match s.pmap.state with
        | .empty => 0
        | .opened => 1
        | .closed => 2) ∧
      result = BitVec.ofNat 8 s.diq.lastResult.code ∧ hi ++ lo = BitVec.ofNat 16 s.pmap.records.length ∧
      peak = BitVec.ofInt 8 (min 255 s.tracker.peak) ∧
      t.tracker = s.tracker ∧ t.diq = s.diq ∧ t.tally = s.tally ∧ t.link.phase = .idle

/-! ### Reel Link -/

/-- R173, R174: a character received with nothing waiting in the stages and no frame or reply to be served goes to the
assembler: hunting, C3h without an error opens a frame; collecting, the kind, the length, the body and the check are taken
in turn, and a byte with an error or a check that fails leaves the frame to be discarded by its own command (log 20). The
parity and the FRAME_GAP are those before the taken writes that fell between its start bit and its stop bit, as many as the
command says (R173, log 21); that EVEN and ODD count the ones of the data bits and the parity bit is the model's reading
of R173 (log 42); the ticks of the gap are counted from the character's command (log 23). While a built reply waits the
assembler takes no byte (R175); a byte that completes with both stages full is lost and the next is marked. -/
def Obligations.CharacterReceived : Prop :=
  (∀ (s : State) (b : Byte) (par stop : Bool) (n : Nat) (f : ReceiveSettings), s.reel.quiet → s.reel.waiting = none →
     (∀ k bs, s.reel.assembler ≠ .complete k bs) → s.reel.assembler ≠ .failed →
     (n = 0 ∧ f = ⟨s.reel.parity, s.reel.frameGap⟩) ∨ (0 < n ∧ s.reel.earlier[n - 1]? = some f) →
     let ones := (if par then 1 else 0) + ((List.range 8).filter fun i => b.getLsbD i).length
     let good := stop = true ∧ (f.parity = .even → ones % 2 = 0) ∧ (f.parity = .odd → ones % 2 = 1)
     ∃ t, exec (.characterReceived ⟨b, n⟩ par stop) s = .next t ∧ t.reel.holdingStage = none ∧ t.reel.shiftStage = none ∧
       t.reel.gapTicks = 0 ∧ t.reel.gapLimit = f.frameGap ∧ t.reel.earlier = [] ∧ t.tally = s.tally ∧
       (s.reel.assembler = .hunting → (b = 0xC3 ∧ good → t.reel.assembler = .needKind) ∧
         (¬ (b = 0xC3 ∧ good) → t.reel.assembler = .hunting)) ∧
       (s.reel.assembler ≠ .hunting → ¬ good → t.reel.assembler = .failed) ∧
       (s.reel.assembler = .needKind → good → t.reel.assembler = .needLength b) ∧
       (∀ k, s.reel.assembler = .needLength k → good → t.reel.assembler = .body k b.toNat []) ∧
       ∀ k len bs, s.reel.assembler = .body k len bs → good →
         (bs.length < len → t.reel.assembler = .body k len (bs ++ [b])) ∧
         (len ≤ bs.length → t.reel.assembler =
           if (k.toNat + len + (bs.map BitVec.toNat).sum + b.toNat) % 256 = 0 then .complete k bs else .failed)) ∧
  ∀ (s : State) (b : Byte) (par stop : Bool) (n : Nat) (x : RxByte) (w : List Byte), s.reel.holdingStage = some x →
    s.reel.waiting = some w →
    ∃ t, exec (.characterReceived ⟨b, n⟩ par stop) s = .next t ∧ t.reel.holdingStage = some x ∧
      t.reel.assembler = s.reel.assembler ∧
      (∀ y, s.reel.shiftStage = some y → t.reel.shiftStage = some y ∧ t.reel.overrunNext = true) ∧
      (s.reel.shiftStage = none → t.reel.overrunNext = false ∧
        ∃ y, t.reel.shiftStage = some y ∧ y.value = b ∧ y.overrun = s.reel.overrunNext)

/-- R122 to R124, R175: a complete frame of each kind is answered at once against the queue as it stands, its body as
section 9.5 lays it out; the reply starts at once with the transmitter idle, and waits while another is being sent. TXD
carries it (R173, log 42). Only a RELEASE that names the head's set and lane removes it. The frame is answered by its own
command (log 20). The bytes that wait in the stages are then taken from hunting, unless the reply waits. -/
def Obligations.FramesServed : Prop :=
  ∀ (s : State) (kind : Byte) (body : List Byte), s.reel.assembler = .complete kind body → s.reel.waiting = none →
    TalliesBounded s →
    let q := s.queue.records
    let known := (kind = 0x01 ∧ body = []) ∨ (kind = 0x02 ∧ body = []) ∨ (kind = 0x03 ∧ body.length = 3)
    (kind = 0x01 → body = [] → ∃ t, exec .poll s = .next t ∧ t.queue = s.queue ∧ SaturationShown s t ∧
      (q = [] → ReplyGiven (FrameOf 0x81 [0, 0, 0, 0]) s t) ∧
      ∀ r rs, q = r :: rs → ReplyGiven (FrameOf 0x81 ([BitVec.ofNat 8 q.length] ++
        be16 (BitVec.ofNat 16 r.setNumber) ++ [BitVec.ofNat 8 r.lane])) s t) ∧
    (kind = 0x02 → body = [] → ∃ t, exec .fetch s = .next t ∧ t.queue = s.queue ∧ SaturationShown s t ∧
      (q = [] → ReplyGiven (FrameOf 0x82 [1]) s t) ∧
      ∀ r rs, q = r :: rs → ReplyGiven (FrameOf 0x82 (0 :: reelBody r)) s t) ∧
    (∀ hi lo lane : Byte, kind = 0x03 → body = [hi, lo, lane] → ∃ t, exec .release s = .next t ∧ SaturationShown s t ∧
      (q = [] → ReplyGiven (FrameOf 0x83 [1]) s t ∧ t.queue = s.queue) ∧
      ∀ r rs, q = r :: rs →
        ((r.setNumber = hi.toNat * 256 + lo.toNat ∧ r.lane = lane.toNat) →
          ReplyGiven (FrameOf 0x83 [0]) s t ∧ t.queue.records = rs ∧
          (s.queue.roomWanted = true ∧ s.plan.reelCount ≤ 64 - rs.length →
            t.events.flag .queueRoom = true ∧ t.queue.roomWanted = false) ∧
          (s.queue.roomWanted = false ∨ 64 - rs.length < s.plan.reelCount →
            t.events.flag .queueRoom = s.events.flag .queueRoom ∧ t.queue.roomWanted = s.queue.roomWanted)) ∧
        (¬ (r.setNumber = hi.toNat * 256 + lo.toNat ∧ r.lane = lane.toNat) →
          ReplyGiven (FrameOf 0x83 [2]) s t ∧ t.queue = s.queue)) ∧
    (¬ known → ∃ t, exec .unknownFrame s = .next t ∧ t.queue = s.queue ∧ SaturationShown s t ∧
      ReplyGiven (FrameOf 0xFF [3]) s t)

/-- R174: the discard of a failed frame, by a command of its own (log 20), and of an opened one after more than FRAME_GAP
ticks without a character; bytes that wait in the stages are then taken from hunting. The ticks are counted from the
command of the latest character, at its stop bit, and not up to the start bit of the next. While bytes of the frame wait in
the stages, the gap is marked on the next byte, which finds its frame discarded and is taken while hunting (log 23). -/
def Obligations.FramesDiscarded : Prop :=
  (∀ s : State, s.reel.assembler = .failed → TalliesBounded s →
    ∃ t, exec .reelFrameDiscard s = .next t ∧ DiscardedFrame s t ∧ SaturationShown s t ∧
      t.reel.sending = s.reel.sending ∧ t.reel.waiting = s.reel.waiting) ∧
  (∀ s : State, s.reel.assembler ≠ .failed → exec .reelFrameDiscard s = .next s) ∧
  (∀ s : State, s.reel.gapLimit < s.reel.gapTicks → TalliesBounded s →
    (s.reel.assembler.collecting = true → s.reel.holdingStage = none →
      ∃ t, exec .frameGapExpiry s = .next t ∧ DiscardedFrame s t ∧ SaturationShown s t ∧
        t.reel.gapNext = s.reel.gapNext) ∧
    (s.reel.assembler.collecting = false → s.reel.holdingStage = none → exec .frameGapExpiry s = .next s) ∧
    (s.reel.holdingStage ≠ none →
      exec .frameGapExpiry s = .next { s with reel := { s.reel with gapNext := true } })) ∧
  (∀ s : State, s.reel.gapTicks ≤ s.reel.gapLimit → exec .frameGapExpiry s = .next s) ∧
  ∀ (s : State) (b : Byte) (par stop : Bool) (n : Nat), s.reel.gapNext = true → s.reel.assembler.collecting = true →
    s.reel.holdingStage = none → s.reel.shiftStage = none → s.reel.waiting = none → TalliesBounded s →
    ∃ t, exec (.characterReceived ⟨b, n⟩ par stop) s = .next t ∧ CountedOnce .framesDiscarded s t ∧
      SaturationShown s t ∧ t.events.flag .reelLinkError = true ∧ t.reel.gapNext = false ∧ t.reel.holdingStage = none ∧
      (b ≠ 0xC3 ∨ stop = false ∨ s.reel.overrunNext = true → t.reel.assembler = .hunting) ∧
      (b = 0xC3 → stop = true → s.reel.overrunNext = false → s.reel.parity = .none → n = 0 →
        t.reel.assembler = .needKind)

/-- R173, R175: a reply that waits starts when the transmitter is idle, and not before. Each of its bytes takes one
character of CLK periods: a start bit, 8 data bits, a parity bit unless NONE and a stop bit, each of 16 times REEL_DIVISOR
periods; a tick takes its own periods off the byte on the line, and off the bytes behind it when that ends, each with a
character time of its own (log 22). TXD carries the reply bit by bit (log 42), a character on the line keeping the settings
it began under, and holds the stop level while nothing is sent. The assembler, which hunts while a reply waits, takes the
bytes that wait in the stages as the reply starts. -/
def Obligations.ReplyStarts : Prop :=
  (∀ (s : State) (f : List Byte), s.reel.waiting = some f → s.reel.sending = [] →
    ∃ t, exec .replyTransmitStart s = .next t ∧ t.reel.sending = f ∧ t.reel.waiting = none ∧
      t.reel.charLeft = (if s.reel.parity = .none then 10 else 11) * (16 * s.reel.divisor) ∧
      t.reel.onLine = ⟨s.reel.parity, s.reel.divisor⟩ ∧ t.reel.carries ⟨s.reel.parity, s.reel.divisor⟩ ∧
      (s.reel.assembler = .hunting → TalliesBounded s → StagesTaken 0 s t ∧ SaturationShown s t)) ∧
  (∀ s : State, s.reel.waiting = none ∨ s.reel.sending ≠ [] → exec .replyTransmitStart s = .next s) ∧
  (∀ s : State, s.reel.sending = [] → s.txd = true ∧ ∃ t, exec .tick s = .next t ∧ t.reel.sending = [] ∧ t.txd = true) ∧
  (∀ (s : State) (b : Byte) (bs : List Byte) (k j : Nat), s.reel.sending = b :: bs → k < bitsOf s.reel.onLine.parity →
    j < bitPeriods s.reel.onLine →
    s.reel.charLeft + k * bitPeriods s.reel.onLine + j = bitsOf s.reel.onLine.parity * bitPeriods s.reel.onLine →
    LevelIs s.reel.onLine.parity b k s.txd) ∧
  ∀ (s : State) (b : Byte) (bs : List Byte), s.reel.sending = b :: bs → ∃ t, exec .tick s = .next t ∧
    t.txd = s.reel.txdAfter s.pos.tickDivisor ∧
    let char := (if s.reel.parity = .none then 10 else 11) * (16 * s.reel.divisor)
    (s.pos.tickDivisor < s.reel.charLeft →
      t.reel.sending = b :: bs ∧ t.reel.charLeft = s.reel.charLeft - s.pos.tickDivisor ∧
        t.reel.onLine = s.reel.onLine) ∧
    (∀ (sent : List Byte) (c : Byte) (rest : List Byte), bs = sent ++ c :: rest →
      s.reel.charLeft + sent.length * char ≤ s.pos.tickDivisor →
      s.pos.tickDivisor < s.reel.charLeft + (sent.length + 1) * char →
      t.reel.sending = c :: rest ∧
        t.reel.charLeft = s.reel.charLeft + (sent.length + 1) * char - s.pos.tickDivisor ∧
        t.reel.onLine = ⟨s.reel.parity, s.reel.divisor⟩) ∧
    (s.reel.charLeft + bs.length * char ≤ s.pos.tickDivisor → t.reel.sending = [] ∧ t.txd = true)

/-- R174: the part's own assembler reads every frame the part can send: a reply of any kind and of any body a frame can
hold, byte by byte, ends complete with that kind and that body. R173: each byte, as its parity bit and stop bit are sent,
is received under the same parity without a mark. -/
def Obligations.FrameRoundTrip : Prop :=
  (∀ (p : Parity) (b : Byte) (par : Bool), (p ≠ .none → (characterBits p b)[9]? = some par) →
    characterOf p b par ((characterBits p b).getLast?.getD false) = ⟨b, false, false, false, false⟩) ∧
  ∀ (kind : Byte) (body : List Byte), body.length ≤ 255 →
    (frameOf kind body).foldl (fun a b => collectByte ⟨b, false, false, false, false⟩ a) .hunting =
      .complete kind body


/-! ### Stop Planner -/

/-- R128 to R142: the evaluation at a speed sample, made with the v and the settle count that the sample measures (R7, R9);
in HALTING a settle count below SETTLE leaves the planner as it is (R137). R131: SLOW and HALT are driven from the state. -/
def Obligations.Selection : Prop :=
  (∀ s : State, s.pos.sampleDue = true → TrackOrdered s → ∃ t, exec .speedSample s = .next t ∧
    t.track = s.track ∧ t.reels = s.reels ∧ t.pos.p = s.pos.p ∧
    t.pos.v = clampInt (-20000) 20000 ((s.pos.p - s.pos.sampleBase) * 10) ∧
    (s.planner.state ≠ .halting → Evaluated { s with pos := { s.pos with
      settle := if s.pos.p = s.pos.sampleBase then min 255 (s.pos.settle + 1) else 0 } } t) ∧
    (s.planner.state = .halting → t.pos.settle < s.planner.params.settle → t.planner = s.planner) ∧
    (s.pos.p < s.pos.sampleBase → t.planner = s.planner)) ∧
  ∀ s : State, (s.slow = true ↔ s.planner.state ∈ [PlannerState.slowing, .creeping, .halting, .stopped]) ∧
    (s.halt = true ↔ s.planner.state ∈ [PlannerState.halting, .stopped])

/-! ### Line Port: commands -/

/-- R12, R13, R20, R52, R57, R61, R82: ROLL MOUNT with W0 in ARG0 and ARG1, ROLL END as far as its wait for its Track List
operation, and MAP CLEAR, each with its checks in order. -/
def Obligations.RollCommands : Prop :=
  ∀ s : State, s.portFree →
    (let w0 := (s.port.arg0 ++ s.port.arg1).toInt
     (s.mounted = true → exec .rollMount s = .next (s.answered .rollMounted)) ∧
     (s.mounted = false → s.pmap.state = .opened → exec .rollMount s = .next (s.answered .mapOpen)) ∧
     (s.mounted = false → s.pmap.state ≠ .opened → w0 < -2000000 ∨ 2000000 < w0 →
       exec .rollMount s = .next (s.answered .badArg)) ∧
     (s.mounted = false → s.pmap.state ≠ .opened → -2000000 ≤ w0 → w0 ≤ 2000000 →
       exec .rollMount s = .next ({ s with
         pos := { s.pos with p := 0, frac := 0, sampleBase := 0, roll := .mounted }
         comps := { s.comps with
           ch0 := { s.comps.ch0 with matchPoint := s.tracker.strobePitch, skipped := 0, run := true }, strobeSeq := 0 }
         tracker := { s.tracker with o := 0, valid := false, latest := none, peak := 0, history := [] }
         align := { s.align with anchors := [⟨s.pmap.mEnd, w0⟩], dLast := s.pmap.d0, lastGuarded := none }
         : State }.answered .ok))) ∧
    (s.mounted = false → exec .rollEnd s = .next (s.answered .noRoll)) ∧
    (s.mounted = true → s.reels.openSet ≠ none → exec .rollEnd s = .next (s.answered .setOpen)) ∧
    (s.mounted = true → s.reels.openSet = none → exec .rollEnd s = .next (s.waitingFor .rollEnd)) ∧
    (s.mounted = true → exec .mapClear s = .next (s.answered .rollMounted)) ∧
    (s.mounted = false → exec .mapClear s = .next ({ s with
      pmap := { s.pmap with state := .empty, id := none, mEnd := 0, d0 := 0, records := [], truncated := false }
      : State }.answered .ok))

/-- R104, R105, R110, R19: SET START with its checks in order. R132, R146: an evaluation follows when it is accepted. -/
def Obligations.SetStart : Prop :=
  ∀ s : State, s.portFree →
    (s.mounted = false → exec .setStart s = .next (s.answered .noRoll)) ∧
    (s.mounted = true → s.reels.openSet ≠ none → exec .setStart s = .next (s.answered .setOpen)) ∧
    (s.mounted = true → s.reels.openSet = none → s.plan.status ≠ .valid →
      exec .setStart s = .next (s.answered .badPlan)) ∧
    (s.mounted = true → s.reels.openSet = none → s.plan.status = .valid →
      ∃ t, exec .setStart s = .next t ∧ OpenedAt s.port.arg0.toNat s t ∧ t.port.result = .ok ∧ t.port.xack = true ∧
        t.reels.indications = s.reels.indications ∧ t.events = s.events ∧ (TrackOrdered s → Evaluated s t))

/-- R106, R107, R111, R118, R120, R124, R151: SET END and SET CHANGE with their checks in order. Each record is graded
finally: by the tests of R118 once more, and then for its length; no indication is set and LANE_GRADE is not raised. R132,
R146: an evaluation follows an accepted command. -/
def Obligations.SetEndAndChange : Prop :=
  ∀ s : State, s.portFree →
    (s.reels.openSet = none →
      exec .setEnd s = .next (s.answered .noSet) ∧ exec .setChange s = .next (s.answered .noSet)) ∧
    ∀ o, s.reels.openSet = some o →
      (s.plan.status ≠ .valid → exec .setChange s = .next (s.answered .badPlan)) ∧
      (64 < s.queue.records.length + o.reels.length → s.queue.records.length ≤ 64 →
        let full := { s with queue := { s.queue with roomWanted := true } : State }.answered .queueFull
        exec .setEnd s = .next full ∧ (s.plan.status = .valid → exec .setChange s = .next full)) ∧
      (s.queue.records.length + o.reels.length ≤ 64 → RollConsistent s → TalliesBounded s →
        (∃ t, exec .setEnd s = .next t ∧ ClosedInto o .setEnd s t ∧ t.reels.openSet = none ∧
          t.reels.nextSet = s.reels.nextSet ∧ t.reels.indications = s.reels.indications ∧ t.comps = s.comps ∧
          t.queue.roomWanted = s.queue.roomWanted ∧ t.port.result = .ok ∧ t.port.xack = true ∧
          (TrackOrdered s → Evaluated s t)) ∧
        ∃ t, exec .setChange s = .next t ∧ ClosedInto o .setChange s t ∧ OpenedAt s.port.arg0.toNat s t ∧
          t.reels.indications = s.reels.indications ∧ t.queue.roomWanted = s.queue.roomWanted ∧
          t.port.result = .ok ∧ t.port.xack = true ∧ (TrackOrdered s → Evaluated s t))

/-- R144, R145: STOP RELEASE and STOP CANCEL as far as the wait for their Track List operation: a target entry is set
aside; the length stop of the open set becomes DONE or SKIPPED, and an evaluation follows from IDLE, but while v is below
0 (R142). -/
def Obligations.StopReleaseAndCancel : Prop :=
  ∀ (c : Instr) (s : State) (st : LengthStop) (wait : WaitingAccess), s.portFree →
    (c = .stopRelease ∧ st = .done ∧ wait = .stopRelease) ∨ (c = .stopCancel ∧ st = .skipped ∧ wait = .stopCancel) →
    let accepted := (c = .stopRelease ∧ s.planner.state = .stopped) ∨ (c = .stopCancel ∧ s.planner.state ≠ .idle)
    let idle := { s.planner with
      state := .idle, target := .none, notedSeq := none, short := false, retargeted := false }
    (¬ accepted → exec c s = .next (s.answered .notStopped)) ∧
    (accepted → ∀ ident kind, s.planner.target = .entry ident kind →
      exec c s = .next ({ s with planner := { idle with setAside := some ident } : State }.waitingFor wait)) ∧
    (accepted → ∀ n, s.planner.target = .length n →
      ∃ t, exec c s = .next t ∧ t.port.result = .ok ∧ t.port.xack = true ∧ t.planner.setAside = none ∧
        (∀ o, s.reels.openSet = some o →
          t.reels.openSet = some (if o.number = n then { o with lengthStop := st } else o)) ∧
        (s.reels.openSet = none → t.reels = s.reels) ∧
        (TrackOrdered s → Evaluated { s with planner := { idle with setAside := none } } t))

/-- R18, R150, R164: PRESET, SNAP TALLIES, and a code that names no command. -/
def Obligations.SimpleCommands : Prop :=
  ∀ s : State, s.portFree →
    (∀ i : Fin 4, i ≠ 0 → s.port.arg0.toNat = i.val → ∃ t, exec .preset s = .next t ∧
      t.comps.get i = { s.comps.get i with matchPoint := (s.comps.get i).base, skipped := 0 } ∧
      (∀ j, j ≠ i → t.comps.get j = s.comps.get j) ∧ t.comps.strobeSeq = s.comps.strobeSeq ∧ t.events = s.events ∧
      t.port.result = .ok ∧ t.port.xack = true) ∧
    (s.port.arg0.toNat = 0 ∨ 3 < s.port.arg0.toNat → exec .preset s = .next (s.answered .badArg)) ∧
    (∃ t, exec .snapTallies s = .next t ∧ t.tally.snap = s.tally.live ∧ t.tally.snapCause = .command ∧
      t.tally.snapSet = none ∧ (∀ k, t.total k = 0) ∧
      (∀ n, 1 ≤ n → n ≤ 24 → t.tally.live.lane n = ⟨0, 0, 0, 0⟩) ∧ t.tally.autosnap = s.tally.autosnap ∧
      t.events = s.events ∧ t.port.result = .ok ∧ t.port.xack = true) ∧
    ∀ d : Word, d.toNat % 256 ∉ [0x01, 0x02, 0x03, 0x04, 0x05, 0x06, 0x07, 0x08, 0x09, 0x0A, 0x5A] →
      exec (.unknownCommand d) s = .next (s.answered .badArg)

/-! ### Line Port: registers and tables -/

/-- R95, R119, R155, R156, R163 to R165: the single words; none of these accesses changes RESULT. -/
def Obligations.SingleWords : Prop :=
  ∀ (s : State) (d : Word), s.portFree →
    (0 ≤ s.plan.shiftLimit → ∃ t : State, exec (.webShiftWrite d) s = .next (t.acknowledged none) ∧
      t = { s with plan := { s.plan with webShift := clampInt (-s.plan.shiftLimit) s.plan.shiftLimit d.toInt }
                   events := t.events } ∧
      t.events.flag .shiftClamped = (s.events.flag .shiftClamped || decide (s.plan.shiftLimit < |d.toInt|)) ∧
      ∀ ev, ev ≠ .shiftClamped → t.events.flag ev = s.events.flag ev) ∧
    exec (.eventWrite .a d) s =
      .next ({ s with events := { s.events with flagsA := s.events.flagsA &&& ~~~d } : State }.acknowledged none) ∧
    exec (.eventWrite .b d) s =
      .next ({ s with events := { s.events with flagsB := s.events.flagsB &&& ~~~d } : State }.acknowledged none) ∧
    exec (.enableWrite .a d) s =
      .next ({ s with events := { s.events with enableA := d } : State }.acknowledged none) ∧
    (∃ t : State, exec (.enableWrite .b d) s = .next (t.acknowledged none) ∧
      t = { s with events := { s.events with enableB := d &&& 0x3F } } ∧
      (t.lirq = true ↔ ∃ ev, t.events.flag ev = true ∧ t.events.enable ev = true)) ∧
    (∃ t : State, exec (.laneGradeChangeWrite .a d) s = .next (t.acknowledged none) ∧
      t = { s with reels := { s.reels with indications := t.reels.indications } } ∧
      ∀ k < 24, t.reels.indications.getLsbD k =
        (s.reels.indications.getLsbD k && !(decide (k < 16) && d.getLsbD k))) ∧
    (∃ t : State, exec (.laneGradeChangeWrite .b d) s = .next (t.acknowledged none) ∧
      t = { s with reels := { s.reels with indications := t.reels.indications } } ∧
      ∀ k < 24, t.reels.indications.getLsbD k =
        (s.reels.indications.getLsbD k && !(decide (16 ≤ k) && d.getLsbD (k - 16)))) ∧
    (∃ (t : State) (hi : Word), exec .posHiRead s = .next (t.acknowledged (some hi)) ∧
      t = { s with port := { s.port with posLatch := t.port.posLatch } } ∧
      hi ++ t.port.posLatch = BitVec.ofInt 32 s.pos.p) ∧
    (∀ tb, d.toNat = tb.code → exec (.tableSelectWrite d) s = .next ({ s with
      port := { s.port with tableSelect := tb, tableAddr := 0, latch := none, held := none } : State }.acknowledged
        none)) ∧
    exec (.registerWrite 4 d) s = .next ({ s with port := { s.port with arg0 := d } : State }.acknowledged none) ∧
    exec (.registerWrite 5 d) s = .next ({ s with port := { s.port with arg1 := d } : State }.acknowledged none) ∧
    exec (.registerWrite 6 d) s = .next ({ s with port := { s.port with arg2 := d } : State }.acknowledged none) ∧
    exec (.registerWrite 7 d) s = .next ({ s with port := { s.port with arg3 := d } : State }.acknowledged none) ∧
    exec (.registerWrite 21 d) s =
      .next ({ s with port := { s.port with tableAddr := d.toNat } : State }.acknowledged none)

/-- R81, R165, R166: a read of TABLE_DATA: of word 0 of a record, which is copied whole into the latch, each word as
section 9.5 lays it out (a TRACK record by its Track List operation), and of a later word, which comes from the latch or
is 0; past the table it ends in a bus fault. -/
def Obligations.TableDataRead : Prop :=
  ∀ s : State, s.portFree → TalliesBounded s → ListsOrdered s →
    let tb := s.port.tableSelect
    let r := s.port.tableAddr / tb.stride
    let k := s.port.tableAddr % tb.stride
    let next := min 65535 (s.port.tableAddr + 1)
    (tb.records * tb.stride ≤ s.port.tableAddr → exec .tableDataRead s = .next s.busFaulted) ∧
    (s.port.tableAddr < tb.records * tb.stride → k = 0 → tb = .track →
      exec .tableDataRead s = .next (s.waitingFor .trackRead)) ∧
    (s.port.tableAddr < tb.records * tb.stride → k = 0 → tb ≠ .track →
      ∃ (t : State) (ws : List Word), exec .tableDataRead s = .next (t.acknowledged (some (tableWord s tb r 0))) ∧
        RecordLaidOut s tb r ws ∧
        t = { s with
          port := { s.port with latch := some ⟨tb, r, ws⟩, tableAddr := next }
          tracker := t.tracker } ∧
        t.tracker = if tb = .strobes ∧ r = 0 ∧ s.tracker.peakMode = .peak then { s.tracker with peak := 0 }
          else s.tracker) ∧
    (s.port.tableAddr < tb.records * tb.stride → k ≠ 0 →
      exec .tableDataRead s = .next ({ s with port := { s.port with tableAddr := next } : State }.acknowledged
        (some (match s.port.latch with
          | none => 0
          | some l => if l.table = tb ∧ l.record = r then l.words.getD k 0 else 0))))

/-- R5, R6, R11, R14, R36, R56, R71, R73, R83, R89, R90, R96, R117, R127, R150, R165 to R167, R170, R173: writes of
TABLE_DATA: the bus faults; an upper word, held for its field; and every writable field, taken in its range and refused
out of it with BAD_ARG, or with BAD_GEOMETRY for an offset; a taken write of the stop filter is followed by an evaluation
(R127, R132). The addresses and the codes are those of section 9.5. That DIR_INVERT and RUN take bit 0 of any word is
DEDUCED from it (log 24); the settings kept for a character that began before a write of REEL_PARITY or FRAME_GAP are the
model's (log 21), and so is the waiting release that a HORIZON takes back (log 5). -/
def Obligations.TableDataWrite : Prop :=
  ∀ (s : State) (d : Word), s.portFree →
    let tb := s.port.tableSelect
    let a := s.port.tableAddr
    let written := fun x : State => ({ x with
      port := { x.port with latch := none, held := none, tableAddr := min 65535 (a + 1) } } : State)
    (WriteFaults s tb a → exec (.tableDataWrite d) s = .next s.busFaulted) ∧
    (∀ f ∈ oneWordFields, tb = f.table → a = f.addr → f.writable s →
      (f.takes d → exec (.tableDataWrite d) s = .next ((written (f.put d s)).answered .ok)) ∧
      (¬ f.takes d → exec (.tableDataWrite d) s = .next ((written s).answered .badArg))) ∧
    (∀ f ∈ filterFields, tb = f.table → a = f.addr →
      (f.takes d → ∃ t, exec (.tableDataWrite d) s = .next ((written t).answered .ok) ∧
        t = { f.put d s with planner := t.planner, pos := { s.pos with settle := t.pos.settle } } ∧
        (TrackOrdered s → Evaluated (f.put d s) t)) ∧
      (¬ f.takes d → exec (.tableDataWrite d) s = .next ((written s).answered .badArg))) ∧
    (∀ f ∈ twoWordFields, tb = f.table → f.writable s →
      (a + 1 = f.addr → exec (.tableDataWrite d) s = .next ({ s with port := { s.port with
        latch := none, held := some (f.field, d), tableAddr := a + 1 } : State }.acknowledged none)) ∧
      (a = f.addr → ∀ upper : Word,
        (s.port.held = some (f.field, upper) ∨
          ((∀ u, s.port.held ≠ some (f.field, u)) ∧ upper = (BitVec.ofInt 32 (f.present s)).extractLsb' 16 16)) →
        let v := f.spell (upper ++ d)
        (f.takes v s → exec (.tableDataWrite d) s = .next ((written (f.put v s)).answered .ok)) ∧
        (¬ f.takes v s → exec (.tableDataWrite d) s = .next ((written s).answered f.refusal)))) ∧
    (tb = .slitPlan → a = 0 → s.reels.openSet = none →
      (10000 < d.toNat → exec (.tableDataWrite d) s = .next ((written s).answered .badArg)) ∧
      (d.toNat ≤ 10000 → ∃ t, exec (.tableDataWrite d) s = .next t ∧ t.plan.shiftLimit = d.toNat ∧
        t.plan.lanes = s.plan.lanes ∧ t.plan.webShift = clampInt (-(d.toNat : Int)) d.toNat s.plan.webShift ∧
        t.events.flag .shiftClamped = (s.events.flag .shiftClamped || decide ((d.toNat : Int) < |s.plan.webShift|)) ∧
        t.port.result = .ok ∧ t.port.xack = true))

/-- R161, R162: the bus faults of writes to single words; the negation of DS; an access asked for while one is still being
served is kept (log 10), until DS is negated again, which gives it up (log 11); an access whose DS was negated early, be it
a read of TRACK, a ROLL END, a STOP RELEASE or a STOP CANCEL, completes without XACK, and one asked for behind it then
begins: a write, or a read of a single word, whose word is laid out as section 9.5 has it (R131, R158, R163). -/
def Obligations.Handshake : Prop :=
  ∀ s : State,
    (∀ (word : Fin 32) (d : Word), s.portFree → word.val ∈ [0, 1, 3, 8, 9, 10, 12, 13, 23, 24, 25, 26, 27, 28, 29, 30,
      31] → exec (.registerWrite word d) s = .next s.busFaulted) ∧
    (∀ d : Word, s.portFree → 14 < d.toNat → exec (.tableSelectWrite d) s = .next s.busFaulted) ∧
    exec .dataStrobeNegated s = .next { s with port := { s.port with
      ds := false, xack := false, bflt := false, dout := none, early := decide (s.port.access ≠ none), next := none } } ∧
    (∀ (c : Instr) (a : BusAccess), accessOf c = some a → s.port.access ≠ none →
      exec c s = .next { s with port := { s.port with ds := true, early := true, next := some a } }) ∧
    (∀ c w, (c, w) ∈ accessEndings → s.port.access = some w → s.grantsFive = true → s.port.early = true →
      ∀ d, s.port.next = none ∨ s.port.next = some (.write 4 d) →
        ∃ t, exec c s = .next t ∧ t.port.access = none ∧ t.port.early = false ∧ t.port.next = none ∧
          (w = .trackRead → t.port.latch ≠ none) ∧ (w ≠ .trackRead → t.port.result = .ok) ∧
          (s.port.next = none → t.port.xack = s.port.xack ∧ t.port.arg0 = s.port.arg0) ∧
          (s.port.next ≠ none → t.port.xack = true ∧ t.port.arg0 = d)) ∧
    (∀ c w, (c, w) ∈ accessEndings → s.port.access = some w → s.grantsFive = true → s.port.early = true →
      ∀ word : Fin 32, s.port.next = some (.read word) → word ≠ 22 →
        ∃ t, exec c s = .next t ∧ t.port.access = none ∧ t.port.next = none ∧
          (word.val ∈ [2, 24, 25, 26, 27, 28, 29, 30, 31] →
            t.port.bflt = true ∧ t.port.xack = false ∧ t.port.dout = none) ∧
          (word.val ∉ [2, 13, 24, 25, 26, 27, 28, 29, 30, 31] → t.port.xack = true ∧ t.port.bflt = false ∧
            t.port.dout = some (laidOut (singleLayout t) word.val)) ∧
          (∀ x, word = 13 → StopErrorIs t x → t.port.xack = true ∧ t.port.dout = some (BitVec.ofInt 16 x)) ∧
          t.port.posLatch = (if word = 8 then BitVec.ofInt 16 t.pos.p else s.port.posLatch))

/-! ### Invariants of every step -/

/-- The reset state meets every invariant below (the values the manual leaves open do not matter to them). -/
def Obligations.ResetMeetsInvariants : Prop :=
  PositionBounded State.reset ∧ TrackOrdered State.reset ∧ TalliesBounded State.reset ∧
  RollConsistent State.reset ∧ OffsetTracked State.reset ∧ WithinCapacity State.reset ∧ ShiftBounded State.reset ∧
  GeometryOrdered State.reset ∧ MapJoined State.reset ∧ AnchorsOrdered State.reset ∧ ListsOrdered State.reset ∧
  CharacterTimed State.reset

/-- R3: "P always lies between 0 and 4,294,967,295 pu". -/
def Obligations.PositionStaysBounded : Prop := ∀ s t : State, PositionBounded s → step s = .next t → PositionBounded t

/-- R24: the order and the limit of the Track List. -/
def Obligations.TrackStaysOrdered : Prop := ∀ s t : State, TrackOrdered s → step s = .next t → TrackOrdered t

/-- R148: no tally passes 65,535. -/
def Obligations.TalliesStayBounded : Prop := ∀ s t : State, TalliesBounded s → step s = .next t → TalliesBounded t

/-- R12, R13, R49, R90, R92, R93, R105: roll, map, plan and set agree; and R53: a map record is RELEASED exactly when one
entry carries its map index, and otherwise none does. -/
def Obligations.RollStaysConsistent : Prop :=
  (∀ s t : State, RollConsistent s → step s = .next t → RollConsistent t) ∧
  ∀ s t : State, RollConsistent s → TrackOrdered s → MapJoined s → step s = .next t → MapJoined t

/-- R80, R82, R83: the estimate stays within CAPTURE_LIMIT of its latest sample. -/
def Obligations.OffsetStaysTracked : Prop := ∀ s t : State, OffsetTracked s → step s = .next t → OffsetTracked t

/-- R11, R49, R50, R57, R59, R67, R72, R77, R95, R96, R115, R121: the limits of queues, tables and flag lists, of WEB_SHIFT
and of d_last, and the order of the stations, of the anchors and of the flag lists; R173: a character on the line lies
within its time. -/
def Obligations.LimitsHold : Prop :=
  ∀ s t : State, step s = .next t →
    (WithinCapacity s → WithinCapacity t) ∧ (ShiftBounded s → ShiftBounded t) ∧ (GeometryOrdered s → GeometryOrdered t) ∧
    (AnchorsOrdered s → AnchorsOrdered t) ∧ (ListsOrdered s → ListsOrdered t) ∧ (CharacterTimed s → CharacterTimed t)
end

