-- ==== Sys2Proof/Laws/State.lean ====
section
/-! SUPPORT. One lemma per block per update of the state. -/

namespace Sys2Proof.Machine.State

@[simp] theorem setPins_pins (s : State) (x : Pins) : (s.setPins x).pins = x := rfl
@[simp] theorem setPins_pos (s : State) (x : Pins) : (s.setPins x).pos = s.pos := rfl
@[simp] theorem setPins_comps (s : State) (x : Pins) : (s.setPins x).comps = s.comps := rfl
@[simp] theorem setPins_pmap (s : State) (x : Pins) : (s.setPins x).pmap = s.pmap := rfl
@[simp] theorem setPins_align (s : State) (x : Pins) : (s.setPins x).align = s.align := rfl
@[simp] theorem setPins_diq (s : State) (x : Pins) : (s.setPins x).diq = s.diq := rfl
@[simp] theorem setPins_tracker (s : State) (x : Pins) : (s.setPins x).tracker = s.tracker := rfl
@[simp] theorem setPins_track (s : State) (x : Pins) : (s.setPins x).track = s.track := rfl
@[simp] theorem setPins_plan (s : State) (x : Pins) : (s.setPins x).plan = s.plan := rfl
@[simp] theorem setPins_reels (s : State) (x : Pins) : (s.setPins x).reels = s.reels := rfl
@[simp] theorem setPins_queue (s : State) (x : Pins) : (s.setPins x).queue = s.queue := rfl
@[simp] theorem setPins_planner (s : State) (x : Pins) : (s.setPins x).planner = s.planner := rfl
@[simp] theorem setPins_tally (s : State) (x : Pins) : (s.setPins x).tally = s.tally := rfl
@[simp] theorem setPins_events (s : State) (x : Pins) : (s.setPins x).events = s.events := rfl
@[simp] theorem setPins_port (s : State) (x : Pins) : (s.setPins x).port = s.port := rfl
@[simp] theorem setPins_link (s : State) (x : Pins) : (s.setPins x).link = s.link := rfl
@[simp] theorem setPins_reel (s : State) (x : Pins) : (s.setPins x).reel = s.reel := rfl
@[simp] theorem setPins_pending (s : State) (x : Pins) : (s.setPins x).pending = s.pending := rfl

@[simp] theorem setPos_pins (s : State) (x : PositionUnit) : (s.setPos x).pins = s.pins := rfl
@[simp] theorem setPos_pos (s : State) (x : PositionUnit) : (s.setPos x).pos = x := rfl
@[simp] theorem setPos_comps (s : State) (x : PositionUnit) : (s.setPos x).comps = s.comps := rfl
@[simp] theorem setPos_pmap (s : State) (x : PositionUnit) : (s.setPos x).pmap = s.pmap := rfl
@[simp] theorem setPos_align (s : State) (x : PositionUnit) : (s.setPos x).align = s.align := rfl
@[simp] theorem setPos_diq (s : State) (x : PositionUnit) : (s.setPos x).diq = s.diq := rfl
@[simp] theorem setPos_tracker (s : State) (x : PositionUnit) : (s.setPos x).tracker = s.tracker := rfl
@[simp] theorem setPos_track (s : State) (x : PositionUnit) : (s.setPos x).track = s.track := rfl
@[simp] theorem setPos_plan (s : State) (x : PositionUnit) : (s.setPos x).plan = s.plan := rfl
@[simp] theorem setPos_reels (s : State) (x : PositionUnit) : (s.setPos x).reels = s.reels := rfl
@[simp] theorem setPos_queue (s : State) (x : PositionUnit) : (s.setPos x).queue = s.queue := rfl
@[simp] theorem setPos_planner (s : State) (x : PositionUnit) : (s.setPos x).planner = s.planner := rfl
@[simp] theorem setPos_tally (s : State) (x : PositionUnit) : (s.setPos x).tally = s.tally := rfl
@[simp] theorem setPos_events (s : State) (x : PositionUnit) : (s.setPos x).events = s.events := rfl
@[simp] theorem setPos_port (s : State) (x : PositionUnit) : (s.setPos x).port = s.port := rfl
@[simp] theorem setPos_link (s : State) (x : PositionUnit) : (s.setPos x).link = s.link := rfl
@[simp] theorem setPos_reel (s : State) (x : PositionUnit) : (s.setPos x).reel = s.reel := rfl
@[simp] theorem setPos_pending (s : State) (x : PositionUnit) : (s.setPos x).pending = s.pending := rfl

@[simp] theorem setComps_pins (s : State) (x : Comparators) : (s.setComps x).pins = s.pins := rfl
@[simp] theorem setComps_pos (s : State) (x : Comparators) : (s.setComps x).pos = s.pos := rfl
@[simp] theorem setComps_comps (s : State) (x : Comparators) : (s.setComps x).comps = x := rfl
@[simp] theorem setComps_pmap (s : State) (x : Comparators) : (s.setComps x).pmap = s.pmap := rfl
@[simp] theorem setComps_align (s : State) (x : Comparators) : (s.setComps x).align = s.align := rfl
@[simp] theorem setComps_diq (s : State) (x : Comparators) : (s.setComps x).diq = s.diq := rfl
@[simp] theorem setComps_tracker (s : State) (x : Comparators) : (s.setComps x).tracker = s.tracker := rfl
@[simp] theorem setComps_track (s : State) (x : Comparators) : (s.setComps x).track = s.track := rfl
@[simp] theorem setComps_plan (s : State) (x : Comparators) : (s.setComps x).plan = s.plan := rfl
@[simp] theorem setComps_reels (s : State) (x : Comparators) : (s.setComps x).reels = s.reels := rfl
@[simp] theorem setComps_queue (s : State) (x : Comparators) : (s.setComps x).queue = s.queue := rfl
@[simp] theorem setComps_planner (s : State) (x : Comparators) : (s.setComps x).planner = s.planner := rfl
@[simp] theorem setComps_tally (s : State) (x : Comparators) : (s.setComps x).tally = s.tally := rfl
@[simp] theorem setComps_events (s : State) (x : Comparators) : (s.setComps x).events = s.events := rfl
@[simp] theorem setComps_port (s : State) (x : Comparators) : (s.setComps x).port = s.port := rfl
@[simp] theorem setComps_link (s : State) (x : Comparators) : (s.setComps x).link = s.link := rfl
@[simp] theorem setComps_reel (s : State) (x : Comparators) : (s.setComps x).reel = s.reel := rfl
@[simp] theorem setComps_pending (s : State) (x : Comparators) : (s.setComps x).pending = s.pending := rfl

@[simp] theorem setPmap_pins (s : State) (x : PressMap) : (s.setPmap x).pins = s.pins := rfl
@[simp] theorem setPmap_pos (s : State) (x : PressMap) : (s.setPmap x).pos = s.pos := rfl
@[simp] theorem setPmap_comps (s : State) (x : PressMap) : (s.setPmap x).comps = s.comps := rfl
@[simp] theorem setPmap_pmap (s : State) (x : PressMap) : (s.setPmap x).pmap = x := rfl
@[simp] theorem setPmap_align (s : State) (x : PressMap) : (s.setPmap x).align = s.align := rfl
@[simp] theorem setPmap_diq (s : State) (x : PressMap) : (s.setPmap x).diq = s.diq := rfl
@[simp] theorem setPmap_tracker (s : State) (x : PressMap) : (s.setPmap x).tracker = s.tracker := rfl
@[simp] theorem setPmap_track (s : State) (x : PressMap) : (s.setPmap x).track = s.track := rfl
@[simp] theorem setPmap_plan (s : State) (x : PressMap) : (s.setPmap x).plan = s.plan := rfl
@[simp] theorem setPmap_reels (s : State) (x : PressMap) : (s.setPmap x).reels = s.reels := rfl
@[simp] theorem setPmap_queue (s : State) (x : PressMap) : (s.setPmap x).queue = s.queue := rfl
@[simp] theorem setPmap_planner (s : State) (x : PressMap) : (s.setPmap x).planner = s.planner := rfl
@[simp] theorem setPmap_tally (s : State) (x : PressMap) : (s.setPmap x).tally = s.tally := rfl
@[simp] theorem setPmap_events (s : State) (x : PressMap) : (s.setPmap x).events = s.events := rfl
@[simp] theorem setPmap_port (s : State) (x : PressMap) : (s.setPmap x).port = s.port := rfl
@[simp] theorem setPmap_link (s : State) (x : PressMap) : (s.setPmap x).link = s.link := rfl
@[simp] theorem setPmap_reel (s : State) (x : PressMap) : (s.setPmap x).reel = s.reel := rfl
@[simp] theorem setPmap_pending (s : State) (x : PressMap) : (s.setPmap x).pending = s.pending := rfl

@[simp] theorem setAlign_pins (s : State) (x : AlignmentUnit) : (s.setAlign x).pins = s.pins := rfl
@[simp] theorem setAlign_pos (s : State) (x : AlignmentUnit) : (s.setAlign x).pos = s.pos := rfl
@[simp] theorem setAlign_comps (s : State) (x : AlignmentUnit) : (s.setAlign x).comps = s.comps := rfl
@[simp] theorem setAlign_pmap (s : State) (x : AlignmentUnit) : (s.setAlign x).pmap = s.pmap := rfl
@[simp] theorem setAlign_align (s : State) (x : AlignmentUnit) : (s.setAlign x).align = x := rfl
@[simp] theorem setAlign_diq (s : State) (x : AlignmentUnit) : (s.setAlign x).diq = s.diq := rfl
@[simp] theorem setAlign_tracker (s : State) (x : AlignmentUnit) : (s.setAlign x).tracker = s.tracker := rfl
@[simp] theorem setAlign_track (s : State) (x : AlignmentUnit) : (s.setAlign x).track = s.track := rfl
@[simp] theorem setAlign_plan (s : State) (x : AlignmentUnit) : (s.setAlign x).plan = s.plan := rfl
@[simp] theorem setAlign_reels (s : State) (x : AlignmentUnit) : (s.setAlign x).reels = s.reels := rfl
@[simp] theorem setAlign_queue (s : State) (x : AlignmentUnit) : (s.setAlign x).queue = s.queue := rfl
@[simp] theorem setAlign_planner (s : State) (x : AlignmentUnit) : (s.setAlign x).planner = s.planner := rfl
@[simp] theorem setAlign_tally (s : State) (x : AlignmentUnit) : (s.setAlign x).tally = s.tally := rfl
@[simp] theorem setAlign_events (s : State) (x : AlignmentUnit) : (s.setAlign x).events = s.events := rfl
@[simp] theorem setAlign_port (s : State) (x : AlignmentUnit) : (s.setAlign x).port = s.port := rfl
@[simp] theorem setAlign_link (s : State) (x : AlignmentUnit) : (s.setAlign x).link = s.link := rfl
@[simp] theorem setAlign_reel (s : State) (x : AlignmentUnit) : (s.setAlign x).reel = s.reel := rfl
@[simp] theorem setAlign_pending (s : State) (x : AlignmentUnit) : (s.setAlign x).pending = s.pending := rfl

@[simp] theorem setDiq_pins (s : State) (x : InputQueue) : (s.setDiq x).pins = s.pins := rfl
@[simp] theorem setDiq_pos (s : State) (x : InputQueue) : (s.setDiq x).pos = s.pos := rfl
@[simp] theorem setDiq_comps (s : State) (x : InputQueue) : (s.setDiq x).comps = s.comps := rfl
@[simp] theorem setDiq_pmap (s : State) (x : InputQueue) : (s.setDiq x).pmap = s.pmap := rfl
@[simp] theorem setDiq_align (s : State) (x : InputQueue) : (s.setDiq x).align = s.align := rfl
@[simp] theorem setDiq_diq (s : State) (x : InputQueue) : (s.setDiq x).diq = x := rfl
@[simp] theorem setDiq_tracker (s : State) (x : InputQueue) : (s.setDiq x).tracker = s.tracker := rfl
@[simp] theorem setDiq_track (s : State) (x : InputQueue) : (s.setDiq x).track = s.track := rfl
@[simp] theorem setDiq_plan (s : State) (x : InputQueue) : (s.setDiq x).plan = s.plan := rfl
@[simp] theorem setDiq_reels (s : State) (x : InputQueue) : (s.setDiq x).reels = s.reels := rfl
@[simp] theorem setDiq_queue (s : State) (x : InputQueue) : (s.setDiq x).queue = s.queue := rfl
@[simp] theorem setDiq_planner (s : State) (x : InputQueue) : (s.setDiq x).planner = s.planner := rfl
@[simp] theorem setDiq_tally (s : State) (x : InputQueue) : (s.setDiq x).tally = s.tally := rfl
@[simp] theorem setDiq_events (s : State) (x : InputQueue) : (s.setDiq x).events = s.events := rfl
@[simp] theorem setDiq_port (s : State) (x : InputQueue) : (s.setDiq x).port = s.port := rfl
@[simp] theorem setDiq_link (s : State) (x : InputQueue) : (s.setDiq x).link = s.link := rfl
@[simp] theorem setDiq_reel (s : State) (x : InputQueue) : (s.setDiq x).reel = s.reel := rfl
@[simp] theorem setDiq_pending (s : State) (x : InputQueue) : (s.setDiq x).pending = s.pending := rfl

@[simp] theorem setTracker_pins (s : State) (x : OffsetTracker) : (s.setTracker x).pins = s.pins := rfl
@[simp] theorem setTracker_pos (s : State) (x : OffsetTracker) : (s.setTracker x).pos = s.pos := rfl
@[simp] theorem setTracker_comps (s : State) (x : OffsetTracker) : (s.setTracker x).comps = s.comps := rfl
@[simp] theorem setTracker_pmap (s : State) (x : OffsetTracker) : (s.setTracker x).pmap = s.pmap := rfl
@[simp] theorem setTracker_align (s : State) (x : OffsetTracker) : (s.setTracker x).align = s.align := rfl
@[simp] theorem setTracker_diq (s : State) (x : OffsetTracker) : (s.setTracker x).diq = s.diq := rfl
@[simp] theorem setTracker_tracker (s : State) (x : OffsetTracker) : (s.setTracker x).tracker = x := rfl
@[simp] theorem setTracker_track (s : State) (x : OffsetTracker) : (s.setTracker x).track = s.track := rfl
@[simp] theorem setTracker_plan (s : State) (x : OffsetTracker) : (s.setTracker x).plan = s.plan := rfl
@[simp] theorem setTracker_reels (s : State) (x : OffsetTracker) : (s.setTracker x).reels = s.reels := rfl
@[simp] theorem setTracker_queue (s : State) (x : OffsetTracker) : (s.setTracker x).queue = s.queue := rfl
@[simp] theorem setTracker_planner (s : State) (x : OffsetTracker) : (s.setTracker x).planner = s.planner := rfl
@[simp] theorem setTracker_tally (s : State) (x : OffsetTracker) : (s.setTracker x).tally = s.tally := rfl
@[simp] theorem setTracker_events (s : State) (x : OffsetTracker) : (s.setTracker x).events = s.events := rfl
@[simp] theorem setTracker_port (s : State) (x : OffsetTracker) : (s.setTracker x).port = s.port := rfl
@[simp] theorem setTracker_link (s : State) (x : OffsetTracker) : (s.setTracker x).link = s.link := rfl
@[simp] theorem setTracker_reel (s : State) (x : OffsetTracker) : (s.setTracker x).reel = s.reel := rfl
@[simp] theorem setTracker_pending (s : State) (x : OffsetTracker) : (s.setTracker x).pending = s.pending := rfl

@[simp] theorem setTrack_pins (s : State) (x : TrackList) : (s.setTrack x).pins = s.pins := rfl
@[simp] theorem setTrack_pos (s : State) (x : TrackList) : (s.setTrack x).pos = s.pos := rfl
@[simp] theorem setTrack_comps (s : State) (x : TrackList) : (s.setTrack x).comps = s.comps := rfl
@[simp] theorem setTrack_pmap (s : State) (x : TrackList) : (s.setTrack x).pmap = s.pmap := rfl
@[simp] theorem setTrack_align (s : State) (x : TrackList) : (s.setTrack x).align = s.align := rfl
@[simp] theorem setTrack_diq (s : State) (x : TrackList) : (s.setTrack x).diq = s.diq := rfl
@[simp] theorem setTrack_tracker (s : State) (x : TrackList) : (s.setTrack x).tracker = s.tracker := rfl
@[simp] theorem setTrack_track (s : State) (x : TrackList) : (s.setTrack x).track = x := rfl
@[simp] theorem setTrack_plan (s : State) (x : TrackList) : (s.setTrack x).plan = s.plan := rfl
@[simp] theorem setTrack_reels (s : State) (x : TrackList) : (s.setTrack x).reels = s.reels := rfl
@[simp] theorem setTrack_queue (s : State) (x : TrackList) : (s.setTrack x).queue = s.queue := rfl
@[simp] theorem setTrack_planner (s : State) (x : TrackList) : (s.setTrack x).planner = s.planner := rfl
@[simp] theorem setTrack_tally (s : State) (x : TrackList) : (s.setTrack x).tally = s.tally := rfl
@[simp] theorem setTrack_events (s : State) (x : TrackList) : (s.setTrack x).events = s.events := rfl
@[simp] theorem setTrack_port (s : State) (x : TrackList) : (s.setTrack x).port = s.port := rfl
@[simp] theorem setTrack_link (s : State) (x : TrackList) : (s.setTrack x).link = s.link := rfl
@[simp] theorem setTrack_reel (s : State) (x : TrackList) : (s.setTrack x).reel = s.reel := rfl
@[simp] theorem setTrack_pending (s : State) (x : TrackList) : (s.setTrack x).pending = s.pending := rfl

@[simp] theorem setPlan_pins (s : State) (x : SlitPlan) : (s.setPlan x).pins = s.pins := rfl
@[simp] theorem setPlan_pos (s : State) (x : SlitPlan) : (s.setPlan x).pos = s.pos := rfl
@[simp] theorem setPlan_comps (s : State) (x : SlitPlan) : (s.setPlan x).comps = s.comps := rfl
@[simp] theorem setPlan_pmap (s : State) (x : SlitPlan) : (s.setPlan x).pmap = s.pmap := rfl
@[simp] theorem setPlan_align (s : State) (x : SlitPlan) : (s.setPlan x).align = s.align := rfl
@[simp] theorem setPlan_diq (s : State) (x : SlitPlan) : (s.setPlan x).diq = s.diq := rfl
@[simp] theorem setPlan_tracker (s : State) (x : SlitPlan) : (s.setPlan x).tracker = s.tracker := rfl
@[simp] theorem setPlan_track (s : State) (x : SlitPlan) : (s.setPlan x).track = s.track := rfl
@[simp] theorem setPlan_plan (s : State) (x : SlitPlan) : (s.setPlan x).plan = x := rfl
@[simp] theorem setPlan_reels (s : State) (x : SlitPlan) : (s.setPlan x).reels = s.reels := rfl
@[simp] theorem setPlan_queue (s : State) (x : SlitPlan) : (s.setPlan x).queue = s.queue := rfl
@[simp] theorem setPlan_planner (s : State) (x : SlitPlan) : (s.setPlan x).planner = s.planner := rfl
@[simp] theorem setPlan_tally (s : State) (x : SlitPlan) : (s.setPlan x).tally = s.tally := rfl
@[simp] theorem setPlan_events (s : State) (x : SlitPlan) : (s.setPlan x).events = s.events := rfl
@[simp] theorem setPlan_port (s : State) (x : SlitPlan) : (s.setPlan x).port = s.port := rfl
@[simp] theorem setPlan_link (s : State) (x : SlitPlan) : (s.setPlan x).link = s.link := rfl
@[simp] theorem setPlan_reel (s : State) (x : SlitPlan) : (s.setPlan x).reel = s.reel := rfl
@[simp] theorem setPlan_pending (s : State) (x : SlitPlan) : (s.setPlan x).pending = s.pending := rfl

@[simp] theorem setReels_pins (s : State) (x : ReelTable) : (s.setReels x).pins = s.pins := rfl
@[simp] theorem setReels_pos (s : State) (x : ReelTable) : (s.setReels x).pos = s.pos := rfl
@[simp] theorem setReels_comps (s : State) (x : ReelTable) : (s.setReels x).comps = s.comps := rfl
@[simp] theorem setReels_pmap (s : State) (x : ReelTable) : (s.setReels x).pmap = s.pmap := rfl
@[simp] theorem setReels_align (s : State) (x : ReelTable) : (s.setReels x).align = s.align := rfl
@[simp] theorem setReels_diq (s : State) (x : ReelTable) : (s.setReels x).diq = s.diq := rfl
@[simp] theorem setReels_tracker (s : State) (x : ReelTable) : (s.setReels x).tracker = s.tracker := rfl
@[simp] theorem setReels_track (s : State) (x : ReelTable) : (s.setReels x).track = s.track := rfl
@[simp] theorem setReels_plan (s : State) (x : ReelTable) : (s.setReels x).plan = s.plan := rfl
@[simp] theorem setReels_reels (s : State) (x : ReelTable) : (s.setReels x).reels = x := rfl
@[simp] theorem setReels_queue (s : State) (x : ReelTable) : (s.setReels x).queue = s.queue := rfl
@[simp] theorem setReels_planner (s : State) (x : ReelTable) : (s.setReels x).planner = s.planner := rfl
@[simp] theorem setReels_tally (s : State) (x : ReelTable) : (s.setReels x).tally = s.tally := rfl
@[simp] theorem setReels_events (s : State) (x : ReelTable) : (s.setReels x).events = s.events := rfl
@[simp] theorem setReels_port (s : State) (x : ReelTable) : (s.setReels x).port = s.port := rfl
@[simp] theorem setReels_link (s : State) (x : ReelTable) : (s.setReels x).link = s.link := rfl
@[simp] theorem setReels_reel (s : State) (x : ReelTable) : (s.setReels x).reel = s.reel := rfl
@[simp] theorem setReels_pending (s : State) (x : ReelTable) : (s.setReels x).pending = s.pending := rfl

@[simp] theorem setQueue_pins (s : State) (x : ReelQueue) : (s.setQueue x).pins = s.pins := rfl
@[simp] theorem setQueue_pos (s : State) (x : ReelQueue) : (s.setQueue x).pos = s.pos := rfl
@[simp] theorem setQueue_comps (s : State) (x : ReelQueue) : (s.setQueue x).comps = s.comps := rfl
@[simp] theorem setQueue_pmap (s : State) (x : ReelQueue) : (s.setQueue x).pmap = s.pmap := rfl
@[simp] theorem setQueue_align (s : State) (x : ReelQueue) : (s.setQueue x).align = s.align := rfl
@[simp] theorem setQueue_diq (s : State) (x : ReelQueue) : (s.setQueue x).diq = s.diq := rfl
@[simp] theorem setQueue_tracker (s : State) (x : ReelQueue) : (s.setQueue x).tracker = s.tracker := rfl
@[simp] theorem setQueue_track (s : State) (x : ReelQueue) : (s.setQueue x).track = s.track := rfl
@[simp] theorem setQueue_plan (s : State) (x : ReelQueue) : (s.setQueue x).plan = s.plan := rfl
@[simp] theorem setQueue_reels (s : State) (x : ReelQueue) : (s.setQueue x).reels = s.reels := rfl
@[simp] theorem setQueue_queue (s : State) (x : ReelQueue) : (s.setQueue x).queue = x := rfl
@[simp] theorem setQueue_planner (s : State) (x : ReelQueue) : (s.setQueue x).planner = s.planner := rfl
@[simp] theorem setQueue_tally (s : State) (x : ReelQueue) : (s.setQueue x).tally = s.tally := rfl
@[simp] theorem setQueue_events (s : State) (x : ReelQueue) : (s.setQueue x).events = s.events := rfl
@[simp] theorem setQueue_port (s : State) (x : ReelQueue) : (s.setQueue x).port = s.port := rfl
@[simp] theorem setQueue_link (s : State) (x : ReelQueue) : (s.setQueue x).link = s.link := rfl
@[simp] theorem setQueue_reel (s : State) (x : ReelQueue) : (s.setQueue x).reel = s.reel := rfl
@[simp] theorem setQueue_pending (s : State) (x : ReelQueue) : (s.setQueue x).pending = s.pending := rfl

@[simp] theorem setPlanner_pins (s : State) (x : StopPlanner) : (s.setPlanner x).pins = s.pins := rfl
@[simp] theorem setPlanner_pos (s : State) (x : StopPlanner) : (s.setPlanner x).pos = s.pos := rfl
@[simp] theorem setPlanner_comps (s : State) (x : StopPlanner) : (s.setPlanner x).comps = s.comps := rfl
@[simp] theorem setPlanner_pmap (s : State) (x : StopPlanner) : (s.setPlanner x).pmap = s.pmap := rfl
@[simp] theorem setPlanner_align (s : State) (x : StopPlanner) : (s.setPlanner x).align = s.align := rfl
@[simp] theorem setPlanner_diq (s : State) (x : StopPlanner) : (s.setPlanner x).diq = s.diq := rfl
@[simp] theorem setPlanner_tracker (s : State) (x : StopPlanner) : (s.setPlanner x).tracker = s.tracker := rfl
@[simp] theorem setPlanner_track (s : State) (x : StopPlanner) : (s.setPlanner x).track = s.track := rfl
@[simp] theorem setPlanner_plan (s : State) (x : StopPlanner) : (s.setPlanner x).plan = s.plan := rfl
@[simp] theorem setPlanner_reels (s : State) (x : StopPlanner) : (s.setPlanner x).reels = s.reels := rfl
@[simp] theorem setPlanner_queue (s : State) (x : StopPlanner) : (s.setPlanner x).queue = s.queue := rfl
@[simp] theorem setPlanner_planner (s : State) (x : StopPlanner) : (s.setPlanner x).planner = x := rfl
@[simp] theorem setPlanner_tally (s : State) (x : StopPlanner) : (s.setPlanner x).tally = s.tally := rfl
@[simp] theorem setPlanner_events (s : State) (x : StopPlanner) : (s.setPlanner x).events = s.events := rfl
@[simp] theorem setPlanner_port (s : State) (x : StopPlanner) : (s.setPlanner x).port = s.port := rfl
@[simp] theorem setPlanner_link (s : State) (x : StopPlanner) : (s.setPlanner x).link = s.link := rfl
@[simp] theorem setPlanner_reel (s : State) (x : StopPlanner) : (s.setPlanner x).reel = s.reel := rfl
@[simp] theorem setPlanner_pending (s : State) (x : StopPlanner) : (s.setPlanner x).pending = s.pending := rfl

@[simp] theorem setTally_pins (s : State) (x : Tallies) : (s.setTally x).pins = s.pins := rfl
@[simp] theorem setTally_pos (s : State) (x : Tallies) : (s.setTally x).pos = s.pos := rfl
@[simp] theorem setTally_comps (s : State) (x : Tallies) : (s.setTally x).comps = s.comps := rfl
@[simp] theorem setTally_pmap (s : State) (x : Tallies) : (s.setTally x).pmap = s.pmap := rfl
@[simp] theorem setTally_align (s : State) (x : Tallies) : (s.setTally x).align = s.align := rfl
@[simp] theorem setTally_diq (s : State) (x : Tallies) : (s.setTally x).diq = s.diq := rfl
@[simp] theorem setTally_tracker (s : State) (x : Tallies) : (s.setTally x).tracker = s.tracker := rfl
@[simp] theorem setTally_track (s : State) (x : Tallies) : (s.setTally x).track = s.track := rfl
@[simp] theorem setTally_plan (s : State) (x : Tallies) : (s.setTally x).plan = s.plan := rfl
@[simp] theorem setTally_reels (s : State) (x : Tallies) : (s.setTally x).reels = s.reels := rfl
@[simp] theorem setTally_queue (s : State) (x : Tallies) : (s.setTally x).queue = s.queue := rfl
@[simp] theorem setTally_planner (s : State) (x : Tallies) : (s.setTally x).planner = s.planner := rfl
@[simp] theorem setTally_tally (s : State) (x : Tallies) : (s.setTally x).tally = x := rfl
@[simp] theorem setTally_events (s : State) (x : Tallies) : (s.setTally x).events = s.events := rfl
@[simp] theorem setTally_port (s : State) (x : Tallies) : (s.setTally x).port = s.port := rfl
@[simp] theorem setTally_link (s : State) (x : Tallies) : (s.setTally x).link = s.link := rfl
@[simp] theorem setTally_reel (s : State) (x : Tallies) : (s.setTally x).reel = s.reel := rfl
@[simp] theorem setTally_pending (s : State) (x : Tallies) : (s.setTally x).pending = s.pending := rfl

@[simp] theorem setEvents_pins (s : State) (x : Events) : (s.setEvents x).pins = s.pins := rfl
@[simp] theorem setEvents_pos (s : State) (x : Events) : (s.setEvents x).pos = s.pos := rfl
@[simp] theorem setEvents_comps (s : State) (x : Events) : (s.setEvents x).comps = s.comps := rfl
@[simp] theorem setEvents_pmap (s : State) (x : Events) : (s.setEvents x).pmap = s.pmap := rfl
@[simp] theorem setEvents_align (s : State) (x : Events) : (s.setEvents x).align = s.align := rfl
@[simp] theorem setEvents_diq (s : State) (x : Events) : (s.setEvents x).diq = s.diq := rfl
@[simp] theorem setEvents_tracker (s : State) (x : Events) : (s.setEvents x).tracker = s.tracker := rfl
@[simp] theorem setEvents_track (s : State) (x : Events) : (s.setEvents x).track = s.track := rfl
@[simp] theorem setEvents_plan (s : State) (x : Events) : (s.setEvents x).plan = s.plan := rfl
@[simp] theorem setEvents_reels (s : State) (x : Events) : (s.setEvents x).reels = s.reels := rfl
@[simp] theorem setEvents_queue (s : State) (x : Events) : (s.setEvents x).queue = s.queue := rfl
@[simp] theorem setEvents_planner (s : State) (x : Events) : (s.setEvents x).planner = s.planner := rfl
@[simp] theorem setEvents_tally (s : State) (x : Events) : (s.setEvents x).tally = s.tally := rfl
@[simp] theorem setEvents_events (s : State) (x : Events) : (s.setEvents x).events = x := rfl
@[simp] theorem setEvents_port (s : State) (x : Events) : (s.setEvents x).port = s.port := rfl
@[simp] theorem setEvents_link (s : State) (x : Events) : (s.setEvents x).link = s.link := rfl
@[simp] theorem setEvents_reel (s : State) (x : Events) : (s.setEvents x).reel = s.reel := rfl
@[simp] theorem setEvents_pending (s : State) (x : Events) : (s.setEvents x).pending = s.pending := rfl

@[simp] theorem setPort_pins (s : State) (x : LinePort) : (s.setPort x).pins = s.pins := rfl
@[simp] theorem setPort_pos (s : State) (x : LinePort) : (s.setPort x).pos = s.pos := rfl
@[simp] theorem setPort_comps (s : State) (x : LinePort) : (s.setPort x).comps = s.comps := rfl
@[simp] theorem setPort_pmap (s : State) (x : LinePort) : (s.setPort x).pmap = s.pmap := rfl
@[simp] theorem setPort_align (s : State) (x : LinePort) : (s.setPort x).align = s.align := rfl
@[simp] theorem setPort_diq (s : State) (x : LinePort) : (s.setPort x).diq = s.diq := rfl
@[simp] theorem setPort_tracker (s : State) (x : LinePort) : (s.setPort x).tracker = s.tracker := rfl
@[simp] theorem setPort_track (s : State) (x : LinePort) : (s.setPort x).track = s.track := rfl
@[simp] theorem setPort_plan (s : State) (x : LinePort) : (s.setPort x).plan = s.plan := rfl
@[simp] theorem setPort_reels (s : State) (x : LinePort) : (s.setPort x).reels = s.reels := rfl
@[simp] theorem setPort_queue (s : State) (x : LinePort) : (s.setPort x).queue = s.queue := rfl
@[simp] theorem setPort_planner (s : State) (x : LinePort) : (s.setPort x).planner = s.planner := rfl
@[simp] theorem setPort_tally (s : State) (x : LinePort) : (s.setPort x).tally = s.tally := rfl
@[simp] theorem setPort_events (s : State) (x : LinePort) : (s.setPort x).events = s.events := rfl
@[simp] theorem setPort_port (s : State) (x : LinePort) : (s.setPort x).port = x := rfl
@[simp] theorem setPort_link (s : State) (x : LinePort) : (s.setPort x).link = s.link := rfl
@[simp] theorem setPort_reel (s : State) (x : LinePort) : (s.setPort x).reel = s.reel := rfl
@[simp] theorem setPort_pending (s : State) (x : LinePort) : (s.setPort x).pending = s.pending := rfl

@[simp] theorem setLink_pins (s : State) (x : InspectionLink) : (s.setLink x).pins = s.pins := rfl
@[simp] theorem setLink_pos (s : State) (x : InspectionLink) : (s.setLink x).pos = s.pos := rfl
@[simp] theorem setLink_comps (s : State) (x : InspectionLink) : (s.setLink x).comps = s.comps := rfl
@[simp] theorem setLink_pmap (s : State) (x : InspectionLink) : (s.setLink x).pmap = s.pmap := rfl
@[simp] theorem setLink_align (s : State) (x : InspectionLink) : (s.setLink x).align = s.align := rfl
@[simp] theorem setLink_diq (s : State) (x : InspectionLink) : (s.setLink x).diq = s.diq := rfl
@[simp] theorem setLink_tracker (s : State) (x : InspectionLink) : (s.setLink x).tracker = s.tracker := rfl
@[simp] theorem setLink_track (s : State) (x : InspectionLink) : (s.setLink x).track = s.track := rfl
@[simp] theorem setLink_plan (s : State) (x : InspectionLink) : (s.setLink x).plan = s.plan := rfl
@[simp] theorem setLink_reels (s : State) (x : InspectionLink) : (s.setLink x).reels = s.reels := rfl
@[simp] theorem setLink_queue (s : State) (x : InspectionLink) : (s.setLink x).queue = s.queue := rfl
@[simp] theorem setLink_planner (s : State) (x : InspectionLink) : (s.setLink x).planner = s.planner := rfl
@[simp] theorem setLink_tally (s : State) (x : InspectionLink) : (s.setLink x).tally = s.tally := rfl
@[simp] theorem setLink_events (s : State) (x : InspectionLink) : (s.setLink x).events = s.events := rfl
@[simp] theorem setLink_port (s : State) (x : InspectionLink) : (s.setLink x).port = s.port := rfl
@[simp] theorem setLink_link (s : State) (x : InspectionLink) : (s.setLink x).link = x := rfl
@[simp] theorem setLink_reel (s : State) (x : InspectionLink) : (s.setLink x).reel = s.reel := rfl
@[simp] theorem setLink_pending (s : State) (x : InspectionLink) : (s.setLink x).pending = s.pending := rfl

@[simp] theorem setReel_pins (s : State) (x : ReelLink) : (s.setReel x).pins = s.pins := rfl
@[simp] theorem setReel_pos (s : State) (x : ReelLink) : (s.setReel x).pos = s.pos := rfl
@[simp] theorem setReel_comps (s : State) (x : ReelLink) : (s.setReel x).comps = s.comps := rfl
@[simp] theorem setReel_pmap (s : State) (x : ReelLink) : (s.setReel x).pmap = s.pmap := rfl
@[simp] theorem setReel_align (s : State) (x : ReelLink) : (s.setReel x).align = s.align := rfl
@[simp] theorem setReel_diq (s : State) (x : ReelLink) : (s.setReel x).diq = s.diq := rfl
@[simp] theorem setReel_tracker (s : State) (x : ReelLink) : (s.setReel x).tracker = s.tracker := rfl
@[simp] theorem setReel_track (s : State) (x : ReelLink) : (s.setReel x).track = s.track := rfl
@[simp] theorem setReel_plan (s : State) (x : ReelLink) : (s.setReel x).plan = s.plan := rfl
@[simp] theorem setReel_reels (s : State) (x : ReelLink) : (s.setReel x).reels = s.reels := rfl
@[simp] theorem setReel_queue (s : State) (x : ReelLink) : (s.setReel x).queue = s.queue := rfl
@[simp] theorem setReel_planner (s : State) (x : ReelLink) : (s.setReel x).planner = s.planner := rfl
@[simp] theorem setReel_tally (s : State) (x : ReelLink) : (s.setReel x).tally = s.tally := rfl
@[simp] theorem setReel_events (s : State) (x : ReelLink) : (s.setReel x).events = s.events := rfl
@[simp] theorem setReel_port (s : State) (x : ReelLink) : (s.setReel x).port = s.port := rfl
@[simp] theorem setReel_link (s : State) (x : ReelLink) : (s.setReel x).link = s.link := rfl
@[simp] theorem setReel_reel (s : State) (x : ReelLink) : (s.setReel x).reel = x := rfl
@[simp] theorem setReel_pending (s : State) (x : ReelLink) : (s.setReel x).pending = s.pending := rfl

@[simp] theorem setPending_pins (s : State) (x : List Instr) : (s.setPending x).pins = s.pins := rfl
@[simp] theorem setPending_pos (s : State) (x : List Instr) : (s.setPending x).pos = s.pos := rfl
@[simp] theorem setPending_comps (s : State) (x : List Instr) : (s.setPending x).comps = s.comps := rfl
@[simp] theorem setPending_pmap (s : State) (x : List Instr) : (s.setPending x).pmap = s.pmap := rfl
@[simp] theorem setPending_align (s : State) (x : List Instr) : (s.setPending x).align = s.align := rfl
@[simp] theorem setPending_diq (s : State) (x : List Instr) : (s.setPending x).diq = s.diq := rfl
@[simp] theorem setPending_tracker (s : State) (x : List Instr) : (s.setPending x).tracker = s.tracker := rfl
@[simp] theorem setPending_track (s : State) (x : List Instr) : (s.setPending x).track = s.track := rfl
@[simp] theorem setPending_plan (s : State) (x : List Instr) : (s.setPending x).plan = s.plan := rfl
@[simp] theorem setPending_reels (s : State) (x : List Instr) : (s.setPending x).reels = s.reels := rfl
@[simp] theorem setPending_queue (s : State) (x : List Instr) : (s.setPending x).queue = s.queue := rfl
@[simp] theorem setPending_planner (s : State) (x : List Instr) : (s.setPending x).planner = s.planner := rfl
@[simp] theorem setPending_tally (s : State) (x : List Instr) : (s.setPending x).tally = s.tally := rfl
@[simp] theorem setPending_events (s : State) (x : List Instr) : (s.setPending x).events = s.events := rfl
@[simp] theorem setPending_port (s : State) (x : List Instr) : (s.setPending x).port = s.port := rfl
@[simp] theorem setPending_link (s : State) (x : List Instr) : (s.setPending x).link = s.link := rfl
@[simp] theorem setPending_reel (s : State) (x : List Instr) : (s.setPending x).reel = s.reel := rfl
@[simp] theorem setPending_pending (s : State) (x : List Instr) : (s.setPending x).pending = x := rfl

end Sys2Proof.Machine.State
end

