-- ==== Sys2Proof/Laws/Counts.lean ====
section
/-! SUPPORT. What raising an event does to each flag, and what a count does to each tally (chapter 08). -/

namespace Sys2Proof.Machine

/-! ### Events (R154) -/

/-- R154: a cause sets its own flag and leaves every other as it was. -/
theorem Events.raise_flag (ev : Events) (e f : Event) : (ev.raise e).flag f = (ev.flag f || decide (e = f)) := by
  unfold Events.raise Events.flag
  cases e <;> cases f <;> simp [Event.place]

@[simp] theorem raise_flag (e f : Event) (s : State) :
    (raise e s).events.flag f = (s.events.flag f || decide (e = f)) := Events.raise_flag _ e f

@[simp] theorem raiseIf_flag (c : Bool) (e f : Event) (s : State) :
    (raiseIf c e s).events.flag f = (s.events.flag f || (c && decide (e = f))) := by
  cases c <;> simp [raiseIf]

@[simp] theorem raise_tally (e : Event) (s : State) : (raise e s).tally = s.tally := rfl
@[simp] theorem raiseIf_tally (c : Bool) (e : Event) (s : State) : (raiseIf c e s).tally = s.tally := by
  cases c <;> rfl

/-! ### Totals (R148) -/

/-- A count adds to its own total, saturating, and to no other. -/
theorem countTotal_total (k j : Total) (n : Nat) (s : State) (h : s.tally.live.totals.length = 16) :
    (countTotal k n s).total j = if k = j then min 65535 (s.total k + n) else s.total j := by
  have e : k.place = j.place ↔ k = j := by cases k <;> cases j <;> decide
  have hlt : k.place < s.tally.live.totals.length := by rw [h]; cases k <;> decide
  simp only [countTotal, State.total, raiseIf_tally, State.setTally_tally, TallyBank.total, saturate, countMax,
    List.getD, List.getElem?_set, e, hlt]
  split <;> simp

/-- A count leaves the lanes' tallies as they are. -/
theorem countTotal_lane (k : Total) (n lane : Nat) (s : State) :
    (countTotal k n s).tally.live.lane lane = s.tally.live.lane lane := by
  simp [countTotal, TallyBank.lane]

/-- A count raises no event but TALLY_SAT. -/
theorem countTotal_flag (k : Total) (n : Nat) (s : State) (f : Event) (hf : f ≠ .tallySat) :
    (countTotal k n s).events.flag f = s.events.flag f := by
  simp [countTotal, hf.symm]

/-- The number of totals stays 16. -/
theorem countTotal_length (k : Total) (n : Nat) (s : State) :
    (countTotal k n s).tally.live.totals.length = s.tally.live.totals.length := by
  simp [countTotal]

/-! ### Lane tallies (R148, R149) -/

/-- A count adds to its own lane's tally, saturating, and to no other lane's. -/
theorem countLane_lane (lane j : Nat) (c : LaneCount) (n : Nat) (s : State) (hl : 1 ≤ lane) (hj : 1 ≤ j)
    (h : lane ≤ s.tally.live.lanes.length) :
    (countLane lane c n s).tally.live.lane j =
      if lane = j then (s.tally.live.lane lane).set c (min 65535 ((s.tally.live.lane lane).get c + n))
      else s.tally.live.lane j := by
  have e : lane - 1 = j - 1 ↔ lane = j := by omega
  have hlt : lane - 1 < s.tally.live.lanes.length := by omega
  simp only [countLane, raiseIf_tally, State.setTally_tally, TallyBank.lane, saturate, countMax, List.getD,
    List.getElem?_set, e, hlt]
  split <;> simp

/-- A lane's count leaves the totals as they are. -/
theorem countLane_total (lane : Nat) (c : LaneCount) (n : Nat) (s : State) (k : Total) :
    (countLane lane c n s).total k = s.total k := by
  simp [countLane, State.total, TallyBank.total]

theorem countLane_length (lane : Nat) (c : LaneCount) (n : Nat) (s : State) :
    (countLane lane c n s).tally.live.lanes.length = s.tally.live.lanes.length := by
  simp [countLane]

theorem countLane_flag (lane : Nat) (c : LaneCount) (n : Nat) (s : State) (f : Event) (hf : f ≠ .tallySat) :
    (countLane lane c n s).events.flag f = s.events.flag f := by
  simp [countLane, hf.symm]

/-! ### Bounded banks (R148) -/

theorem countTotal_bounded (k : Total) (n : Nat) (s : State) (h : TalliesBounded s) :
    TalliesBounded (countTotal k n s) := by
  obtain ⟨⟨h1, h2, h3, h4⟩, hs⟩ := h
  refine ⟨⟨?_, ?_, ?_, ?_⟩, ?_⟩
  · rw [countTotal_length, h1]
  · simpa [countTotal] using h2
  · intro m hm
    simp only [countTotal, raiseIf_tally, State.setTally_tally, saturate] at hm
    obtain hm | rfl := List.mem_or_eq_of_mem_set hm
    · exact h3 m hm
    · exact Nat.min_le_left _ _
  · simpa [countTotal] using h4
  · simpa [countTotal] using hs

theorem countLane_bounded (lane : Nat) (c : LaneCount) (n : Nat) (s : State) (h : TalliesBounded s) :
    TalliesBounded (countLane lane c n s) := by
  obtain ⟨⟨h1, h2, h3, h4⟩, hs⟩ := h
  refine ⟨⟨?_, ?_, ?_, ?_⟩, ?_⟩
  · simpa [countLane] using h1
  · rw [countLane_length, h2]
  · simpa [countLane] using h3
  · intro m hm
    have old : (s.tally.live.lane lane).flags ≤ countMax ∧ (s.tally.live.lane lane).splices ≤ countMax ∧
        (s.tally.live.lane lane).metres ≤ countMax ∧ (s.tally.live.lane lane).reels ≤ countMax := by
      rw [TallyBank.lane, List.getD_eq_getElem?_getD]
      cases hx : s.tally.live.lanes[lane - 1]? with
      | none => simp
      | some x => exact h4 x (List.mem_of_getElem? hx)
    simp only [countLane, raiseIf_tally, State.setTally_tally, saturate] at hm
    obtain hm | rfl := List.mem_or_eq_of_mem_set hm
    · exact h4 m hm
    · obtain ⟨a, b, c', d⟩ := old
      cases c <;> simp only [LaneTally.set] <;> exact ⟨by omega, by omega, by omega, by omega⟩
  · simpa [countLane] using hs

end Sys2Proof.Machine
end

