-- ==== Sys2Proof/Laws/Arith.lean ====
section
/-! SUPPORT. The arithmetic of the part against its plain meaning: rounding, ceilings, sizes, clamps (00_scope.md,
"Rounding", "Clamping and refusal"). -/

namespace Sys2Proof.Machine

theorem absInt_eq_abs (x : Int) : absInt x = |x| := by
  unfold absInt
  split
  · rw [abs_of_nonneg (by assumption)]
  · rw [abs_of_neg (by omega)]

theorem clampInt_lower (lo hi x : Int) (h : lo ≤ hi) : lo ≤ clampInt lo hi x := by
  unfold clampInt
  split
  · exact le_refl _
  · split <;> omega

theorem clampInt_upper (lo hi x : Int) (h : lo ≤ hi) : clampInt lo hi x ≤ hi := by
  unfold clampInt
  split
  · exact h
  · split <;> omega

/-- A clamp changes a value exactly when it lies outside the range. -/
theorem clampInt_eq_self (lo hi x : Int) : clampInt lo hi x = x ↔ lo ≤ x ∧ x ≤ hi := by
  unfold clampInt
  split
  · omega
  · split <;> omega

/-- The ceiling of a quotient, computed in integers. -/
theorem ceilDiv_eq_ceil (n d : Int) (hd : 0 < d) : ceilDiv n d = ⌈(n : ℚ) / (d : ℚ)⌉ := by
  unfold ceilDiv
  have hq : (0 : ℚ) < (d : ℚ) := by exact_mod_cast hd
  have e : ((-n) / d : Int) = ⌊((-n : Int) : ℚ) / (d : ℚ)⌋ := by
    symm
    rw [Int.floor_eq_iff]
    have h1 := Int.emod_add_mul_ediv (-n) d
    have h2 := Int.emod_nonneg (-n) (show d ≠ 0 by omega)
    have h3 := Int.emod_lt_of_pos (-n) hd
    constructor
    · rw [le_div_iff₀ hq]
      have : (-n) / d * d ≤ -n := by nlinarith
      exact_mod_cast this
    · rw [div_lt_iff₀ hq]
      have : -n < ((-n) / d + 1) * d := by nlinarith
      exact_mod_cast this
  rw [e, Int.cast_neg, neg_div, Int.floor_neg, neg_neg]

/-- Rounding to the nearest, halves away from zero, computed in integers. -/
theorem roundDiv_eq_roundHalfAway (n d : Int) (hd : 0 < d) : roundDiv n d = roundHalfAway ((n : ℚ) / (d : ℚ)) := by
  have hq : (0 : ℚ) < (d : ℚ) := by exact_mod_cast hd
  have fl : ∀ k : Int, (2 * k + d) / (2 * d) = ⌊(k : ℚ) / (d : ℚ) + 1 / 2⌋ := by
    intro k
    symm
    rw [Int.floor_eq_iff]
    have h1 := Int.emod_add_mul_ediv (2 * k + d) (2 * d)
    have h2 := Int.emod_nonneg (2 * k + d) (show 2 * d ≠ 0 by omega)
    have h3 := Int.emod_lt_of_pos (2 * k + d) (show 0 < 2 * d by omega)
    have e : (k : ℚ) / (d : ℚ) + 1 / 2 = ((2 * k + d : Int) : ℚ) / ((2 * d : Int) : ℚ) := by
      push_cast
      field_simp
    have hq2 : (0 : ℚ) < ((2 * d : Int) : ℚ) := by exact_mod_cast (by omega : 0 < 2 * d)
    rw [e]
    constructor
    · rw [le_div_iff₀ hq2]
      have : (2 * k + d) / (2 * d) * (2 * d) ≤ 2 * k + d := by nlinarith
      exact_mod_cast this
    · rw [div_lt_iff₀ hq2]
      have : 2 * k + d < ((2 * k + d) / (2 * d) + 1) * (2 * d) := by nlinarith
      exact_mod_cast this
  unfold roundDiv roundHalfAway
  by_cases h : 0 ≤ n
  · have : (0 : ℚ) ≤ (n : ℚ) / (d : ℚ) := div_nonneg (by exact_mod_cast h) (le_of_lt hq)
    rw [if_pos h, if_pos this, fl]
  · have : ¬ (0 : ℚ) ≤ (n : ℚ) / (d : ℚ) := by
      rw [not_le]
      exact div_neg_of_neg_of_pos (by exact_mod_cast (by omega : n < 0)) hq
    rw [if_neg h, if_neg this, fl, ← Int.ceil_neg]
    congr 1
    push_cast
    ring

/-- R130: the slow-down distance, its ceilings taken exactly. -/
theorem slowDown_eq (v : Int) (q : StopParams) (hd : 1 ≤ q.decel) : slowDown v q = slowDownOf v q := by
  unfold slowDown slowDownOf
  split
  · rw [ceilDiv_eq_ceil _ _ (by omega), ceilDiv_eq_ceil _ _ (by omega)]
    simp only [pow_two]
    rfl
  · rfl

end Sys2Proof.Machine
end

