-- ==== Sys2Proof/Laws/Touches.lean ====
section
/-! SUPPORT. For each shared operation, the parts of the state it may change: one lemma each, cited in place of unfolding
the operation. -/

namespace Sys2Proof.Machine

/-! ### Composing -/

theorem Touches.refl (ps : List Part) (s : State) : Touches ps s s := by
  intro p _; cases p <;> repeat' constructor

/-- A change within fewer parts is a change within more. -/
theorem Touches.mono {ps qs : List Part} {s t : State} (h : Touches ps s t)
    (hsub : ps.all (qs.contains ·) = true := by decide) : Touches qs s t := by
  intro p hp
  refine h p fun hm => hp ?_
  simpa using List.all_eq_true.mp hsub p hm

theorem Same.trans {s t u : State} {p : Part} (h : Same s t p) (k : Same t u p) : Same s u p := by
  cases p <;> simp_all [Same]

/-- Two changes in turn. -/
theorem Touches.trans {ps qs rs : List Part} {s t u : State} (h : Touches ps s t) (k : Touches qs t u)
    (hp : ps.all (rs.contains ·) = true := by decide) (hq : qs.all (rs.contains ·) = true := by decide) :
    Touches rs s u := fun p hn => (h.mono hp p hn).trans (k.mono hq p hn)

theorem touches_ite {ps : List Part} {s t u : State} {c : Prop} [Decidable c] (h : c → Touches ps s t)
    (k : ¬c → Touches ps s u) : Touches ps s (if c then t else u) := by
  split
  · exact h ‹_›
  · exact k ‹_›

theorem touches_foldl {α : Type} {ps : List Part} {f : State → α → State} (h : ∀ s a, Touches ps s (f s a))
    (l : List α) (s : State) : Touches ps s (l.foldl f s) := by
  induction l generalizing s with
  | nil => exact Touches.refl ps s
  | cons a l ih => exact (h s a).trans (ih (f s a)) (by simp) (by simp)

/-! ### Events, tallies, results -/

theorem raise_touches (e : Event) (s : State) : Touches [.flags] s (raise e s) := by
  unfold raise Events.raise
  split <;> intro p hp <;> cases p <;> first | exact absurd (by decide) hp | repeat' constructor

theorem raiseIf_touches (c : Bool) (e : Event) (s : State) : Touches [.flags] s (raiseIf c e s) :=
  touches_ite (fun _ => raise_touches e s) fun _ => Touches.refl _ s

theorem setLive_touches (b : TallyBank) (s : State) : Touches [.liveTallies] s (s.setTally { s.tally with live := b }) := by
  intro p hp; cases p <;> first | exact absurd (by decide) hp | repeat' constructor

theorem countTotal_touches (k : Total) (n : Nat) (s : State) : Touches Part.counting s (countTotal k n s) := 
  (setLive_touches _ s).trans (raiseIf_touches _ _ _)

theorem countLane_touches (lane : Nat) (c : LaneCount) (n : Nat) (s : State) : Touches Part.counting s (countLane lane c n s) := 
  (setLive_touches _ s).trans (raiseIf_touches _ _ _)

theorem snapTallies_touches (c : SnapCause) (n : Option Nat) (s : State) : Touches [.liveTallies, .snapshot] s (snapTallies c n s) := by
  intro p hp; cases p <;> first | exact absurd (by decide) hp | repeat' constructor

theorem setResult_touches (r : ResultCode) (s : State) : Touches [.result] s (setResult r s) := by
  intro p hp; cases p <;> first | exact absurd (by decide) hp | repeat' constructor

theorem setLastResult_touches (r : ResultCode) (s : State) : Touches [.lastResult] s (setLastResult r s) := by
  intro p hp; cases p <;> first | exact absurd (by decide) hp | repeat' constructor

/-! ### The walk's place among the requests (R67) -/

theorem setYields_touches (y : Yields) (s : State) : Touches [.yields] s (setYields y s) := by
  intro p hp; cases p <;> first | exact absurd (by decide) hp | repeat' constructor

theorem settleYields_touches (s : State) : Touches [.yields] s (settleYields s) := setYields_touches _ s
theorem grantDetection_touches (s : State) : Touches [.yields] s (grantDetection s) := setYields_touches _ s
theorem grantRelease_touches (s : State) : Touches [.yields] s (grantRelease s) := setYields_touches _ s
theorem grantAccess_touches (s : State) : Touches [.yields] s (grantAccess s) := setYields_touches _ s
theorem lapseRelease_touches (s : State) : Touches [.yields] s (lapseRelease s) := setYields_touches _ s

/-! ### Press Map, DIQ -/

theorem setRecords_touches (l : List MapRecord) (s : State) : Touches [.mapRecords] s (s.setPmap { s.pmap with records := l }) := by
  intro p hp; cases p <;> first | exact absurd (by decide) hp | repeat' constructor

theorem setStatus_touches (i : Option Nat) (st : RecordStatus) (s : State) :
    Touches [.mapRecords] s (setStatus i st s) := by
  cases i with
  | none => exact Touches.refl _ s
  | some i => exact setRecords_touches _ s

theorem setMap_emptied_touches (s : State) : Touches [.mapHeader, .mapRecords] s (s.setPmap s.pmap.emptied) := by
  intro p hp; cases p <;> first | exact absurd (by decide) hp | repeat' constructor

theorem setWithheld_touches (b : Bool) (s : State) : Touches [.withheld] s (s.setPmap { s.pmap with withheld := b }) := by
  intro p hp; cases p <;> first | exact absurd (by decide) hp | repeat' constructor

theorem endHold_touches (s : State) : Touches [.link] s (s.setLink { s.link with holding := false, holdTicks := 0 }) := by
  intro p hp; cases p <;> first | exact absurd (by decide) hp | repeat' constructor

theorem signalResume_touches (s : State) : Touches [.link] s (signalResume s) :=  by
  unfold signalResume
  exact touches_ite (fun _ => endHold_touches s) fun _ => Touches.refl _ s

theorem setMessages_touches (l : List Message) (s : State) : Touches [.messages] s (s.setDiq { s.diq with messages := l }) := by
  intro p hp; cases p <;> first | exact absurd (by decide) hp | repeat' constructor

theorem popMessage_touches (s : State) : Touches [.messages, .link] s (popMessage s) :=  by
  unfold popMessage
  exact touches_ite (fun _ => (setMessages_touches _ s).trans (signalResume_touches _)) fun _ =>
    (setMessages_touches _ s).mono

theorem discardMessage_touches (r : ResultCode) (s : State) : Touches (Part.serving ++ Part.counting) s (discardMessage r s) := 
  ((popMessage_touches s).trans (rs := Part.serving ++ Part.counting) (countTotal_touches _ _ _)).trans
    (setLastResult_touches r _)

/-! ### Slit Plan, comparators -/

theorem setWebShift_touches (x : Int) (s : State) : Touches [.webShift] s (s.setPlan { s.plan with webShift := x }) := by
  intro p hp; cases p <;> first | exact absurd (by decide) hp | repeat' constructor

theorem storeWebShift_touches (x : Int) (s : State) : Touches [.webShift, .flags] s (storeWebShift x s) := 
  (setWebShift_touches _ s).trans (raiseIf_touches _ _ _)

theorem setChannel_touches (ch : Channel) (i : Fin 4) (s : State) (h : i ≠ 0) :
    Touches [.channels] s (s.setComps (s.comps.put ch i)) := by
  match i, h with
  | 0, h => exact absurd rfl h
  | 1, _ | 2, _ | 3, _ =>
    intro p hp; cases p <;> first | exact absurd (by decide) hp | repeat' constructor

theorem setAnyChannel_touches (ch : Channel) (i : Fin 4) (s : State) :
    Touches [.strobeChannel, .channels] s (s.setComps (s.comps.put ch i)) := by
  match i with
  | 0 | 1 | 2 | 3 =>
    intro p hp; cases p <;> first | exact absurd (by decide) hp | repeat' constructor

theorem testChannel_touches (i : Fin 4) (e : Event) (s : State) :
    Touches [.strobeChannel, .channels, .flags] s (testChannel i e s) := by
  unfold testChannel
  dsimp only
  split
  · exact Touches.refl _ s
  · exact touches_ite (fun _ => (setAnyChannel_touches _ i s).trans (raise_touches e _)) fun _ => Touches.refl _ s

theorem setStrobe_touches (ch : Channel) (n : Nat) (s : State) : Touches [.strobeChannel] s (s.setComps { s.comps with ch0 := ch, strobeSeq := n }) := by
  intro p hp; cases p <;> first | exact absurd (by decide) hp | repeat' constructor

theorem setHistory_touches (l : List Strobe) (s : State) : Touches [.history] s (s.setTracker { s.tracker with history := l }) := by
  intro p hp; cases p <;> first | exact absurd (by decide) hp | repeat' constructor

theorem testStrobe_touches (s : State) : Touches [.strobeChannel, .history] s (testStrobe s) :=  by
  unfold testStrobe
  exact touches_ite (fun _ => (setStrobe_touches _ _ s).trans (setHistory_touches _ _)) fun _ => Touches.refl _ s

theorem testComparators_touches (s : State) : Touches [.strobeChannel, .channels, .history, .flags] s (testComparators s) := 
  (((testStrobe_touches s).trans (rs := [.strobeChannel, .channels, .history, .flags])
    (testChannel_touches 1 .cmp1 _)).trans (rs := [.strobeChannel, .channels, .history, .flags])
    (testChannel_touches 2 .cmp2 _)).trans (testChannel_touches 3 .cmp3 _)

theorem presetSetChannels_touches (s : State) : Touches [.channels] s (presetSetChannels s) := by
  intro p hp; cases p <;> first | exact absurd (by decide) hp | repeat' constructor

/-! ### Reel Table -/

theorem setIndications_touches (x : BitVec 24) (s : State) : Touches [.indications] s (s.setReels { s.reels with indications := x }) := by
  intro p hp; cases p <;> first | exact absurd (by decide) hp | repeat' constructor

theorem setOpenSet_touches (x : Option OpenSet) (s : State) : Touches [.openSet] s (s.setReels { s.reels with openSet := x }) := by
  intro p hp; cases p <;> first | exact absurd (by decide) hp | repeat' constructor

theorem indicateWorse_touches (lane : Nat) (old new : Grade) (s : State) : Touches [.indications, .flags] s (indicateWorse lane old new s) :=  by
  unfold indicateWorse
  exact touches_ite (fun _ => (setIndications_touches _ s).trans (raise_touches _ _)) fun _ => Touches.refl _ s

theorem setOpenReels_touches (rs : List ReelRecord) (s : State) : Touches [.openSet] s (setOpenReels rs s) := by
  unfold setOpenReels
  split
  · exact Touches.refl _ s
  · exact setOpenSet_touches _ s

theorem deliverTo_touches (lanes : List Nat) (f : ReelRecord → ReelRecord) (s : State) : Touches [.openSet, .indications, .flags] s (deliverTo lanes f s) := 
  (setOpenReels_touches _ s).trans (qs := [.indications, .flags])
    (touches_foldl (fun s _ => indicateWorse_touches _ _ _ s) _ _)

theorem deliverFlag_touches (e : Entry) (lanes : List Nat) (shift w : Int) (s : State) :
    Touches ([.openSet, .indications] ++ Part.counting) s (deliverFlag e lanes shift w s) := by
  unfold deliverFlag
  refine touches_ite (fun _ => (countTotal_touches _ _ s).mono) fun _ => ?_
  refine (touches_foldl (ps := Part.counting) (fun s _ => countLane_touches _ _ _ s) _ s).trans
    (qs := [.openSet, .indications, .flags]) (touches_foldl (fun s n => ?_) _ _)
  exact touches_ite (fun _ => deliverTo_touches _ _ s) fun _ => Touches.refl _ s

theorem deliverSplice_touches (s : State) :
    Touches ([.openSet, .indications] ++ Part.counting) s (deliverSplice s) :=
  (touches_foldl (ps := Part.counting) (fun s _ => countLane_touches _ _ _ s) _ s).trans (deliverTo_touches _ _ _)

theorem openSetAt_touches (w : Int) (n : Nat) (s : State) : Touches [.openSet, .nextSet] s (openSetAt w n s) := by
  intro p hp; cases p <;> first | exact absurd (by decide) hp | repeat' constructor

theorem setCompleted_touches (l : List ReelRecord) (s : State) : Touches [.completed] s (s.setQueue { s.queue with records := l }) := by
  intro p hp; cases p <;> first | exact absurd (by decide) hp | repeat' constructor

theorem setRoomWanted_touches (b : Bool) (s : State) : Touches [.roomWanted] s (s.setQueue { s.queue with roomWanted := b }) := by
  intro p hp; cases p <;> first | exact absurd (by decide) hp | repeat' constructor

theorem countReel_touches (r : ReelRecord) (s : State) : Touches Part.counting s (countReel r s) := 
  (countLane_touches _ _ _ s).trans (countLane_touches _ _ _ _)

theorem closeRecords_touches (o : OpenSet) (line : Int) (c : SnapCause) (s : State) :
    Touches ([.completed, .snapshot] ++ Part.counting) s (closeRecords o line c s) := by
  unfold closeRecords
  have closed (l : List ReelRecord) (s : State) :
      Touches Part.counting s (l.foldl (fun s r => countReel r s) s) :=
    touches_foldl (fun s r => countReel_touches r s) l s
  exact touches_ite
    (fun _ => ((setCompleted_touches _ s).trans (rs := .completed :: Part.counting) (closed _ _)).trans
      (snapTallies_touches _ _ _)) fun _ => (setCompleted_touches _ s).trans (closed _ _)

theorem dropOpenSet_touches (s : State) : Touches [.openSet] s (dropOpenSet s) := setOpenSet_touches _ s

theorem refuseQueueFull_touches (s : State) : Touches [.roomWanted, .result] s (refuseQueueFull s) := 
  (setRoomWanted_touches _ s).trans (setResult_touches _ _)

/-! ### Stop Planner -/

theorem setPlannerState_touches (a : PlannerState) (b : Target) (c : Int) (d : Option Nat) (e f : Bool) (s : State) : Touches [.plannerState] s (s.setPlanner
      { s.planner with state := a, target := b, targetPoint := c, notedSeq := d, short := e, retargeted := f }) := by
  intro p hp; cases p <;> first | exact absurd (by decide) hp | repeat' constructor

theorem setSettle_touches (n : Nat) (s : State) : Touches [.settle] s (s.setPos { s.pos with settle := n }) := by
  intro p hp; cases p <;> first | exact absurd (by decide) hp | repeat' constructor

theorem enterHalting_touches (b : Bool) (s : State) : Touches Part.planning s (enterHalting b s) := 
  (setPlannerState_touches _ _ _ _ _ _ s).trans (setSettle_touches _ _)

theorem testCreeping_touches (s : State) : Touches Part.planning s (testCreeping s) :=  by
  unfold testCreeping
  exact touches_ite (fun _ => enterHalting_touches _ s) fun _ => Touches.refl _ s

theorem testSlowing_touches (s : State) : Touches Part.planning s (testSlowing s) :=  by
  unfold testSlowing
  exact touches_ite (fun _ => (setPlannerState_touches _ _ _ _ _ _ s).trans (testCreeping_touches _)) fun _ =>
      touches_ite (fun _ => enterHalting_touches _ s) fun _ =>
        touches_ite (fun _ => enterHalting_touches _ s) fun _ => Touches.refl _ s

theorem testArmed_touches (s : State) : Touches Part.planning s (testArmed s) :=  by
  unfold testArmed
  exact touches_ite (fun _ => (setPlannerState_touches _ _ _ _ _ _ s).trans (testSlowing_touches _)) fun _ => Touches.refl _ s

theorem armWith_touches (c : Target × Int) (s : State) : Touches [.plannerState] s (armWith c s) := setPlannerState_touches _ _ _ _ _ _ s

theorem retarget_touches (s : State) : Touches [.plannerState] s (retarget s).1 := by
  unfold retarget
  split
  · split
    · exact setPlannerState_touches _ _ _ _ _ _ s
    · dsimp only
      split <;> exact setPlannerState_touches _ _ _ _ _ _ s
  · split
    · exact Touches.refl _ s
    · split
      · exact setPlannerState_touches _ _ _ _ _ _ s
      · exact Touches.refl _ s

theorem evaluate_touches (s : State) : Touches Part.planning s (evaluate s) := by
  unfold evaluate
  refine touches_ite (fun _ => Touches.refl _ s) fun _ => ?_
  split
  · split
    · exact Touches.refl _ s
    · exact (armWith_touches _ s).trans (testArmed_touches _)
  · split
    · exact (setPlannerState_touches _ _ _ _ _ _ s).mono
    · exact touches_ite (fun _ => testArmed_touches s) fun _ => (armWith_touches _ s).trans (testArmed_touches _)
  · exact touches_ite (fun _ => (retarget_touches s).trans (testSlowing_touches _)) fun _ => (retarget_touches s).mono
  · exact touches_ite (fun _ => (retarget_touches s).trans (testCreeping_touches _)) fun _ => (retarget_touches s).mono
  · exact Touches.refl _ s
  · exact Touches.refl _ s

theorem positionTest_touches (s : State) : Touches Part.planning s (positionTest s) := by
  unfold positionTest
  refine touches_ite (fun _ => Touches.refl _ s) fun _ => ?_
  split
  · exact Touches.refl _ s
  · exact testArmed_touches s
  · exact testSlowing_touches s
  · exact testCreeping_touches s
  · exact Touches.refl _ s
  · exact Touches.refl _ s

theorem setStopped_touches (r : StopRecord) (s : State) : Touches [.plannerState, .stopRecord] s (s.setPlanner { s.planner with state := .stopped, record := r }) := by
  intro p hp; cases p <;> first | exact absurd (by decide) hp | repeat' constructor

theorem enterStopped_touches (s : State) :
    Touches ([.plannerState, .stopRecord] ++ Part.counting) s (enterStopped s) := by
  unfold enterStopped
  have counted (e : Event) (k : Total) (s : State) : Touches Part.counting s (countTotal k 1 (raise e s)) :=
    (raise_touches e s).trans (countTotal_touches k 1 _)
  exact touches_ite
    (fun _ => ((setStopped_touches _ s).trans (rs := [.plannerState, .stopRecord] ++ Part.counting)
      (counted _ _ _)).trans (counted _ _ _)) fun _ => (setStopped_touches _ s).trans (counted _ _ _)

theorem evaluateAtSample_touches (s : State) :
    Touches (.stopRecord :: Part.counting ++ Part.planning) s (evaluateAtSample s) := by
  unfold evaluateAtSample
  refine touches_ite (fun _ => Touches.refl _ s) fun _ => ?_
  split
  · exact touches_ite (fun _ => (enterStopped_touches s).mono) fun _ => Touches.refl _ s
  · exact (evaluate_touches s).mono
  · exact (evaluate_touches s).mono
  · exact (evaluate_touches s).mono
  · exact (evaluate_touches s).mono
  · exact Touches.refl _ s

theorem endStop_touches (s : State) : Touches [.plannerState, .setAside] s (endStop s) := by
  intro p hp; cases p <;> first | exact absurd (by decide) hp | repeat' constructor

theorem setLengthStop_touches (n : Nat) (x : LengthStop) (s : State) :
    Touches [.openSet] s (setLengthStop n x s) := by
  unfold setLengthStop
  split
  · exact Touches.refl _ s
  · exact setOpenSet_touches _ s

theorem setEntries_touches (l : List Entry) (s : State) : Touches [.entries] s (setEntries l s) := by
  intro p hp; cases p <;> first | exact absurd (by decide) hp | repeat' constructor

theorem clearAside_touches (s : State) : Touches [.setAside] s (s.setPlanner { s.planner with setAside := none }) := by
  intro p hp; cases p <;> first | exact absurd (by decide) hp | repeat' constructor

theorem writeMark_touches (f : Entry → Entry) (s : State) : Touches ([.entries, .setAside] ++ Part.planning) s (writeMark f s) := 
  ((setEntries_touches _ s).trans (rs := [.entries, .setAside]) (clearAside_touches _)).trans (evaluate_touches _)

/-! ### Track List -/

theorem putEntry_touches (e : Entry) (s : State) : Touches [.entries] s (putEntry e s) := setEntries_touches _ s

theorem takeEntry_touches (e : Entry) (s : State) : Touches [.entries] s (takeEntry e s) := setEntries_touches _ s

theorem entryMade_touches (s : State) : Touches [.entryCounters] s (entryMade s) := by
  intro p hp; cases p <;> first | exact absurd (by decide) hp | repeat' constructor

theorem setLate_touches (x : LateRecord) (s : State) : Touches [.late] s (s.setTrack { s.track with late := x }) := by
  intro p hp; cases p <;> first | exact absurd (by decide) hp | repeat' constructor

theorem commitEntry_touches (e : Entry) (s : State) :
    Touches ([.openSet, .indications, .mapRecords] ++ Part.counting) s (commitEntry e s) := by
  unfold commitEntry
  refine Touches.trans (ps := [.openSet, .indications] ++ Part.counting) ?_ (setStatus_touches _ _ _)
  split
  · exact (countTotal_touches _ _ s).mono
  · refine touches_ite (fun _ => ?_) fun _ => (countTotal_touches _ _ s).mono
    unfold deliverEntry
    split
    · exact deliverFlag_touches _ _ _ _ s
    · exact deliverSplice_touches s

theorem lateItem_touches (k : ItemKind) (w : Int) (c : Fin 8) (i : Option Nat) (s : State) : Touches ([.late, .mapRecords] ++ Part.counting) s (lateItem k w c i s) := 
  (((countTotal_touches _ _ s).trans (rs := Part.counting) (raise_touches _ _)).trans
    (rs := .late :: Part.counting) (setLate_touches _ _)).trans (setStatus_touches _ _ _)

theorem placeMoved_touches (e : Entry) (s : State) :
    Touches ([.entries, .late, .openSet, .indications, .mapRecords] ++ Part.counting) s (placeMoved e s) := by
  unfold placeMoved
  refine touches_ite (fun _ => touches_ite (fun _ => ?_) fun _ => ?_) fun _ => touches_ite (fun _ => ?_) fun _ => ?_
  · exact (putEntry_touches _ s).mono
  · exact (putEntry_touches _ s).mono
  · exact (commitEntry_touches _ s).mono
  · exact (lateItem_touches _ _ _ _ s).mono

theorem replaceEntry_touches (e : Entry) (s : State) : Touches ([.entries, .late, .openSet, .indications, .mapRecords] ++ Part.counting) s (replaceEntry e s) :=  by
  unfold replaceEntry
  exact (takeEntry_touches e s).trans (qs := [.entries, .late, .openSet, .indications, .mapRecords] ++ Part.counting)
      (touches_ite (fun _ => (lateItem_touches _ _ _ _ _).mono) fun _ => placeMoved_touches _ _)

theorem withdraw_touches (e : Entry) (s : State) :
    Touches ([.entries, .mapRecords, .yields] ++ Part.counting) s (withdraw e s) := 
  (((takeEntry_touches e s).trans (rs := .entries :: Part.counting) (countTotal_touches _ _ _)).trans
    (rs := [.entries, .mapRecords] ++ Part.counting) (setStatus_touches _ _ _)).trans (lapseRelease_touches _)

theorem storeItem_touches (it : Item) (s : State) : Touches [.entries, .entryCounters] s (storeItem it s) := 
  (putEntry_touches _ s).trans (entryMade_touches _)

theorem storeOrMakeRoom_touches (it : Item) (s : State) :
    Touches ([.entries, .entryCounters, .mapRecords, .yields] ++ Part.counting) s (storeOrMakeRoom it s).1 := by
  unfold storeOrMakeRoom
  split
  · exact (storeItem_touches it s).mono
  · split
    · exact Touches.refl _ s
    · split
      · exact (withdraw_touches _ s).trans (storeItem_touches it _)
      · exact (countTotal_touches _ _ s).trans (raise_touches _ _)

theorem placeItem_touches (it : Item) (s : State) :
    Touches ([.entries, .entryCounters, .late, .openSet, .indications, .mapRecords, .yields] ++ Part.counting) s
      (placeItem it s).1 := by
  unfold placeItem
  split
  · exact (storeOrMakeRoom_touches it s).mono
  · split
    · exact (entryMade_touches s).trans (commitEntry_touches _ _)
    · exact (lateItem_touches _ _ _ _ s).mono

theorem signalRoom_touches (n : Nat) (s : State) : Touches [.withheld] s (signalRoom n s) :=  by
  unfold signalRoom
  exact touches_ite (fun _ => setWithheld_touches _ s) fun _ => Touches.refl _ s

theorem completeOp_touches (h : Bool) (b s : State) : Touches (.withheld :: Part.planning) s (completeOp h b s) :=
  (signalRoom_touches _ s).trans (qs := Part.planning)
    (touches_ite (fun _ => evaluate_touches _) fun _ => Touches.refl _ _)

/-! ### Alignment Unit -/

theorem setWrites_touches (l : List AlignWrite) (s : State) : Touches [.writeQueue] s (s.setAlign { s.align with queue := l }) := by
  intro p hp; cases p <;> first | exact absurd (by decide) hp | repeat' constructor

theorem setLatch_touches (x : Option Int) (s : State) : Touches [.sightings] s (s.setAlign { s.align with latch := x }) := by
  intro p hp; cases p <;> first | exact absurd (by decide) hp | repeat' constructor

theorem setGuarded_touches (x : Option Int) (s : State) : Touches [.sightings] s (s.setAlign { s.align with lastGuarded := x }) := by
  intro p hp; cases p <;> first | exact absurd (by decide) hp | repeat' constructor

theorem setAnchors_touches (l : List Anchor) (d : Int) (y : Yields) (s : State) :
    Touches [.anchors, .yields] s (s.setAlign { s.align with anchors := l, dLast := d, yields := y }) := by
  intro p hp; cases p <;> first | exact absurd (by decide) hp | repeat' constructor

theorem popWrite_touches (s : State) : Touches [.writeQueue] s (popWrite s) := setWrites_touches _ s

theorem appendWrite_touches (x : AlignWrite) (s : State) : Touches [.writeQueue] s (appendWrite x s) := setWrites_touches _ s

theorem enterAnchor_touches (a b : Anchor) (s : State) : Touches [.anchors, .yields] s (enterAnchor a b s) :=
  (setAnchors_touches _ _ _ s).trans (lapseRelease_touches _)

theorem acceptAnchor_touches (i : Nat) (r : MapRecord) (a b : Anchor) (s : State) :
    Touches [.anchors, .yields, .mapRecords, .flags, .writeQueue] s (acceptAnchor i r a b s) := by
  have matched (s : State) (m : List MapRecord) :
      Touches [.anchors, .yields, .mapRecords, .flags, .writeQueue] s
        (raise .spliceMatched ((enterAnchor a b s).setPmap { (enterAnchor a b s).pmap with records := m })) :=
    ((enterAnchor_touches a b s).trans (rs := [.anchors, .yields, .mapRecords]) (setRecords_touches m _)).trans
      (raise_touches _ _)
  unfold acceptAnchor
  refine Touches.trans (ps := [.anchors, .yields, .mapRecords, .flags, .writeQueue]) ?_ (appendWrite_touches _ _)
  exact touches_ite (fun _ => (matched s _).trans (appendWrite_touches _ _)) fun _ => matched s _

theorem takeSighting_touches (w : Int) (src : SightingSource) (u : Bool) (s : State) :
    Touches Part.sighting s (takeSighting w src u s) := by
  have placed (e : Event) (x : AlignWrite) : Touches Part.sighting s
      (appendWrite x (raise e (s.setAlign { s.align with lastGuarded := some w }))) :=
    ((setGuarded_touches _ s).trans (rs := [.sightings, .flags]) (raise_touches _ _)).trans (appendWrite_touches _ _)
  unfold takeSighting
  refine touches_ite (fun _ => (countTotal_touches _ _ s).mono) fun _ => ?_
  dsimp only
  split
  · exact placed _ _
  · split
    · exact touches_ite (fun _ => (setGuarded_touches _ s).trans (acceptAnchor_touches _ _ _ _ _)) fun _ => placed _ _
    · exact placed _ _

theorem declareMissed_touches (s : State) : Touches [.mapRecords, .flags] s (declareMissed s) :=  by
  unfold declareMissed
  exact touches_ite (fun _ => (setRecords_touches _ s).trans (raise_touches _ _)) fun _ => Touches.refl _ s

/-! ### Reel Link -/

theorem setAssembler_touches (x : Assembler) (s : State) : Touches [.receiver] s (s.setReel { s.reel with assembler := x }) := by
  intro p hp; cases p <;> first | exact absurd (by decide) hp | repeat' constructor

theorem setStages_touches (a b : Option RxByte) (s : State) : Touches [.receiver] s (s.setReel { s.reel with holdingStage := a, shiftStage := b }) := by
  intro p hp; cases p <;> first | exact absurd (by decide) hp | repeat' constructor

theorem discardFrame_touches (s : State) : Touches (.receiver :: Part.counting) s (discardFrame s) := 
  ((countTotal_touches _ _ s).trans (rs := Part.counting) (raise_touches _ _)).trans (setAssembler_touches _ _)

theorem takeByte_touches (b : RxByte) (s : State) : Touches (.receiver :: Part.counting) s (takeByte b s) :=  by
  unfold takeByte
  exact touches_ite (fun _ => (discardFrame_touches s).trans (setAssembler_touches _ _)) fun _ =>
      (setAssembler_touches _ s).mono

theorem pumpOnce_touches (s : State) : Touches (.receiver :: Part.counting) s (pumpOnce s) := by
  unfold pumpOnce
  refine touches_ite (fun _ => Touches.refl _ s) fun _ => ?_
  split
  · exact Touches.refl _ s
  · exact (setStages_touches _ _ s).trans (takeByte_touches _ _)

theorem pump_touches (s : State) : Touches (.receiver :: Part.counting) s (pump s) := (pumpOnce_touches s).trans (pumpOnce_touches _)

theorem replyWith_touches (kind : Byte) (body : List Byte) (s : State) :
    Touches Part.replying s (replyWith kind body s) := by
  refine Touches.trans (ps := [.receiver, .transmitter]) (t := s.setReel _) ?_ (pump_touches _)
  unfold ReelLink.reply ReelLink.startSending
  split <;> intro p hp <;> cases p <;> first | exact absurd (by decide) hp | repeat' constructor

theorem removeHead_touches (s : State) : Touches [.completed, .roomWanted, .flags] s (removeHead s) := by
  unfold removeHead
  exact touches_ite
    (fun _ => ((setCompleted_touches _ s).trans (rs := [.completed, .roomWanted]) (setRoomWanted_touches _ _)).trans
      (raise_touches _ _)) fun _ => (setCompleted_touches _ s).mono

/-! ### Inspection Link -/

theorem setTransfer_touches (a : LinkPhase) (b : Bool) (c d : Nat) (e : Bool) (f g : List Byte) (s : State) : Touches [.link] s (s.setLink
      { s.link with phase := a, holding := b, holdTicks := c, holdLimitNow := d, ack := e, status := f, sent := g }) := by
  intro p hp; cases p <;> first | exact absurd (by decide) hp | repeat' constructor

theorem abandonMessage_touches (s : State) : Touches (.link :: Part.counting) s (abandonMessage s) := by
  unfold abandonMessage
  cases s.link.phase
  case addressed => exact (countTotal_touches _ _ s).trans (setTransfer_touches _ _ _ _ _ _ _ _)
  case message => exact (countTotal_touches _ _ s).trans (setTransfer_touches _ _ _ _ _ _ _ _)
  all_goals exact (setTransfer_touches _ _ _ _ _ _ _ s).mono

theorem appendMessage_touches (m : Message) (s : State) : Touches [.messages] s (appendMessage m s) :=
  touches_ite (fun _ => Touches.refl _ s) fun _ => setMessages_touches _ s

theorem takeStop_touches (s : State) : Touches ([.link, .messages] ++ Part.counting) s (takeStop s) := by
  unfold takeStop
  cases s.link.phase
  case message k bytes =>
    dsimp only
    cases Message.ofBytes k bytes
    · exact (countTotal_touches _ _ s).trans (setTransfer_touches _ _ _ _ _ _ _ _)
    · exact (appendMessage_touches _ s).trans (setTransfer_touches _ _ _ _ _ _ _ _)
  all_goals exact (setTransfer_touches _ _ _ _ _ _ _ s).mono

theorem takeLinkByte_touches (b : Byte) (s : State) : Touches [.link] s (takeLinkByte b s) := by
  have address : Touches [.link] s (takeAddress b s) := by
    unfold takeAddress
    split
    · exact setTransfer_touches _ _ _ _ _ _ _ s
    · split <;> exact setTransfer_touches _ _ _ _ _ _ _ s
  unfold takeLinkByte
  refine touches_ite (fun _ => Touches.refl _ s) fun _ => ?_
  split
  · exact address
  · exact address
  · exact setTransfer_touches _ _ _ _ _ _ _ s
  · unfold takeKind
    split
    · exact setTransfer_touches _ _ _ _ _ _ _ s
    · dsimp only
      split <;> exact setTransfer_touches _ _ _ _ _ _ _ s
  · unfold takeBody
    split <;> exact setTransfer_touches _ _ _ _ _ _ _ s
  · exact setTransfer_touches _ _ _ _ _ _ _ s

end Sys2Proof.Machine
end

