-- ==== Sys2Proof/Laws/Blocks.lean ====
section
/-! SUPPORT. From the parts that an operation changes to the blocks that it leaves as they are: a block none of whose
parts is touched is unchanged, whole. -/

namespace Sys2Proof.Machine

variable {ps : List Part} {s t : State}

/-- A part that is not touched is the same. -/
theorem Touches.same (h : Touches ps s t) (p : Part) (hp : p ∉ ps := by decide) : Same s t p := h p hp

theorem Touches.pins (h : Touches ps s t)
    (hp : ∀ p ∈ ([.pins] : List Part), p ∉ ps := by decide) : t.pins = s.pins := by
  exact h.same .pins (hp _ (by simp))

theorem Touches.pos (h : Touches ps s t)
    (hp : ∀ p ∈ ([.encoder, .position, .positionConfig, .roll, .timebase, .speed, .settle] : List Part), p ∉ ps := by decide) : t.pos = s.pos := by
  have h0 := h.same .encoder (hp _ (by simp))
  have h1 := h.same .position (hp _ (by simp))
  have h2 := h.same .positionConfig (hp _ (by simp))
  have h3 := h.same .roll (hp _ (by simp))
  have h4 := h.same .timebase (hp _ (by simp))
  have h5 := h.same .speed (hp _ (by simp))
  have h6 := h.same .settle (hp _ (by simp))
  simp only [Same] at h0 h1 h2 h3 h4 h5 h6
  cases ht : t.pos
  cases hs : s.pos
  simp_all

theorem Touches.comps (h : Touches ps s t)
    (hp : ∀ p ∈ ([.strobeChannel, .channels] : List Part), p ∉ ps := by decide) : t.comps = s.comps := by
  have h0 := h.same .strobeChannel (hp _ (by simp))
  have h1 := h.same .channels (hp _ (by simp))
  simp only [Same] at h0 h1
  cases ht : t.comps
  cases hs : s.comps
  simp_all

theorem Touches.pmap (h : Touches ps s t)
    (hp : ∀ p ∈ ([.mapHeader, .mapRecords, .mapConfig, .withheld] : List Part), p ∉ ps := by decide) : t.pmap = s.pmap := by
  have h0 := h.same .mapHeader (hp _ (by simp))
  have h1 := h.same .mapRecords (hp _ (by simp))
  have h2 := h.same .mapConfig (hp _ (by simp))
  have h3 := h.same .withheld (hp _ (by simp))
  simp only [Same] at h0 h1 h2 h3
  cases ht : t.pmap
  cases hs : s.pmap
  simp_all

theorem Touches.align (h : Touches ps s t)
    (hp : ∀ p ∈ ([.anchors, .writeQueue, .sightings, .yields, .alignConfig] : List Part), p ∉ ps := by decide) : t.align = s.align := by
  have h0 := h.same .anchors (hp _ (by simp))
  have h1 := h.same .writeQueue (hp _ (by simp))
  have h2 := h.same .sightings (hp _ (by simp))
  have h3 := h.same .yields (hp _ (by simp))
  have h4 := h.same .alignConfig (hp _ (by simp))
  simp only [Same] at h0 h1 h2 h3 h4
  cases ht : t.align
  cases hs : s.align
  simp_all

theorem Touches.diq (h : Touches ps s t)
    (hp : ∀ p ∈ ([.messages, .resume, .lastResult] : List Part), p ∉ ps := by decide) : t.diq = s.diq := by
  have h0 := h.same .messages (hp _ (by simp))
  have h1 := h.same .resume (hp _ (by simp))
  have h2 := h.same .lastResult (hp _ (by simp))
  simp only [Same] at h0 h1 h2
  cases ht : t.diq
  cases hs : s.diq
  simp_all

theorem Touches.tracker (h : Touches ps s t)
    (hp : ∀ p ∈ ([.offset, .offsetConfig, .history] : List Part), p ∉ ps := by decide) : t.tracker = s.tracker := by
  have h0 := h.same .offset (hp _ (by simp))
  have h1 := h.same .offsetConfig (hp _ (by simp))
  have h2 := h.same .history (hp _ (by simp))
  simp only [Same] at h0 h1 h2
  cases ht : t.tracker
  cases hs : s.tracker
  simp_all

theorem Touches.track (h : Touches ps s t)
    (hp : ∀ p ∈ ([.entries, .entryCounters, .late, .mergeWindow] : List Part), p ∉ ps := by decide) : t.track = s.track := by
  have h0 := h.same .entries (hp _ (by simp))
  have h1 := h.same .entryCounters (hp _ (by simp))
  have h2 := h.same .late (hp _ (by simp))
  have h3 := h.same .mergeWindow (hp _ (by simp))
  simp only [Same] at h0 h1 h2 h3
  cases ht : t.track
  cases hs : s.track
  simp_all

theorem Touches.plan (h : Touches ps s t)
    (hp : ∀ p ∈ ([.lanes, .shiftLimit, .webShift] : List Part), p ∉ ps := by decide) : t.plan = s.plan := by
  have h0 := h.same .lanes (hp _ (by simp))
  have h1 := h.same .shiftLimit (hp _ (by simp))
  have h2 := h.same .webShift (hp _ (by simp))
  simp only [Same] at h0 h1 h2
  cases ht : t.plan
  cases hs : s.plan
  simp_all

theorem Touches.reels (h : Touches ps s t)
    (hp : ∀ p ∈ ([.openSet, .nextSet, .grading, .indications] : List Part), p ∉ ps := by decide) : t.reels = s.reels := by
  have h0 := h.same .openSet (hp _ (by simp))
  have h1 := h.same .nextSet (hp _ (by simp))
  have h2 := h.same .grading (hp _ (by simp))
  have h3 := h.same .indications (hp _ (by simp))
  simp only [Same] at h0 h1 h2 h3
  cases ht : t.reels
  cases hs : s.reels
  simp_all

theorem Touches.queue (h : Touches ps s t)
    (hp : ∀ p ∈ ([.completed, .roomWanted] : List Part), p ∉ ps := by decide) : t.queue = s.queue := by
  have h0 := h.same .completed (hp _ (by simp))
  have h1 := h.same .roomWanted (hp _ (by simp))
  simp only [Same] at h0 h1
  cases ht : t.queue
  cases hs : s.queue
  simp_all

theorem Touches.planner (h : Touches ps s t)
    (hp : ∀ p ∈ ([.plannerState, .setAside, .stopRecord, .stopParams] : List Part), p ∉ ps := by decide) : t.planner = s.planner := by
  have h0 := h.same .plannerState (hp _ (by simp))
  have h1 := h.same .setAside (hp _ (by simp))
  have h2 := h.same .stopRecord (hp _ (by simp))
  have h3 := h.same .stopParams (hp _ (by simp))
  simp only [Same] at h0 h1 h2 h3
  cases ht : t.planner
  cases hs : s.planner
  simp_all

theorem Touches.tally (h : Touches ps s t)
    (hp : ∀ p ∈ ([.liveTallies, .snapshot, .autosnap] : List Part), p ∉ ps := by decide) : t.tally = s.tally := by
  have h0 := h.same .liveTallies (hp _ (by simp))
  have h1 := h.same .snapshot (hp _ (by simp))
  have h2 := h.same .autosnap (hp _ (by simp))
  simp only [Same] at h0 h1 h2
  cases ht : t.tally
  cases hs : s.tally
  simp_all

theorem Touches.events (h : Touches ps s t)
    (hp : ∀ p ∈ ([.flags, .enables] : List Part), p ∉ ps := by decide) : t.events = s.events := by
  have h0 := h.same .flags (hp _ (by simp))
  have h1 := h.same .enables (hp _ (by simp))
  simp only [Same] at h0 h1
  cases ht : t.events
  cases hs : s.events
  simp_all

theorem Touches.port (h : Touches ps s t)
    (hp : ∀ p ∈ ([.result, .args, .posLatch, .window, .handshake] : List Part), p ∉ ps := by decide) : t.port = s.port := by
  have h0 := h.same .result (hp _ (by simp))
  have h1 := h.same .args (hp _ (by simp))
  have h2 := h.same .posLatch (hp _ (by simp))
  have h3 := h.same .window (hp _ (by simp))
  have h4 := h.same .handshake (hp _ (by simp))
  simp only [Same] at h0 h1 h2 h3 h4
  cases ht : t.port
  cases hs : s.port
  simp_all

theorem Touches.link (h : Touches ps s t)
    (hp : ∀ p ∈ ([.link, .holdLimit] : List Part), p ∉ ps := by decide) : t.link = s.link := by
  have h0 := h.same .link (hp _ (by simp))
  have h1 := h.same .holdLimit (hp _ (by simp))
  simp only [Same] at h0 h1
  cases ht : t.link
  cases hs : s.link
  simp_all

theorem Touches.reel (h : Touches ps s t)
    (hp : ∀ p ∈ ([.receiver, .transmitter, .reelConfig, .earlier] : List Part), p ∉ ps := by decide) :
    t.reel = s.reel := by
  have h0 := h.same .receiver (hp _ (by simp))
  have h1 := h.same .transmitter (hp _ (by simp))
  have h2 := h.same .reelConfig (hp _ (by simp))
  have h3 := h.same .earlier (hp _ (by simp))
  simp only [Same] at h0 h1 h2 h3
  cases ht : t.reel
  cases hs : s.reel
  simp_all

theorem Touches.pending (h : Touches ps s t)
    (hp : ∀ p ∈ ([.pending] : List Part), p ∉ ps := by decide) : t.pending = s.pending := by
  exact h.same .pending (hp _ (by simp))

theorem Touches.flag (h : Touches ps s t) (e : Event) (hp : Part.flags ∉ ps := by decide) :
    t.events.flag e = s.events.flag e := by
  have h0 := h.same .flags hp
  simp only [Same] at h0
  simp [Events.flag, h0]

theorem Touches.total (h : Touches ps s t) (k : Total) (hp : Part.liveTallies ∉ ps := by decide) :
    t.total k = s.total k := by
  have h0 := h.same .liveTallies hp
  simp only [Same] at h0
  simp [State.total, h0]

end Sys2Proof.Machine
end

