-- ==== Sys2Proof/Laws/Order.lean ====
section
/-! SUPPORT. The ordered lists: the Track List (R24) and the flag lists (R115), under insertion, removal and search. -/

namespace Sys2Proof.Machine

/-! ### Insertion (R24, R115) -/

/-- R24: in an ascending list, an entry goes after every entry of equal or lower w. -/
theorem insertEntry_eq (e : Entry) (l : List Entry) (h : l.Pairwise fun x y => x.w ≤ y.w) :
    insertEntry e l = insertedInOrder e l := by
  induction l with
  | nil => rfl
  | cons x xs ih =>
    obtain ⟨hx, hs⟩ := List.pairwise_cons.mp h
    unfold insertEntry
    split
    · rename_i hlt
      have all : ∀ y ∈ x :: xs, e.w < y.w := by
        intro y hy
        rcases List.mem_cons.mp hy with rfl | hy
        · exact hlt
        · exact lt_of_lt_of_le hlt (hx y hy)
      unfold insertedInOrder
      rw [List.filter_eq_nil_iff.mpr (by intro y hy; simpa using all y hy),
        List.filter_eq_self.mpr (by intro y hy; simpa using all y hy)]
      rfl
    · rename_i hge
      rw [ih hs]
      unfold insertedInOrder
      rw [List.filter_cons_of_pos (by simpa using hge), List.filter_cons_of_neg (by simpa using hge)]
      rfl

theorem insertFlag_eq (it : FlagItem) (l : List FlagItem) (h : l.Pairwise fun x y => x.depth ≤ y.depth) :
    insertFlag it l = flagInOrder it l := by
  induction l with
  | nil => rfl
  | cons x xs ih =>
    obtain ⟨hx, hs⟩ := List.pairwise_cons.mp h
    unfold insertFlag
    split
    · rename_i hlt
      have all : ∀ y ∈ x :: xs, it.depth < y.depth := by
        intro y hy
        rcases List.mem_cons.mp hy with rfl | hy
        · exact hlt
        · exact lt_of_lt_of_le hlt (hx y hy)
      unfold flagInOrder
      rw [List.filter_eq_nil_iff.mpr (by intro y hy; simpa using all y hy),
        List.filter_eq_self.mpr (by intro y hy; simpa using all y hy)]
      rfl
    · rename_i hge
      rw [ih hs]
      unfold flagInOrder
      rw [List.filter_cons_of_pos (by simpa using hge), List.filter_cons_of_neg (by simpa using hge)]
      rfl

theorem insertEntry_perm (e : Entry) (l : List Entry) : (insertEntry e l).Perm (e :: l) := by
  induction l with
  | nil => exact List.Perm.refl _
  | cons x xs ih =>
    unfold insertEntry
    split
    · exact List.Perm.refl _
    · exact (ih.cons x).trans (List.Perm.swap e x xs)

theorem insertEntry_sorted (e : Entry) (l : List Entry) (h : l.Pairwise fun x y => x.w ≤ y.w) :
    (insertEntry e l).Pairwise fun x y => x.w ≤ y.w := by
  induction l with
  | nil => exact List.pairwise_singleton _ _
  | cons x xs ih =>
    obtain ⟨hx, hs⟩ := List.pairwise_cons.mp h
    unfold insertEntry
    split
    · rename_i hlt
      refine List.pairwise_cons.mpr ⟨fun y hy => ?_, h⟩
      rcases List.mem_cons.mp hy with rfl | hy
      · exact le_of_lt hlt
      · exact le_of_lt (lt_of_lt_of_le hlt (hx y hy))
    · rename_i hge
      refine List.pairwise_cons.mpr ⟨fun y hy => ?_, ih hs⟩
      rcases List.mem_cons.mp ((insertEntry_perm e xs).mem_iff.mp hy) with rfl | hy
      · omega
      · exact hx y hy

/-! ### Entries by identity -/

/-- An entry taken out of a list whose identities differ. -/
theorem removeEntry_listed (pre post : List Entry) (e : Entry) (h : ((pre ++ e :: post).map fun x => x.ident).Nodup) :
    removeEntry e.ident (pre ++ e :: post) = pre ++ post := by
  have hne : ∀ x, x ∈ pre ∨ x ∈ post → x.ident ≠ e.ident := by
    intro x hx he
    simp only [List.map_append, List.map_cons, List.nodup_append, List.nodup_cons, List.mem_map, List.mem_cons] at h
    rcases hx with hx | hx
    · exact h.2.2 _ ⟨x, hx, rfl⟩ _ (.inl rfl) he
    · exact h.2.1.1 ⟨x, hx, he⟩
  unfold removeEntry
  rw [List.filter_append, List.filter_cons_of_neg (by simp),
    List.filter_eq_self.mpr (fun x hx => by simpa using hne x (.inl hx)),
    List.filter_eq_self.mpr (fun x hx => by simpa using hne x (.inr hx))]

/-- One entry of a list changed by its identity. -/
theorem map_listed (f : Entry → Entry) (pre post : List Entry) (e : Entry)
    (h : ((pre ++ e :: post).map fun x => x.ident).Nodup) :
    ((pre ++ e :: post).map fun x => if x.ident = e.ident then f x else x) = pre ++ f e :: post := by
  have hne : ∀ x, x ∈ pre ∨ x ∈ post → x.ident ≠ e.ident := by
    intro x hx he
    simp only [List.map_append, List.map_cons, List.nodup_append, List.nodup_cons, List.mem_map, List.mem_cons] at h
    rcases hx with hx | hx
    · exact h.2.2 _ ⟨x, hx, rfl⟩ _ (.inl rfl) he
    · exact h.2.1.1 ⟨x, hx, he⟩
  have keep : ∀ l : List Entry, (∀ x ∈ l, x.ident ≠ e.ident) →
      (l.map fun x => if x.ident = e.ident then f x else x) = l := by
    intro l hl
    conv_rhs => rw [← List.map_id l]
    exact List.map_congr_left fun x hx => by simp [hl x hx]
  rw [List.map_append, List.map_cons, keep pre fun x hx => hne x (.inl hx),
    keep post fun x hx => hne x (.inr hx), if_pos rfl]

/-- The first entry of a list that a test takes. -/
theorem find_listed (p : Entry → Bool) (pre post : List Entry) (e : Entry) (h : ∀ f ∈ pre, p f = false)
    (he : p e = true) : (pre ++ e :: post).find? p = some e := by
  rw [List.find?_append, List.find?_eq_none.mpr (by intro x hx; simp [h x hx])]
  simp [he]

end Sys2Proof.Machine
end

