-- ==== Sys2Proof/Laws/Track.lean ====
section
/-! SUPPORT. What the shared operations of the Track List come to, in the terms of the claims (chapter 02): the knife
passage, the commit, a late item. -/

namespace Sys2Proof.Machine

/-! ### Lane sets and the knife (R41, R98, R99) -/

theorem mem_laneNumbers (n : Nat) : n ∈ laneNumbers ↔ 1 ≤ n ∧ n ≤ 24 := by
  unfold laneNumbers
  rw [List.mem_range'_1]
  omega

theorem mem_usedLanes (p : SlitPlan) (n : Nat) : n ∈ p.usedLanes ↔ 1 ≤ n ∧ n ≤ 24 ∧ (p.lane n).used = true := by
  unfold SlitPlan.usedLanes
  rw [List.mem_filter, mem_laneNumbers, and_assoc]

theorem laneNumbers_ascending : laneNumbers.Pairwise (· < ·) := List.pairwise_lt_range'

/-- R98, R99: the lane set of an item is the one the rules name. -/
theorem lanesOf_laneSetOf (s : State) (e : Entry) : LaneSetOf s e (s.plan.lanesOf e.kind e.x0 e.x1) := by
  unfold LaneSetOf SlitPlan.lanesOf
  cases h : e.kind with
  | splice =>
    refine ⟨(laneNumbers_ascending).filter _, fun n => ?_⟩
    show n ∈ s.plan.usedLanes ↔ _
    rw [mem_usedLanes]
    simp
  | flag =>
    refine ⟨(laneNumbers_ascending.filter _).filter _, fun n => ?_⟩
    show n ∈ s.plan.laneSet e.x0 e.x1 ↔ _
    unfold SlitPlan.laneSet
    rw [List.mem_filter, mem_usedLanes]
    simp [LaneRecord.right, and_assoc]

theorem passKnife_passedAs (s : State) (e : Entry) (h : e.passage = .ahead) : PassedAs s e (passKnife s e) := by
  refine ⟨_, lanesOf_laneSetOf s e, ?_⟩
  unfold passKnife
  rw [h]

theorem passKnife_slit (s : State) (e : Entry) (h : e.passage ≠ .ahead) : passKnife s e = e := by
  unfold passKnife
  cases hp : e.passage with
  | ahead => exact absurd hp h
  | slit lanes shift => rfl

/-! ### Reports and late items (R32, R33, R44) -/

theorem setStatus_reported (i : Option Nat) (st : RecordStatus) (s : State) : Reported i st s (setStatus i st s) := by
  cases i <;> rfl

/-- A report after what leaves the records alone. -/
theorem Reported.of_records {i : Option Nat} {st : RecordStatus} {s s' t : State} (h : Reported i st s' t)
    (e : s'.pmap.records = s.pmap.records) : Reported i st s t := by
  unfold Reported at *
  rw [h, e]

theorem FoundLate.of_same {kind : ItemKind} {w : Int} {cls : Fin 8} {i : Option Nat} {s t u : State}
    (h : FoundLate kind w cls i s t) (hr : u.pmap.records = t.pmap.records) (hl : u.track.late = t.track.late)
    (ht : u.total .late = t.total .late) (hf : u.events.flag .lateFlag = t.events.flag .lateFlag) :
    FoundLate kind w cls i s u := by
  unfold FoundLate CountedOnce Reported at *
  rw [hr, hl, ht, hf]
  exact h

theorem lateItem_foundLate (kind : ItemKind) (w : Int) (cls : Fin 8) (i : Option Nat) (s : State)
    (h : s.tally.live.totals.length = 16) : FoundLate kind w cls i s (lateItem kind w cls i s) := by
  unfold lateItem
  refine ⟨?_, ?_, ?_, ?_⟩
  · show (setStatus _ _ _).total _ = _
    rw [(setStatus_touches _ _ _).total]
    show (countTotal .late 1 s).total .late = _
    rw [countTotal_total _ _ _ _ h, if_pos rfl]
  · rw [(setStatus_touches _ _ _).flag]
    simp
  · rw [(setStatus_touches _ _ _).track]
    show lateRecordOf kind w cls = _
    unfold lateRecordOf
    have : (if w < -2147483648 then -2147483648 else w) = max w (-2147483648) := by
      rcases lt_or_ge w (-2147483648) with h | h
      · rw [if_pos h, max_eq_right (le_of_lt h)]
      · rw [if_neg (by omega), max_eq_left h]
    rw [this]
    cases kind <;> rfl
  · exact (setStatus_reported i .retired _).of_records ((countTotal_touches .late 1 s).same .mapRecords)

theorem lateItem_entries (kind : ItemKind) (w : Int) (cls : Fin 8) (i : Option Nat) (s : State) :
    (lateItem kind w cls i s).track.entries = s.track.entries :=
  (lateItem_touches kind w cls i s).same .entries

/-! ### Commits (R42 to R44) -/

/-- R44: a commit retires the entry's record and changes no other. -/
theorem commitEntry_reported (e : Entry) (s : State) : Reported e.mapIndex .retired s (commitEntry e s) := by
  unfold commitEntry
  refine (setStatus_reported e.mapIndex .retired _).of_records ?_
  split
  · exact (countTotal_touches _ _ _).same .mapRecords
  · split
    · unfold deliverEntry
      split
      · exact (deliverFlag_touches _ _ _ _ _).same .mapRecords
      · exact (deliverSplice_touches _).same .mapRecords
    · exact (countTotal_touches _ _ _).same .mapRecords

theorem commitEntry_entries (e : Entry) (s : State) : (commitEntry e s).track = s.track :=
  (commitEntry_touches e s).track

theorem foldl_total {α : Type} (k : Total) (f : State → α → State) (h : ∀ s a, (f s a).total k = s.total k)
    (l : List α) (s : State) : (l.foldl f s).total k = s.total k := by
  induction l generalizing s with
  | nil => rfl
  | cons a l ih => exact (ih _).trans (h s a)

theorem foldl_totals_length {α : Type} (f : State → α → State)
    (h : ∀ s a, (f s a).tally.live.totals.length = s.tally.live.totals.length) (l : List α) (s : State) :
    (l.foldl f s).tally.live.totals.length = s.tally.live.totals.length := by
  induction l generalizing s with
  | nil => rfl
  | cons a l ih => exact (ih _).trans (h s a)

/-- A delivery counts no total but UNASSIGNED. -/
theorem deliverFlag_total (e : Entry) (lanes : List Nat) (shift w : Int) (s : State) (k : Total) (hk : k ≠ .unassigned)
    (h : s.tally.live.totals.length = 16) : (deliverFlag e lanes shift w s).total k = s.total k := by
  unfold deliverFlag
  dsimp only
  split
  · rw [countTotal_total _ _ _ _ h, if_neg hk.symm]
  · rw [foldl_total k _ (fun s n => ?_), foldl_total k _ (fun s n => countLane_total _ _ _ s k)]
    split
    · exact (deliverTo_touches _ _ s).total k
    · rfl

theorem deliverSplice_total (s : State) (k : Total) : (deliverSplice s).total k = s.total k := by
  unfold deliverSplice
  rw [(deliverTo_touches _ _ _).total, foldl_total k _ (fun s n => countLane_total _ _ _ s k)]

/-- R42: a commit into the open set counts no total but UNASSIGNED. -/
theorem commitEntry_total (e : Entry) (s : State) (k : Total) (h : s.tally.live.totals.length = 16)
    (ho : s.openFor e.w = true) (hk : k ≠ .unassigned) : (commitEntry e s).total k = s.total k := by
  unfold commitEntry
  rw [(setStatus_touches _ _ _).total]
  unfold State.openFor at ho
  cases hs : s.reels.openSet with
  | none => rw [hs] at ho; exact absurd ho (by simp)
  | some o =>
    rw [hs] at ho
    dsimp only at ho ⊢
    rw [if_pos (by simpa using ho)]
    unfold deliverEntry
    split
    · exact deliverFlag_total _ _ _ _ s k hk h
    · exact deliverSplice_total s k

/-- R43: a commit outside the open set is one count of UNWOUND and the report. -/
theorem commitEntry_unwound (e : Entry) (s : State) (ho : s.openFor e.w = false) :
    commitEntry e s = setStatus e.mapIndex .retired (countTotal .unwound 1 s) := by
  unfold commitEntry
  unfold State.openFor at ho
  cases hs : s.reels.openSet with
  | none => rfl
  | some o =>
    rw [hs] at ho
    dsimp only at ho ⊢
    rw [if_neg (by simpa using ho)]

end Sys2Proof.Machine
end

