-- ==== Sys2Proof/Laws/Reels.lean ====
section
/-! SUPPORT. What a delivery does to the lanes' tallies and to the reels of the open set (R101, R102, R113 to R118). -/

namespace Sys2Proof.Machine

/-! ### Lane tallies over a list of lanes (R149) -/

/-- One count in each lane of a list without repeats: those lanes count once and every other lane not at all. -/
theorem countLanes_lane (c : LaneCount) (l : List Nat) (s : State) (hn : l.Nodup) (hl : ∀ n ∈ l, 1 ≤ n ∧ n ≤ 24)
    (h : s.tally.live.lanes.length = 24) (j : Nat) (hj : 1 ≤ j) :
    (l.foldl (fun s n => countLane n c 1 s) s).tally.live.lane j =
      if j ∈ l then (s.tally.live.lane j).set c (min 65535 ((s.tally.live.lane j).get c + 1))
      else s.tally.live.lane j := by
  induction l generalizing s with
  | nil => simp
  | cons n l ih =>
    obtain ⟨hnl, hn⟩ := List.nodup_cons.mp hn
    have h1 := hl n List.mem_cons_self
    rw [List.foldl_cons, ih _ hn (fun m hm => hl m (List.mem_cons_of_mem _ hm)) (by rw [countLane_length, h]),
      countLane_lane _ _ _ _ _ h1.1 hj (by omega)]
    by_cases e : n = j
    · subst e
      simp [hnl]
    · simp [e, Ne.symm e]

theorem countLanes_total (c : LaneCount) (l : List Nat) (s : State) (k : Total) :
    (l.foldl (fun s n => countLane n c 1 s) s).total k = s.total k :=
  foldl_total k _ (fun s n => countLane_total n c 1 s k) l s

theorem countLanes_touches (c : LaneCount) (l : List Nat) (s : State) :
    Touches Part.counting s (l.foldl (fun s n => countLane n c 1 s) s) :=
  touches_foldl (fun s n => countLane_touches n c 1 s) l s

/-! ### Grades (R118) -/

/-- The first class over its limit: that class is over, and none before it is. -/
theorem firstOver_some {counts limits : List Nat} {c : Fin 8} (h : firstOver counts limits = some c) :
    limits.getD c.val 255 < counts.getD c.val 0 ∧ ∀ m, m < c → ¬ limits.getD m.val 255 < counts.getD m.val 0 := by
  unfold firstOver at h
  obtain ⟨h1, pre, post, h2, h3⟩ := List.find?_eq_some_iff_append.mp h
  refine ⟨by simpa using h1, fun m hm => ?_⟩
  have hs : (pre ++ c :: post).Pairwise (· < ·) := h2 ▸ List.pairwise_lt_finRange 8
  have hmem : m ∈ pre ++ c :: post := h2 ▸ List.mem_finRange m
  rcases List.mem_append.mp hmem with h | h
  · simpa using h3 m h
  · rcases List.mem_cons.mp h with rfl | h
    · exact absurd hm (lt_irrefl _)
    · exact absurd hm (not_lt_of_gt ((List.pairwise_cons.mp (List.pairwise_append.mp hs).2.1).1 m h))

theorem firstOver_none {counts limits : List Nat} (h : firstOver counts limits = none) (n : Fin 8) :
    ¬ limits.getD n.val 255 < counts.getD n.val 0 := by
  unfold firstOver at h
  simpa using List.find?_eq_none.mp h n (List.mem_finRange n)

/-- R118: the computed grade is that of the first test that holds. -/
theorem computeGrade_graded (g : Grading) (f : Bool) (p : Prop) (hp : f = true ↔ p) (r : ReelRecord) :
    Graded g p r (computeGrade g f r).1 (computeGrade g f r).2 := by
  unfold Graded computeGrade
  dsimp only
  cases f with
  | true => exact Or.inl ⟨hp.mp rfl, rfl, rfl⟩
  | false =>
    have hn : ¬ p := fun h => absurd (hp.mpr h) Bool.false_ne_true
    rw [if_neg Bool.false_ne_true]
    cases h1 : firstOver r.classCounts g.classReject with
    | some c => exact Or.inr (Or.inl ⟨hn, c, firstOver_some h1, rfl, rfl⟩)
    | none =>
      refine Or.inr (Or.inr ⟨hn, firstOver_none h1, ?_⟩)
      by_cases h2 : g.spliceReject < r.spliceCount
      · exact Or.inl ⟨h2, by simp [h2], by simp [h2]⟩
      · simp only [h2, if_false]
        cases h3 : firstOver r.classCounts g.classDown with
        | some c => exact Or.inr (Or.inl ⟨Nat.le_of_not_lt h2, c, firstOver_some h3, rfl, rfl⟩)
        | none =>
          refine Or.inr (Or.inr ⟨Nat.le_of_not_lt h2, firstOver_none h3, ?_⟩)
          by_cases h4 : g.spliceDown < r.spliceCount
          · exact Or.inl ⟨h4, by simp [h4], by simp [h4]⟩
          · exact Or.inr ⟨Nat.le_of_not_lt h4, by simp [h4], by simp [h4]⟩

/-- The tests of R118 look at the counts alone. -/
theorem Graded.congr {g : Grading} {p : Prop} {r r' : ReelRecord} {grade : Grade} {cause : Cause}
    (h : Graded g p r grade cause) (hc : r'.classCounts = r.classCounts) (hs : r'.spliceCount = r.spliceCount) :
    Graded g p r' grade cause := by
  unfold Graded at *
  rw [hc, hs]
  exact h

theorem forced_iff (s : State) (n : Nat) :
    s.plan.forced n = true ↔ (s.plan.lane n).disposition = .forcedReject := by
  unfold SlitPlan.forced
  exact beq_iff_eq

theorem regrade_keeps (g : Grading) (f : Bool) (r : ReelRecord) :
    regrade g f r = { r with grade := (regrade g f r).grade, cause := (regrade g f r).cause } := by
  unfold regrade
  dsimp only
  split <;> rfl

/-- R118: a recomputation over a record `q` that has new counts and still holds the grade and the cause of `r`. -/
theorem regrade_recomputed (s : State) (r q : ReelRecord) (hg : q.grade = r.grade) (hc : q.cause = r.cause) :
    Recomputed s r (regrade s.reels.grading (s.plan.forced r.lane) q)
      (regrade s.reels.grading (s.plan.forced r.lane) q).grade
      (regrade s.reels.grading (s.plan.forced r.lane) q).cause := by
  have hk := regrade_keeps s.reels.grading (s.plan.forced r.lane) q
  refine ⟨_, _, (computeGrade_graded s.reels.grading _ _ (forced_iff s r.lane) q).congr (by rw [hk]) (by rw [hk]), ?_, ?_⟩
  · intro h
    unfold regrade Grade.worse
    simp [hg, h]
  · intro h
    unfold regrade Grade.worse
    simp [hg, hc, Nat.not_lt_of_le h]

/-! ### Flag items (R113, R115, R116) -/

theorem offerFlag_keeps (it : FlagItem) (r : ReelRecord) :
    offerFlag it r = { r with flags := (offerFlag it r).flags, unlisted := (offerFlag it r).unlisted } := by
  unfold offerFlag
  split
  · rfl
  · dsimp only
    split
    · rfl
    · split <;> rfl

theorem weakestFrom_mem (l : List FlagItem) (i j : Nat) (y : FlagItem) (h : weakestFrom i l = some (j, y)) : y ∈ l := by
  induction l generalizing i j y with
  | nil => simp [weakestFrom] at h
  | cons x xs ih =>
    unfold weakestFrom at h
    split at h
    · simp_all
    · rename_i k z hz
      split at h
      · cases h
        exact List.mem_cons_of_mem _ (ih _ _ _ hz)
      · simp_all

/-- R116: in a list in order of depth, the item considered for removal is the last of those of lowest severity. -/
theorem weakestFrom_eq (pre post : List FlagItem) (x : FlagItem) (i : Nat)
    (hs : (pre ++ x :: post).Pairwise fun a b => a.depth ≤ b.depth) (h1 : ∀ y ∈ pre, x.sev ≤ y.sev)
    (h2 : ∀ y ∈ post, x.sev < y.sev) : weakestFrom i (pre ++ x :: post) = some (i + pre.length, x) := by
  induction pre generalizing i with
  | nil =>
    rw [List.nil_append, weakestFrom]
    cases h : weakestFrom (i + 1) post with
    | none => rfl
    | some jy =>
      have hy := h2 jy.2 (weakestFrom_mem post _ jy.1 jy.2 h)
      have : x.yieldsTo jy.2 = false := by
        unfold FlagItem.yieldsTo
        have h3 : ¬ jy.2.sev < x.sev := not_lt_of_gt hy
        have h4 : jy.2.sev ≠ x.sev := ne_of_gt hy
        simp [h3, h4]
      simp [this]
  | cons p pre ih =>
    obtain ⟨hp, hs⟩ := List.pairwise_cons.mp hs
    rw [List.cons_append, weakestFrom, ih (i + 1) hs fun y hy => h1 y (List.mem_cons_of_mem _ hy)]
    have hd := hp x (by simp)
    have hv := h1 p List.mem_cons_self
    have : p.yieldsTo x = true := by
      unfold FlagItem.yieldsTo
      rcases lt_or_eq_of_le hv with h | h
      · simp [h]
      · simp [h, hd]
    simp only [this, if_true, List.length_cons]
    congr 2
    omega

/-- R113, R115, R116, R118: a record that takes an item and is regraded. -/
theorem takeFlag_tookFlag (s : State) (it : FlagItem) (r : ReelRecord) :
    TookFlag s it r (regrade s.reels.grading (s.plan.forced r.lane) (takeFlag it r)) := by
  have hk := regrade_keeps s.reels.grading (s.plan.forced r.lane) (takeFlag it r)
  have ho : takeFlag it r = { r with
      classCounts := r.classCounts.modify it.cls.val (saturate 255 1)
      committed := saturate countMax 1 r.committed
      flags := (takeFlag it r).flags
      unlisted := (takeFlag it r).unlisted } := offerFlag_keeps it _
  have hr := regrade_recomputed s r (takeFlag it r) (by rw [ho]) (by rw [ho])
  refine ⟨?_, hr, ?_, ?_⟩
  · generalize hR : regrade s.reels.grading (s.plan.forced r.lane) (takeFlag it r) = R at hk
    rw [hk, ho]
    rfl
  · intro hlen hs
    rw [hk]
    show (takeFlag it r).flags = _ ∧ (takeFlag it r).unlisted = _
    unfold takeFlag offerFlag
    rw [if_pos hlen]
    exact ⟨insertFlag_eq it _ hs, rfl⟩
  · intro hlen hs
    rw [hk]
    show (takeFlag it r).unlisted = _ ∧ ∀ pre post x, _ → _ → _ →
      (_ → (takeFlag it r).flags = _) ∧ (_ → (takeFlag it r).flags = _)
    have hn : ¬ r.flags.length < 20 := Nat.not_lt_of_le hlen
    unfold takeFlag offerFlag
    rw [if_neg hn]
    dsimp only
    refine ⟨?_, ?_⟩
    · split
      · rfl
      · split <;> rfl
    · intro pre post x hx h1 h2
      have hw : weakestFrom 0 r.flags = some (pre.length, x) := by
        rw [hx] at hs ⊢
        simpa using weakestFrom_eq pre post x 0 hs h1 h2
      have he : r.flags.eraseIdx pre.length = pre ++ post := by
        rw [hx, List.eraseIdx_append_of_length_le (le_refl _)]
        simp
      have hp : (pre ++ post).Pairwise fun a b => a.depth ≤ b.depth :=
        hs.sublist (hx ▸ List.Sublist.append_left (List.sublist_cons_self x post) pre)
      rw [hw]
      dsimp only
      refine ⟨fun h => ?_, fun h => ?_⟩
      · rw [if_pos h]
        show insertFlag it (r.flags.eraseIdx pre.length) = _
        rw [he, insertFlag_eq it _ hp]
      · rw [if_neg (not_lt_of_ge h)]

/-- A record that takes an item keeps its lane. -/
theorem TookFlag.lane {s : State} {it : FlagItem} {r r' : ReelRecord} (h : TookFlag s it r r') : r'.lane = r.lane := by
  rw [h.1]

/-- What a record takes depends on the state by the limits of the grades and the plan. -/
theorem TookFlag.congr {s t : State} {it : FlagItem} {r r' : ReelRecord} (h : TookFlag s it r r')
    (hg : t.reels.grading = s.reels.grading) (hp : t.plan = s.plan) : TookFlag t it r r' := by
  unfold TookFlag Recomputed at *
  rw [hg, hp]
  exact h

/-! ### Indications (R119) -/

theorem exists_zip {α β : Type} (l : List α) (m : List β) (p : α × β → Prop) :
    (∃ x ∈ l.zip m, p x) ↔ ∃ i, ∃ (h : i < l.length) (k : i < m.length), p (l[i], m[i]) := by
  constructor
  · rintro ⟨x, hx, hp⟩
    obtain ⟨i, hi, rfl⟩ := List.getElem_of_mem hx
    have hz := hi
    rw [List.length_zip] at hz
    refine ⟨i, by omega, by omega, ?_⟩
    rwa [List.getElem_zip] at hp
  · rintro ⟨i, h, k, hp⟩
    exact ⟨_, List.mem_iff_getElem.mpr ⟨i, by rw [List.length_zip]; omega, List.getElem_zip⟩, hp⟩

/-- One worse grade sets the bit of its lane, and LANE_GRADE. -/
theorem indicateWorse_bit (lane : Nat) (old new : Grade) (s : State) (hl : 1 ≤ lane) (n : Nat) (h1 : 1 ≤ n) (h2 : n ≤ 24) :
    (indicateWorse lane old new s).reels.indications.getLsbD (n - 1) = true ↔
      s.reels.indications.getLsbD (n - 1) = true ∨ (lane = n ∧ old.code < new.code) := by
  unfold indicateWorse Grade.worse
  by_cases h : old.code < new.code
  · rw [if_pos (decide_eq_true h)]
    show (s.reels.indications ||| (1#24 <<< (lane - 1))).getLsbD (n - 1) = true ↔ _
    rw [BitVec.getLsbD_or, Bool.or_eq_true, BitVec.getLsbD_shiftLeft]
    have : n - 1 < 24 := by omega
    simp only [this, decide_true, Bool.true_and, h, and_true]
    refine or_congr_right ?_
    rw [BitVec.getLsbD_one]
    simp only [Bool.and_eq_true, Bool.not_eq_true', decide_eq_false_iff_not, decide_eq_true_eq]
    omega
  · rw [if_neg (by simpa using h)]
    simp [h]

theorem indicateWorse_flag (lane : Nat) (old new : Grade) (s : State) :
    (indicateWorse lane old new s).events.flag .laneGrade = true ↔
      s.events.flag .laneGrade = true ∨ old.code < new.code := by
  unfold indicateWorse Grade.worse
  by_cases h : old.code < new.code
  · rw [if_pos (decide_eq_true h)]
    simp [h]
  · rw [if_neg (by simpa using h)]
    simp [h]

/-- R119: over the records of a list, each with its new form. -/
theorem indicateWorse_fold (f : ReelRecord → ReelRecord) (l : List ReelRecord) (s : State) (hl : ∀ r ∈ l, 1 ≤ r.lane) :
    Indicated l (l.map f) s (l.foldl (fun s r => indicateWorse r.lane r.grade (f r).grade s) s) := by
  have hz : ∀ (l : List ReelRecord) (p : ReelRecord × ReelRecord → Prop),
      (∃ x ∈ l.zip (l.map f), p x) ↔ ∃ r ∈ l, p (r, f r) := by
    intro l p
    have : l.zip (l.map f) = l.map fun r => (r, f r) := by
      induction l with
      | nil => rfl
      | cons r l ih => simp [ih]
    rw [this]
    simp
  unfold Indicated
  simp only [hz]
  induction l generalizing s with
  | nil => simp
  | cons r l ih =>
    obtain ⟨h1, h2⟩ := ih (indicateWorse r.lane r.grade (f r).grade s) fun q hq => hl q (List.mem_cons_of_mem _ hq)
    refine ⟨fun n k1 k2 => ?_, ?_⟩
    · rw [List.foldl_cons, h1 n k1 k2, indicateWorse_bit _ _ _ _ (hl r List.mem_cons_self) n k1 k2]
      simp only [List.exists_mem_cons_iff, or_assoc]
    · rw [List.foldl_cons, h2, indicateWorse_flag]
      simp only [List.exists_mem_cons_iff, or_assoc]

/-- Indications of two deliveries in turn, neither of which improves a grade. -/
theorem Indicated.trans {a b c : List ReelRecord} {s t u : State} (h1 : Indicated a b s t) (h2 : Indicated b c t u)
    (hab : List.Forall₂ (fun r r' => r'.lane = r.lane ∧ r.grade.code ≤ r'.grade.code) a b)
    (hbc : List.Forall₂ (fun r r' => r'.lane = r.lane ∧ r.grade.code ≤ r'.grade.code) b c) : Indicated a c s u := by
  rw [List.forall₂_iff_get] at hab hbc
  obtain ⟨l1, g1⟩ := hab
  obtain ⟨l2, g2⟩ := hbc
  simp only [List.get_eq_getElem] at g1 g2
  have worse : ∀ (q : Nat → Prop), (∃ p ∈ a.zip c, q p.1.lane ∧ p.1.grade.code < p.2.grade.code) ↔
      (∃ p ∈ a.zip b, q p.1.lane ∧ p.1.grade.code < p.2.grade.code) ∨
      ∃ p ∈ b.zip c, q p.1.lane ∧ p.1.grade.code < p.2.grade.code := by
    intro q
    simp only [exists_zip]
    constructor
    · rintro ⟨i, hi, hk, hq, hw⟩
      have e1 := g1 i hi (by omega)
      have e2 := g2 i (by omega) hk
      by_cases hh : a[i].grade.code < b[i].grade.code
      · exact .inl ⟨i, hi, by omega, hq, hh⟩
      · exact .inr ⟨i, by omega, hk, by rw [e1.1]; exact hq, by omega⟩
    · rintro (⟨i, hi, hk, hq, hw⟩ | ⟨i, hi, hk, hq, hw⟩)
      · have e2 := g2 i hk (by omega)
        exact ⟨i, hi, by omega, hq, by omega⟩
      · have e1 := g1 i (by omega) hi
        exact ⟨i, by omega, hk, by rw [← e1.1]; exact hq, by omega⟩
  have worse' := worse fun _ => True
  simp only [true_and] at worse'
  refine ⟨fun n k1 k2 => ?_, ?_⟩
  · rw [h2.1 n k1 k2, h1.1 n k1 k2, worse fun m => m = n, or_assoc]
  · rw [h2.2, h1.2, worse', or_assoc]

theorem Indicated.refl (a : List ReelRecord) (s : State) : Indicated a a s s := by
  unfold Indicated
  simp only [exists_zip, lt_irrefl, and_false, exists_false, or_false, implies_true, and_self]

theorem Indicated.congr {a b : List ReelRecord} {s s' t : State} (h : Indicated a b s t)
    (hi : s.reels.indications = s'.reels.indications) (hf : s.events.flag .laneGrade = s'.events.flag .laneGrade) :
    Indicated a b s' t := by
  unfold Indicated at *
  rw [← hi, ← hf]
  exact h

/-- A recomputation never improves a grade. -/
theorem Recomputed.le {s : State} {r r' : ReelRecord} {g : Grade} {c : Cause} (h : Recomputed s r r' g c) :
    r.grade.code ≤ g.code := by
  obtain ⟨g', c', -, h1, h2⟩ := h
  rcases Nat.lt_or_ge r.grade.code g'.code with h | h
  · rw [(h1 h).1]
    exact h.le
  · rw [(h2 h).1]
/-! ### Deliveries to the open set -/

/-- R113, R114: the records of the open set after a delivery to the lanes named. -/
theorem deliverTo_openSet (lanes : List Nat) (take : ReelRecord → ReelRecord) (s : State) (o : OpenSet)
    (h : s.reels.openSet = some o) :
    (deliverTo lanes take s).reels.openSet = some { o with
      reels := o.reels.map fun r =>
        if lanes.contains r.lane then regrade s.reels.grading (s.plan.forced r.lane) (take r) else r } := by
  have key : ∀ (f : ReelRecord → ReelRecord) (l : List ReelRecord) (t : State),
      (l.foldl (fun s r => indicateWorse r.lane r.grade (f r).grade s) t).reels.openSet = t.reels.openSet := by
    intro f l
    induction l with
    | nil => intro t; rfl
    | cons r l ih => intro t; exact (ih _).trans ((indicateWorse_touches _ _ _ t).same .openSet)
  unfold deliverTo
  dsimp only
  rw [key]
  unfold setOpenReels State.openReels
  rw [h]
  rfl

/-- R119: what a delivery to the lanes named indicates. -/
theorem deliverTo_indicated (lanes : List Nat) (take : ReelRecord → ReelRecord) (s : State) (o : OpenSet)
    (h : s.reels.openSet = some o) (hl : ∀ r ∈ o.reels, 1 ≤ r.lane) :
    Indicated o.reels
      (o.reels.map fun r => if lanes.contains r.lane then regrade s.reels.grading (s.plan.forced r.lane) (take r) else r)
      s (deliverTo lanes take s) := by
  have hs : s.openReels = o.reels := by
    unfold State.openReels
    rw [h]
  unfold deliverTo
  dsimp only
  rw [hs]
  refine (indicateWorse_fold _ o.reels _ hl).congr ?_ ?_ <;>
    (unfold setOpenReels; rw [h]; rfl)

/-- R101, R113, R119: a flag's delivery over a list of lanes without repeats, record by record, and what it indicates. -/
theorem deliverLanes_openSet (item : LaneRecord → FlagItem) (l : List Nat) (hn : l.Nodup) (s : State) (o : OpenSet)
    (h : s.reels.openSet = some o) :
    ∃ rs, (l.foldl (fun s n =>
        if (s.plan.lane n).hasReel then deliverTo [n] (takeFlag (item (s.plan.lane n))) s else s) s).reels.openSet =
      some { o with reels := rs } ∧
      List.Forall₂ (fun r r' => if r.lane ∈ l ∧ (s.plan.lane r.lane).hasReel = true
        then TookFlag s (item (s.plan.lane r.lane)) r r' else r' = r) o.reels rs ∧
      ((∀ r ∈ o.reels, 1 ≤ r.lane) → Indicated o.reels rs s (l.foldl (fun s n =>
        if (s.plan.lane n).hasReel then deliverTo [n] (takeFlag (item (s.plan.lane n))) s else s) s)) := by
  have mono : ∀ (q : ReelRecord → Prop) [DecidablePred q] (s : State) (a b : List ReelRecord),
      List.Forall₂ (fun r r' => if q r then TookFlag s (item (s.plan.lane r.lane)) r r' else r' = r) a b →
      List.Forall₂ (fun r r' => r'.lane = r.lane ∧ r.grade.code ≤ r'.grade.code) a b := by
    intro q _ s a b h
    refine h.imp fun r r' hr => ?_
    split at hr
    · exact ⟨hr.lane, hr.2.1.le⟩
    · rw [hr]
      exact ⟨rfl, le_refl _⟩
  induction l generalizing s o with
  | nil =>
    refine ⟨o.reels, h, List.forall₂_same.mpr fun r _ => by simp, fun hl => ?_⟩
    exact Indicated.refl _ _
  | cons n l ih =>
    obtain ⟨hnl, hn⟩ := List.nodup_cons.mp hn
    rw [List.foldl_cons]
    by_cases hr : (s.plan.lane n).hasReel = true
    · rw [if_pos hr]
      have ho := deliverTo_openSet [n] (takeFlag (item (s.plan.lane n))) s o h
      have hp := (deliverTo_touches [n] (takeFlag (item (s.plan.lane n))) s).plan
      have hg := (deliverTo_touches [n] (takeFlag (item (s.plan.lane n))) s).same .grading
      obtain ⟨rs, h1, h2, h3⟩ := ih hn _ _ ho
      refine ⟨rs, h1, ?_, fun hl => ?_⟩
      swap
      · refine (deliverTo_indicated [n] _ s o h hl).trans (h3 ?_) ?_ (mono _ _ _ _ h2)
        · intro r hr
          obtain ⟨q, hq, rfl⟩ := List.mem_map.mp hr
          split
          · rw [(takeFlag_tookFlag s _ q).lane]
            exact hl q hq
          · exact hl q hq
        · rw [List.forall₂_map_right_iff]
          refine List.forall₂_same.mpr fun r _ => ?_
          split
          · exact ⟨(takeFlag_tookFlag s _ r).lane, (takeFlag_tookFlag s _ r).2.1.le⟩
          · exact ⟨rfl, le_refl _⟩
      rw [List.forall₂_map_left_iff, hp] at h2
      refine h2.imp fun r r' hrr => ?_
      by_cases e : r.lane = n
      · have hc : [n].contains r.lane = true := by simp [e]
        rw [hc] at hrr
        simp only [if_true] at hrr
        rw [(takeFlag_tookFlag s (item (s.plan.lane n)) r).lane, if_neg (by rw [e]; tauto)] at hrr
        rw [if_pos ⟨by simp [e], by rw [e]; exact hr⟩, hrr, e]
        rw [← e]
        exact takeFlag_tookFlag s _ r
      · have hc : [n].contains r.lane = false := by simp [e]
        rw [hc] at hrr
        simp only [Bool.false_eq_true, if_false] at hrr
        by_cases k : r.lane ∈ l ∧ (s.plan.lane r.lane).hasReel = true
        · rw [if_pos k] at hrr
          rw [if_pos ⟨List.mem_cons_of_mem _ k.1, k.2⟩]
          exact hrr.congr hg.symm hp.symm
        · rw [if_neg k] at hrr
          rw [if_neg (by simpa [e] using k)]
          exact hrr
    · rw [if_neg hr]
      obtain ⟨rs, h1, h2, h3⟩ := ih hn s o h
      refine ⟨rs, h1, h2.imp fun r r' hrr => ?_, h3⟩
      by_cases e : r.lane = n
      · rw [if_neg (by rw [e]; tauto)] at hrr
        rw [if_neg (by rw [e]; tauto)]
        exact hrr
      · simpa [e] using hrr

/-! ### What a delivery comes to (R42, R101, R113 to R119) -/

/-- Counts in lanes raise no event but TALLY_SAT. -/
theorem countLanes_flag (c : LaneCount) (l : List Nat) (s : State) (f : Event) (hf : f ≠ .tallySat) :
    (l.foldl (fun s n => countLane n c 1 s) s).events.flag f = s.events.flag f := by
  induction l generalizing s with
  | nil => rfl
  | cons n l ih => rw [List.foldl_cons, ih, countLane_flag _ _ _ _ _ hf]

/-- Indications up to a state that has the same reels and the same LANE_GRADE. -/
theorem Indicated.right {a b : List ReelRecord} {s t u : State} (h : Indicated a b s t) (hi : u.reels = t.reels)
    (hf : u.events.flag .laneGrade = t.events.flag .laneGrade) : Indicated a b s u := by
  unfold Indicated at *
  rw [hi, hf]
  exact h

/-- R101, R113: a flag delivered over a lane set without repeats. -/
theorem deliverFlag_delivered (e : Entry) (lanes : List Nat) (shift : Int) (o : OpenSet) (s : State)
    (ho : s.reels.openSet = some o) (hn : lanes.Nodup) (hr : ∀ n ∈ lanes, 1 ≤ n ∧ n ≤ 24)
    (h16 : s.tally.live.totals.length = 16) (h24 : s.tally.live.lanes.length = 24) :
    FlagDelivered e lanes shift o s (deliverFlag e lanes shift o.wStart s) := by
  have htaken : ∀ n, n ∈ s.plan.taken lanes ↔ n ∈ lanes ∧ (s.plan.lane n).used = true := by
    intro n
    unfold SlitPlan.taken
    simp
  refine ⟨fun hall => ?_, fun ⟨m, hm, hu⟩ => ?_⟩
  · have htk : s.plan.taken lanes = [] := by
      rw [List.eq_nil_iff_forall_not_mem]
      intro n hn
      obtain ⟨h1, h2⟩ := (htaken n).1 hn
      rw [hall n h1] at h2
      cases h2
    have hd : deliverFlag e lanes shift o.wStart s = countTotal .unassigned 1 s := by
      unfold deliverFlag
      dsimp only
      rw [if_pos htk]
    rw [hd]
    refine ⟨?_, (countTotal_touches _ _ _).reels, ?_, countTotal_flag _ _ _ _ (by decide)⟩
    · unfold CountedOnce
      rw [countTotal_total _ _ _ _ h16, if_pos rfl]
    · unfold countTotal
      dsimp only
      rw [raiseIf_tally]
      rfl
  · have htk : s.plan.taken lanes ≠ [] := List.ne_nil_of_mem ((htaken m).2 ⟨hm, hu⟩)
    have htn : (s.plan.taken lanes).Nodup := hn.filter _
    generalize hF : (s.plan.taken lanes).foldl (fun s n => countLane n .flags 1 s) s = u
    have hu' : Touches Part.counting s u := hF ▸ countLanes_touches .flags _ s
    have hd : deliverFlag e lanes shift o.wStart s = (s.plan.taken lanes).foldl (fun s n =>
        if (s.plan.lane n).hasReel then deliverTo [n] (takeFlag (flagItemOf e shift o.wStart (s.plan.lane n))) s
        else s) u := by
      unfold deliverFlag
      dsimp only
      rw [if_neg htk, hF]
    have hD : Touches [.openSet, .indications, .flags] u (deliverFlag e lanes shift o.wStart s) := by
      rw [hd]
      refine touches_foldl (fun t n => ?_) _ _
      split
      · exact deliverTo_touches _ _ _
      · exact Touches.refl _ _
    obtain ⟨rs, h1, h2, h3⟩ := deliverLanes_openSet (fun l => flagItemOf e shift o.wStart l) (s.plan.taken lanes) htn u o
      (by rw [hu'.reels]; exact ho)
    refine ⟨by rw [hD.total, ← hF, countLanes_total], fun n n1 n2 => ?_, rs, by rw [hd]; exact h1, ?_, fun hl => ?_⟩
    · rw [hD.tally, ← hF, countLanes_lane .flags _ s htn (fun k hk => hr k ((htaken k).1 hk).1) h24 n n1]
      by_cases hin : n ∈ lanes ∧ (s.plan.lane n).used = true
      · rw [if_pos ((htaken n).2 hin), if_pos hin]
        rfl
      · rw [if_neg (by rw [htaken]; exact hin), if_neg hin]
    · refine h2.imp fun r r' h => ?_
      rw [hu'.plan] at h
      by_cases hc : r.lane ∈ lanes ∧ (s.plan.lane r.lane).used = true ∧ (s.plan.lane r.lane).disposition ≠ .trim
      · rw [if_pos hc]
        rw [if_pos ⟨(htaken _).2 ⟨hc.1, hc.2.1⟩, by simpa [LaneRecord.hasReel] using hc.2.2⟩] at h
        exact h.congr (by rw [hu'.reels]) hu'.plan.symm
      · rw [if_neg hc]
        rw [if_neg (by rw [htaken]; simpa [LaneRecord.hasReel, and_assoc] using hc)] at h
        exact h
    · have h4 := h3 hl
      rw [← hd] at h4
      exact h4.congr (by rw [hu'.reels]) (by rw [← hF, countLanes_flag _ _ _ _ (by decide)])

/-- R101, R114: a splice delivered. -/
theorem deliverSplice_delivered (o : OpenSet) (s : State) (ho : s.reels.openSet = some o)
    (h24 : s.tally.live.lanes.length = 24) : SpliceDelivered o s (deliverSplice s) := by
  generalize hF : s.plan.usedLanes.foldl (fun s n => countLane n .splices 1 s) s = u
  have hu : Touches Part.counting s u := hF ▸ countLanes_touches .splices _ s
  have hd : deliverSplice s = deliverTo (u.openReels.map fun r => r.lane)
      (fun r => { r with spliceCount := saturate 255 1 r.spliceCount }) u := by
    unfold deliverSplice
    dsimp only
    rw [hF]
  have hD := deliverTo_touches (u.openReels.map fun r => r.lane)
    (fun r => { r with spliceCount := saturate 255 1 r.spliceCount }) u
  rw [← hd] at hD
  have huo : u.reels.openSet = some o := by rw [hu.reels]; exact ho
  have hg : u.reels.grading = s.reels.grading := by rw [hu.reels]
  have hoo := deliverTo_openSet (u.openReels.map fun r => r.lane)
    (fun r => { r with spliceCount := saturate 255 1 r.spliceCount }) u o huo
  rw [← hd] at hoo
  refine ⟨deliverSplice_total s _, fun n n1 n2 => ?_, _, hoo, ?_, fun hl => ?_⟩
  · rw [hD.tally, ← hF, countLanes_lane .splices s.plan.usedLanes s (laneNumbers_ascending.filter _).nodup
      (fun m hm => by have := (mem_usedLanes _ _).1 hm; tauto) h24 n n1]
    by_cases hin : (s.plan.lane n).used = true
    · rw [if_pos ((mem_usedLanes _ _).2 ⟨n1, n2, hin⟩), if_pos hin]
      rfl
    · rw [if_neg (by rw [mem_usedLanes]; tauto), if_neg hin]
  · rw [List.forall₂_map_right_iff]
    refine List.forall₂_same.mpr fun r hr => ?_
    have hc : (u.openReels.map fun r => r.lane).contains r.lane = true := by
      unfold State.openReels
      rw [huo]
      simp only [List.contains_eq_mem, List.mem_map, decide_eq_true_eq]
      exact ⟨r, hr, rfl⟩
    rw [hc, if_pos rfl, hg, hu.plan]
    exact ⟨regrade_keeps s.reels.grading (s.plan.forced r.lane) { r with spliceCount := saturate 255 1 r.spliceCount },
      regrade_recomputed s r _ rfl rfl⟩
  · have h4 := deliverTo_indicated (u.openReels.map fun r => r.lane)
      (fun r => { r with spliceCount := saturate 255 1 r.spliceCount }) u o huo hl
    rw [← hd] at h4
    exact h4.congr (by rw [hu.reels]) (by rw [← hF, countLanes_flag _ _ _ _ (by decide)])

/-- What a delivery is read from: the reels, the plan, the lane tallies, UNASSIGNED and LANE_GRADE. -/
structure SameReels (s t : State) : Prop where
  reels : t.reels = s.reels
  plan : t.plan = s.plan
  lanes : t.tally.live.lanes = s.tally.live.lanes
  unassigned : t.total .unassigned = s.total .unassigned
  grade : t.events.flag .laneGrade = s.events.flag .laneGrade

theorem SameReels.of {s t : State} (h1 : t.reels = s.reels) (h2 : t.plan = s.plan) (h3 : t.tally = s.tally)
    (h4 : t.events = s.events) : SameReels s t :=
  ⟨h1, h2, by rw [h3], by unfold State.total; rw [h3], by rw [h4]⟩

theorem SameReels.trans {s t u : State} (h : SameReels s t) (k : SameReels t u) : SameReels s u :=
  ⟨k.1.trans h.1, k.2.trans h.2, k.3.trans h.3, k.4.trans h.4, k.5.trans h.5⟩

theorem SameReels.symm {s t : State} (h : SameReels s t) : SameReels t s :=
  ⟨h.1.symm, h.2.symm, h.3.symm, h.4.symm, h.5.symm⟩

/-- A count of another total leaves what a delivery is read from. -/
theorem countTotal_sameReels (k : Total) (n : Nat) (s : State) (hk : k ≠ .unassigned)
    (h16 : s.tally.live.totals.length = 16) : SameReels s (countTotal k n s) :=
  ⟨(countTotal_touches k n s).reels, (countTotal_touches k n s).plan, by
    unfold countTotal
    dsimp only
    rw [raiseIf_tally]
    rfl, by rw [countTotal_total _ _ _ _ h16, if_neg hk], countTotal_flag _ _ _ _ (by decide)⟩

theorem FlagDelivered.of_same {e : Entry} {lanes : List Nat} {shift : Int} {o : OpenSet} {s s' t u : State}
    (h : FlagDelivered e lanes shift o s t) (hs : SameReels s s') (ht : SameReels t u) :
    FlagDelivered e lanes shift o s' u := by
  have lane : ∀ {a b : State}, SameReels a b → ∀ n, b.tally.live.lane n = a.tally.live.lane n := by
    intro a b h n
    unfold TallyBank.lane
    rw [h.lanes]
  unfold FlagDelivered CountedOnce TookFlag Recomputed itemOf Indicated at *
  simp only [lane hs, lane ht, hs.reels, hs.plan, hs.lanes, hs.unassigned, hs.grade, ht.reels, ht.lanes,
    ht.unassigned, ht.grade]
  exact h

theorem SpliceDelivered.of_same {o : OpenSet} {s s' t u : State} (h : SpliceDelivered o s t) (hs : SameReels s s')
    (ht : SameReels t u) : SpliceDelivered o s' u := by
  have lane : ∀ {a b : State}, SameReels a b → ∀ n, b.tally.live.lane n = a.tally.live.lane n := by
    intro a b h n
    unfold TallyBank.lane
    rw [h.lanes]
  unfold SpliceDelivered Recomputed Indicated at *
  simp only [lane hs, lane ht, hs.reels, hs.plan, hs.unassigned, hs.grade, ht.reels, ht.unassigned, ht.grade]
  exact h

theorem Delivered.of_same {e : Entry} {o : OpenSet} {s s' t u : State} (h : Delivered e o s t) (hs : SameReels s s')
    (ht : SameReels t u) : Delivered e o s' u := by
  unfold Delivered at *
  split at h
  · obtain ⟨lanes, shift, h1, h2⟩ := h
    exact ⟨lanes, shift, h1, h2.of_same hs ht⟩
  · exact h.of_same hs ht

theorem PassedAs.of_plan {s s' : State} {e f : Entry} (h : PassedAs s e f) (hp : s'.plan = s.plan) : PassedAs s' e f := by
  unfold PassedAs LaneSetOf at *
  rw [hp]
  exact h

theorem CommittedIn.of_same {e : Entry} {s s' t u : State} (h : CommittedIn e s t) (hs : SameReels s s')
    (ht : SameReels t u) (hl : s'.total .late = s.total .late) (hr : s'.track.late = s.track.late)
    (hw : s'.total .unwound = s.total .unwound) (ul : u.total .late = t.total .late) (ur : u.track.late = t.track.late)
    (uw : u.total .unwound = t.total .unwound) : CommittedIn e s' u := by
  obtain ⟨h1, h2, h3, h4⟩ := h
  refine ⟨by rw [ul, hl, h1], by rw [ur, hr, h2], by rw [uw, hw, h3], fun o ho => ?_⟩
  obtain ⟨f, hf, hd⟩ := h4 o (by rw [← hs.reels]; exact ho)
  refine ⟨f, ?_, hd.of_same hs ht⟩
  split at hf <;> rename_i ha
  · rw [if_pos ha]
    exact hf.of_plan hs.plan
  · rw [if_neg ha]
    exact hf

/-- R31, R42: an entry committed into the open set is delivered, its knife made for it first while it is AHEAD. -/
theorem commitEntry_committedIn (e : Entry) (s : State) (h16 : s.tally.live.totals.length = 16)
    (h24 : s.tally.live.lanes.length = 24) (ho : s.openFor e.w = true)
    (hn : e.lanes.Nodup ∧ ∀ n ∈ e.lanes, 1 ≤ n ∧ n ≤ 24) : CommittedIn e s (commitEntry (passKnife s e) s) := by
  have pe : (passKnife s e).w = e.w ∧ (passKnife s e).kind = e.kind := by
    unfold passKnife
    cases e.passage <;> exact ⟨rfl, rfl⟩
  have ho' : s.openFor (passKnife s e).w = true := by rw [pe.1]; exact ho
  refine ⟨commitEntry_total _ s .late h16 ho' (by decide), by rw [commitEntry_entries],
    commitEntry_total _ s .unwound h16 ho' (by decide), fun o hs => ⟨passKnife s e, ?_, ?_⟩⟩
  · split
    · rename_i ha
      exact passKnife_passedAs s e ha
    · rename_i ha
      exact passKnife_slit s e ha
  · have hw : o.wStart ≤ (passKnife s e).w := by
      unfold State.openFor at ho'
      rw [hs] at ho'
      simpa using ho'
    have hc : commitEntry (passKnife s e) s = setStatus (passKnife s e).mapIndex .retired
        (deliverEntry (passKnife s e) o.wStart s) := by
      unfold commitEntry
      rw [hs]
      dsimp only
      rw [if_pos hw]
    rw [hc]
    have st := setStatus_touches (passKnife s e).mapIndex .retired (deliverEntry (passKnife s e) o.wStart s)
    refine Delivered.of_same (s := s) (t := deliverEntry (passKnife s e) o.wStart s) ?_ (SameReels.of rfl rfl rfl rfl)
      (SameReels.of st.reels st.plan st.tally st.events)
    unfold Delivered deliverEntry
    cases (passKnife s e).kind <;> dsimp only
    · have hl : ∃ lanes shift, (passKnife s e).passage = .slit lanes shift ∧ lanes.Nodup ∧ ∀ n ∈ lanes, 1 ≤ n ∧ n ≤ 24 := by
        cases ha : e.passage with
        | ahead =>
          obtain ⟨lanes, h1, h2⟩ := passKnife_passedAs s e ha
          refine ⟨lanes, s.plan.webShift, by rw [h2], h1.1.imp fun h => ne_of_lt h, fun n hm => ?_⟩
          have h3 := (h1.2 n).1 hm
          exact ⟨h3.1, h3.2.1⟩
        | slit lanes shift =>
          refine ⟨lanes, shift, by rw [passKnife_slit s e (by rw [ha]; exact fun h => nomatch h), ha], ?_⟩
          unfold Entry.lanes at hn
          rw [ha] at hn
          exact hn
      obtain ⟨lanes, shift, h1, h2, h3⟩ := hl
      refine ⟨lanes, shift, h1, ?_⟩
      unfold Entry.lanes Entry.knifeShift
      rw [h1]
      exact deliverFlag_delivered _ lanes shift o s hs h2 h3 h16 h24
    · exact deliverSplice_delivered o s hs h24

end Sys2Proof.Machine
end

