-- ==== Sys2Proof/Laws/Moves.lean ====
section
/-! SUPPORT. What a moved entry and a placed item come to, in the terms of the claims (R22, R30 to R35, R45, R46). -/

namespace Sys2Proof.Machine

/-! ### Moved entries (R35, R45, R46) -/

theorem MovedTo.of_same {e : Entry} {rest : List Entry} {s s' t u : State} (h : MovedTo e rest s t)
    (hs : SameReels s s') (hsr : s'.pmap.records = s.pmap.records) (hsl : s'.track.late = s.track.late)
    (hst : s'.total .late = s.total .late) (hsw : s'.total .unwound = s.total .unwound) (hsp : s'.pos = s.pos)
    (ht : SameReels t u) (hr : u.pmap.records = t.pmap.records) (he : u.track.entries = t.track.entries)
    (hl : u.track.late = t.track.late) (hk : u.total .late = t.total .late) (hw : u.total .unwound = t.total .unwound)
    (hf : u.events.flag .lateFlag = t.events.flag .lateFlag) : MovedTo e rest s' u := by
  have hc : s'.commitLine = s.commitLine := by unfold State.commitLine; rw [hsp]
  have hkn : s'.knifeLine = s.knifeLine := by unfold State.knifeLine; rw [hsp]
  have ho : s'.openFor e.w = s.openFor e.w := by unfold State.openFor; rw [hs.reels]
  unfold MovedTo at *
  rw [hc, hkn, ho]
  split at h <;> rename_i h1
  · rw [if_pos h1, hr, he, hk, hsr, hst]
    refine ⟨h.1, h.2.1, ?_⟩
    obtain ⟨f, h2, h3⟩ := h.2.2
    refine ⟨f, h2, ?_⟩
    split at h3 <;> rename_i h4
    · rw [if_pos h4]
      exact h3.of_plan hs.plan
    · rw [if_neg h4]
      exact h3
  · rw [if_neg h1, he]
    refine ⟨h.1, ?_⟩
    have h2 := h.2
    split at h2 <;> rename_i h3
    · rw [if_pos h3]
      refine ⟨?_, h2.2.of_same hs ht hst hsl hsw hk hl hw⟩
      unfold Reported at *
      rw [hr, hsr]
      exact h2.1
    · rw [if_neg h3]
      unfold FoundLate CountedOnce Reported at *
      rw [hr, hl, hk, hf, hsr, hst]
      exact h2

/-- R45: an entry moved comes to rest as the claims say, whatever the list it was taken from. -/
theorem placeMoved_movedTo (e : Entry) (s : State) (h : s.tally.live.totals.length = 16)
    (h24 : s.tally.live.lanes.length = 24) (hn : e.lanes.Nodup ∧ ∀ n ∈ e.lanes, 1 ≤ n ∧ n ≤ 24)
    (hs : s.track.entries.Pairwise fun x y => x.w ≤ y.w) : MovedTo e s.track.entries s (placeMoved e s) := by
  unfold MovedTo placeMoved
  by_cases hc : s.commitLine < e.w
  · rw [if_pos hc, if_pos hc]
    by_cases hk : s.knifeLine < e.w
    · rw [if_pos hk]
      refine ⟨rfl, rfl, e, insertEntry_eq e _ hs, ?_⟩
      rw [if_neg (by omega)]
    · rw [if_neg hk]
      refine ⟨rfl, rfl, passKnife s e, insertEntry_eq _ _ hs, ?_⟩
      by_cases ha : e.passage = .ahead
      · rw [if_pos ⟨by omega, ha⟩]
        exact passKnife_passedAs s e ha
      · rw [if_neg (by tauto)]
        exact passKnife_slit s e ha
  · rw [if_neg hc, if_neg hc]
    by_cases ho : s.openFor e.w = true
    · rw [if_pos ho, if_pos ho]
      refine ⟨by rw [commitEntry_entries], ?_, commitEntry_committedIn e s h h24 ho hn⟩
      have hm : (passKnife s e).mapIndex = e.mapIndex := by
        unfold passKnife
        cases e.passage <;> rfl
      rw [← hm]
      exact commitEntry_reported _ s
    · rw [if_neg ho, if_neg ho]
      exact ⟨lateItem_entries _ _ _ _ s, lateItem_foundLate _ _ _ _ s h⟩

/-- What a re-placement step leaves (R45, R69). -/
theorem replaceEntry_eq (e : Entry) (s : State) :
    replaceEntry e s =
      if s.predictionFor e < 0 then lateItem e.kind (s.predictionFor e) e.cls e.mapIndex (takeEntry e s)
      else placeMoved { e with pendingReplace := false, w := min (s.predictionFor e) posMax } (takeEntry e s) := rfl

theorem predictionFor_eq (e : Entry) (s : State) (i : Nat) (r : MapRecord) (hi : e.mapIndex = some i)
    (hr : s.pmap.records[i]? = some r) : s.predictionFor e = s.predict r.m := by
  unfold State.predictionFor State.mapRecord
  rw [hi]
  dsimp only
  rw [hr]

/-! ### Placed items (R22, R30 to R32) -/

theorem PlacedIn.of_same {it : Item} {s s' t u : State} (h : PlacedIn it s t) (hs : SameReels s s')
    (hsr : s'.pmap.records = s.pmap.records) (hsk : s'.track = s.track) (hst : s'.total .late = s.total .late)
    (hsw : s'.total .unwound = s.total .unwound) (hsp : s'.pos = s.pos) (ht : SameReels t u)
    (hr : u.pmap.records = t.pmap.records) (hk : u.track = t.track) (hl : u.total .late = t.total .late)
    (hw : u.total .unwound = t.total .unwound) (hf : u.events.flag .lateFlag = t.events.flag .lateFlag) :
    PlacedIn it s' u := by
  have hc : s'.commitLine = s.commitLine := by unfold State.commitLine; rw [hsp]
  have hkn : s'.knifeLine = s.knifeLine := by unfold State.knifeLine; rw [hsp]
  have ho : s'.openFor it.w = s.openFor it.w := by unfold State.openFor; rw [hs.reels]
  have hm : newEntry it s' = newEntry it s := by unfold newEntry; rw [hsk]
  unfold PlacedIn MadeOne at *
  rw [hc, hkn, ho, hk, hsk, hm]
  split at h <;> rename_i h1
  · rw [if_pos h1, hl, hst]
    refine ⟨h.1, h.2.1, ?_⟩
    obtain ⟨f, h2, h3⟩ := h.2.2
    refine ⟨f, h2, ?_⟩
    split at h3 <;> rename_i h4
    · rw [if_pos h4]
      exact h3.of_plan hs.plan
    · rw [if_neg h4]
      exact h3
  · rw [if_neg h1]
    refine ⟨h.1, ?_⟩
    have h2 := h.2
    split at h2 <;> rename_i h3
    · rw [if_pos h3]
      refine ⟨h2.1, ?_, h2.2.2.of_same hs ht hst (by rw [hsk]) hsw hl (by rw [hk]) hw⟩
      unfold Reported at *
      rw [hr, hsr]
      exact h2.2.1
    · rw [if_neg h3]
      refine ⟨h2.1, ?_⟩
      unfold FoundLate CountedOnce Reported at *
      rw [hr, hk, hl, hf, hsr, hst]
      exact h2.2

/-- R22, R24: an item stored. -/
theorem storeItem_stored (it : Item) (s : State) (hs : s.track.entries.Pairwise fun x y => x.w ≤ y.w) :
    MadeOne s (storeItem it s) ∧
    ∃ f, (storeItem it s).track.entries = insertedInOrder f s.track.entries ∧
      if it.w ≤ s.knifeLine then PassedAs s (newEntry it s) f else f = newEntry it s := by
  refine ⟨⟨rfl, rfl⟩, ?_⟩
  unfold storeItem
  by_cases hk : s.knifeLine < it.w
  · simp only [hk, if_true]
    refine ⟨entryOfItem it s, insertEntry_eq _ _ hs, ?_⟩
    rw [if_neg (by omega)]
    rfl
  · simp only [hk, if_false]
    refine ⟨passKnife s (entryOfItem it s), insertEntry_eq _ _ hs, ?_⟩
    rw [if_pos (by omega)]
    exact passKnife_passedAs s _ rfl

/-- R30: an item placed, the list having room for it or no room being needed. -/
theorem placeItem_placedIn (it : Item) (s : State) (h : s.tally.live.totals.length = 16)
    (h24 : s.tally.live.lanes.length = 24)
    (hs : s.track.entries.Pairwise fun x y => x.w ≤ y.w) (hr : s.track.entries.length < 1024 ∨ it.w ≤ s.commitLine) :
    PlacedIn it s (placeItem it s).1 := by
  unfold PlacedIn placeItem
  by_cases hc : s.commitLine < it.w
  · rw [if_pos hc, if_pos hc]
    unfold storeOrMakeRoom
    rw [if_pos (hr.resolve_right (not_le_of_gt hc))]
    obtain ⟨h1, h2⟩ := storeItem_stored it s hs
    exact ⟨h1, rfl, h2⟩
  · rw [if_neg hc, if_neg hc]
    by_cases ho : s.openFor it.w = true
    · rw [if_pos ho, if_pos ho]
      dsimp only
      have hm : (passKnife s (entryOfItem it s)).mapIndex = it.mapIndex := by
        unfold passKnife
        cases (entryOfItem it s).passage <;> rfl
      have hc := commitEntry_committedIn (entryOfItem it s) (entryMade s) h h24 ho
        ⟨List.nodup_nil, fun n hn => absurd hn List.not_mem_nil⟩
      refine ⟨by rw [commitEntry_entries]; rfl, ⟨by rw [commitEntry_entries]; rfl, by rw [commitEntry_entries]; rfl⟩, ?_,
        hc.of_same (s' := s) (SameReels.of rfl rfl rfl rfl) (SameReels.of rfl rfl rfl rfl) rfl rfl rfl rfl rfl rfl⟩
      rw [← hm]
      exact commitEntry_reported _ (entryMade s)
    · rw [if_neg ho, if_neg ho]
      dsimp only
      exact ⟨lateItem_entries _ _ _ _ s,
        ((lateItem_touches it.kind it.w it.cls it.mapIndex s).same .entryCounters).1, lateItem_foundLate _ _ _ _ s h⟩

/-- R29, R30: which way a placement went. -/
theorem placeItem_handsOn (it : Item) (s : State) (hr : s.track.entries.length < 1024 ∨ it.w ≤ s.commitLine) :
    (placeItem it s).2.handsOn = (decide (s.commitLine < it.w) || s.openFor it.w) := by
  unfold placeItem storeOrMakeRoom
  by_cases hc : s.commitLine < it.w
  · simp [hc, hr.resolve_right (not_le_of_gt hc), Placed.handsOn]
  · by_cases ho : s.openFor it.w = true <;> simp [hc, ho, Placed.handsOn]

/-- R38, R67: of the requests that stand ahead of the walk, a placement changes that of class 4 at most, by a withdrawal. -/
theorem placeItem_yields (it : Item) (s : State) :
    (placeItem it s).1.align = { s.align with yields := { s.align.yields with
      release := (placeItem it s).1.align.yields.release } } := by
  have ha : ∀ {t : State} {ps : List Part}, Touches ps s t →
      (∀ p ∈ ([.anchors, .writeQueue, .sightings, .yields, .alignConfig] : List Part), p ∉ ps) →
      t.align = { s.align with yields := { s.align.yields with release := t.align.yields.release } } := by
    intro t ps h hp
    rw [h.align hp]
  unfold placeItem
  split
  · unfold storeOrMakeRoom
    split
    · rfl
    · split
      · rfl
      · split
        · rename_i e _
          have h := ((countTotal_touches .withdrawn 1 (takeEntry e s)).trans (rs := [.mapRecords] ++ Part.counting)
            (setStatus_touches e.mapIndex .unreleased _)).align
          have l : ∀ u : State, (lapseRelease u).align = { u.align with yields := { u.align.yields with
            release := (lapseRelease u).align.yields.release } } := fun _ => rfl
          refine (l _).trans ?_
          rw [h]
          rfl
        · exact ha ((countTotal_touches .lost 1 s).trans (rs := Part.counting) (raise_touches _ _)) (by decide)
  · split
    · exact ha ((show Touches [.entryCounters] s (entryMade s) from entryMade_touches s).trans
        (rs := [.entryCounters, .openSet, .indications, .mapRecords] ++ Part.counting) (commitEntry_touches _ _)) (by decide)
    · exact ha (lateItem_touches _ _ _ _ s) (by decide)

end Sys2Proof.Machine
end

