-- ==== Sys2Proof/Laws/Tallies.lean ====
section
/-! SUPPORT. Every shared operation keeps the tally banks bounded (R148, R150), and with them the 16 totals. -/

namespace Sys2Proof.Machine

theorem TalliesBounded.of_tally {s t : State} (h : TalliesBounded s) (e : t.tally = s.tally) : TalliesBounded t := by
  unfold TalliesBounded at *
  rw [e]
  exact h

/-- The bank holds its 16 totals. -/
theorem TalliesBounded.length {s : State} (h : TalliesBounded s) : s.tally.live.totals.length = 16 := h.1.1

theorem foldl_bounded {α : Type} (f : State → α → State) (hf : ∀ s a, TalliesBounded s → TalliesBounded (f s a))
    (l : List α) (s : State) (h : TalliesBounded s) : TalliesBounded (l.foldl f s) := by
  induction l generalizing s with
  | nil => exact h
  | cons a l ih => exact ih _ (hf s a h)

theorem zero_bounded : TallyBank.zero.bounded := by
  refine ⟨rfl, rfl, ?_, ?_⟩
  · intro n hn
    simp only [TallyBank.zero, List.mem_replicate] at hn
    omega
  · intro t ht
    simp only [TallyBank.zero, List.mem_replicate] at ht
    obtain ⟨_, rfl⟩ := ht
    exact ⟨Nat.zero_le _, Nat.zero_le _, Nat.zero_le _, Nat.zero_le _⟩

theorem snapTallies_bounded (c : SnapCause) (n : Option Nat) (s : State) (h : TalliesBounded s) :
    TalliesBounded (snapTallies c n s) := ⟨zero_bounded, h.1⟩

/-! ### Reels -/

theorem deliverFlag_bounded (e : Entry) (lanes : List Nat) (shift w : Int) (s : State) (h : TalliesBounded s) :
    TalliesBounded (deliverFlag e lanes shift w s) := by
  unfold deliverFlag
  dsimp only
  split
  · exact countTotal_bounded _ _ _ h
  · refine foldl_bounded _ (fun s n hs => ?_) _ _ (foldl_bounded _ (fun s n hs => countLane_bounded _ _ _ _ hs) _ _ h)
    split
    · exact hs.of_tally (deliverTo_touches _ _ _).tally
    · exact hs

theorem deliverSplice_bounded (s : State) (h : TalliesBounded s) : TalliesBounded (deliverSplice s) := by
  unfold deliverSplice
  exact (foldl_bounded _ (fun s n hs => countLane_bounded _ _ _ _ hs) _ _ h).of_tally (deliverTo_touches _ _ _).tally

theorem countReel_bounded (r : ReelRecord) (s : State) (h : TalliesBounded s) : TalliesBounded (countReel r s) :=
  countLane_bounded _ _ _ _ (countLane_bounded _ _ _ _ h)

theorem closeRecords_bounded (o : OpenSet) (line : Int) (c : SnapCause) (s : State) (h : TalliesBounded s) :
    TalliesBounded (closeRecords o line c s) := by
  unfold closeRecords
  dsimp only
  have := foldl_bounded (fun s r => countReel r s) (fun s r hs => countReel_bounded r s hs)
    (o.reels.map (closeReel s.reels.grading s.plan line))
    (s.setQueue { s.queue with records := s.queue.records ++ o.reels.map (closeReel s.reels.grading s.plan line) }) h
  split
  · exact snapTallies_bounded _ _ _ this
  · exact this

/-! ### Track List -/

theorem lateItem_bounded (k : ItemKind) (w : Int) (c : Fin 8) (i : Option Nat) (s : State) (h : TalliesBounded s) :
    TalliesBounded (lateItem k w c i s) := by
  unfold lateItem
  exact (TalliesBounded.of_tally (countTotal_bounded .late 1 s h) rfl : TalliesBounded
    ((raise .lateFlag (countTotal .late 1 s)).setTrack _)).of_tally (setStatus_touches _ _ _).tally

theorem commitEntry_bounded (e : Entry) (s : State) (h : TalliesBounded s) : TalliesBounded (commitEntry e s) := by
  unfold commitEntry
  refine TalliesBounded.of_tally ?_ (setStatus_touches _ _ _).tally
  split
  · exact countTotal_bounded _ _ _ h
  · split
    · unfold deliverEntry
      split
      · exact deliverFlag_bounded _ _ _ _ _ h
      · exact deliverSplice_bounded _ h
    · exact countTotal_bounded _ _ _ h

theorem placeMoved_bounded (e : Entry) (s : State) (h : TalliesBounded s) : TalliesBounded (placeMoved e s) := by
  unfold placeMoved
  split
  · split <;> exact h
  · split
    · exact commitEntry_bounded _ _ h
    · exact lateItem_bounded _ _ _ _ _ h

theorem replaceEntry_bounded (e : Entry) (s : State) (h : TalliesBounded s) : TalliesBounded (replaceEntry e s) := by
  rw [replaceEntry_eq]
  split
  · exact lateItem_bounded _ _ _ _ (takeEntry e s) h
  · exact placeMoved_bounded _ (takeEntry e s) h

theorem withdraw_bounded (e : Entry) (s : State) (h : TalliesBounded s) : TalliesBounded (withdraw e s) :=
  (countTotal_bounded .withdrawn 1 (takeEntry e s) h).of_tally
    ((setStatus_touches _ _ _).trans (rs := [.mapRecords, .yields]) (lapseRelease_touches _)).tally

theorem placeItem_bounded (it : Item) (s : State) (h : TalliesBounded s) : TalliesBounded (placeItem it s).1 := by
  unfold placeItem
  split
  · unfold storeOrMakeRoom
    split
    · exact h
    · split
      · exact h
      · split
        · exact withdraw_bounded _ _ h
        · exact countTotal_bounded _ _ _ h
  · split
    · exact commitEntry_bounded _ (entryMade s) h
    · exact lateItem_bounded _ _ _ _ _ h

theorem completeOp_bounded (b : Bool) (before s : State) (h : TalliesBounded s) :
    TalliesBounded (completeOp b before s) := h.of_tally (completeOp_touches b before s).tally

/-! ### Totals of one kind -/

/-- A moved entry counts no total but LATE and UNASSIGNED. -/
theorem placeMoved_total (e : Entry) (s : State) (k : Total) (h : s.tally.live.totals.length = 16) (hk : k ≠ .unassigned)
    (hl : k ≠ .late) : (placeMoved e s).total k = s.total k := by
  unfold placeMoved
  split
  · split <;> rfl
  · split
    · rename_i ho
      refine commitEntry_total _ s k h ?_ hk
      unfold passKnife
      split <;> exact ho
    · unfold lateItem
      rw [(setStatus_touches _ _ _).total]
      show (countTotal .late 1 s).total k = _
      rw [countTotal_total _ _ _ _ h, if_neg hl.symm]

/-- A placed item counts no total but LATE, UNASSIGNED, WITHDRAWN and LOST. -/
theorem placeItem_total (it : Item) (s : State) (k : Total) (h : s.tally.live.totals.length = 16)
    (hk : k ≠ .unassigned) (hl : k ≠ .late) (hw : k ≠ .withdrawn) (ho : k ≠ .lost) :
    (placeItem it s).1.total k = s.total k := by
  unfold placeItem
  split
  · unfold storeOrMakeRoom
    split
    · rfl
    · split
      · rfl
      · split
        · show (withdraw _ s).total k = _
          unfold withdraw
          rw [(lapseRelease_touches _).total, (setStatus_touches _ _ _).total]
          exact (countTotal_total _ _ _ (takeEntry _ s) h).trans (if_neg hw.symm)
        · exact (countTotal_total _ _ _ _ h).trans (if_neg ho.symm)
  · split
    · rename_i hop
      exact commitEntry_total _ (entryMade s) k h hop hk
    · unfold lateItem
      rw [(setStatus_touches _ _ _).total]
      show (countTotal .late 1 s).total k = _
      rw [countTotal_total _ _ _ _ h, if_neg hl.symm]

/-! ### Planner, sightings, links -/

theorem enterStopped_bounded (s : State) (h : TalliesBounded s) : TalliesBounded (enterStopped s) := by
  have h1 : TalliesBounded (countTotal .stopsMade 1
      (raise .stopDone (s.setPlanner { s.planner with state := .stopped, record := stopRecordOf s }))) :=
    countTotal_bounded _ _ _ h
  unfold enterStopped
  dsimp only
  split
  · exact countTotal_bounded _ _ _ h1
  · exact h1

theorem evaluateAtSample_bounded (s : State) (h : TalliesBounded s) : TalliesBounded (evaluateAtSample s) := by
  unfold evaluateAtSample
  have he := h.of_tally (evaluate_touches s).tally
  split
  · exact h
  · split <;> first | exact he | exact h | skip
    split
    · exact enterStopped_bounded s h
    · exact h

theorem bounded_ite {s t : State} {c : Prop} [Decidable c] (h : TalliesBounded s) (k : TalliesBounded t) :
    TalliesBounded (if c then s else t) := by
  split
  · exact h
  · exact k

theorem takeSighting_bounded (w : Int) (src : SightingSource) (u : Bool) (s : State) (h : TalliesBounded s) :
    TalliesBounded (takeSighting w src u s) := by
  have hg : TalliesBounded (s.setAlign { s.align with lastGuarded := some w }) := h
  unfold takeSighting
  refine bounded_ite (countTotal_bounded _ _ _ h) ?_
  dsimp only
  split
  · exact h
  · split
    · exact bounded_ite (hg.of_tally (acceptAnchor_touches _ _ _ _ _).tally) h
    · exact h

theorem discardMessage_bounded (r : ResultCode) (s : State) (h : TalliesBounded s) :
    TalliesBounded (discardMessage r s) :=
  countTotal_bounded .linkDropped 1 (popMessage s) (h.of_tally (popMessage_touches s).tally)

theorem discardFrame_bounded (s : State) (h : TalliesBounded s) : TalliesBounded (discardFrame s) :=
  countTotal_bounded .framesDiscarded 1 s h

theorem takeByte_bounded (b : RxByte) (s : State) (h : TalliesBounded s) : TalliesBounded (takeByte b s) := by
  unfold takeByte
  split
  · exact discardFrame_bounded s h
  · exact h

theorem pumpOnce_bounded (s : State) (h : TalliesBounded s) : TalliesBounded (pumpOnce s) := by
  unfold pumpOnce
  split
  · exact h
  · split
    · exact h
    · exact takeByte_bounded _ _ h

theorem pump_bounded (s : State) (h : TalliesBounded s) : TalliesBounded (pump s) :=
  pumpOnce_bounded _ (pumpOnce_bounded _ h)

theorem replyWith_bounded (k : Byte) (body : List Byte) (s : State) (h : TalliesBounded s) :
    TalliesBounded (replyWith k body s) := pump_bounded _ h

theorem abandonMessage_bounded (s : State) (h : TalliesBounded s) : TalliesBounded (abandonMessage s) := by
  unfold abandonMessage
  cases s.link.phase <;> first | exact h | exact countTotal_bounded _ _ _ h

end Sys2Proof.Machine
end

