-- ==== Sys2Proof/Laws/Align.lean ====
section
/-! SUPPORT. What a taken sighting comes to (R61 to R65), and how an access of the Line Port begins and ends (R161). -/

namespace Sys2Proof.Machine

/-! ### Sightings -/

/-- R60: the handling of a taken sighting leaves the latch alone. -/
theorem takeSighting_latch (w : Int) (src : SightingSource) (u : Bool) (s : State) :
    (takeSighting w src u s).align.latch = s.align.latch := by
  unfold takeSighting
  dsimp only
  rw [apply_ite State.align, apply_ite AlignmentUnit.latch, (countTotal_touches _ _ s).align, ite_eq_left_iff]
  intro _
  split
  · rfl
  · split
    · split
      · exact ((acceptAnchor_touches _ _ _ _ _).same .sightings).1
      · rfl
    · rfl

/-- The state in which a sighting that passed the guard is handled. -/
def State.guardedAt (s : State) (w : Int) : State := s.setAlign { s.align with lastGuarded := some w }

/-- R61: a sighting within SPLICE_GUARD of the last guarded one is counted and ignored. -/
theorem takeSighting_guarded (w last : Int) (src : SightingSource) (u : Bool) (s : State)
    (hl : s.align.lastGuarded = some last) (h : |w - last| ≤ s.align.spliceGuard) :
    takeSighting w src u s = countTotal .sightingsIgnored 1 s := by
  unfold takeSighting
  simp only [hl, absInt_eq_abs, decide_eq_true_eq, h, if_true]

/-- R61: a sighting that passes the guard is matched with the guard set to it. -/
theorem takeSighting_passed (w : Int) (src : SightingSource) (u : Bool) (s : State) (h : s.passesGuard w) :
    takeSighting w src u s =
      match s.matchFor w u with
      | none => appendWrite (.liveSplice w src u) (raise .spliceUnexpected (s.guardedAt w))
      | some i =>
        match s.mapRecord i, s.align.anchors with
        | some r, a :: _ =>
          if anchorAccepted a ⟨r.m, w⟩ then acceptAnchor i r a ⟨r.m, w⟩ (s.guardedAt w)
          else appendWrite (.liveSplice w src u) (raise .anchorRejected (s.guardedAt w))
        | _, _ => appendWrite (.liveSplice w src u) (raise .anchorRejected (s.guardedAt w)) := by
  unfold takeSighting
  cases hl : s.align.lastGuarded with
  | none =>
    simp only [Bool.false_eq_true, if_false]
    rfl
  | some last =>
    have hlt : ¬ |w - last| ≤ s.align.spliceGuard := by
      have := h last hl
      omega
    simp only [absInt_eq_abs, decide_eq_true_eq, hlt, if_false]
    rfl

/-- R62: the candidate a sighting matches, as the claims say it. -/
theorem matchesSighting_iff (s : State) (w : Int) (r : MapRecord) :
    s.matchesSighting w r = true ↔ s.matchesRecord w r := by
  unfold State.matchesSighting State.matchesRecord
  rw [absInt_eq_abs]
  simp [and_assoc]

theorem matchFor_none (s : State) (w : Int) (u : Bool) (h : s.matchesNone w u) : s.matchFor w u = none := by
  unfold State.matchFor
  by_cases hc : (u || decide (w < 0) || decide (posMax < w)) = true
  · rw [if_pos hc]
  · rw [if_neg hc, List.findIdx?_eq_none_iff]
    intro r hr
    rw [← Bool.not_eq_true, matchesSighting_iff]
    simp only [Bool.or_eq_true, decide_eq_true_eq, not_or] at hc
    rcases h with h | h | h | h
    · exact absurd h hc.1.1
    · exact absurd h hc.1.2
    · exact absurd h hc.2
    · exact h r hr

theorem matchFor_some (s : State) (w : Int) (i : Nat) (r : MapRecord) (h0 : 0 ≤ w) (h1 : w ≤ posMax)
    (hr : s.pmap.records[i]? = some r) (hm : s.matchesRecord w r)
    (hj : ∀ j q, j < i → s.pmap.records[j]? = some q → ¬ s.matchesRecord w q) : s.matchFor w false = some i := by
  unfold State.matchFor
  rw [if_neg (by simp; omega), List.findIdx?_eq_some_iff_getElem]
  obtain ⟨hi, hir⟩ := List.getElem?_eq_some_iff.mp hr
  refine ⟨hi, by rw [hir, matchesSighting_iff]; exact hm, fun j hji => ?_⟩
  rw [matchesSighting_iff]
  exact hj j _ hji (List.getElem?_eq_getElem (by omega))

/-- R59: d_new against the newest anchor, rounded as the manual rounds. -/
theorem newRatio_eq (a b : Anchor) (h : b.m < a.m) :
    newRatio a b = roundHalfAway (((b.w - a.w) * 1000000 : Int) / (((a.m - b.m) * 10 : Int) : ℚ)) - 1000000 := by
  unfold newRatio
  rw [roundDiv_eq_roundHalfAway _ _ (by omega)]

/-! ### The handshake of the Line Port -/

/-- R161: with nothing being served, an access is served at once. -/
theorem beginAccess_free (a : BusAccess) (s : State) (h : s.portFree) : beginAccess a s = answer (serve a s) := by
  unfold beginAccess
  rw [show s.port.access = none from h]
  rfl

/-- R161: an access asked for while one is being served is kept. -/
theorem beginAccess_held (a : BusAccess) (s : State) (h : s.port.access ≠ none) :
    beginAccess a s = s.setPort { s.port with ds := true, early := true, next := some a } := by
  unfold beginAccess
  rw [if_pos (by simpa [Option.isSome_iff_ne_none] using h)]

/-- R161: a waiting access completes with XACK unless DS was negated meanwhile. -/
theorem finishAccess_timely (dout : Option Word) (s : State) (h : s.port.early = false) :
    finishAccess dout s = s.setPort { s.port with access := none, xack := true, dout := dout } := by
  unfold finishAccess
  rw [if_neg (by rw [h]; simp)]

/-- R161: what the end of a waiting access comes to, with DS still asserted or negated early, and none asked for behind. -/
theorem finishAccess_ended (dout : Option Word) (s : State) (h : s.port.early = true → s.port.next = none) :
    AccessEnded dout s (finishAccess dout s) := by
  by_cases he : s.port.early = true
  · unfold finishAccess
    rw [if_pos he, h he]
    exact ⟨rfl, rfl, (h he).symm, rfl, rfl, fun hf => absurd he (by rw [hf]; decide), fun _ => ⟨rfl, rfl⟩⟩
  · have hf : s.port.early = false := eq_false_of_ne_true he
    rw [finishAccess_timely dout s hf]
    exact ⟨rfl, hf, rfl, rfl, rfl, fun _ => ⟨rfl, rfl⟩, fun ht => absurd ht he⟩

end Sys2Proof.Machine
end

