-- ==== Sys2Proof/Laws/Layouts.lean ====
section
/-! SUPPORT. The records of the tables read as section 9.5 lays them out, its messages are what their bytes
spell, and its frames have the bytes it gives. -/

namespace Sys2Proof.Machine

/-! ### Words and codes -/

theorem w16_eq (x : Int) : w16 x = [wordOf x] := rfl

theorem extract32 (x : Int) (k : Nat) (hk : k ≤ 1) :
    (BitVec.ofInt 32 x).extractLsb' (16 * k) 16 = BitVec.ofInt 16 (x / 2 ^ (16 * k)) := by
  apply BitVec.eq_of_toNat_eq
  rw [BitVec.extractLsb'_toNat, BitVec.toNat_ofInt, BitVec.toNat_ofInt, Nat.shiftRight_eq_div_pow]
  interval_cases k <;> norm_num <;> omega

theorem extract48 (x : Int) (k : Nat) (hk : k ≤ 2) :
    (BitVec.ofInt 48 x).extractLsb' (16 * k) 16 = BitVec.ofInt 16 (x / 2 ^ (16 * k)) := by
  apply BitVec.eq_of_toNat_eq
  rw [BitVec.extractLsb'_toNat, BitVec.toNat_ofInt, BitVec.toNat_ofInt, Nat.shiftRight_eq_div_pow]
  interval_cases k <;> norm_num <;> omega

theorem w32_eq (x : Int) : w32 x = words32 x := by
  unfold w32 words32 wordOf
  simp only [List.map_cons, List.map_nil]
  rw [extract32 x 1 (by decide), extract32 x 0 (by decide)]
  norm_num

theorem w48_eq (x : Int) : w48 x = words48 x := by
  unfold w48 words48 wordOf
  simp only [List.map_cons, List.map_nil]
  rw [extract48 x 2 (by decide), extract48 x 1 (by decide), extract48 x 0 (by decide)]
  norm_num

theorem bitsAt_eq (l : List (Nat × Nat)) (n : Nat) (h : (l.map fun f => f.2 * 2 ^ f.1).sum = n) : bitsAt l = packed n := by
  unfold bitsAt packed
  rw [h]

theorem toNat_eq_flagBit (b : Bool) : b.toNat = flagBit b := by cases b <;> rfl

theorem mask8_eq (x : BitVec 8) :
    bitsAt ((List.range 8).map fun n => (n, (x.getLsbD n).toNat)) = packed x.toNat := by
  revert x
  decide +kernel

theorem mask3_eq (x : BitVec 3) :
    bitsAt ((List.range 3).map fun n => (n, (x.getLsbD n).toNat)) = packed x.toNat := by
  revert x
  decide +kernel

theorem kindIn_eq (x : Option ItemKind) : kindIn x = kindCode x := by
  rcases x with _ | x
  · rfl
  · cases x <;> rfl

theorem sourceIn_eq (x : Source) : sourceIn x = x.code := by cases x <;> rfl
theorem gradeIn_eq (x : Grade) : gradeIn x = x.code := by cases x <;> rfl

theorem causeIn_eq (x : Cause) : causeIn x = x.code := by
  cases x <;> try rfl
  rename_i n
  revert n
  decide

theorem spliceSource_eq (x : SpliceSource) : codeIn [SpliceSource.sensor, .camera, .both] x = x.code := by cases x <;> rfl
theorem peakMode_eq (x : PeakMode) : codeIn [PeakMode.peak, .current] x = x.code := by cases x <;> rfl
theorem parity_eq (x : Parity) : codeIn [Parity.none, .even, .odd] x = x.code := by cases x <;> rfl
theorem shaft_eq (x : Shaft) : codeIn [Shaft.none, .upper, .lower] x = x.code := by cases x <;> rfl
theorem disposition_eq (x : Disposition) : codeIn [Disposition.wound, .trim, .forcedReject] x = x.code := by cases x <;> rfl
theorem reference_eq (x : Reference) : codeIn [Reference.absolute, .set] x = x.code := by cases x <;> rfl
theorem mapState_eq (x : MapState) : codeIn [MapState.empty, .opened, .closed] x = x.code := by cases x <;> rfl
theorem snapCause_eq (x : SnapCause) : codeIn [SnapCause.none, .command, .setEnd, .setChange] x = x.code := by cases x <;> rfl
theorem targetKind_eq (x : TargetKind) : codeIn [TargetKind.none, .flag, .splice, .length] x = x.code := by cases x <;> rfl

theorem planStatus_eq (x : PlanStatus) :
    codeIn [PlanStatus.valid, .noLanes, .laneGap, .laneEdge, .shaftMismatch, .laneOrder, .noReel] x = x.code := by
  cases x <;> rfl

theorem recordStatus_eq (x : RecordStatus) : codeIn [RecordStatus.unreleased, .released, .retired] x = x.code := by
  cases x <;> rfl

theorem matchState_eq (x : MatchState) : codeIn [MatchState.unmatched, .matched, .missed] x = x.code := by cases x <;> rfl

theorem lengthStop_eq (x : LengthStop) : codeIn [LengthStop.none, .pending, .done, .skipped] x = x.code := by
  cases x <;> rfl

theorem stopOutcome_eq (x : StopOutcome) : codeIn [StopOutcome.onTarget, .overshoot, .undershoot] x = x.code := by
  cases x <;> rfl

/-! ### Fields one behind the other -/

/-- Each field begins where the one before it ends, the first at word `n`. -/
inductive Contiguous : Nat → List (Nat × List Word) → Prop
  | nil {n : Nat} : Contiguous n []
  | cons {n : Nat} {f : Nat × List Word} {fs : List (Nat × List Word)} :
      f.1 = n → Contiguous (n + f.2.length) fs → Contiguous n (f :: fs)

/-- Fields one behind the other are laid out as their words in turn. -/
theorem laidOut_eq (fs : List (Nat × List Word)) (n k : Nat) (h : Contiguous n fs) (hk : n ≤ k) :
    laidOut fs k = (fs.flatMap fun f => f.2).getD (k - n) 0 := by
  unfold laidOut
  induction fs generalizing n with
  | nil => simp
  | cons f fs ih =>
    obtain _ | ⟨h1, h2⟩ := h
    rw [List.findSome?_cons, List.flatMap_cons, h1, if_pos hk]
    rcases Nat.lt_or_ge (k - n) f.2.length with hl | hl
    · rw [List.getElem?_eq_getElem hl, List.getD_append _ _ _ _ hl]
      simp [hl]
    · rw [List.getElem?_eq_none hl, List.getD_append_right _ _ _ _ hl]
      refine (ih (n + f.2.length) h2 (by omega)).trans ?_
      congr 1
      omega

theorem padTo_getD (n : Nat) (l : List Word) (k : Nat) : (padTo n l).getD k 0 = l.getD k 0 := by
  unfold padTo
  rcases Nat.lt_or_ge k l.length with h | h
  · simp [List.getElem?_append, h]
  · simp only [List.getD_eq_getElem?_getD, List.getElem?_append_right h, List.getElem?_eq_none h]
    rw [List.getElem?_replicate]
    split <;> rfl

/-- A layout that is contiguous, and whose words in turn are those given. -/
theorem laidOut_of (fs : List (Nat × List Word)) (ws : List Word) (h : Contiguous 0 fs)
    (hw : (fs.flatMap fun f => f.2) = ws) (k : Nat) : ws.getD k 0 = laidOut fs k := by
  rw [laidOut_eq fs 0 k h (Nat.zero_le k), hw, Nat.sub_zero]

/-! ### The tables -/

theorem wordOf_nat (n : Nat) : wordOf (n : Int) = wordN n := BitVec.ofInt_natCast 16 n
theorem wordOf_flag (b : Bool) : wordN (flagBit b) = packed (flagBit b) := rfl

theorem config_laidOut (s : State) (k : Nat) : (configWords s).getD k 0 = laidOut (configLayout s) k := by
  refine laidOut_of _ _ ?_ ?_ k
  · repeat' constructor
  · unfold configLayout configWords
    simp only [w32_eq, w16_eq, spliceSource_eq, peakMode_eq, parity_eq, toNat_eq_flagBit, List.flatMap_cons,
      List.flatMap_nil, List.append_assoc, List.append_nil, List.cons_append, List.nil_append, wordOf_nat, wordOf_flag]

theorem slitPlan_laidOut (s : State) (r k : Nat) : (slitPlanWords s r).getD k 0 = laidOut (slitPlanLayout s r) k := by
  unfold slitPlanWords slitPlanLayout
  split <;> refine laidOut_of _ _ ?_ ?_ k
  · repeat' constructor
  · simp only [w16_eq, planStatus_eq]
    rfl
  · repeat' constructor
  · simp only [w16_eq, shaft_eq, disposition_eq, toNat_eq_flagBit]
    rfl

theorem grading_laidOut (s : State) (h1 : s.reels.grading.classDown.length = 8)
    (h2 : s.reels.grading.classReject.length = 8) (k : Nat) :
    (gradingWords s).getD k 0 = laidOut (gradingLayout s) k := by
  refine laidOut_of _ _ ?_ ?_ k
  · unfold gradingLayout
    repeat' constructor
  · unfold gradingLayout gradingWords
    generalize s.reels.grading = g at *
    obtain ⟨a, b, c, d, e⟩ := g
    match a, h1, b, h2 with
    | [_, _, _, _, _, _, _, _], _, [_, _, _, _, _, _, _, _], _ => rfl

theorem stopParams_laidOut (s : State) (k : Nat) :
    (stopParamsWords s).getD k 0 = laidOut (stopParamsLayout s.planner.params) k := by
  refine laidOut_of _ _ ?_ ?_ k
  · repeat' constructor
  · unfold stopParamsLayout stopParamsWords
    rw [mask8_eq, mask3_eq]
    simp only [w32_eq, w16_eq, toNat_eq_flagBit]
    rfl

theorem comparator_laidOut (s : State) (r k : Nat) (h : r < 4) :
    (comparatorWords s r).getD k 0 = laidOut (comparatorLayout s ⟨r, h⟩) k := by
  have hr : (⟨r % 4, Nat.mod_lt _ (by decide)⟩ : Fin 4) = ⟨r, h⟩ := Fin.ext (Nat.mod_eq_of_lt h)
  have h0 : (⟨r, h⟩ : Fin 4) = 0 ↔ r = 0 := ⟨fun q => congrArg Fin.val q, fun q => Fin.ext q⟩
  refine laidOut_of _ _ ?_ ?_ k
  · repeat' constructor
  · unfold comparatorWords comparatorLayout
    simp only [hr, h0, w32_eq, w16_eq, reference_eq, toNat_eq_flagBit]
    split <;> rfl

theorem entry_laidOut (e : Entry) (k : Nat) : (entryWords e).getD k 0 = laidOut (trackLayout e) k := by
  refine laidOut_of _ _ ?_ ?_ k
  · repeat' constructor
  · have hs : decide (e.passage ≠ .ahead) = (match e.passage with
        | .ahead => false
        | .slit _ _ => true) := by cases e.passage <;> simp
    have h0 (b : Bool) : bitsAt [(0, kindIn (some e.kind)), (4, sourceIn e.source), (8, b.toNat), (12, e.unsynced.toNat),
        (13, e.stopped.toNat), (14, e.skipped.toNat), (15, e.pendingReplace.toNat)] =
        packed (e.kind.code + e.source.code * 16 + flagBit b * 256 + flagBit e.unsynced * 4096 +
          flagBit e.stopped * 8192 + flagBit e.skipped * 16384 + flagBit e.pendingReplace * 32768) := by
      apply bitsAt_eq
      simp only [kindIn_eq, sourceIn_eq, toNat_eq_flagBit, kindCode]
      simp
      omega
    have lanes (first n : Nat) (t : Nat) : ((((List.range n).map fun k => (k, (e.lanes.contains (k + first)).toNat)).map
        fun f => f.2 * 2 ^ f.1).sum + t) = laneBits e.lanes first n + t := by
      unfold laneBits
      induction n with
      | zero => rfl
      | succ n ih =>
        simp only [List.range_succ, List.map_append, List.sum_append, List.foldl_append, List.map_cons, List.map_nil,
          List.sum_cons, List.sum_nil, List.foldl_cons, List.foldl_nil, toNat_eq_flagBit, Nat.add_comm n first] at *
        omega
    have h9 : bitsAt ((List.range 16).map fun k => (k, (e.lanes.contains (k + 1)).toNat)) =
        packed (laneBits e.lanes 1 16) := by
      refine bitsAt_eq _ _ ?_
      have := lanes 1 16 0
      rwa [Nat.add_zero, Nat.add_zero] at this
    have h10 (b : Bool) : bitsAt (((List.range 8).map fun k => (k, (e.lanes.contains (k + 17)).toNat)) ++
        [(15, b.toNat)]) = packed (laneBits e.lanes 17 8 + flagBit b * 32768) := by
      apply bitsAt_eq
      rw [List.map_append, List.sum_append, lanes 17 8]
      simp [toNat_eq_flagBit]
    unfold trackLayout entryWords
    dsimp only
    rw [hs, h0, h9, h10, bitsAt_eq [(0, e.cls.val), (4, e.sev.val)] (e.cls.val + e.sev.val * 16) (by simp),
      bitsAt_eq [(0, e.mapIndex.getD 0), (15, e.mapIndex.isSome.toNat)]
        (e.mapIndex.getD 0 + flagBit e.mapIndex.isSome * 32768) (by simp [toNat_eq_flagBit])]
    simp only [w32_eq, w16_eq]
    rfl

theorem map_laidOut (s : State) (r k : Nat) : (mapWords s r).getD k 0 = laidOut (mapLayout s r) k := by
  unfold mapWords mapLayout
  split
  · refine laidOut_of _ _ ?_ ?_ k
    · repeat' constructor
    · rw [bitsAt_eq _ (s.pmap.state.code + flagBit s.pmap.truncated * 16 + flagBit s.pmap.id.isSome * 256)
        (by simp only [mapState_eq, toNat_eq_flagBit]; simp; omega)]
      simp only [w32_eq, w16_eq]
      rfl
  · unfold State.mapRecord
    cases s.pmap.records[r - 1]? <;> dsimp only <;> refine laidOut_of _ _ ?_ ?_ k
    · constructor
    · rfl
    · repeat' constructor
    · rename_i q
      rw [bitsAt_eq _ (q.kind.code + q.status.code * 16 + q.matchState.code * 256)
          (by simp only [kindIn_eq, recordStatus_eq, matchState_eq, kindCode]; simp; omega),
        bitsAt_eq [(0, q.cls.val), (4, q.sev.val)] (q.cls.val + q.sev.val * 16) (by simp)]
      simp only [w32_eq, w16_eq, w48_eq]
      rfl

theorem anchor_laidOut (s : State) (r k : Nat) : (anchorWords s r).getD k 0 = laidOut (anchorLayout s r) k := by
  unfold anchorWords anchorLayout
  split
  · refine laidOut_of _ _ ?_ ?_ k
    · repeat' constructor
    · simp only [w32_eq, w16_eq]
      rfl
  · cases s.align.anchors[r - 1]? <;> dsimp only <;> refine laidOut_of _ _ ?_ ?_ k
    · constructor
    · rfl
    · repeat' constructor
    · simp only [w32_eq, w48_eq]
      rfl

theorem item_eq (it : FlagItem) : itemWords it = flagWords it := by
  unfold itemWords flagWords
  rw [bitsAt_eq _ (it.cls.val + it.sev.val * 16 + it.source.code * 256 + flagBit it.unsynced * 4096)
    (by simp only [sourceIn_eq, toNat_eq_flagBit]; simp; omega), w32_eq, w16_eq]
  rfl

/-- The items of a flag list take four words each. -/
theorem items_getD (l : List FlagItem) (j : Nat) : (l.flatMap flagWords).getD j 0 = match l[j / 4]? with
    | none => 0
    | some it => (flagWords it).getD (j % 4) 0 := by
  induction l generalizing j with
  | nil => simp
  | cons x xs ih =>
    have hx : (flagWords x).length = 4 := rfl
    rw [List.flatMap_cons]
    rcases Nat.lt_or_ge j 4 with h | h
    · rw [List.getD_append _ _ _ _ (by omega), Nat.div_eq_of_lt h, Nat.mod_eq_of_lt h]
      rfl
    · obtain ⟨m, rfl⟩ := Nat.exists_eq_add_of_le h
      rw [List.getD_append_right _ _ _ _ (by omega), hx, ih, Nat.add_sub_cancel_left, Nat.add_div_left _ (by decide),
        Nat.add_mod_left]
      simp

theorem reel_laidOut (r : ReelRecord) (length : Int) (k : Nat) : (reelWords r length).getD k 0 = reelWord r length k := by
  have h : ∃ head : List Word, reelWords r length = head ++ r.flags.flatMap flagWords ∧ head.length = 24 ∧
      ∀ k, head.getD k 0 = laidOut (reelLayout r length) k := by
    refine ⟨_, rfl, rfl, fun k => ?_⟩
    have h1 : bitsAt [(0, r.lane), (8, codeIn [Shaft.none, .upper, .lower] r.shaft), (13, r.wEnd.isSome.toNat),
        (14, r.mapId.isSome.toNat), (15, 1)] = packed (r.lane + r.shaft.code * 256 + flagBit r.wEnd.isSome * 8192 +
          flagBit r.mapId.isSome * 16384 + 32768) := by
      apply bitsAt_eq
      simp only [shaft_eq, toNat_eq_flagBit]
      simp
      omega
    have h3 (c : Nat) : bitsAt [(8, r.classCounts.getD c 0), (0, r.classCounts.getD (c + 1) 0)] =
        packed (r.classCounts.getD c 0 * 256 + r.classCounts.getD (c + 1) 0) := bitsAt_eq _ _ (by simp)
    have pad : ∀ (l : List Word) (k : Nat), (l ++ [0, 0, 0]).getD k 0 = l.getD k 0 := by
      intro l k
      rcases Nat.lt_or_ge k l.length with h | h
      · rw [List.getD_append _ _ _ _ h]
      · rw [List.getD_append_right _ _ _ _ h, List.getD_eq_default _ _ h]
        rcases k - l.length with _ | _ | _ | n <;> rfl
    rw [← laidOut_of (reelLayout r length) _ (by repeat' constructor) rfl k, ← pad ((reelLayout r length).flatMap fun f => f.2) k]
    refine congrArg (fun l : List Word => l.getD k 0) ?_
    unfold reelLayout
    dsimp only
    rw [h1, bitsAt_eq [(0, gradeIn r.grade), (8, causeIn r.cause)] (r.grade.code + r.cause.code * 256)
      (by simp [gradeIn_eq, causeIn_eq])]
    simp only [h3, w32_eq, w16_eq, w48_eq]
    rfl
  obtain ⟨head, h1, h2, h3⟩ := h
  unfold reelWord
  rw [h1]
  split
  · rename_i hk
    rw [List.getD_append _ _ _ _ (by omega), h3]
  · rw [List.getD_append_right _ _ _ _ (by omega), h2, items_getD]
    simp only [item_eq] <;> rfl

theorem openLength_eq (s : State) (o : OpenSet) : s.openLength o = max 0 (s.commitLine - o.wStart) / 10 := by
  unfold State.openLength lengthMm
  split
  · rw [max_eq_right (by omega)]
  · rw [max_eq_left (by omega)]
    rfl

theorem openReels_laidOut (s : State) (r k : Nat) : (openReelsWords s r).getD k 0 = tableWord s .openReels r k := by
  unfold openReelsWords tableWord openLayout
  dsimp only
  split
  · cases s.reels.openSet <;> dsimp only <;> refine laidOut_of _ _ ?_ ?_ k
    · repeat' constructor
    · rfl
    · repeat' constructor
    · rename_i o
      simp only [openLength_eq, w32_eq, w16_eq, w48_eq, lengthStop_eq]
      rfl
  · cases s.reels.openSet with
    | none => rfl
    | some o =>
      dsimp only
      cases o.reels[r - 1]? with
      | none => rfl
      | some x =>
        dsimp only
        rw [openLength_eq, reel_laidOut]

/-- Fields of one word each, numbered from `n`. -/
theorem contiguous_mapIdx {α : Type} (f : α → List Word) (hf : ∀ x, (f x).length = 1) (l : List α) (n : Nat)
    (tail : List (Nat × List Word)) (ht : Contiguous (n + l.length) tail) :
    Contiguous n ((l.mapIdx fun i x => (n + i, f x)) ++ tail) := by
  induction l generalizing n with
  | nil => exact ht
  | cons x xs ih =>
    rw [List.mapIdx_cons]
    refine .cons rfl ?_
    have h := ih (n + 1) (by simpa [Nat.add_assoc, Nat.add_comm 1] using ht)
    show Contiguous (n + (f x).length) _
    rw [hf]
    simpa [Nat.add_assoc, Nat.add_comm 1] using h

theorem flatMap_mapIdx {α : Type} (f : α → Word) (l : List α) (F : Nat → α → Nat × List Word)
    (hF : ∀ i x, (F i x).2 = [f x]) : ((l.mapIdx F).flatMap fun g => g.2) = l.map f := by
  induction l generalizing F with
  | nil => rfl
  | cons x xs ih => rw [List.mapIdx_cons, List.flatMap_cons, ih _ fun i => hF (i + 1), hF, List.map_cons]; rfl

/-- The sixteen totals in the order the section gives them. -/
def totalsInOrder : List Total :=
  [.placed, .merged, .lost, .released, .withdrawn, .late, .unwound, .unassigned, .stopsMade, .shortStops, .staleBeacons,
    .linkDropped, .shortMessages, .encoderFaults, .sightingsIgnored, .framesDiscarded]

theorem tallyLayout_zero (b : TallyBank) :
    tallyLayout b 0 = totalsInOrder.mapIdx fun i k => (i, w16 (b.total k)) := if_pos rfl

theorem totals_eq (b : TallyBank) (h : b.totals.length = 16) :
    (totalsInOrder.map fun k => wordOf (b.total k)) = b.totals.map wordN := by
  have h1 : (totalsInOrder.map fun k => wordOf (b.total k)) =
      (List.range 16).map fun i => wordN (b.totals.getD i 0) := rfl
  rw [h1, ← h]
  exact List.ext_getElem (by simp) fun i _ hi => by
    have : i < b.totals.length := by simpa using hi
    simp [List.getElem?_eq_getElem this]

theorem totals_contiguous (b : TallyBank) (tail : List (Nat × List Word)) (ht : Contiguous 16 tail) :
    Contiguous 0 (tallyLayout b 0 ++ tail) := by
  have hl : 0 + totalsInOrder.length = 16 := by decide
  have h := contiguous_mapIdx (fun k => w16 (b.total k)) (fun _ => rfl) totalsInOrder 0 tail (hl ▸ ht)
  simp only [Nat.zero_add] at h
  rw [tallyLayout_zero]
  exact h

theorem totals_words (b : TallyBank) (h : b.totals.length = 16) :
    ((tallyLayout b 0).flatMap fun f => f.2) = b.totals.map wordN := by
  rw [tallyLayout_zero, ← totals_eq b h]
  exact flatMap_mapIdx _ _ _ fun _ _ => rfl

theorem laneTally_contiguous (b : TallyBank) (r : Nat) (h : r ≠ 0) : Contiguous 0 (tallyLayout b r) := by
  unfold tallyLayout
  rw [if_neg h]
  repeat' constructor

theorem laneTally_words (b : TallyBank) (r : Nat) (h : r ≠ 0) :
    ((tallyLayout b r).flatMap fun f => f.2) = laneTallyWords (b.lane r) := by
  unfold tallyLayout
  rw [if_neg h]
  rfl

theorem tally_laidOut (b : TallyBank) (h : b.totals.length = 16) (r k : Nat) :
    (if r = 0 then b.totals.map wordN else laneTallyWords (b.lane r)).getD k 0 = laidOut (tallyLayout b r) k := by
  split
  · rename_i hr
    subst hr
    refine laidOut_of _ _ ?_ (totals_words b h) k
    have := totals_contiguous b [] .nil
    rwa [List.append_nil] at this
  · rename_i hr
    exact laidOut_of _ _ (laneTally_contiguous b r hr) (laneTally_words b r hr) k

theorem snap_laidOut (s : State) (h : s.tally.snap.totals.length = 16) (r k : Nat) :
    (tallySnapWords s r).getD k 0 = laidOut (snapLayout s r) k := by
  unfold tallySnapWords snapLayout
  split
  · rename_i hr
    subst hr
    refine laidOut_of _ _ (totals_contiguous _ _ (by repeat' constructor)) ?_ k
    rw [List.flatMap_append, totals_words _ h, ← snapCause_eq]
    rfl
  · rename_i hr
    rw [List.append_nil]
    exact laidOut_of _ _ (laneTally_contiguous _ r hr) (laneTally_words _ r hr) k

theorem strobe_laidOut (s : State) (r k : Nat) : (strobeWords s r).getD k 0 = laidOut (strobeLayout s r) k := by
  unfold strobeWords strobeLayout
  split
  · refine laidOut_of _ _ ?_ ?_ k
    · repeat' constructor
    · rw [bitsAt_eq _ (flagBit s.tracker.valid + flagBit s.tracker.latest.isSome * 2 + s.tracker.peakMode.code * 4)
        (by simp only [peakMode_eq, toNat_eq_flagBit]; simp; omega)]
      simp only [w32_eq, w16_eq, w48_eq]
      rfl
  · cases s.tracker.history[r - 1]? <;> dsimp only <;> refine laidOut_of _ _ ?_ ?_ k
    · constructor
    · rfl
    · repeat' constructor
    · simp only [w32_eq, w16_eq]
      rfl

theorem stopRecord_laidOut (s : State) (k : Nat) :
    (stopRecordWords s).getD k 0 = laidOut (stopRecordLayout s.planner.record) k := by
  unfold stopRecordWords stopRecordLayout
  generalize s.planner.record = x
  refine laidOut_of _ _ ?_ ?_ k
  · repeat' constructor
  · rw [bitsAt_eq _ (x.kind.code + x.outcome.code * 16 + flagBit x.short * 256 + flagBit x.retargeted * 512 +
      flagBit x.seq.isSome * 4096 + flagBit x.setNumber.isSome * 8192)
      (by simp only [targetKind_eq, stopOutcome_eq, toNat_eq_flagBit]; simp; omega)]
    simp only [w32_eq, w16_eq, w48_eq]
    rfl

theorem late_laidOut (s : State) (k : Nat) : (lateRecordWords s).getD k 0 = laidOut (lateLayout s.track.late) k := by
  unfold lateRecordWords lateLayout
  refine laidOut_of _ _ ?_ ?_ k
  · repeat' constructor
  · simp only [w16_eq, w48_eq, kindIn_eq]
    rfl

/-- Every record of every table reads as the section lays it out. -/
theorem recordWords_laidOut (s : State) (hb : TalliesBounded s) (hl : ListsOrdered s) (t : Table) (r : Nat)
    (hr : r < t.records) : RecordLaidOut s t r (recordWords s t r) := by
  intro k _
  unfold recordWords
  rw [padTo_getD]
  cases t
  · exact config_laidOut s k
  · exact slitPlan_laidOut s r k
  · exact grading_laidOut s hl.2.2.1 hl.2.2.2 k
  · exact stopParams_laidOut s k
  · refine (comparator_laidOut s r k hr).trans ?_
    change _ = dite (r < 4) (fun h => laidOut (comparatorLayout s ⟨r, h⟩) k) fun _ => 0
    rw [dif_pos (show r < 4 from hr)]
  · unfold tableWord trackWords
    dsimp only
    cases s.track.entries[r]? with
    | none => rfl
    | some e => exact entry_laidOut e k
  · exact map_laidOut s r k
  · exact anchor_laidOut s r k
  · exact openReels_laidOut s r k
  · unfold tableWord queueWords
    dsimp only
    cases s.queue.records[r]? with
    | none => rfl
    | some x => exact reel_laidOut x _ k
  · exact tally_laidOut _ hb.1.1 r k
  · exact snap_laidOut s hb.2.1 r k
  · exact strobe_laidOut s r k
  · exact stopRecord_laidOut s k
  · exact late_laidOut s k

/-! ### The bytes of a message -/

theorem toNat_append16 (a b : Byte) : (a ++ b).toNat = a.toNat * 256 + b.toNat := by
  rw [BitVec.toNat_append, ← Nat.shiftLeft_add_eq_or_of_lt b.isLt, Nat.shiftLeft_eq]

theorem toNat_append32 (a b c d : Byte) :
    (a ++ b ++ c ++ d).toNat = ((a.toNat * 256 + b.toNat) * 256 + c.toNat) * 256 + d.toNat := by
  rw [BitVec.toNat_append, ← Nat.shiftLeft_add_eq_or_of_lt d.isLt, Nat.shiftLeft_eq, BitVec.toNat_append,
    ← Nat.shiftLeft_add_eq_or_of_lt c.isLt, Nat.shiftLeft_eq, toNat_append16]

/-- A byte of a value, by division. -/
theorem byte_eq {n : Nat} (x : BitVec n) (k : Nat) (b : Byte) (h : x.toNat / 2 ^ (8 * k) % 256 = b.toNat) :
    x.extractLsb' (8 * k) 8 = b := by
  apply BitVec.eq_of_toNat_eq
  rw [BitVec.extractLsb'_toNat, Nat.shiftRight_eq_div_pow, ← h]

theorem be16_bytes (a b : Byte) : be16 (a ++ b) = [a, b] ∧ (a ++ b).toNat = unsignedBytes [a, b] := by
  have := a.isLt
  have := b.isLt
  refine ⟨?_, ?_⟩
  · unfold be16
    simp only [List.map_cons, List.map_nil]
    rw [byte_eq _ 1 a (by rw [toNat_append16]; omega), byte_eq _ 0 b (by rw [toNat_append16]; omega)]
  · rw [toNat_append16]
    simp [unsignedBytes]

theorem be32_bytes (a b c d : Byte) :
    be32 (a ++ b ++ c ++ d) = [a, b, c, d] ∧ (a ++ b ++ c ++ d).toNat = unsignedBytes [a, b, c, d] := by
  have := a.isLt
  have := b.isLt
  have := c.isLt
  have := d.isLt
  refine ⟨?_, ?_⟩
  · unfold be32
    simp only [List.map_cons, List.map_nil]
    rw [byte_eq _ 3 a (by rw [toNat_append32]; omega), byte_eq _ 2 b (by rw [toNat_append32]; omega),
      byte_eq _ 1 c (by rw [toNat_append32]; omega), byte_eq _ 0 d (by rw [toNat_append32]; omega)]
  · rw [toNat_append32]
    simp [unsignedBytes]
    omega

theorem be16_signed (a b : Byte) : (a ++ b).toInt = signedBytes16 a b := by
  have := a.isLt
  have := b.isLt
  unfold signedBytes16
  rw [BitVec.toInt_eq_toNat_cond, toNat_append16]
  dsimp only
  split <;> split <;> omega

theorem packed_detection (b : Byte) : ∃ (i : BitVec 3) (c : BitVec 3) (s : BitVec 2),
    b = i ++ c ++ s ∧ classOf (b.toNat / 4) = c.toFin ∧ severityOf b.toNat = s.toFin := by
  refine ⟨b.extractLsb' 5 3, b.extractLsb' 2 3, b.extractLsb' 0 2, ?_⟩
  revert b
  decide +kernel

/-- The bytes of a complete message make the message that they spell. -/
theorem ofBytes_spells (k : MessageKind) (bs : List Byte) (h : bs.length = k.bodyLength) :
    ∃ m, Message.ofBytes k bs = some m ∧ Spells k bs m := by
  cases k
  · match bs, h with
    | [a, b, c, d, e, f, g, h, i, j], _ =>
      refine ⟨_, rfl, a ++ b ++ c ++ d, e ++ f ++ g ++ h, i ++ j, ?_, ?_⟩
      · simp only [(be32_bytes _ _ _ _).1, (be16_bytes _ _).1]; rfl
      · simp only [(be32_bytes _ _ _ _).2, be16_signed]
  · match bs, h with
    | [a, b, c, d, e, f, g, h, i, j, p], _ =>
      refine ⟨_, rfl, a ++ b ++ c ++ d, e ++ f, g ++ h, i ++ j, p, ?_, ?_⟩
      · simp only [(be32_bytes _ _ _ _).1, (be16_bytes _ _).1]; rfl
      · simp only [(be32_bytes _ _ _ _).2, (be16_bytes _ _).2]
  · match bs, h with
    | [a, b], _ => exact ⟨_, rfl, a ++ b, (be16_bytes _ _).1.symm, by rw [(be16_bytes _ _).2]⟩
  · match bs, h with
    | [a, b, c, d, e, f, g, h, i, j, p], _ =>
      obtain ⟨x, y, z, hp, hy, hz⟩ := packed_detection p
      refine ⟨_, rfl, a ++ b ++ c ++ d, e ++ f, g ++ h, i ++ j, y, z, x, ?_, ?_⟩
      · simp only [(be32_bytes _ _ _ _).1, (be16_bytes _ _).1, ← hp]; rfl
      · simp only [(be32_bytes _ _ _ _).2, (be16_bytes _ _).2, hy, hz]
  · match bs, h with
    | [n, a, b, c, d], _ =>
      exact ⟨_, rfl, n, a ++ b ++ c ++ d, by rw [(be32_bytes _ _ _ _).1], by rw [(be32_bytes _ _ _ _).2]⟩
  · match bs, h with
    | [a, b, c, d], _ =>
      exact ⟨_, rfl, a ++ b ++ c ++ d, (be32_bytes _ _ _ _).1.symm, by rw [(be32_bytes _ _ _ _).2]⟩

/-! ### The bytes of a frame -/

theorem byteSum_toNat (l : List Byte) : (byteSum l).toNat = (l.map BitVec.toNat).sum % 256 := by
  induction l with
  | nil => rfl
  | cons b l ih =>
    unfold byteSum
    rw [BitVec.toNat_add, ih]
    simp

/-- The check byte of a built frame brings the sum to 0. -/
theorem frameOf_spec (kind : Byte) (body : List Byte) : FrameOf kind body (frameOf kind body) := by
  refine ⟨-(byteSum (kind :: BitVec.ofNat 8 body.length :: body)), rfl, ?_⟩
  have h := byteSum_toNat (kind :: BitVec.ofNat 8 body.length :: body)
  simp only [List.map_cons, List.sum_cons, BitVec.toNat_ofNat] at h
  rw [BitVec.toNat_neg, h]
  omega

theorem byteOf_nat (n : Nat) : byteOf (n : Int) = BitVec.ofNat 8 n := BitVec.ofInt_natCast 8 n

theorem extract16_8 (x : Int) (k : Nat) (hk : k ≤ 1) :
    (BitVec.ofInt 16 x).extractLsb' (8 * k) 8 = byteOf (x / 2 ^ (8 * k)) := by
  apply BitVec.eq_of_toNat_eq
  unfold byteOf
  rw [BitVec.extractLsb'_toNat, BitVec.toNat_ofInt, BitVec.toNat_ofInt, Nat.shiftRight_eq_div_pow]
  interval_cases k <;> norm_num <;> omega

theorem extract32_8 (x : Int) (k : Nat) (hk : k ≤ 3) :
    (BitVec.ofInt 32 x).extractLsb' (8 * k) 8 = byteOf (x / 2 ^ (8 * k)) := by
  apply BitVec.eq_of_toNat_eq
  unfold byteOf
  rw [BitVec.extractLsb'_toNat, BitVec.toNat_ofInt, BitVec.toNat_ofInt, Nat.shiftRight_eq_div_pow]
  interval_cases k <;> norm_num <;> omega

theorem be16_eq (x : Int) : be16 (BitVec.ofInt 16 x) = bytes16 x := by
  unfold be16 bytes16
  simp only [List.map_cons, List.map_nil]
  rw [extract16_8 x 1 (by decide), extract16_8 x 0 (by decide)]
  norm_num

theorem be32_eq (x : Int) : be32 (BitVec.ofInt 32 x) = bytes32 x := by
  unfold be32 bytes32
  simp only [List.map_cons, List.map_nil]
  rw [extract32_8 x 3 (by decide), extract32_8 x 2 (by decide), extract32_8 x 1 (by decide), extract32_8 x 0 (by decide)]
  norm_num

theorem be16_nat (n : Nat) : be16 (BitVec.ofNat 16 n) = bytes16 n := by
  rw [← be16_eq, BitVec.ofInt_natCast]

theorem be32_nat (n : Nat) : be32 (BitVec.ofNat 32 n) = bytes32 n := by
  rw [← be32_eq, BitVec.ofInt_natCast]

theorem itemBytes_body (it : FlagItem) : itemBytes it = itemBody it := by
  unfold itemBytes itemBody packClass FlagItem.sourceCode
  rw [be32_eq, be16_eq, sourceIn_eq, toNat_eq_flagBit, Nat.add_comm it.source.code, Nat.mul_comm 128]
  simp

/-- The body of a FETCH reply is laid out as the section says. -/
theorem recordBytes_body (r : ReelRecord) : recordBytes r = reelBody r := by
  unfold recordBytes reelBody
  rw [be16_nat, be16_nat, be16_nat, be32_eq, be32_nat, gradeIn_eq, causeIn_eq, shaft_eq, toNat_eq_flagBit,
    Nat.add_comm r.shaft.code, Nat.mul_comm 128, funext itemBytes_body]
  simp only [byteOf_nat, List.append_assoc, List.cons_append, List.nil_append]

end Sys2Proof.Machine
end

