-- ==== Sys2Proof/Laws/Ordered.lean ====
section
/-! SUPPORT. What the shared operations keep of the Track List's order (R24): its limit, its order, its identities and the
lane sets of its entries. -/

namespace Sys2Proof.Machine

/-- The lane set of an entry, as `TrackOrdered` has it. -/
def Entry.lanesFit (e : Entry) : Prop := e.lanes.Nodup ∧ ∀ n ∈ e.lanes, 1 ≤ n ∧ n ≤ 24

/-- `TrackOrdered` of a list and the identity given next. -/
def EntriesOrdered (l : List Entry) (next : Nat) : Prop :=
  l.length ≤ 1024 ∧ (l.Pairwise fun e f => e.w ≤ f.w) ∧ (l.map fun e => e.ident).Nodup ∧
  ∀ e ∈ l, e.ident < next ∧ e.lanesFit

theorem trackOrdered_iff (s : State) : TrackOrdered s ↔ EntriesOrdered s.track.entries s.track.nextIdent := Iff.rfl

namespace EntriesOrdered

variable {l : List Entry} {n : Nat}

theorem mono (h : EntriesOrdered l n) {m : Nat} (hm : n ≤ m) : EntriesOrdered l m :=
  ⟨h.1, h.2.1, h.2.2.1, fun e he => ⟨lt_of_lt_of_le (h.2.2.2 e he).1 hm, (h.2.2.2 e he).2⟩⟩

theorem filter (h : EntriesOrdered l n) (p : Entry → Bool) : EntriesOrdered (l.filter p) n :=
  ⟨(List.length_filter_le _ _).trans h.1, h.2.1.filter _, h.2.2.1.sublist (List.filter_sublist.map _),
    fun e he => h.2.2.2 e (List.mem_of_mem_filter he)⟩

theorem map (h : EntriesOrdered l n) (f : Entry → Entry)
    (hf : ∀ e ∈ l, (f e).w = e.w ∧ (f e).ident = e.ident ∧ (f e).lanesFit) : EntriesOrdered (l.map f) n := by
  refine ⟨by simpa using h.1, ?_, ?_, fun e he => ?_⟩
  · rw [List.pairwise_map]
    exact h.2.1.imp_of_mem fun {x y} hx hy hxy => by rw [(hf x hx).1, (hf y hy).1]; exact hxy
  · have k : (l.map f).map (fun e => e.ident) = l.map fun e => e.ident := by
      rw [List.map_map]
      exact List.map_congr_left fun e he => (hf e he).2.1
    rw [k]
    exact h.2.2.1
  · obtain ⟨x, hx, rfl⟩ := List.mem_map.mp he
    exact ⟨by rw [(hf x hx).2.1]; exact (h.2.2.2 x hx).1, (hf x hx).2.2⟩

theorem insert (h : EntriesOrdered l n) (e : Entry) (hl : l.length < 1024) (hi : ∀ f ∈ l, f.ident ≠ e.ident)
    (hn : e.ident < n) (hd : e.lanesFit) : EntriesOrdered (insertEntry e l) n := by
  have p := insertEntry_perm e l
  refine ⟨?_, insertEntry_sorted e l h.2.1, ?_, fun f hf => ?_⟩
  · rw [p.length_eq, List.length_cons]
    omega
  · rw [(p.map _).nodup_iff, List.map_cons, List.nodup_cons]
    refine ⟨fun hh => ?_, h.2.2.1⟩
    obtain ⟨f, hf, he⟩ := List.mem_map.mp hh
    exact hi f hf he
  · rcases List.mem_cons.mp (p.mem_iff.mp hf) with rfl | hf
    · exact ⟨hn, hd⟩
    · exact h.2.2.2 f hf

theorem remove_lt (h : EntriesOrdered l n) {e : Entry} (he : e ∈ l) : (removeEntry e.ident l).length < 1024 := by
  refine lt_of_lt_of_le ?_ h.1
  unfold removeEntry
  exact List.length_filter_lt_length_iff_exists.mpr ⟨e, he, by simp⟩

end EntriesOrdered

/-- An operation that leaves the entries and the identities alone. -/
theorem TrackOrdered.of_touches {ps : List Part} {s t : State} (h : TrackOrdered s) (k : Touches ps s t)
    (h1 : Part.entries ∉ ps := by decide) (h2 : Part.entryCounters ∉ ps := by decide) : TrackOrdered t := by
  have e1 : t.track.entries = s.track.entries := k .entries h1
  have e2 := (show t.track.seq = s.track.seq ∧ t.track.nextIdent = s.track.nextIdent from k .entryCounters h2).2
  rw [trackOrdered_iff, e1, e2]
  exact h

theorem lanesOf_fit (p : SlitPlan) (k : ItemKind) (x0 x1 : Int) :
    (p.lanesOf k x0 x1).Nodup ∧ ∀ n ∈ p.lanesOf k x0 x1, 1 ≤ n ∧ n ≤ 24 := by
  have hu : p.usedLanes.Nodup ∧ ∀ n ∈ p.usedLanes, 1 ≤ n ∧ n ≤ 24 :=
    ⟨(List.nodup_range' ..).filter _, fun n hn => (mem_laneNumbers n).1 (List.mem_of_mem_filter hn)⟩
  unfold SlitPlan.lanesOf
  split
  · exact ⟨hu.1.filter _, fun n hn => hu.2 n (List.mem_of_mem_filter hn)⟩
  · exact hu

theorem passKnife_keeps (s : State) (e : Entry) (h : e.lanesFit) :
    (passKnife s e).w = e.w ∧ (passKnife s e).ident = e.ident ∧ (passKnife s e).lanesFit := by
  unfold passKnife
  cases hp : e.passage with
  | ahead => exact ⟨rfl, rfl, lanesOf_fit _ _ _ _⟩
  | slit lanes shift => exact ⟨rfl, rfl, h⟩

theorem takeEntry_ordered (e : Entry) (s : State) (h : TrackOrdered s) : TrackOrdered (takeEntry e s) :=
  show EntriesOrdered (removeEntry e.ident s.track.entries) s.track.nextIdent from EntriesOrdered.filter h _

/-- An entry `e` of the list, taken out, changed but for its identity and lane set, and moved. -/
theorem placeMoved_ordered (e e' : Entry) (s : State) (h : TrackOrdered s) (he : e ∈ s.track.entries)
    (hid : e'.ident = e.ident) (hla : e'.lanes = e.lanes) : TrackOrdered (placeMoved e' (takeEntry e s)) := by
  have ho : EntriesOrdered s.track.entries s.track.nextIdent := h
  have d := ho.2.2.2 e he
  have hd : e'.lanesFit := by unfold Entry.lanesFit; rw [hla]; exact d.2
  have hl : (takeEntry e s).track.entries.length < 1024 := ho.remove_lt he
  have hi : ∀ f ∈ (takeEntry e s).track.entries, f.ident ≠ e'.ident := by
    intro f hf
    rw [hid]
    simpa using (List.mem_filter.mp (show f ∈ removeEntry e.ident s.track.entries from hf)).2
  have hn : e'.ident < (takeEntry e s).track.nextIdent := by rw [hid]; exact d.1
  have ht : EntriesOrdered (takeEntry e s).track.entries (takeEntry e s).track.nextIdent := takeEntry_ordered e s h
  have hp := passKnife_keeps (takeEntry e s) e' hd
  unfold placeMoved
  split
  · split
    · exact ht.insert e' hl hi hn hd
    · exact ht.insert _ hl (by rw [hp.2.1]; exact hi) (by rw [hp.2.1]; exact hn) hp.2.2
  · split
    · exact TrackOrdered.of_touches ht (commitEntry_touches _ _)
    · exact TrackOrdered.of_touches ht (lateItem_touches _ _ _ _ _)

theorem replaceEntry_ordered (e : Entry) (s : State) (h : TrackOrdered s) (he : e ∈ s.track.entries) :
    TrackOrdered (replaceEntry e s) := by
  unfold replaceEntry
  dsimp only
  split
  · exact (takeEntry_ordered e s h).of_touches (lateItem_touches _ _ _ _ _)
  · exact placeMoved_ordered e _ s h he rfl rfl

theorem storeItem_ordered (it : Item) (s : State) (h : TrackOrdered s) (hl : s.track.entries.length < 1024) :
    TrackOrdered (storeItem it s) := by
  have ho : EntriesOrdered s.track.entries (s.track.nextIdent + 1) := EntriesOrdered.mono h (by omega)
  have hi : ∀ f ∈ s.track.entries, f.ident ≠ s.track.nextIdent := fun f hf => by have := (h.2.2.2 f hf).1; omega
  have hd : (entryOfItem it s).lanesFit := ⟨List.nodup_nil, fun n hn => absurd hn List.not_mem_nil⟩
  have hp := passKnife_keeps s (entryOfItem it s) hd
  show EntriesOrdered (insertEntry _ s.track.entries) (s.track.nextIdent + 1)
  split
  · exact ho.insert _ hl hi (Nat.lt_succ_self _) hd
  · exact ho.insert _ hl (by rw [hp.2.1]; exact hi) (by rw [hp.2.1]; exact Nat.lt_succ_self _) hp.2.2

theorem withdrawFrom_mem (l : List Entry) (e : Entry) (h : withdrawFrom l = some e) : e ∈ l := by
  induction l with
  | nil => cases h
  | cons x xs ih =>
    unfold withdrawFrom at h
    split at h
    · rename_i f hf
      split at h <;> cases h
      · exact List.mem_cons_self
      · exact List.mem_cons_of_mem _ (ih hf)
    · split at h <;> cases h
      exact List.mem_cons_self

theorem withdraw_ordered (e : Entry) (s : State) (h : TrackOrdered s) (he : e ∈ s.track.entries) :
    TrackOrdered (withdraw e s) ∧ (withdraw e s).track.entries.length < 1024 := by
  have k : Touches ([.yields, .mapRecords] ++ Part.counting) (takeEntry e s) (withdraw e s) :=
    Touches.trans (ps := [.mapRecords] ++ Part.counting) (qs := [.yields])
      (Touches.trans (ps := Part.counting) (qs := [.mapRecords]) (countTotal_touches _ _ _) (setStatus_touches _ _ _))
      (lapseRelease_touches _)
  refine ⟨(takeEntry_ordered e s h).of_touches k, ?_⟩
  rw [show (withdraw e s).track.entries = _ from k.same .entries]
  exact EntriesOrdered.remove_lt (show EntriesOrdered _ s.track.nextIdent from h) he

theorem placeItem_ordered (it : Item) (s : State) (h : TrackOrdered s) : TrackOrdered (placeItem it s).1 := by
  unfold placeItem
  split
  · unfold storeOrMakeRoom
    split
    · exact storeItem_ordered it s h (by assumption)
    · split
      · exact h
      · split
        · rename_i e he
          have k := withdraw_ordered e s h (withdrawFrom_mem _ _ he)
          exact storeItem_ordered it _ k.1 k.2
        · exact h.of_touches ((countTotal_touches _ _ _).trans (raise_touches _ _) : Touches Part.counting s _)
  · split
    · exact TrackOrdered.of_touches (s := entryMade s)
        (EntriesOrdered.mono (show EntriesOrdered s.track.entries s.track.nextIdent from h) (Nat.le_succ _))
        (commitEntry_touches _ _)
    · exact h.of_touches (lateItem_touches _ _ _ _ s)

end Sys2Proof.Machine
end

