-- ==== Sys2Proof/Laws/PerInstr.lean ====
section
/-! SUPPORT. The Line Port access that a command is: no two well-formed commands are the same access, so the words of
a bus access name the command (R161 to R164; the codes of R164). -/

namespace Sys2Proof.Laws

open Sys2Proof.Machine

/-! ### The command that an access is -/

/-- The command of a word written to COMMAND, by its whole value. -/
def commandOfWord (d : Word) : Instr :=
  if d = 0x01 then .rollMount else if d = 0x02 then .rollEnd else if d = 0x03 then .mapClear
  else if d = 0x04 then .setStart else if d = 0x05 then .setChange else if d = 0x06 then .setEnd
  else if d = 0x07 then .stopRelease else if d = 0x08 then .stopCancel else if d = 0x09 then .preset
  else if d = 0x0A then .snapTallies else if d = 0x5A then .warmReset else .unknownCommand d

/-- The command of a write. -/
def commandOfWrite (word : Fin 32) (d : Word) : Instr :=
  if word = 2 then commandOfWord d
  else if word = 11 then .webShiftWrite d
  else if word = 14 then .eventWrite .a d else if word = 15 then .eventWrite .b d
  else if word = 16 then .enableWrite .a d else if word = 17 then .enableWrite .b d
  else if word = 18 then .laneGradeChangeWrite .a d else if word = 19 then .laneGradeChangeWrite .b d
  else if word = 20 then .tableSelectWrite d else if word = 22 then .tableDataWrite d
  else .registerWrite word d

/-- The command of an access; the reads that change nothing have no row (log 12). -/
def commandOf : BusAccess → Option Instr
  | .write word d => some (commandOfWrite word d)
  | .read word => if word = 8 then some .posHiRead else if word = 22 then some .tableDataRead else none

/-- A code that names no command is none of the words that do. -/
theorem commandOfWord_unknown (d : Word) (h : (Instr.unknownCommand d).wf = true) :
    commandOfWord d = .unknownCommand d := by
  unfold commandOfWord
  repeat' split
  all_goals first
    | rfl
    | (subst_vars; exact absurd h (by decide))

/-- A word without a row of its own is none of the words that have one. -/
theorem commandOfWrite_register (word : Fin 32) (d : Word) (h : (Instr.registerWrite word d).wf = true) :
    commandOfWrite word d = .registerWrite word d := by
  unfold commandOfWrite
  repeat' split
  all_goals first
    | rfl
    | (subst_vars; exact absurd h (by simp [Instr.wf, ownRowWords]))

namespace Accesses

/-- The access of a well-formed command names that command. -/
def Statement (i : Instr) : Prop := i.wf = true → ∀ a, accessOf i = some a → commandOf a = some i

theorem coldReset (encA : Bool) (encB : Bool) (adr : BitVec 3) : Statement (.coldReset encA encB adr) :=
  fun _ _ e => nomatch e
theorem encoderTransition (encA : Bool) (encB : Bool) : Statement (.encoderTransition encA encB) :=
  fun _ _ e => nomatch e
theorem tick : Statement .tick := fun _ _ e => nomatch e
theorem pulseEnd (channel : Fin 4) : Statement (.pulseEnd channel) := fun _ _ e => nomatch e
theorem speedSample : Statement .speedSample := fun _ _ e => nomatch e
theorem knifePassage : Statement .knifePassage := fun _ _ e => nomatch e
theorem commit : Statement .commit := fun _ _ e => nomatch e
theorem walkStep : Statement .walkStep := fun _ _ e => nomatch e
theorem confirmation : Statement .confirmation := fun _ _ e => nomatch e
theorem marking : Statement .marking := fun _ _ e => nomatch e
theorem liveSplicePlacement : Statement .liveSplicePlacement := fun _ _ e => nomatch e
theorem detection : Statement .detection := fun _ _ e => nomatch e
theorem mapRelease : Statement .mapRelease := fun _ _ e => nomatch e
theorem trackRecordLatch : Statement .trackRecordLatch := fun _ _ e => nomatch e
theorem rollEndEmptying : Statement .rollEndEmptying := fun _ _ e => nomatch e
theorem stoppedMarkWrite : Statement .stoppedMarkWrite := fun _ _ e => nomatch e
theorem skippedMarkWrite : Statement .skippedMarkWrite := fun _ _ e => nomatch e
theorem spliceSensorEdge : Statement .spliceSensorEdge := fun _ _ e => nomatch e
theorem latchedSightingTaken : Statement .latchedSightingTaken := fun _ _ e => nomatch e
theorem spliceSighting : Statement .spliceSighting := fun _ _ e => nomatch e
theorem mapBegin : Statement .mapBegin := fun _ _ e => nomatch e
theorem mapRecord : Statement .mapRecord := fun _ _ e => nomatch e
theorem mapClose : Statement .mapClose := fun _ _ e => nomatch e
theorem beacon : Statement .beacon := fun _ _ e => nomatch e
theorem inspectionMessage : Statement .inspectionMessage := fun _ _ e => nomatch e
theorem repeatedStart : Statement .repeatedStart := fun _ _ e => nomatch e
theorem holdExpiry : Statement .holdExpiry := fun _ _ e => nomatch e
theorem statusRead (count : Nat) : Statement (.statusRead count) := fun _ _ e => nomatch e
theorem poll : Statement .poll := fun _ _ e => nomatch e
theorem fetch : Statement .fetch := fun _ _ e => nomatch e
theorem release : Statement .release := fun _ _ e => nomatch e
theorem unknownFrame : Statement .unknownFrame := fun _ _ e => nomatch e
theorem reelFrameDiscard : Statement .reelFrameDiscard := fun _ _ e => nomatch e
theorem frameGapExpiry : Statement .frameGapExpiry := fun _ _ e => nomatch e
theorem replyTransmitStart : Statement .replyTransmitStart := fun _ _ e => nomatch e
theorem rollMount : Statement .rollMount := fun _ a e => by cases e; rfl
theorem rollEnd : Statement .rollEnd := fun _ a e => by cases e; rfl
theorem mapClear : Statement .mapClear := fun _ a e => by cases e; rfl
theorem setStart : Statement .setStart := fun _ a e => by cases e; rfl
theorem setChange : Statement .setChange := fun _ a e => by cases e; rfl
theorem setEnd : Statement .setEnd := fun _ a e => by cases e; rfl
theorem stopRelease : Statement .stopRelease := fun _ a e => by cases e; rfl
theorem stopCancel : Statement .stopCancel := fun _ a e => by cases e; rfl
theorem preset : Statement .preset := fun _ a e => by cases e; rfl
theorem snapTallies : Statement .snapTallies := fun _ a e => by cases e; rfl
theorem warmReset : Statement .warmReset := fun _ a e => by cases e; rfl
theorem unknownCommand (d : Word) : Statement (.unknownCommand d) :=
  fun h a e => by cases e; exact congrArg some (commandOfWord_unknown d h)
theorem posHiRead : Statement .posHiRead := fun _ a e => by cases e; rfl
theorem webShiftWrite (d : Word) : Statement (.webShiftWrite d) := fun _ a e => by cases e; rfl
theorem eventWrite (bank : Bank) (d : Word) : Statement (.eventWrite bank d) :=
  fun _ a e => by cases bank <;> cases e <;> rfl
theorem enableWrite (bank : Bank) (d : Word) : Statement (.enableWrite bank d) :=
  fun _ a e => by cases bank <;> cases e <;> rfl
theorem laneGradeChangeWrite (bank : Bank) (d : Word) : Statement (.laneGradeChangeWrite bank d) :=
  fun _ a e => by cases bank <;> cases e <;> rfl
theorem tableSelectWrite (d : Word) : Statement (.tableSelectWrite d) := fun _ a e => by cases e; rfl
theorem tableDataRead : Statement .tableDataRead := fun _ a e => by cases e; rfl
theorem tableDataWrite (d : Word) : Statement (.tableDataWrite d) := fun _ a e => by cases e; rfl
theorem registerWrite (word : Fin 32) (d : Word) : Statement (.registerWrite word d) :=
  fun h a e => by cases e; exact congrArg some (commandOfWrite_register word d h)
theorem inspectionLinkByte (b : Byte) : Statement (.inspectionLinkByte b) := fun _ _ e => nomatch e
theorem characterReceived (b : Character) (parityBit : Bool) (stopBit : Bool) :
    Statement (.characterReceived b parityBit stopBit) :=
  fun _ _ e => nomatch e
theorem dataStrobeNegated : Statement .dataStrobeNegated := fun _ _ e => nomatch e

end Accesses

end Sys2Proof.Laws
end

