-- ==== Sys2Proof/Laws/Planner.lean ====
section
/-! SUPPORT. What an evaluation of the Stop Planner comes to, in the terms of the claims (R128 to R142), and what an
operation hands on when it completes (R25, R29). -/

namespace Sys2Proof.Machine

/-! ### Selection (R128, R129, R133) -/

theorem firstLowest_eq (pre post : List (Target × Int)) (c : Target × Int) (h1 : ∀ d ∈ pre, c.2 < d.2)
    (h2 : ∀ d ∈ post, c.2 ≤ d.2) : firstLowest (pre ++ c :: post) = some c := by
  have mem : ∀ (l : List (Target × Int)) d, firstLowest l = some d → d ∈ l := by
    intro l
    induction l with
    | nil => simp [firstLowest]
    | cons x xs ih =>
      intro d hd
      unfold firstLowest at hd
      split at hd
      · cases hd
        exact List.mem_cons_self
      · rename_i y hy
        split at hd <;> cases hd
        · exact List.mem_cons_of_mem _ (ih _ hy)
        · exact List.mem_cons_self
  induction pre with
  | nil =>
    rw [List.nil_append, firstLowest]
    split
    · rfl
    · rename_i d hd
      rw [if_neg (not_lt_of_ge (h2 d (mem post d hd)))]
  | cons x xs ih =>
    rw [List.cons_append, firstLowest, ih fun d hd => h1 d (List.mem_cons_of_mem _ hd)]
    dsimp only
    rw [if_pos (h1 x List.mem_cons_self)]

theorem isCandidate_iff (s : State) (e : Entry) : s.isCandidate e = true ↔ s.qualifies e := by
  unfold State.isCandidate StopParams.selects StopParams.takesSource State.qualifies FilterSelects
  have t1 : ((s.planner.setAside != some e.ident) = true) ↔ s.planner.setAside ≠ some e.ident := bne_iff_ne
  simp only [Bool.and_eq_true, t1, Bool.not_eq_true']
  cases hk : e.kind with
  | flag => cases hs : e.source <;> simp <;> tauto
  | splice => simp; tauto

theorem lengthCandidate_iff (s : State) (o : OpenSet) (ho : s.reels.openSet = some o) :
    s.lengthCandidate o = true ↔ s.lengthQualifies o := by
  unfold State.lengthCandidate State.lengthQualifies
  simp only [ho, Bool.and_eq_true, decide_eq_true_eq, beq_iff_eq, true_and]
  tauto

/-- The entries among the candidates. -/
theorem mem_entryCandidates (s : State) (l : List Entry) (d : Target × Int) :
    d ∈ (l.filter fun e => s.isCandidate e && s.pos.p < s.entryPoint e).map
      (fun e => (Target.entry e.ident e.kind, s.entryPoint e)) ↔
    ∃ e ∈ l, s.qualifies e ∧ s.pos.p < s.pointOf e ∧ d = (.entry e.ident e.kind, s.pointOf e) := by
  simp only [List.mem_map, List.mem_filter, Bool.and_eq_true, decide_eq_true_eq, isCandidate_iff]
  constructor
  · rintro ⟨e, ⟨h1, h2, h3⟩, rfl⟩
    exact ⟨e, h1, h2, h3, rfl⟩
  · rintro ⟨e, h1, h2, h3, rfl⟩
    exact ⟨e, ⟨h1, h2, h3⟩, rfl⟩

/-- The length stop among the candidates. -/
def State.lengthCandidates (s : State) : List (Target × Int) :=
  match s.reels.openSet with
  | none => []
  | some o => if s.lengthCandidate o && s.pos.p < s.lengthPoint o then [(Target.length o.number, s.lengthPoint o)] else []

theorem mem_lengthCandidates (s : State) (d : Target × Int) : d ∈ s.lengthCandidates ↔
    ∃ o, s.lengthQualifies o ∧ s.pos.p < s.lengthPointOf o ∧ d = (.length o.number, s.lengthPointOf o) := by
  unfold State.lengthCandidates
  cases ho : s.reels.openSet with
  | none =>
    simp only [List.not_mem_nil, false_iff]
    rintro ⟨o, h, -⟩
    rw [h.1] at ho
    cases ho
  | some o =>
    dsimp only
    constructor
    · intro h
      split at h
      · rename_i hc
        rw [Bool.and_eq_true, decide_eq_true_eq] at hc
        exact ⟨o, (lengthCandidate_iff s o ho).1 hc.1, hc.2, List.mem_singleton.1 h⟩
      · cases h
    · rintro ⟨o', h, h2, rfl⟩
      obtain rfl : o' = o := Option.some.inj (h.1.symm.trans ho)
      rw [if_pos (by rw [Bool.and_eq_true, decide_eq_true_eq]; exact ⟨(lengthCandidate_iff s _ ho).2 h, h2⟩)]
      exact List.mem_cons_self

theorem candidates_eq (s : State) : s.candidates =
    (s.track.entries.filter fun e => s.isCandidate e && s.pos.p < s.entryPoint e).map
      (fun e => (Target.entry e.ident e.kind, s.entryPoint e)) ++ s.lengthCandidates := rfl

/-- R133: no candidate. -/
theorem select_none {s : State} (h : NoneSelected s) : s.select = none := by
  have hc : s.candidates = [] := by
    rw [List.eq_nil_iff_forall_not_mem]
    intro d hd
    rw [candidates_eq, List.mem_append, mem_entryCandidates, mem_lengthCandidates] at hd
    rcases hd with ⟨e, h1, h2, h3, -⟩ | ⟨o, h1, h2, -⟩
    · exact absurd (h.1 e h1 h2) (not_le_of_gt h3)
    · exact absurd (h.2 o h1) (not_le_of_gt h2)
  unfold State.select
  rw [hc]
  rfl

/-- Two entries of one identity are one entry. -/
theorem entry_unique {l : List Entry} (hn : (l.map fun e => e.ident).Nodup) {e f : Entry} (he : e ∈ l) (hf : f ∈ l)
    (h : e.ident = f.ident) : e = f := List.inj_on_of_nodup_map hn he hf h

theorem entryOf_eq {s : State} (hn : (s.track.entries.map fun e => e.ident).Nodup) {e : Entry}
    (he : e ∈ s.track.entries) : s.entryOf e.ident = some e := by
  unfold State.entryOf
  cases hf : s.track.entries.find? fun f => f.ident == e.ident with
  | none => exact absurd (List.find?_eq_none.1 hf e he) (by simp)
  | some f => rw [entry_unique hn (List.mem_of_find?_eq_some hf) he (by simpa using List.find?_some hf)]

/-- R133: the selection, with the stop point of what it finds. -/
theorem select_some {s : State} (hn : (s.track.entries.map fun e => e.ident).Nodup) {g : Target} {x : Int}
    (h : Selected s g x) : s.select = some (g, x) ∧ s.targetPoint g = some x := by
  obtain ⟨hx, ⟨pre, e, post, hl, hc, rfl, rfl, hpre, hpost, hlen⟩ | ⟨o, ho, rfl, rfl, hall⟩⟩ := h
  · unfold State.listed at hl
    constructor
    · have hp : (s.isCandidate e && decide (s.pos.p < s.entryPoint e)) = true := by
        rw [Bool.and_eq_true, decide_eq_true_eq, isCandidate_iff]
        exact ⟨hc, hx⟩
      unfold State.select
      rw [candidates_eq, hl, List.filter_append, List.filter_cons, if_pos hp, List.map_append, List.map_cons,
        List.append_assoc, List.cons_append]
      refine firstLowest_eq _ _ _ (fun d hd => ?_) fun d hd => ?_
      · obtain ⟨f, h1, h2, h3, rfl⟩ := (mem_entryCandidates s pre d).1 hd
        exact hpre f h1 h2 h3
      · rcases List.mem_append.1 hd with hd | hd
        · obtain ⟨f, h1, h2, h3, rfl⟩ := (mem_entryCandidates s post d).1 hd
          exact hpost f h1 h2 h3
        · obtain ⟨o, h1, h2, rfl⟩ := (mem_lengthCandidates s d).1 hd
          exact hlen o h1 h2
    · show (s.entryOf e.ident).map s.entryPoint = some (s.pointOf e)
      rw [entryOf_eq hn (by rw [hl]; simp)]
      rfl
  · constructor
    · have hl : s.lengthCandidates = [(.length o.number, s.lengthPointOf o)] := by
        unfold State.lengthCandidates
        rw [ho.1]
        dsimp only
        rw [if_pos (by rw [Bool.and_eq_true, decide_eq_true_eq]; exact ⟨(lengthCandidate_iff s o ho.1).2 ho, hx⟩)]
        rfl
      unfold State.select
      rw [candidates_eq, hl]
      refine firstLowest_eq _ [] _ (fun d hd => ?_) fun d hd => absurd hd List.not_mem_nil
      obtain ⟨f, h1, h2, h3, rfl⟩ := (mem_entryCandidates s _ d).1 hd
      exact hall f h1 h2 h3
    · show (s.setNumbered o.number).map s.lengthPoint = some (s.lengthPointOf o)
      unfold State.setNumbered
      rw [ho.1]
      dsimp only
      rw [if_pos rfl]
      rfl

/-- R139. -/
theorem targetLost_iff {s : State} (hn : (s.track.entries.map fun e => e.ident).Nodup) :
    s.targetLost = true ↔ ¬ s.stillQualifies s.planner.target := by
  unfold State.targetLost State.stillQualifies
  cases s.planner.target with
  | none => simp
  | entry ident k =>
    dsimp only
    cases he : s.entryOf ident with
    | none =>
      simp only [true_iff]
      rintro ⟨e, h1, rfl, -⟩
      rw [entryOf_eq hn h1] at he
      cases he
    | some e =>
      have hm : e ∈ s.track.entries := List.mem_of_find?_eq_some he
      have hi : e.ident = ident := by simpa using List.find?_some he
      dsimp only
      rw [Bool.not_eq_true', ← Bool.not_eq_true, isCandidate_iff]
      refine not_congr ⟨fun h => ⟨e, hm, hi, h⟩, ?_⟩
      rintro ⟨f, h1, h2, h3⟩
      rwa [entry_unique hn hm h1 (hi.trans h2.symm)]
  | length n =>
    dsimp only
    unfold State.setNumbered
    cases ho : s.reels.openSet with
    | none =>
      simp only [true_iff]
      rintro ⟨o, h, -⟩
      rw [h.1] at ho
      cases ho
    | some o =>
      dsimp only
      by_cases hk : o.number = n
      · rw [if_pos hk]
        dsimp only
        rw [Bool.not_eq_true', ← Bool.not_eq_true, lengthCandidate_iff s o ho]
        refine not_congr ⟨fun h => ⟨o, h, hk⟩, ?_⟩
        rintro ⟨o', h, -⟩
        rwa [Option.some.inj (ho.symm.trans h.1)]
      · rw [if_neg hk]
        simp only [true_iff]
        rintro ⟨o', h, h2⟩
        rw [Option.some.inj (ho.symm.trans h.1)] at hk
        exact hk h2

/-! ### The tests of the states (R134 to R136) -/

/-- What the tests and an evaluation change: the planner's own fields, and the settle count on the way into HALTING. -/
structure Moved (s t : State) : Prop where
  frame : t = { s with planner := t.planner, pos := { s.pos with settle := t.pos.settle } }
  planner : ∃ st g point seq short retargeted, t.planner = { s.planner with
    state := st, target := g, targetPoint := point, notedSeq := seq, short := short, retargeted := retargeted }
  settle : t.pos.settle = if t.planner.state = .halting ∧ s.planner.state ≠ .halting then 0 else s.pos.settle

theorem Moved.refl (s : State) : Moved s s :=
  ⟨rfl, ⟨_, _, _, _, _, _, rfl⟩, by rw [if_neg fun h => h.2 h.1]⟩

/-- A test that follows an update of the planner's own fields. -/
theorem Moved.after {s t : State} {f : StopPlanner} (h : Moved (s.setPlanner f) t) (hs : s.planner.state ≠ .halting)
    (hf : ∃ st g point seq short retargeted, st ≠ .halting ∧ f = { s.planner with
      state := st, target := g, targetPoint := point, notedSeq := seq, short := short, retargeted := retargeted }) :
    Moved s t := by
  obtain ⟨st, g, point, seq, short, retargeted, hst, rfl⟩ := hf
  obtain ⟨st', g', point', seq', short', retargeted', hp⟩ := h.planner
  refine ⟨h.frame, ⟨st', g', point', seq', short', retargeted', hp⟩, ?_⟩
  rw [h.settle]
  exact if_congr (and_congr_right fun _ => iff_of_true hst hs) rfl rfl

theorem enterHalting_moved (b : Bool) (s : State) (hs : s.planner.state ≠ .halting) : Moved s (enterHalting b s) :=
  ⟨rfl, ⟨_, _, _, _, _, _, rfl⟩, by rw [if_pos ⟨rfl, hs⟩]; rfl⟩

theorem testCreeping_moved (s : State) (hs : s.planner.state ≠ .halting) : Moved s (testCreeping s) := by
  unfold testCreeping
  split
  · exact enterHalting_moved _ s hs
  · exact .refl s

theorem testSlowing_moved (s : State) (hs : s.planner.state ≠ .halting) : Moved s (testSlowing s) := by
  unfold testSlowing
  split
  · exact (testCreeping_moved _ (by simp)).after hs ⟨.creeping, _, _, _, _, _, by simp, rfl⟩
  · split
    · exact enterHalting_moved _ s hs
    · split
      · exact enterHalting_moved _ s hs
      · exact .refl s

theorem testArmed_moved (s : State) (hs : s.planner.state ≠ .halting) : Moved s (testArmed s) := by
  unfold testArmed
  split
  · exact (testSlowing_moved _ (by simp)).after hs ⟨.slowing, _, _, _, _, _, by simp, rfl⟩
  · exact .refl s

/-- Where the tests of the state `st` lead (R134 to R136): the state and SHORT, from the speed and the remaining distance. -/
def ledTo (st : PlannerState) (short : Bool) (v r : Int) (q : StopParams) : PlannerState × Bool :=
  if st = .armed ∧ slowDownOf v q < r ∧ q.haltDist < r then (.armed, short)
  else if st ≠ .creeping ∧ q.creepSpeed < v then
    (if r < 0 ∨ r ≤ q.haltDist then (.halting, true) else (.slowing, short))
  else if r ≤ q.haltDist then (.halting, short || decide (r < 0)) else (.creeping, short)

/-- What a test leaves of a planner that holds a target with the stop point `x`, in the terms of R134 to R136. -/
structure TestedFrom (st : PlannerState) (s t : State) (x : Int) : Prop where
  target : t.planner.target = s.planner.target
  retargeted : t.planner.retargeted = s.planner.retargeted
  halting : t.planner.state = .halting → t.planner.targetPoint = x ∧ t.planner.notedSeq = s.seqOf s.planner.target
  result : (t.planner.state, t.planner.short) = ledTo st s.planner.short s.pos.v (x - s.pos.p) s.planner.params

theorem testCreeping_from (s : State) (x : Int) (hh : s.heldPoint = x) (hs : s.planner.state = .creeping) :
    TestedFrom .creeping s (testCreeping s) x := by
  have hr : s.remaining = x - s.pos.p := by unfold State.remaining; rw [hh]
  unfold testCreeping
  rw [hr]
  split <;> rename_i h
  · refine ⟨rfl, rfl, fun _ => ⟨hh, rfl⟩, ?_⟩
    unfold ledTo
    rw [if_neg (by simp), if_neg (by simp), if_pos h]
    rfl
  · refine ⟨rfl, rfl, fun hk => ?_, ?_⟩
    · rw [hs] at hk
      cases hk
    · unfold ledTo
      rw [if_neg (by simp), if_neg (by simp), if_neg h, hs]

theorem testSlowing_from (s : State) (x : Int) (hh : s.heldPoint = x) (hs : s.planner.state = .slowing) :
    TestedFrom .slowing s (testSlowing s) x := by
  have hr : s.remaining = x - s.pos.p := by unfold State.remaining; rw [hh]
  unfold testSlowing
  rw [hr]
  by_cases hv : s.pos.v ≤ s.planner.params.creepSpeed
  · rw [if_pos hv]
    have g := testCreeping_from (s.setPlanner { s.planner with state := .creeping }) x hh rfl
    refine ⟨g.target, g.retargeted, g.halting, ?_⟩
    have : ¬ s.planner.params.creepSpeed < s.pos.v := not_lt.2 hv
    rw [g.result]
    simp [ledTo, this]
  · rw [if_neg hv]
    have halt : (x - s.pos.p < 0 ∨ x - s.pos.p ≤ s.planner.params.haltDist) → TestedFrom .slowing s (enterHalting true s) x := by
      intro h
      refine ⟨rfl, rfl, fun _ => ⟨hh, rfl⟩, ?_⟩
      unfold ledTo
      rw [if_neg (by simp), if_pos ⟨by simp, not_le.1 hv⟩, if_pos h]
      rfl
    split <;> rename_i h0
    · exact halt (.inl h0)
    · split <;> rename_i h1
      · exact halt (.inr h1)
      · refine ⟨rfl, rfl, fun hk => ?_, ?_⟩
        · rw [hs] at hk
          cases hk
        · unfold ledTo
          rw [if_neg (by simp), if_pos ⟨by simp, not_le.1 hv⟩, if_neg (by rintro (h | h); exacts [h0 h, h1 h]), hs]

theorem testArmed_from (s : State) (x : Int) (hh : s.heldPoint = x) (hs : s.planner.state = .armed)
    (hd : 1 ≤ s.planner.params.decel) : TestedFrom .armed s (testArmed s) x := by
  have hr : s.remaining = x - s.pos.p := by unfold State.remaining; rw [hh]
  have hsd : s.slowDown = slowDownOf s.pos.v s.planner.params := by unfold State.slowDown; rw [slowDown_eq _ _ hd]
  unfold testArmed
  rw [hr, hsd]
  split <;> rename_i h
  · have g := testSlowing_from (s.setPlanner { s.planner with state := .slowing }) x hh rfl
    refine ⟨g.target, g.retargeted, g.halting, ?_⟩
    have : ¬ (slowDownOf s.pos.v s.planner.params < x - s.pos.p ∧ s.planner.params.haltDist < x - s.pos.p) := by
      rintro ⟨h1, h2⟩
      omega
    rw [g.result]
    simp [ledTo, this]
  · refine ⟨rfl, rfl, fun hk => ?_, ?_⟩
    · rw [hs] at hk
      cases hk
    · unfold ledTo
      rw [if_pos ⟨rfl, by omega, by omega⟩, hs]

/-- A test in the terms of the claims. -/
theorem TestedFrom.tested {st : PlannerState} {s t : State} {x : Int} (h : TestedFrom st s t x) (m : Moved s t)
    (hn : (s.track.entries.map fun e => e.ident).Nodup) :
    Tested s.planner.target st s.planner.short s.planner.retargeted x t := by
  have hq : t.planner.params = s.planner.params := by obtain ⟨_, _, _, _, _, _, hp⟩ := m.planner; rw [hp]
  have hk : t.track = s.track := by rw [m.frame]
  have hp : t.pos.p = s.pos.p := by rw [m.frame]
  have hv : t.pos.v = s.pos.v := by rw [m.frame]
  refine ⟨h.target, h.retargeted, fun hs => ?_, ?_⟩
  · obtain ⟨h1, h2⟩ := h.halting hs
    refine ⟨h1, fun e he k hg => ?_, fun n hg => ?_⟩
    · rw [h2, hg]
      show (s.entryOf e.ident).map _ = _
      rw [entryOf_eq hn (by rw [← hk]; exact he)]
      rfl
    · rw [h2, hg]
      rfl
  · rw [h.result, hq, hp, hv]
    rfl

/-! ### Evaluations -/

/-- What an evaluation reads but for the planner's own state: the list, the open set, P, v and the offsets. -/
structure SameScene (s t : State) : Prop where
  track : t.track = s.track
  openSet : t.reels.openSet = s.reels.openSet
  p : t.pos.p = s.pos.p
  v : t.pos.v = s.pos.v
  offTable : t.pos.offTable = s.pos.offTable
  offNip : t.pos.offNip = s.pos.offNip
  params : t.planner.params = s.planner.params
  setAside : t.planner.setAside = s.planner.setAside

namespace SameScene

variable {s t : State} (h : SameScene s t)
include h

theorem pointOf : t.pointOf = s.pointOf := by
  funext e
  unfold State.pointOf
  rw [h.offTable, h.params]

theorem lengthPointOf : t.lengthPointOf = s.lengthPointOf := by
  funext o
  unfold State.lengthPointOf
  rw [h.offNip]

theorem qualifies : t.qualifies = s.qualifies := by
  funext e
  unfold State.qualifies
  rw [h.params, h.setAside]

theorem lengthQualifies : t.lengthQualifies = s.lengthQualifies := by
  funext o
  unfold State.lengthQualifies
  rw [h.params, h.openSet]

theorem noneSelected : NoneSelected t ↔ NoneSelected s := by
  unfold NoneSelected
  rw [h.track, h.qualifies, h.pointOf, h.lengthQualifies, h.lengthPointOf, h.p]

theorem selected (g : Target) (x : Int) : Selected t g x ↔ Selected s g x := by
  unfold Selected State.listed
  rw [h.track, h.qualifies, h.pointOf, h.lengthQualifies, h.lengthPointOf, h.p]

theorem stillQualifies (g : Target) : t.stillQualifies g ↔ s.stillQualifies g := by
  unfold State.stillQualifies
  rw [h.track, h.qualifies, h.lengthQualifies]

theorem targetPoint (g : Target) : t.targetPoint g = s.targetPoint g := by
  cases g with
  | none => rfl
  | entry ident k =>
    show (t.entryOf ident).map t.entryPoint = (s.entryOf ident).map s.entryPoint
    have h1 : t.entryPoint = s.entryPoint := h.pointOf
    unfold State.entryOf
    rw [h.track, h1]
  | length n =>
    show (t.setNumbered n).map t.lengthPoint = (s.setNumbered n).map s.lengthPoint
    have h1 : t.lengthPoint = s.lengthPoint := h.lengthPointOf
    unfold State.setNumbered
    rw [h.openSet, h1]

end SameScene

/-- An evaluation, seen from and at states that agree with its own in what it reads and leaves. -/
theorem Evaluated.of_same {s s' t u : State} (h : Evaluated s t) (hp : s'.planner = s.planner)
    (hs : s'.pos.settle = s.pos.settle) (hu : u.planner = t.planner) (hk : u.track = t.track)
    (ho : u.reels.openSet = t.reels.openSet) (hq : u.pos = t.pos) : Evaluated s' u := by
  have sc : SameScene t u := ⟨hk, ho, by rw [hq], by rw [hq], by rw [hq], by rw [hq], by rw [hu], by rw [hu]⟩
  have ht : ∀ g st short retargeted x, Tested g st short retargeted x u ↔ Tested g st short retargeted x t := by
    intro g st short retargeted x
    unfold Tested
    rw [hu, hk, hq]
  unfold Evaluated at *
  simp only [sc.noneSelected, sc.selected, sc.stillQualifies, sc.targetPoint, ht, hp, hs, hu, hq] at h ⊢
  exact h

theorem heldPoint_with {s : State} {g : Target} {x : Int} (f : StopPlanner) (hg : s.targetPoint g = some x)
    (ht : f.target = g) (hf : f.params = s.planner.params) (ha : f.setAside = s.planner.setAside) :
    (s.setPlanner f).heldPoint = x := by
  have sc : SameScene s (s.setPlanner f) := ⟨rfl, rfl, rfl, rfl, rfl, rfl, hf, ha⟩
  unfold State.heldPoint
  show ((s.setPlanner f).targetPoint f.target).getD _ = x
  rw [sc.targetPoint, ht, hg]
  rfl

theorem Moved.sameScene {s t : State} (m : Moved s t) : SameScene t s := by
  obtain ⟨_, _, _, _, _, _, hp⟩ := m.planner
  refine ⟨?_, ?_, ?_, ?_, ?_, ?_, ?_, ?_⟩ <;> first | rw [hp] | rw [m.frame]

theorem retarget_moved (s : State) (hs : s.planner.state ≠ .halting) : Moved s (retarget s).1 := by
  have k : ∀ f : StopPlanner, (∃ st g point seq short retargeted, st ≠ .halting ∧ f = { s.planner with
      state := st, target := g, targetPoint := point, notedSeq := seq, short := short, retargeted := retargeted }) →
      Moved s (s.setPlanner f) := fun f hf => (Moved.refl (s.setPlanner f)).after hs hf
  unfold retarget
  split
  · split
    · exact k _ ⟨.idle, _, _, _, _, _, by simp, rfl⟩
    · dsimp only
      split
      · exact k _ ⟨.armed, _, _, _, _, _, by simp, rfl⟩
      · exact k _ ⟨s.planner.state, _, _, _, _, _, hs, rfl⟩
  · split
    · exact .refl s
    · split
      · exact k _ ⟨s.planner.state, _, _, _, _, _, hs, rfl⟩
      · exact .refl s

theorem retarget_state (s : State) (h : (retarget s).2 = true) : (retarget s).1.planner.state = s.planner.state := by
  unfold retarget at h ⊢
  repeat' split <;> simp_all

theorem Moved.trans {s t u : State} (h1 : Moved s t) (h2 : Moved t u) (hs : s.planner.state ≠ .halting)
    (ht : t.planner.state ≠ .halting) : Moved s u := by
  have e := h1.frame
  obtain ⟨_, _, _, _, _, _, hp⟩ := h1.planner
  obtain ⟨_, _, _, _, _, _, hq⟩ := h2.planner
  refine ⟨?_, ⟨_, _, _, _, _, _, by rw [hq, hp]⟩, ?_⟩
  · rw [h2.frame, e]
  · rw [h2.settle, h1.settle, if_neg (c := t.planner.state = .halting ∧ _) fun h => ht h.1]
    exact if_congr (and_congr_right fun _ => iff_of_true ht hs) rfl rfl

theorem evaluate_moved (s : State) : Moved s (evaluate s) := by
  unfold evaluate
  split
  · exact .refl s
  · split <;> rename_i hi
    · split
      · exact .refl s
      · exact (testArmed_moved _ (by simp)).after (by simp [hi]) ⟨.armed, _, _, _, _, _, by simp, rfl⟩
    · split
      · exact (Moved.refl _).after (by simp [hi]) ⟨.idle, _, _, _, _, _, by simp, rfl⟩
      · split
        · exact testArmed_moved s (by simp [hi])
        · exact (testArmed_moved _ (by simp)).after (by simp [hi]) ⟨.armed, _, _, _, _, _, by simp, rfl⟩
    · have hs : s.planner.state ≠ .halting := by simp [hi]
      have m := retarget_moved s hs
      dsimp only
      split <;> rename_i h
      · have ht : (retarget s).1.planner.state ≠ .halting := by rw [retarget_state s h]; exact hs
        exact m.trans (testSlowing_moved _ ht) hs ht
      · exact m
    · have hs : s.planner.state ≠ .halting := by simp [hi]
      have m := retarget_moved s hs
      dsimp only
      split <;> rename_i h
      · have ht : (retarget s).1.planner.state ≠ .halting := by rw [retarget_state s h]; exact hs
        exact m.trans (testCreeping_moved _ ht) hs ht
      · exact m
    · exact .refl s
    · exact .refl s

/-- R134: the tests of the state `st`, SLOWING or CREEPING. -/
def testOf : PlannerState → State → State
  | .slowing => testSlowing
  | .creeping => testCreeping
  | .idle => id
  | .armed => id
  | .halting => id
  | .stopped => id

theorem testOf_tested {s : State} {st : PlannerState} {g : Target} {x : Int} (f : StopPlanner)
    (hi : st = .slowing ∨ st = .creeping) (hg : s.targetPoint g = some x) (hst : f.state = st) (ht : f.target = g)
    (hf : f.params = s.planner.params) (ha : f.setAside = s.planner.setAside)
    (hn : (s.track.entries.map fun e => e.ident).Nodup) :
    Tested g st f.short f.retargeted x (testOf st (s.setPlanner f)) := by
  have hh := heldPoint_with f hg ht hf ha
  have hs : (s.setPlanner f).planner.state ≠ .halting := by
    show f.state ≠ .halting
    rw [hst]
    rcases hi with h | h <;> simp [h]
  rw [← ht]
  rcases hi with rfl | rfl
  · exact (testSlowing_from _ x hh hst).tested (testSlowing_moved _ hs) hn
  · exact (testCreeping_from _ x hh hst).tested (testCreeping_moved _ hs) hn

theorem testArmed_tested {s : State} {g : Target} {x : Int} (f : StopPlanner) (hg : s.targetPoint g = some x)
    (hst : f.state = .armed) (ht : f.target = g) (hf : f.params = s.planner.params) (ha : f.setAside = s.planner.setAside)
    (hd : 1 ≤ s.planner.params.decel) (hn : (s.track.entries.map fun e => e.ident).Nodup) :
    Tested g .armed f.short f.retargeted x (testArmed (s.setPlanner f)) := by
  have hh := heldPoint_with f hg ht hf ha
  have hd' : 1 ≤ (s.setPlanner f).planner.params.decel := by show 1 ≤ f.params.decel; rw [hf]; exact hd
  rw [← ht]
  exact (testArmed_from _ x hh hst hd').tested (testArmed_moved _ (by show f.state ≠ _; rw [hst]; simp)) hn

/-- R132 to R142: what an evaluation does. -/
theorem evaluate_evaluated (s : State) (hn : (s.track.entries.map fun e => e.ident).Nodup) : Evaluated s (evaluate s) := by
  have m := evaluate_moved s
  have sc := m.sameScene
  have hp : (evaluate s).pos.p = s.pos.p := sc.p.symm
  have hv : (evaluate s).pos.v = s.pos.v := sc.v.symm
  have hq : (evaluate s).planner.params = s.planner.params := sc.params.symm
  refine ⟨m.planner, m.settle, ?_, ?_⟩
  · rw [hv]
    intro h
    unfold evaluate
    rcases h with h | h | h
    · rw [if_pos h]
    · split
      · rfl
      · rw [h]
    · split
      · rfl
      · rw [h]
  · rw [← sc.noneSelected, hp, hv, hq]
    intro h0 hd
    have hv0 : ¬ s.pos.v < 0 := by omega
    have hsd : s.slowDown = slowDownOf s.pos.v s.planner.params := by unfold State.slowDown; rw [slowDown_eq _ _ hd]
    have arm : ∀ g x, s.targetPoint g = some x →
        Tested g .armed (decide (x - s.pos.p < slowDownOf s.pos.v s.planner.params)) false x (testArmed (armWith (g, x) s)) := by
      intro g x hg
      rw [← hsd]
      exact testArmed_tested _ hg rfl rfl rfl rfl hd hn
    refine ⟨fun hi => ⟨fun h => ?_, fun g x h => ?_⟩, fun hi => ⟨fun h => ?_, fun g x h => ⟨fun hg => ?_, fun hg => ?_⟩⟩, ?_⟩
    · unfold evaluate
      rw [if_neg hv0, hi, select_none h]
    · obtain ⟨a, b⟩ := select_some hn ((sc.selected g x).2 h)
      unfold evaluate
      rw [if_neg hv0, hi, a]
      exact arm g x b
    · unfold evaluate
      rw [if_neg hv0, hi, select_none h]
      rfl
    · obtain ⟨a, b⟩ := select_some hn ((sc.selected g x).2 h)
      unfold evaluate
      rw [if_neg hv0, hi, a]
      dsimp only
      rw [if_pos hg]
      exact testArmed_tested s.planner b hi hg.symm rfl rfl hd hn
    · obtain ⟨a, b⟩ := select_some hn ((sc.selected g x).2 h)
      unfold evaluate
      rw [if_neg hv0, hi, a]
      dsimp only
      rw [if_neg hg]
      exact arm g x b
    · intro hi
      have e0 : evaluate s = if (retarget s).2 then testOf s.planner.state (retarget s).1 else (retarget s).1 := by
        unfold evaluate
        rw [if_neg hv0]
        rcases hi with h | h <;> rw [h] <;> rfl
      rw [← sc.stillQualifies]
      constructor
      · intro hl
        have hl' := (targetLost_iff hn).2 hl
        constructor
        · intro h
          have hr : retarget s = (s.setPlanner s.planner.idled, false) := by
            unfold retarget
            rw [if_pos hl', select_none h]
          rw [e0, hr]
          rfl
        · intro g x h
          obtain ⟨a, b⟩ := select_some hn ((sc.selected g x).2 h)
          constructor
          · intro hfar
            have hr : retarget s = (s.setPlanner { s.planner with
                state := .armed, target := g, short := false, retargeted := false }, false) := by
              unfold retarget
              rw [if_pos hl', a, hsd]
              exact if_pos hfar
            rw [e0, hr]
            rfl
          · intro hfar
            have hr : retarget s = (s.setPlanner { s.planner with target := g, retargeted := true }, true) := by
              unfold retarget
              rw [if_pos hl', a, hsd]
              exact if_neg hfar
            rw [e0, hr]
            exact testOf_tested { s.planner with target := g, retargeted := true } hi b rfl rfl rfl rfl hn
      · intro hk y hy
        rw [← sc.targetPoint] at hy
        have hl' : ¬ s.targetLost = true := fun h => (targetLost_iff hn).1 h hk
        have hh : s.heldPoint = y := by unfold State.heldPoint; rw [hy]; rfl
        have keep : retarget s = (s, true) →
            Tested s.planner.target s.planner.state s.planner.short s.planner.retargeted y (evaluate s) := by
          intro hr
          rw [e0, hr]
          exact testOf_tested s.planner hi hy rfl rfl rfl rfl hn
        constructor
        · rintro (h | ⟨g, x, h, hle⟩)
          · exact keep (by unfold retarget; rw [if_neg hl', select_none h])
          · obtain ⟨a, b⟩ := select_some hn ((sc.selected g x).2 h)
            exact keep (by unfold retarget; rw [if_neg hl', a, hh]; exact if_neg (by omega))
        · intro g x h hlt
          obtain ⟨a, b⟩ := select_some hn ((sc.selected g x).2 h)
          have hr : retarget s = (s.setPlanner { s.planner with target := g, retargeted := true }, true) := by
            unfold retarget
            rw [if_neg hl', a, hh]
            exact if_pos hlt
          rw [e0, hr]
          exact testOf_tested { s.planner with target := g, retargeted := true } hi b rfl rfl rfl rfl hn

/-! ### What an operation hands on (R25, R29) -/

theorem signalRoom_room (before s : State) (h : s.pmap.withheld = before.pmap.withheld) :
    RoomSignalled before (signalRoom before.track.entries.length s) := by
  unfold RoomSignalled signalRoom
  split <;> rename_i hc
  · show false = (_ && !(decide _ && decide (s.track.entries.length < 1024)))
    rw [decide_eq_true hc.1, decide_eq_true hc.2]
    simp
  · rw [h]
    rcases not_and_or.1 hc with hc | hc <;> simp [hc]

theorem RoomSignalled.of_same {s t u : State} (h : RoomSignalled s t) (hw : u.pmap.withheld = t.pmap.withheld)
    (hk : u.track.entries.length = t.track.entries.length) : RoomSignalled s u := by
  unfold RoomSignalled
  rw [hw, hk]
  exact h

/-- What room changes: the release that is withheld. -/
theorem signalRoom_frame (n : Nat) (s : State) :
    signalRoom n s = { s with pmap := { s.pmap with withheld := (signalRoom n s).pmap.withheld } } := by
  unfold signalRoom
  split <;> rfl

/-- R29: an operation that made, removed, moved or merged an entry. -/
theorem completeOp_handedOn (before s : State) (hn : (s.track.entries.map fun e => e.ident).Nodup)
    (hp : s.planner = before.planner) (hs : s.pos.settle = before.pos.settle)
    (hw : s.pmap.withheld = before.pmap.withheld) : HandedOn before (completeOp true before s) := by
  unfold completeOp
  rw [if_pos rfl]
  have f := signalRoom_frame before.track.entries.length s
  have m := evaluate_moved (signalRoom before.track.entries.length s)
  refine ⟨(signalRoom_room before s hw).of_same (by rw [m.frame]) (by rw [m.frame]), ?_⟩
  refine (evaluate_evaluated _ ?_).of_same (by rw [f]; exact hp.symm) (by rw [f]; exact hs.symm) rfl rfl rfl rfl
  rw [f]
  exact hn

/-- R29: an operation that changed no entry. -/
theorem completeOp_handedNone (before s : State) (hp : s.planner = before.planner)
    (hs : s.pos.settle = before.pos.settle) (hw : s.pmap.withheld = before.pmap.withheld) :
    HandedNone before (completeOp false before s) := by
  have f := signalRoom_frame before.track.entries.length s
  refine ⟨signalRoom_room before s hw, ?_, ?_⟩
  · show (signalRoom _ s).planner = _
    rw [f]
    exact hp
  · show (signalRoom _ s).pos.settle = _
    rw [f]
    exact hs

/-- Hand-ons seen at a state that agrees in what they speak of. -/
theorem HandedOn.of_same {s t u : State} (h : HandedOn s t) (hw : u.pmap.withheld = t.pmap.withheld)
    (hu : u.planner = t.planner) (hk : u.track = t.track) (ho : u.reels.openSet = t.reels.openSet) (hq : u.pos = t.pos) :
    HandedOn s u :=
  ⟨h.1.of_same hw (by rw [hk]), h.2.of_same rfl rfl hu hk ho hq⟩

theorem HandedNone.of_same {s t u : State} (h : HandedNone s t) (hw : u.pmap.withheld = t.pmap.withheld)
    (hu : u.planner = t.planner) (hk : u.track = t.track) (hq : u.pos = t.pos) : HandedNone s u :=
  ⟨h.1.of_same hw (by rw [hk]), by rw [hu]; exact h.2.1, by rw [hq]; exact h.2.2⟩

end Sys2Proof.Machine
end

