-- ==== Sys2Proof/Laws/Transmitter.lean ====
section
/-! SUPPORT. What the transmitter of the Reel Link puts on TXD, in the terms of the claims (R173, R175). -/

namespace Sys2Proof.Machine

theorem charTime_eq (f : SendSettings) : f.charTime = bitsOf f.parity * bitPeriods f := rfl

theorem bitTime_eq (f : SendSettings) : f.bitTime = bitPeriods f := rfl

theorem bitsOf_pos (p : Parity) : 10 ≤ bitsOf p := by unfold bitsOf; split <;> decide

theorem onesOf_eq (b : Byte) : onesOf b = dataOnes b := by
  have h : ∀ (l : List Nat) (n : Nat), l.foldl (fun n i => n + flagBit (b.getLsbD i)) n =
      n + (l.filter fun i => b.getLsbD i).length := by
    intro l
    induction l with
    | nil => exact fun _ => rfl
    | cons i l ih =>
      intro n
      rw [List.foldl_cons, ih, List.filter_cons]
      cases b.getLsbD i <;> simp [flagBit, Nat.add_comm, Nat.add_assoc]
  exact (h _ 0).trans (Nat.zero_add _)

/-- Every bit of a character stands at its level. -/
theorem characterBits_level (p : Parity) (b : Byte) (k : Nat) (h : k < bitsOf p) :
    LevelIs p b k (((characterBits p b)[k]?).getD stopLevel) := by
  have parity := onesOf_eq b
  have hp : bitsOf p = 9 + (parityBits p b).length + 1 := by cases p <;> rfl
  rcases Nat.lt_or_ge k 9 with hk | hk
  · interval_cases k <;> refine ⟨?_, ?_, by omega, by omega, by have := bitsOf_pos p; omega⟩ <;>
      first
        | (intro _; rfl)
        | (intro _ _ hi; obtain rfl := Nat.succ.inj hi; rfl)
        | omega
  · refine ⟨by omega, by omega, ?_, ?_, ?_⟩
    · rintro rfl rfl
      show (dataOnes b + (onesOf b % 2 == 1).toNat) % 2 = 0
      rw [parity]
      rcases Nat.mod_two_eq_zero_or_one (dataOnes b) with h | h <;> (simp [h]; try omega)
    · rintro rfl rfl
      show (dataOnes b + (onesOf b % 2 == 0).toNat) % 2 = 1
      rw [parity]
      rcases Nat.mod_two_eq_zero_or_one (dataOnes b) with h | h <;> (simp [h]; try omega)
    · rintro rfl
      cases p <;> rfl

/-- A period within the character on the line. -/
theorem drainBytes_within (c : Nat) (b : Byte) (bs : List Byte) (left n : Nat) (h : n < left) :
    drainBytes c (b :: bs) left n = (b :: bs, left - n) := by
  unfold drainBytes
  rw [if_pos h]

/-- A period within the character of a byte behind the one on the line. -/
theorem drainBytes_behind (c : Nat) (x : Byte) (rest : List Byte) : ∀ (sent : List Byte) (b : Byte) (left n : Nat),
    left + sent.length * c ≤ n → n < left + (sent.length + 1) * c →
    drainBytes c (b :: (sent ++ x :: rest)) left n = (x :: rest, left + (sent.length + 1) * c - n)
  | [], b, left, n, h1, h2 => by
    simp only [List.length_nil, Nat.zero_mul, Nat.add_zero, Nat.zero_add, Nat.one_mul] at h1 h2 ⊢
    rw [List.nil_append, drainBytes, if_neg (by omega), drainBytes_within _ _ _ _ _ (by omega)]
    exact congrArg _ (by omega)
  | y :: sent, b, left, n, h1, h2 => by
    simp only [List.length_cons, Nat.add_mul, Nat.one_mul] at h1 h2 ⊢
    rw [List.cons_append, drainBytes, if_neg (by omega), drainBytes_behind c x rest sent y c (n - left)
      (by omega) (by simp only [Nat.add_mul, Nat.one_mul]; omega)]
    refine congrArg _ ?_
    simp only [Nat.add_mul, Nat.one_mul]
    omega

/-- A period beyond the last character. -/
theorem drainBytes_done (c : Nat) : ∀ (bs : List Byte) (b : Byte) (left n : Nat), left + bs.length * c ≤ n →
    drainBytes c (b :: bs) left n = ([], 0)
  | [], b, left, n, h => by
    rw [List.length_nil, Nat.zero_mul, Nat.add_zero] at h
    rw [drainBytes, if_neg (by omega), drainBytes]
  | x :: bs, b, left, n, h => by
    simp only [List.length_cons, Nat.add_mul, Nat.one_mul] at h
    rw [drainBytes, if_neg (by omega)]
    exact drainBytes_done c bs x c (n - left) (by omega)

/-- The level of TXD in bit `k` of the character on the line. -/
theorem txd_level (x : ReelLink) (b : Byte) (bs : List Byte) (k j : Nat) (hs : x.sending = b :: bs)
    (hk : k < bitsOf x.onLine.parity) (hj : j < bitPeriods x.onLine)
    (h : x.charLeft + k * bitPeriods x.onLine + j = bitsOf x.onLine.parity * bitPeriods x.onLine) :
    LevelIs x.onLine.parity b k x.txd := by
  have hd : (x.onLine.charTime - x.charLeft) / x.onLine.bitTime = k := by
    rw [charTime_eq, bitTime_eq, ← h, Nat.add_assoc, Nat.add_sub_cancel_left, Nat.mul_comm,
      Nat.mul_add_div (Nat.lt_of_le_of_lt (Nat.zero_le j) hj), Nat.div_eq_of_lt hj, Nat.add_zero]
  unfold ReelLink.txd
  rw [hs]
  simp only [hd]
  exact characterBits_level _ b k hk

theorem txd_idle (x : ReelLink) (h : x.sending = []) : x.txd = true := by
  unfold ReelLink.txd
  rw [h]
  rfl

/-- A frame that starts under the settings as they stand is carried by TXD. -/
theorem carries_of_start (x : ReelLink) (hl : x.charLeft = x.sendSettings.charTime) (ho : x.onLine = x.sendSettings) :
    x.carries x.sendSettings := by
  have done : ∀ (n : Nat), x.sending.length * x.sendSettings.charTime ≤ n → x.txdAfter n = true := by
    intro n hn
    refine txd_idle _ ?_
    show (drainBytes _ x.sending x.charLeft n).1 = []
    cases hs : x.sending with
    | nil => rfl
    | cons b bs =>
      rw [hs, List.length_cons, Nat.add_mul, Nat.one_mul] at hn
      rw [drainBytes_done _ _ _ _ _ (by omega)]
  refine ⟨fun i b k j hi hk hj => ?_, done⟩
  obtain ⟨hlen, hb⟩ := List.getElem?_eq_some_iff.mp hi
  have hkj : k * bitPeriods x.sendSettings + j < x.sendSettings.charTime := by
    have : (k + 1) * bitPeriods x.sendSettings ≤ bitsOf x.sendSettings.parity * bitPeriods x.sendSettings :=
      Nat.mul_le_mul_right _ hk
    rw [Nat.add_mul, Nat.one_mul] at this
    rw [charTime_eq]
    omega
  have hn : (i * bitsOf x.sendSettings.parity + k) * bitPeriods x.sendSettings + j =
      i * x.sendSettings.charTime + (k * bitPeriods x.sendSettings + j) := by
    rw [charTime_eq, Nat.add_mul, Nat.mul_assoc, Nat.add_assoc]
  rw [hn]
  generalize hc : x.sendSettings.charTime = c at *
  have hx : ∀ m rest, drainBytes c x.sending x.charLeft (i * c + m) = (b :: rest, c - m) → m < c →
      (x.transmit (i * c + m)).sending = b :: rest ∧ (x.transmit (i * c + m)).charLeft = c - m ∧
        (x.transmit (i * c + m)).onLine = x.sendSettings := by
    intro m rest hd _
    unfold ReelLink.transmit
    simp only [hc, hd, ho, ite_self, and_self]
  have hdrain : drainBytes c x.sending x.charLeft (i * c + (k * bitPeriods x.sendSettings + j)) =
      (b :: x.sending.drop (i + 1), c - (k * bitPeriods x.sendSettings + j)) := by
    have hsplit : x.sending = x.sending.take i ++ b :: x.sending.drop (i + 1) := by
      rw [← hb, List.getElem_cons_drop, List.take_append_drop]
    have htake : (x.sending.take i).length = i := List.length_take_of_le hlen.le
    rw [hl]
    cases ht : x.sending.take i with
    | nil =>
      rw [ht] at hsplit htake
      obtain rfl : 0 = i := htake
      conv_lhs => rw [hsplit]
      rw [List.nil_append, Nat.zero_mul, Nat.zero_add (k * _ + j)]
      exact drainBytes_within _ _ _ _ _ hkj
    | cons y ys =>
      rw [ht] at hsplit htake
      conv_lhs => rw [hsplit]
      rw [List.length_cons] at htake
      rw [List.cons_append, drainBytes_behind]
      · refine congrArg _ ?_
        rw [htake, ← htake, Nat.add_mul, Nat.one_mul]
        omega
      · rw [← htake, Nat.add_mul, Nat.one_mul]
        omega
      · rw [htake, ← htake, Nat.add_mul, Nat.one_mul]
        omega
  obtain ⟨h1, h2, h3⟩ := hx _ _ hdrain hkj
  have level := txd_level _ b _ k j h1
  rw [h2, h3, ← charTime_eq, hc] at level
  exact level hk hj (by omega)

end Sys2Proof.Machine
end

