-- ==== Sys2Proof/Laws/Receiver.lean ====
section
/-! SUPPORT. What a discarded frame, the bytes that wait in the stages and the reply to a served frame come to, in the
terms of the claims (R173 to R175). -/

namespace Sys2Proof.Machine

theorem discardFrame_reel (s : State) : (discardFrame s).reel = { s.reel with assembler := .hunting } := by
  show { (raise .reelLinkError (countTotal .framesDiscarded 1 s)).reel with assembler := .hunting } = _
  rw [((countTotal_touches .framesDiscarded 1 s).trans (rs := Part.counting) (raise_touches _ _)).reel]

/-- R174: one frame discarded. -/
theorem discardFrame_framesLost (s : State) (h : s.tally.live.totals.length = 16) : FramesLost 1 s (discardFrame s) := by
  refine ⟨?_, ?_⟩
  · have := countTotal_total .framesDiscarded .framesDiscarded 1 s h
    rwa [if_pos rfl] at this
  · show (raise .reelLinkError _).events.flag _ = _
    rw [raise_flag, countTotal_flag _ _ _ _ (by decide)]
    simp

/-- What changes neither the tallies nor the flags loses no frame. -/
theorem FramesLost.of_same {n : Nat} {s t u : State} (h : FramesLost n s t) (ht : u.tally = t.tally)
    (he : u.events = t.events) : FramesLost n s u := by
  unfold FramesLost State.total at *
  rw [ht, he]
  exact h

/-- A frame lost after others. -/
theorem FramesLost.succ {n : Nat} {s t : State} (h : FramesLost n s t) (ht : t.tally.live.totals.length = 16) :
    FramesLost (n + 1) s (discardFrame t) := by
  obtain ⟨h1, h2⟩ := discardFrame_framesLost t ht
  refine ⟨?_, ?_⟩
  · rw [h1, h.1]
    omega
  · rw [h2]
    simp

theorem FramesLost.zero {s : State} (h : TalliesBounded s) : FramesLost 0 s s := by
  refine ⟨?_, by simp⟩
  have := h.1.2.2.1
  unfold State.total TallyBank.total
  rw [List.getD_eq_getElem?_getD]
  cases hx : s.tally.live.totals[Total.framesDiscarded.place]? with
  | none => simp
  | some x =>
    have := this x (List.mem_of_getElem? hx)
    simp only [countMax] at this
    simp only [Option.getD_some]
    omega

theorem opens_iff (x : RxByte) : x.opens ↔ x.value = 0xC3 ∧ x.marked = false := by
  unfold RxByte.opens RxByte.marked
  simp [and_assoc]

theorem huntedWith_of {x : RxByte} {t : State} (h : t.reel.assembler = huntByte x) : HuntedWith x t := by
  unfold HuntedWith
  rw [h, opens_iff]
  unfold huntByte
  exact ⟨fun hh => if_pos hh, fun hh => if_neg hh⟩

/-- R175: while a reply waits the assembler takes no byte. -/
theorem pump_waiting (s : State) (h : s.reel.waiting ≠ none) : pump s = s := by
  have hb : s.reel.blocked = true := by
    unfold ReelLink.blocked
    cases hw : s.reel.waiting
    · exact absurd hw h
    · rfl
  unfold pump pumpOnce
  simp [hb]

/-- R174: a hunting assembler takes one byte. -/
theorem takeByte_hunting (b : RxByte) (s : State) (h : s.reel.assembler = .hunting) :
    takeByte b s = s.setReel { s.reel with assembler := huntByte b } := by
  unfold takeByte
  rw [h]
  simp [Assembler.collecting, collectByte]

/-- R173, R174: a hunting assembler takes the bytes of the stages; `t` has lost `n` frames since `s`, whose stages it still
holds. -/
theorem pump_stagesTaken {n : Nat} {s t : State} (hl : FramesLost n s t) (ha : t.reel.assembler = .hunting)
    (hw : t.reel.waiting = none) (h1 : t.reel.holdingStage = s.reel.holdingStage)
    (h2 : t.reel.shiftStage = s.reel.shiftStage) (h : t.tally.live.totals.length = 16) : StagesTaken n s (pump t) := by
  have hb : t.reel.blocked = false := by
    unfold ReelLink.blocked
    rw [hw, ha]
    rfl
  unfold StagesTaken
  rw [← h1, ← h2]
  cases hx : t.reel.holdingStage with
  | none =>
    have : pump t = t := by
      unfold pump pumpOnce
      simp [hb, hx]
    rw [this]
    exact ⟨hl, ha, hx, rfl⟩
  | some x =>
    have p1 : pumpOnce t = t.setReel { t.reel with
        assembler := huntByte x, holdingStage := t.reel.shiftStage, shiftStage := none } := by
      unfold pumpOnce
      rw [hb, hx]
      exact takeByte_hunting x (t.setReel _) ha
    have hb2 : (pumpOnce t).reel.blocked = false := by
      rw [p1, State.setReel_reel]
      unfold ReelLink.blocked
      dsimp only
      rw [hw]
      by_cases ho : x.value = 0xC3 ∧ x.marked = false
      · rw [show huntByte x = .needKind from if_pos ho]
        rfl
      · rw [show huntByte x = .hunting from if_neg ho]
        rfl
    cases hy : t.reel.shiftStage with
    | none =>
      have p2 : pump t = pumpOnce t := by
        unfold pump
        rw [show pumpOnce (pumpOnce t) = if (pumpOnce t).reel.blocked then pumpOnce t else _ from rfl, hb2]
        rw [p1, State.setReel_reel, hy]
        rfl
      rw [p2, p1]
      exact ⟨hl.of_same rfl rfl, huntedWith_of rfl, hy, rfl⟩
    | some y =>
      have p2 : pump t = takeByte y (t.setReel { t.reel with
          assembler := huntByte x, holdingStage := none, shiftStage := none }) := by
        unfold pump
        rw [show pumpOnce (pumpOnce t) = if (pumpOnce t).reel.blocked then pumpOnce t else _ from rfl, hb2]
        rw [p1, State.setReel_reel, hy]
        rfl
      rw [p2]
      generalize hu : t.setReel { t.reel with assembler := huntByte x, holdingStage := none, shiftStage := none } = u
      have ur : u.reel = { t.reel with assembler := huntByte x, holdingStage := none, shiftStage := none } := by
        rw [← hu]; rfl
      have ut : u.tally = t.tally := by rw [← hu]; rfl
      have ue : u.events = t.events := by rw [← hu]; rfl
      have hul : FramesLost n s u := hl.of_same ut ue
      have hc : u.reel.assembler.collecting = true ↔ x.opens := by
        rw [ur, opens_iff]
        unfold huntByte
        split <;> simp_all [Assembler.collecting]
      by_cases hd : (y.afterGap && u.reel.assembler.collecting) = true
      · have e : takeByte y u = (discardFrame u).setReel { (discardFrame u).reel with assembler := huntByte y } := by
          unfold takeByte
          rw [if_pos hd]
        rw [Bool.and_eq_true] at hd
        rw [e]
        refine ⟨?_, ?_, fun ho => absurd (hc.1 hd.2) ho, fun _ _ => ⟨?_, huntedWith_of rfl⟩, fun _ hg => ?_⟩
        · rw [State.setReel_reel, discardFrame_reel, ur]
        · rw [State.setReel_reel, discardFrame_reel, ur]
        · exact (hul.succ (by rw [ut]; exact h)).of_same rfl rfl
        · rw [hd.1] at hg
          cases hg
      · have e : takeByte y u = u.setReel { u.reel with assembler := collectByte y u.reel.assembler } := by
          unfold takeByte
          rw [if_neg hd]
        have hA : u.reel.assembler = huntByte x := by rw [ur]
        rw [e]
        refine ⟨?_, ?_, fun ho => ⟨hul.of_same rfl rfl, huntedWith_of ?_⟩, fun ho hg => ?_,
          fun ho _ => ⟨hul.of_same rfl rfl, ?_⟩⟩
        · rw [State.setReel_reel, ur]
        · rw [State.setReel_reel, ur]
        · rw [State.setReel_reel, hA]
          unfold huntByte
          rw [if_neg (by rwa [opens_iff] at ho)]
          rfl
        · exact absurd (by rw [hg, hc.2 ho]; rfl) hd
        · rw [State.setReel_reel, hA]
          unfold huntByte
          rw [if_pos ((opens_iff x).1 ho)]
          rfl

/-- R174: a frame discarded, and the stages taken. -/
theorem pump_discardedFrame (s : State) (h : s.tally.live.totals.length = 16) :
    DiscardedFrame s (pump (discardFrame s)) := by
  have hl := discardFrame_framesLost s h
  have hr := discardFrame_reel s
  unfold DiscardedFrame
  cases hw : s.reel.waiting with
  | some f =>
    rw [pump_waiting _ (by rw [hr]; simp [hw]), hr]
    exact ⟨hl, rfl, rfl, rfl⟩
  | none =>
    refine pump_stagesTaken hl (by rw [hr]) (by rw [hr]; exact hw) (by rw [hr]) (by rw [hr]) ?_
    show (countTotal _ _ _).tally.live.totals.length = 16
    rw [countTotal_length]
    exact h

/-- R175: the reply to a frame served while no reply waits. -/
theorem replyWith_given (kind : Byte) (body : List Byte) (s : State) (hw : s.reel.waiting = none)
    (h : TalliesBounded s) : ReplyGiven (fun f => f = frameOf kind body) s (replyWith kind body s) := by
  unfold ReplyGiven replyWith ReelLink.reply
  dsimp only
  by_cases hs : s.reel.sending = []
  · rw [if_pos hs, if_pos ⟨hs, hw⟩]
    generalize hu : s.setReel _ = u
    have ur : u.reel = { s.reel with assembler := .hunting }.startSending (frameOf kind body) := by rw [← hu]; rfl
    obtain ⟨p1, p2, p3, p4⟩ : Same u (pump u) .transmitter := (pump_touches u).same .transmitter
    have hset : (pump u).reel.sendSettings = ⟨s.reel.parity, s.reel.divisor⟩ := by
      have hq := (pump_touches u).same .reelConfig
      simp only [Same] at hq
      unfold ReelLink.sendSettings
      rw [hq.1, hq.2.1, ur]
      rfl
    refine ⟨by rw [p1, ur]; rfl, by rw [p4, ur]; exact hw, ?_, ?_⟩
    · have := carries_of_start (pump u).reel (by rw [hset, p2, ur]; rfl) (by rw [hset, p3, ur]; rfl)
      rwa [hset] at this
    · refine pump_stagesTaken ((FramesLost.zero h).of_same ?_ ?_) ?_ ?_ ?_ ?_ ?_
      · rw [← hu]; rfl
      · rw [← hu]; rfl
      · rw [ur]; rfl
      · rw [ur]; exact hw
      · rw [ur]; rfl
      · rw [ur]; rfl
      · rw [← hu]; exact h.length
  · rw [if_neg hs, if_neg (fun x => hs x.1)]
    rw [pump_waiting _ (by simp)]
    exact ⟨⟨_, rfl, rfl⟩, rfl, rfl, rfl, (FramesLost.zero h).of_same rfl rfl, rfl, rfl, rfl⟩

end Sys2Proof.Machine
end

