-- ==== Sys2Proof/Laws/Saturation.lean ====
section
/-! SUPPORT. Every shared operation that counts raises TALLY_SAT exactly when a count brings a tally to 65,535 (R148), and
what a message leaving the DIQ does to a hold (R73). -/

namespace Sys2Proof.Machine

/-! ### Counting (R148) -/

/-- `t` comes from `s` by counts: the banks stay bounded, no live tally falls, and TALLY_SAT shows the counts that
saturated. -/
def CountsFrom (s t : State) : Prop :=
  TalliesBounded s → TalliesBounded t ∧ (∀ k, s.total k ≤ t.total k) ∧
    (∀ n c, 1 ≤ n → n ≤ 24 → (s.tally.live.lane n).get c ≤ (t.tally.live.lane n).get c) ∧ SaturationShown s t

theorem CountsFrom.bounded {s t : State} (h : CountsFrom s t) (b : TalliesBounded s) : TalliesBounded t := (h b).1

theorem CountsFrom.shown {s t : State} (h : CountsFrom s t) (b : TalliesBounded s) : SaturationShown s t :=
  (h b).2.2.2

/-- What changes neither a tally nor TALLY_SAT counts nothing. -/
theorem CountsFrom.of_same {s t : State} (h : t.tally = s.tally)
    (hf : t.events.flag .tallySat = s.events.flag .tallySat) : CountsFrom s t := by
  intro b
  refine ⟨b.of_tally h, fun k => ?_, fun n c _ _ => ?_, ?_⟩
  · simp [State.total, h]
  · rw [h]
  · unfold SaturationShown SaturationIn State.total
    rw [h, hf]
    refine ⟨Or.inl, ?_⟩
    rintro (h | ⟨k, h1, h2⟩ | ⟨n, c, -, -, h1, h2⟩)
    · exact h
    · omega
    · omega

theorem CountsFrom.refl (s : State) : CountsFrom s s := .of_same rfl rfl

theorem CountsFrom.of_touches {ps : List Part} {s t : State} (h : Touches ps s t)
    (hp : ∀ p ∈ ([.liveTallies, .snapshot, .autosnap, .flags] : List Part), p ∉ ps := by decide) :
    CountsFrom s t := by
  have hl : t.tally.live = s.tally.live := h .liveTallies (hp _ (by simp))
  obtain ⟨h1, h2, h3⟩ : Same s t .snapshot := h .snapshot (hp _ (by simp))
  have ha : t.tally.autosnap = s.tally.autosnap := h .autosnap (hp _ (by simp))
  obtain ⟨f1, f2⟩ : Same s t .flags := h .flags (hp _ (by simp))
  refine .of_same ?_ ?_
  · cases hs : s.tally
    cases ht : t.tally
    simp_all
  · simp only [Events.flag, f1, f2]

/-- A total of a bounded bank. -/
theorem TalliesBounded.total_le {s : State} (h : TalliesBounded s) (k : Total) : s.total k ≤ 65535 := by
  unfold State.total TallyBank.total
  rw [List.getD_eq_getElem?_getD]
  cases hx : s.tally.live.totals[k.place]? with
  | none => simp
  | some x => exact h.1.2.2.1 x (List.mem_of_getElem? hx)

/-- A lane's tally of a bounded bank. -/
theorem TalliesBounded.lane_le {s : State} (h : TalliesBounded s) (n : Nat) (c : LaneCount) :
    (s.tally.live.lane n).get c ≤ 65535 := by
  unfold TallyBank.lane
  rw [List.getD_eq_getElem?_getD]
  cases hx : s.tally.live.lanes[n - 1]? with
  | none => cases c <;> simp [LaneTally.get]
  | some x =>
    obtain ⟨h1, h2, h3, h4⟩ := h.1.2.2.2 x (List.mem_of_getElem? hx)
    cases c <;> assumption

/-- Counts in turn. -/
theorem CountsFrom.trans {s t u : State} (h : CountsFrom s t) (k : CountsFrom t u) : CountsFrom s u := by
  intro b
  obtain ⟨b1, t1, l1, s1⟩ := h b
  obtain ⟨b2, t2, l2, s2⟩ := k b1
  refine ⟨b2, fun x => (t1 x).trans (t2 x), fun n c hn hm => (l1 n c hn hm).trans (l2 n c hn hm), ?_⟩
  have e1 := fun x => b1.total_le x
  have e2 := fun n c => b1.lane_le n c
  have e3 := fun x => b2.total_le x
  have e4 := fun n c => b2.lane_le n c
  unfold SaturationShown SaturationIn at *
  rw [s2, s1]
  simp only [State.total] at *
  constructor
  · rintro ((h | ⟨x, h1, h2⟩ | ⟨n, c, hn, hm, h1, h2⟩) | ⟨x, h1, h2⟩ | ⟨n, c, hn, hm, h1, h2⟩)
    · exact .inl h
    · exact .inr (.inl ⟨x, h1, by have := t2 x; have := e3 x; omega⟩)
    · exact .inr (.inr ⟨n, c, hn, hm, h1, by have := l2 n c hn hm; have := e4 n c; omega⟩)
    · exact .inr (.inl ⟨x, by have := t1 x; omega, h2⟩)
    · exact .inr (.inr ⟨n, c, hn, hm, by have := l1 n c hn hm; omega, h2⟩)
  · rintro (h | ⟨x, h1, h2⟩ | ⟨n, c, hn, hm, h1, h2⟩)
    · exact .inl (.inl h)
    · by_cases hx : t.tally.live.total x = 65535
      · exact .inl (.inr (.inl ⟨x, h1, hx⟩))
      · exact .inr (.inl ⟨x, by have := e1 x; omega, h2⟩)
    · by_cases hx : (t.tally.live.lane n).get c = 65535
      · exact .inl (.inr (.inr ⟨n, c, hn, hm, h1, hx⟩))
      · exact .inr (.inr ⟨n, c, hn, hm, by have := e2 n c; omega, h2⟩)

theorem countsFrom_ite {s t u : State} {c : Prop} [Decidable c] (h : c → CountsFrom s t) (k : ¬c → CountsFrom s u) :
    CountsFrom s (if c then t else u) := by
  split
  · exact h ‹_›
  · exact k ‹_›

theorem countsFrom_foldl {α : Type} {f : State → α → State} (l : List α) (h : ∀ s, ∀ a ∈ l, CountsFrom s (f s a))
    (s : State) : CountsFrom s (l.foldl f s) := by
  induction l generalizing s with
  | nil => exact .refl s
  | cons a l ih =>
    exact (h s a (by simp)).trans (ih (fun s b hb => h s b (List.mem_cons_of_mem _ hb)) (f s a))

/-- An event other than TALLY_SAT counts nothing. -/
theorem raise_countsFrom (e : Event) (s : State) (he : e ≠ .tallySat := by decide) : CountsFrom s (raise e s) :=
  .of_same rfl (by simp [he])

theorem raiseIf_countsFrom (c : Bool) (e : Event) (s : State) (he : e ≠ .tallySat := by decide) :
    CountsFrom s (raiseIf c e s) := .of_same (by simp) (by simp [he])

/-- R148: a count of a total. -/
theorem countTotal_countsFrom (k : Total) (n : Nat) (s : State) : CountsFrom s (countTotal k n s) := by
  intro b
  have ht := fun j => countTotal_total k j n s b.length
  refine ⟨countTotal_bounded k n s b, fun j => ?_, fun m c _ _ => ?_, ?_⟩
  · have := b.total_le j
    rw [ht]
    split
    · subst ‹k = j›; omega
    · exact le_rfl
  · rw [countTotal_lane]
  · have hk := b.total_le k
    have hf : (countTotal k n s).events.flag .tallySat =
        (s.events.flag .tallySat || (decide (s.total k < 65535) && decide (65535 ≤ s.total k + n))) := by
      simp only [countTotal, raiseIf_flag, countSaturates, countMax, decide_true, Bool.and_true]
      rfl
    unfold SaturationShown SaturationIn
    rw [hf]
    simp only [Bool.or_eq_true, Bool.and_eq_true, decide_eq_true_eq, countTotal_lane]
    constructor
    · rintro (h | ⟨h1, h2⟩)
      · exact .inl h
      · refine .inr (.inl ⟨k, h1, ?_⟩)
        show (countTotal k n s).total k = _
        rw [ht, if_pos rfl]
        omega
    · rintro (h | ⟨j, h1, h2⟩ | ⟨m, c, _, _, h1, h2⟩)
      · exact .inl h
      · have h3 : (countTotal k n s).total j = 65535 := h2
        rw [ht] at h3
        split at h3
        · subst ‹k = j›
          exact .inr ⟨h1, by omega⟩
        · omega
      · omega

theorem LaneTally.get_set (t : LaneTally) (c d : LaneCount) (n : Nat) :
    (t.set c n).get d = if c = d then n else t.get d := by
  cases c <;> cases d <;> simp [LaneTally.set, LaneTally.get]

/-- R148: a count of a lane. -/
theorem countLane_countsFrom (lane : Nat) (c : LaneCount) (n : Nat) (s : State) (h1 : 1 ≤ lane) (h2 : lane ≤ 24) :
    CountsFrom s (countLane lane c n s) := by
  intro b
  have hl : ∀ j, 1 ≤ j → ∀ d, ((countLane lane c n s).tally.live.lane j).get d =
      if lane = j ∧ c = d then min 65535 ((s.tally.live.lane lane).get c + n) else (s.tally.live.lane j).get d := by
    intro j hj d
    rw [countLane_lane lane j c n s h1 hj (by rw [b.1.2.1]; exact h2)]
    by_cases hlj : lane = j
    · subst hlj
      simp [LaneTally.get_set]
    · simp [hlj]
  refine ⟨countLane_bounded lane c n s b, fun j => ?_, fun m d hm _ => ?_, ?_⟩
  · rw [countLane_total]
  · have := b.lane_le lane c
    rw [hl m hm]
    split
    · obtain ⟨rfl, rfl⟩ := ‹lane = m ∧ c = d›
      omega
    · exact le_rfl
  · have hk := b.lane_le lane c
    have hf : (countLane lane c n s).events.flag .tallySat = (s.events.flag .tallySat ||
        (decide ((s.tally.live.lane lane).get c < 65535) && decide (65535 ≤ (s.tally.live.lane lane).get c + n))) := by
      simp only [countLane, raiseIf_flag, countSaturates, countMax, decide_true, Bool.and_true]
      rfl
    unfold SaturationShown SaturationIn
    rw [hf]
    simp only [Bool.or_eq_true, Bool.and_eq_true, decide_eq_true_eq]
    constructor
    · rintro (h | ⟨h3, h4⟩)
      · exact .inl h
      · refine .inr (.inr ⟨lane, c, h1, h2, h3, ?_⟩)
        rw [hl lane h1, if_pos ⟨rfl, rfl⟩]
        omega
    · rintro (h | ⟨j, h3, h4⟩ | ⟨m, d, hm, _, h3, h4⟩)
      · exact .inl h
      · have h5 : (countLane lane c n s).total j = 65535 := h4
        rw [countLane_total] at h5
        omega
      · rw [hl m hm] at h4
        split at h4
        · obtain ⟨rfl, rfl⟩ := ‹lane = m ∧ c = d›
          exact .inr ⟨h3, by omega⟩
        · omega

/-! ### Reels -/

theorem indicateWorse_countsFrom (lane : Nat) (old new : Grade) (s : State) :
    CountsFrom s (indicateWorse lane old new s) := by
  unfold indicateWorse
  exact countsFrom_ite (fun _ => (CountsFrom.of_touches (setIndications_touches _ s)).trans (raise_countsFrom _ _))
    fun _ => .refl s

theorem deliverTo_countsFrom (lanes : List Nat) (f : ReelRecord → ReelRecord) (s : State) :
    CountsFrom s (deliverTo lanes f s) :=
  (CountsFrom.of_touches (setOpenReels_touches _ s)).trans
    (countsFrom_foldl _ (fun s _ _ => indicateWorse_countsFrom _ _ _ s) _)

theorem deliverFlag_countsFrom (e : Entry) (lanes : List Nat) (shift w : Int) (s : State)
    (h : ∀ n ∈ lanes, 1 ≤ n ∧ n ≤ 24) : CountsFrom s (deliverFlag e lanes shift w s) := by
  unfold deliverFlag
  refine countsFrom_ite (fun _ => countTotal_countsFrom _ _ _) fun _ => ?_
  refine (countsFrom_foldl _ (fun s n hn => ?_) s).trans (countsFrom_foldl _ (fun s n _ => ?_) _)
  · have := h n (List.mem_of_mem_filter hn)
    exact countLane_countsFrom _ _ _ _ this.1 this.2
  · exact countsFrom_ite (fun _ => deliverTo_countsFrom _ _ _) fun _ => .refl _

theorem usedLane_range {plan : SlitPlan} {n : Nat} (h : n ∈ plan.usedLanes) : 1 ≤ n ∧ n ≤ 24 := by
  have := List.mem_of_mem_filter h
  simp only [laneNumbers, List.mem_range'] at this
  omega

theorem deliverSplice_countsFrom (s : State) : CountsFrom s (deliverSplice s) := by
  unfold deliverSplice
  refine (countsFrom_foldl _ (fun s n hn => ?_) s).trans (deliverTo_countsFrom _ _ _)
  exact countLane_countsFrom _ _ _ _ (usedLane_range hn).1 (usedLane_range hn).2

theorem countReel_countsFrom (r : ReelRecord) (s : State) (h : 1 ≤ r.lane ∧ r.lane ≤ 24) :
    CountsFrom s (countReel r s) :=
  (countLane_countsFrom _ _ _ s h.1 h.2).trans (countLane_countsFrom _ _ _ _ h.1 h.2)

/-! ### Track List -/

theorem lateItem_countsFrom (k : ItemKind) (w : Int) (c : Fin 8) (i : Option Nat) (s : State) :
    CountsFrom s (lateItem k w c i s) :=
  (((countTotal_countsFrom .late 1 s).trans (raise_countsFrom .lateFlag _)).trans
    (.of_touches (setLate_touches _ _))).trans (.of_touches (setStatus_touches _ _ _))

theorem commitEntry_countsFrom (e : Entry) (s : State) (h : ∀ n ∈ e.lanes, 1 ≤ n ∧ n ≤ 24) :
    CountsFrom s (commitEntry e s) := by
  unfold commitEntry
  refine CountsFrom.trans ?_ (.of_touches (setStatus_touches _ _ _))
  split
  · exact countTotal_countsFrom _ _ _
  · refine countsFrom_ite (fun _ => ?_) fun _ => countTotal_countsFrom _ _ _
    unfold deliverEntry
    split
    · exact deliverFlag_countsFrom _ _ _ _ _ h
    · exact deliverSplice_countsFrom _

theorem laneSet_range {plan : SlitPlan} {k : ItemKind} {x0 x1 : Int} {n : Nat} (h : n ∈ plan.lanesOf k x0 x1) :
    1 ≤ n ∧ n ≤ 24 := by
  cases k
  · exact usedLane_range (List.mem_of_mem_filter h)
  · exact usedLane_range h

theorem passKnife_range (s : State) (e : Entry) (h : ∀ n ∈ e.lanes, 1 ≤ n ∧ n ≤ 24) :
    ∀ n ∈ (passKnife s e).lanes, 1 ≤ n ∧ n ≤ 24 := by
  unfold passKnife
  split
  · exact fun n hn => laneSet_range (plan := s.plan) hn
  · exact h

theorem placeMoved_countsFrom (e : Entry) (s : State) (h : ∀ n ∈ e.lanes, 1 ≤ n ∧ n ≤ 24) :
    CountsFrom s (placeMoved e s) := by
  unfold placeMoved
  refine countsFrom_ite (fun _ => countsFrom_ite (fun _ => ?_) fun _ => ?_) fun _ => countsFrom_ite (fun _ => ?_) fun _ => ?_
  · exact .of_touches (putEntry_touches _ _)
  · exact .of_touches (putEntry_touches _ _)
  · exact commitEntry_countsFrom _ _ (passKnife_range s e h)
  · exact lateItem_countsFrom _ _ _ _ _

theorem replaceEntry_countsFrom (e : Entry) (s : State) (h : ∀ n ∈ e.lanes, 1 ≤ n ∧ n ≤ 24) :
    CountsFrom s (replaceEntry e s) := by
  rw [replaceEntry_eq]
  refine countsFrom_ite (fun _ => ?_) fun _ => ?_
  · exact (CountsFrom.of_touches (takeEntry_touches e s)).trans (lateItem_countsFrom _ _ _ _ _)
  · exact (CountsFrom.of_touches (takeEntry_touches e s)).trans (placeMoved_countsFrom _ _ h)

theorem withdraw_countsFrom (e : Entry) (s : State) : CountsFrom s (withdraw e s) :=
  (((CountsFrom.of_touches (takeEntry_touches e s)).trans (countTotal_countsFrom .withdrawn 1 _)).trans
    (.of_touches (setStatus_touches _ _ _))).trans (.of_touches (lapseRelease_touches _))

theorem placeItem_countsFrom (it : Item) (s : State) : CountsFrom s (placeItem it s).1 := by
  unfold placeItem storeOrMakeRoom
  split
  · split
    · exact .of_touches (storeItem_touches it s)
    · split
      · exact .refl s
      · split
        · exact (withdraw_countsFrom _ s).trans (.of_touches (storeItem_touches it _))
        · exact (countTotal_countsFrom _ _ s).trans (raise_countsFrom _ _)
  · split
    · refine (CountsFrom.of_touches (entryMade_touches s)).trans (commitEntry_countsFrom _ _ ?_)
      exact passKnife_range s _ fun n hn => absurd hn List.not_mem_nil
    · exact lateItem_countsFrom _ _ _ _ _

theorem completeOp_countsFrom (h : Bool) (before s : State) : CountsFrom s (completeOp h before s) :=
  .of_touches (completeOp_touches h before s)

/-! ### Planner, sightings, links -/

theorem enterStopped_countsFrom (s : State) : CountsFrom s (enterStopped s) := by
  have counted (e : Event) (k : Total) (s : State) (he : e ≠ .tallySat) : CountsFrom s (countTotal k 1 (raise e s)) :=
    (raise_countsFrom e s he).trans (countTotal_countsFrom k 1 _)
  have first := (CountsFrom.of_touches (setStopped_touches (stopRecordOf s) s)).trans
    (counted .stopDone .stopsMade _ (by decide))
  unfold enterStopped
  exact countsFrom_ite (fun _ => first.trans (counted _ _ _ (by decide))) fun _ => first

theorem evaluateAtSample_countsFrom (s : State) : CountsFrom s (evaluateAtSample s) := by
  have he := CountsFrom.of_touches (evaluate_touches s)
  unfold evaluateAtSample
  refine countsFrom_ite (fun _ => .refl s) fun _ => ?_
  split <;> first | exact he | exact .refl s | skip
  exact countsFrom_ite (fun _ => enterStopped_countsFrom s) fun _ => .refl s

theorem acceptAnchor_countsFrom (i : Nat) (r : MapRecord) (a b : Anchor) (s : State) :
    CountsFrom s (acceptAnchor i r a b s) := by
  have matched (m : List MapRecord) : CountsFrom s
      (raise .spliceMatched ((enterAnchor a b s).setPmap { (enterAnchor a b s).pmap with records := m })) :=
    ((CountsFrom.of_touches (enterAnchor_touches a b s)).trans (.of_touches (setRecords_touches m _))).trans
      (raise_countsFrom _ _)
  unfold acceptAnchor
  refine CountsFrom.trans ?_ (.of_touches (appendWrite_touches _ _))
  exact countsFrom_ite (fun _ => (matched _).trans (.of_touches (appendWrite_touches _ _))) fun _ => matched _

theorem takeSighting_countsFrom (w : Int) (src : SightingSource) (u : Bool) (s : State) :
    CountsFrom s (takeSighting w src u s) := by
  have guarded := CountsFrom.of_touches (setGuarded_touches (some w) s)
  have placed (e : Event) (x : AlignWrite) (he : e ≠ .tallySat) : CountsFrom s
      (appendWrite x (raise e (s.setAlign { s.align with lastGuarded := some w }))) :=
    (guarded.trans (raise_countsFrom e _ he)).trans (.of_touches (appendWrite_touches _ _))
  unfold takeSighting
  refine countsFrom_ite (fun _ => countTotal_countsFrom _ _ s) fun _ => ?_
  dsimp only
  split
  · exact placed _ _ (by decide)
  · split
    · exact countsFrom_ite (fun _ => guarded.trans (acceptAnchor_countsFrom _ _ _ _ _)) fun _ => placed _ _ (by decide)
    · exact placed _ _ (by decide)

theorem discardMessage_countsFrom (r : ResultCode) (s : State) : CountsFrom s (discardMessage r s) :=
  ((CountsFrom.of_touches (popMessage_touches s)).trans (countTotal_countsFrom .linkDropped 1 _)).trans
    (.of_touches (setLastResult_touches r _))

theorem discardFrame_countsFrom (s : State) : CountsFrom s (discardFrame s) :=
  ((countTotal_countsFrom .framesDiscarded 1 s).trans (raise_countsFrom _ _)).trans (.of_touches (setAssembler_touches _ _))

theorem takeByte_countsFrom (b : RxByte) (s : State) : CountsFrom s (takeByte b s) := by
  unfold takeByte
  exact countsFrom_ite (fun _ => (discardFrame_countsFrom s).trans (.of_touches (setAssembler_touches _ _)))
    fun _ => .of_touches (setAssembler_touches _ s)

theorem pumpOnce_countsFrom (s : State) : CountsFrom s (pumpOnce s) := by
  unfold pumpOnce
  refine countsFrom_ite (fun _ => .refl s) fun _ => ?_
  split
  · exact .refl s
  · exact (CountsFrom.of_touches (setStages_touches _ _ s)).trans (takeByte_countsFrom _ _)

theorem pump_countsFrom (s : State) : CountsFrom s (pump s) := (pumpOnce_countsFrom s).trans (pumpOnce_countsFrom _)

theorem replyWith_countsFrom (k : Byte) (body : List Byte) (s : State) : CountsFrom s (replyWith k body s) := by
  have h (x : ReelLink) : CountsFrom s (pump (s.setReel x)) :=
    CountsFrom.trans (t := s.setReel x) (.of_same rfl rfl) (pump_countsFrom _)
  exact h _

theorem abandonMessage_countsFrom (s : State) : CountsFrom s (abandonMessage s) := by
  unfold abandonMessage
  cases s.link.phase
  case addressed => exact (countTotal_countsFrom _ _ s).trans (.of_touches (setTransfer_touches _ _ _ _ _ _ _ _))
  case message => exact (countTotal_countsFrom _ _ s).trans (.of_touches (setTransfer_touches _ _ _ _ _ _ _ _))
  all_goals exact .of_touches (setTransfer_touches _ _ _ _ _ _ _ s)

theorem takeStop_countsFrom (s : State) : CountsFrom s (takeStop s) := by
  unfold takeStop
  cases s.link.phase
  case message k bytes =>
    dsimp only
    cases Message.ofBytes k bytes
    · exact (countTotal_countsFrom _ _ s).trans (.of_touches (setTransfer_touches _ _ _ _ _ _ _ _))
    · exact (CountsFrom.of_touches (appendMessage_touches _ s)).trans (.of_touches (setTransfer_touches _ _ _ _ _ _ _ _))
  all_goals exact .of_touches (setTransfer_touches _ _ _ _ _ _ _ s)

/-! ### Commands that count -/

theorem transition_countsFrom_illegal (a b : Bool) (s : State) :
    CountsFrom s (raise .encoderFault (countTotal .encoderFaults 1 (acceptPair a b s))) :=
  (CountsFrom.trans (t := acceptPair a b s) (.of_same rfl rfl) (countTotal_countsFrom _ _ _)).trans (raise_countsFrom _ _)

theorem speedSample_countsFrom (s : State) : CountsFrom s (speedSample s) := by
  have declared (s : State) : CountsFrom s (declareMissed s) := by
    unfold declareMissed
    exact countsFrom_ite (fun _ => (CountsFrom.of_touches (setRecords_touches _ s)).trans (raise_countsFrom _ _))
      fun _ => .refl s
  have measured : CountsFrom s (measure s) :=
    CountsFrom.trans (t := s.setPos s.pos.sampled) (.of_same rfl rfl) (raiseIf_countsFrom _ _ _)
  unfold speedSample
  exact countsFrom_ite (fun _ => (measured.trans (evaluateAtSample_countsFrom _)).trans (declared _)) fun _ => .refl s

/-- The lanes an entry of an ordered list carries. -/
theorem TrackOrdered.lanes {s : State} (h : TrackOrdered s) {e : Entry} (he : e ∈ s.track.entries) :
    ∀ n ∈ e.lanes, 1 ≤ n ∧ n ≤ 24 := (h.2.2.2 e he).2.2

theorem knifePassage_countsFrom (s : State) (h : TrackOrdered s) : CountsFrom s (knifePassage s) := by
  unfold knifePassage
  split
  · exact .refl s
  · rename_i e he
    split
    · exact .refl s
    · split
      · exact (replaceEntry_countsFrom e s (h.lanes (List.mem_of_find?_eq_some he))).trans (completeOp_countsFrom _ _ _)
      · exact CountsFrom.trans (t := passInPlace e s) (.of_same rfl rfl) (completeOp_countsFrom _ _ _)

theorem commitDue_countsFrom (s : State) (h : TrackOrdered s) : CountsFrom s (commitDue s) := by
  unfold commitDue
  split
  · exact .refl s
  · rename_i e he
    have hl := h.lanes (List.mem_of_find?_eq_some he)
    split
    · exact .refl s
    · split
      · exact (replaceEntry_countsFrom e s hl).trans (completeOp_countsFrom _ _ _)
      · exact ((CountsFrom.of_touches (takeEntry_touches e s)).trans (commitEntry_countsFrom e _ hl)).trans
          (completeOp_countsFrom _ _ _)

theorem walkStep_countsFrom (s : State) (h : TrackOrdered s) : CountsFrom s (walkStep s) := by
  unfold walkStep
  refine countsFrom_ite (fun _ => ?_) fun _ => .refl s
  split
  · exact .refl s
  · rename_i e he
    exact ((replaceEntry_countsFrom e s (h.lanes (List.mem_of_find?_eq_some he))).trans (completeOp_countsFrom _ _ _)).trans
      (.of_touches (settleYields_touches _))

theorem confirmation_countsFrom (s : State) (h : TrackOrdered s) : CountsFrom s (confirmation s) := by
  unfold confirmation
  split <;> try exact .refl s
  unfold confirmEntry
  split
  · exact .of_touches (popWrite_touches s)
  · rename_i e he
    exact (((CountsFrom.of_touches (popWrite_touches s)).trans (.of_touches (takeEntry_touches e _))).trans
      (placeMoved_countsFrom (confirmedEntry e _) _ (h.lanes (e := e) (List.mem_of_find?_eq_some he)))).trans
      (completeOp_countsFrom _ _ _)

theorem liveSplicePlacement_countsFrom (s : State) : CountsFrom s (liveSplicePlacement s) := by
  unfold liveSplicePlacement
  split <;> try exact .refl s
  refine (CountsFrom.of_touches (popWrite_touches s)).trans ?_
  unfold placeLiveSplice
  refine countsFrom_ite (fun _ => countTotal_countsFrom _ _ _) fun _ => countsFrom_ite (fun _ => ?_) fun _ => ?_
  · exact lateItem_countsFrom _ _ _ _ _
  · exact (placeItem_countsFrom _ _).trans (completeOp_countsFrom _ _ _)

theorem placeDetection_countsFrom (it : Item) (s : State) (h : TrackOrdered s) : CountsFrom s (placeDetection it s) := by
  have result (r : ResultCode) (s : State) : CountsFrom s (setLastResult r s) := .of_touches (setLastResult_touches r s)
  unfold placeDetection
  refine countsFrom_ite (fun _ => (countTotal_countsFrom _ _ _).trans (result _ _)) fun _ =>
    countsFrom_ite (fun _ => (lateItem_countsFrom _ _ _ _ _).trans (result _ _)) fun _ => ?_
  split
  · rename_i e he
    exact ((((CountsFrom.of_touches (takeEntry_touches e s)).trans
      (placeMoved_countsFrom (mergedEntry e it) _ (h.lanes (e := e) (List.mem_of_find?_eq_some he)))).trans
      (countTotal_countsFrom .merged 1 _)).trans (completeOp_countsFrom _ _ _)).trans (result _ _)
  · refine CountsFrom.trans ?_ ((completeOp_countsFrom _ _ _).trans (result _ _))
    exact countsFrom_ite (fun _ => (placeItem_countsFrom it s).trans (countTotal_countsFrom _ _ _))
      fun _ => placeItem_countsFrom it s

theorem detection_countsFrom (s : State) (h : TrackOrdered s) : CountsFrom s (detection s) := by
  unfold detection
  split <;> try exact .refl s
  refine countsFrom_ite (fun _ => discardMessage_countsFrom _ s) fun _ => countsFrom_ite (fun _ =>
    discardMessage_countsFrom _ s) fun _ => countsFrom_ite (fun _ => ?_) fun _ => .refl s
  have popped : Touches [.messages, .link, .yields] s (grantDetection (popMessage s)) :=
    (popMessage_touches s).trans (grantDetection_touches _)
  exact (CountsFrom.of_touches popped).trans (placeDetection_countsFrom _ _ (h.of_touches popped))

theorem mapRelease_countsFrom (s : State) : CountsFrom s (mapRelease s) := by
  have counted (s : State) : CountsFrom s (countTotal .released 1 s) := countTotal_countsFrom _ _ s
  unfold mapRelease
  refine countsFrom_ite (fun _ => ?_) fun _ => .refl s
  split
  · exact .refl s
  · split
    · exact .refl s
    · refine (CountsFrom.of_touches (grantRelease_touches s)).trans ?_
      unfold releaseRecord
      refine countsFrom_ite (fun _ => (lateItem_countsFrom _ _ _ _ _).trans (counted _)) fun _ => ?_
      dsimp only
      split
      · exact (((placeItem_countsFrom _ _).trans (.of_touches (setStatus_touches _ _ _))).trans (counted _)).trans
          (completeOp_countsFrom _ _ _)
      · exact ((placeItem_countsFrom _ _).trans (counted _)).trans (completeOp_countsFrom _ _ _)
      · exact (placeItem_countsFrom _ _).trans (counted _)
      · exact placeItem_countsFrom _ _
      · exact (placeItem_countsFrom _ _).trans (.of_touches (setWithheld_touches _ _))

theorem emptyRoll_countsFrom (s : State) : CountsFrom s (emptyRoll s) := by
  have dropped : CountsFrom s (dropWaitingSighting s) := by
    unfold dropWaitingSighting
    exact countsFrom_ite (fun _ => discardMessage_countsFrom _ s) fun _ => .refl s
  have emptied (s : State) : CountsFrom s (signalRoom s.track.entries.length
      (setEntries [] (countTotal .unwound s.track.entries.length s))) :=
    ((countTotal_countsFrom _ _ s).trans (.of_touches (setEntries_touches _ _))).trans (.of_touches (signalRoom_touches _ _))
  have cleared (s : State) (m : PressMap) (a : AlignmentUnit) (p : StopPlanner) (c : Comparators) (q : PositionUnit) :
      CountsFrom s (setResult .ok (((((s.setPmap m).setAlign a).setPlanner p).setComps c).setPos q)) := .of_same rfl rfl
  exact (dropped.trans (emptied _)).trans (cleared _ _ _ _ _ _)

theorem sensorEdge_countsFrom (s : State) : CountsFrom s (sensorEdge s) := by
  unfold sensorEdge sensorSighting
  exact countsFrom_ite (fun _ => countsFrom_ite (fun _ => countTotal_countsFrom _ _ s) fun _ =>
    countsFrom_ite (fun _ => takeSighting_countsFrom _ _ _ s) fun _ => .of_touches (setLatch_touches _ s)) fun _ => .refl s

theorem takeLatched_countsFrom (s : State) : CountsFrom s (takeLatched s) := by
  unfold takeLatched
  split
  · exact .refl s
  · exact countsFrom_ite (fun _ => (CountsFrom.of_touches (setLatch_touches none s)).trans
      (takeSighting_countsFrom _ _ _ _)) fun _ => .refl s

theorem spliceSighting_countsFrom (s : State) : CountsFrom s (spliceSighting s) := by
  have popped := CountsFrom.of_touches (popMessage_touches s)
  unfold spliceSighting
  split <;> try exact .refl s
  refine countsFrom_ite (fun _ => ?_) fun _ => discardMessage_countsFrom _ s
  unfold cameraSighting
  exact countsFrom_ite (fun _ => popped.trans (.of_touches (setLastResult_touches _ _))) fun _ =>
    countsFrom_ite (fun _ => .refl s) fun _ => (popped.trans (takeSighting_countsFrom _ _ _ _)).trans
      (.of_touches (setLastResult_touches _ _))

theorem beacon_countsFrom (s : State) : CountsFrom s (beacon s) := by
  have popped := CountsFrom.of_touches (popMessage_touches s)
  unfold beacon
  split <;> try exact .refl s
  unfold serveBeacon
  dsimp only
  split
  · exact popped.trans (countTotal_countsFrom _ _ _)
  · refine (popped.trans ?_).trans (.of_touches (setLastResult_touches _ _))
    have tracked (x : OffsetTracker) (s : State) : CountsFrom s (s.setTracker x) := .of_same rfl rfl
    unfold takeSample
    exact countsFrom_ite (fun _ => (tracked _ _).trans (raiseIf_countsFrom _ .offsetJump _)) fun _ => tracked _ _

theorem holdExpiry_countsFrom (s : State) : CountsFrom s (holdExpiry s) := by
  unfold holdExpiry dropHeld
  exact countsFrom_ite (fun _ => ((countTotal_countsFrom _ _ s).trans (raise_countsFrom _ _)).trans (.of_same rfl rfl))
    fun _ => .refl s

theorem receiveCharacter_countsFrom (c : Character) (a b : Bool) (s : State) :
    CountsFrom s (receiveCharacter c a b s) := by
  have h (x : ReelLink) : CountsFrom s (pump (s.setReel x)) :=
    CountsFrom.trans (t := s.setReel x) (.of_same rfl rfl) (pump_countsFrom _)
  exact h _

theorem reelDiscard_countsFrom (s : State) : CountsFrom s (reelDiscard s) := by
  unfold reelDiscard
  exact countsFrom_ite (fun _ => (discardFrame_countsFrom s).trans (pump_countsFrom _)) fun _ => .refl s

theorem gapExpiry_countsFrom (s : State) : CountsFrom s (gapExpiry s) := by
  unfold gapExpiry
  exact countsFrom_ite (fun _ => countsFrom_ite (fun _ => .of_same rfl rfl) fun _ =>
    countsFrom_ite (fun _ => discardFrame_countsFrom s) fun _ => .refl s) fun _ => .refl s

theorem answerRelease_countsFrom (a b : Nat) (s : State) : CountsFrom s (answerRelease a b s) := by
  have removed : CountsFrom s (releaseEffect a b s) := by
    unfold releaseEffect removeHead
    exact countsFrom_ite (fun _ => countsFrom_ite (fun _ => CountsFrom.trans (t := State.setQueue _ _) (.of_same rfl rfl)
      (raise_countsFrom _ _)) fun _ => .of_same rfl rfl) fun _ => .refl s
  exact removed.trans (replyWith_countsFrom _ _ _)

/-! ### A message leaving the DIQ (R73) -/

theorem popMessage_takenFromHead (s : State) : TakenFromHead s.diq.messages.tail s (popMessage s) := by
  unfold TakenFromHead popMessage
  by_cases hr : s.diq.messages.tail.length ≤ s.diq.resume
  · simp only [State.setDiq_diq, hr, if_true, and_true]
    unfold signalResume
    by_cases hh : s.link.holding = true <;> simp [hh]
  · simp only [State.setDiq_diq, hr, if_false, and_false]
    simp

/-- What later keeps the queue, RESUME and the link keeps what the fall of the fill did. -/
theorem TakenFromHead.of_touches {rest : List Message} {ps : List Part} {s t u : State} (h : TakenFromHead rest s t)
    (k : Touches ps t u)
    (hp : ∀ p ∈ ([.messages, .resume, .link, .holdLimit] : List Part), p ∉ ps := by decide) :
    TakenFromHead rest s u := by
  have h1 : u.diq.messages = t.diq.messages := k .messages (hp _ (by simp))
  have h2 : u.diq.resume = t.diq.resume := k .resume (hp _ (by simp))
  have h3 : Same t u .link := k .link (hp _ (by simp))
  have h4 : u.link.holdLimit = t.link.holdLimit := k .holdLimit (hp _ (by simp))
  have h5 : u.link = t.link := by
    cases hu : u.link
    cases ht : t.link
    simp_all [Same]
  exact ⟨h1.trans h.1, h2.trans h.2.1, h5.trans h.2.2⟩

end Sys2Proof.Machine
end

