-- ==== Sys2Proof/Tests/Slice0.lean ====
section
/-! SUPPORT. Small tests on fixed values, most of them figures of the manual's own worked sequences, and for each
obligation with hypotheses a witness that meets them. -/

namespace Sys2Proof.Tests

open Sys2Proof Sys2Proof.Machine

-- One theorem at a time: many kernel evaluations waiting for one another would each hold a thread.
set_option Elab.async false

/-! ### Small states -/

/-- The state a command leaves. -/
def after (c : Instr) (s : State) : State :=
  match exec c s with
  | .next t => t
  | .fault _ => s
  | .refused _ => s

/-- A mounted roll at line position `p`, with the stations of the worked sequences (section 2.10). -/
def line (p : Int) : State := { State.reset with
  pos := { PositionUnit.cold false false with
    roll := .mounted, p := p, sampleBase := p
    offSplice := 5000, offInspect := 8000, offTable := 40000, offKnife := 60000, offNip := 90000 } }

/-- A FLAG entry of class 4, severity 2, extent 30,100 to 30,400, AHEAD. -/
def flag (ident seq : Nat) (src : Source) (w : Int) (index : Option Nat) : Entry :=
  ⟨ident, seq, .flag, src, w, 120, 30100, 30400, 4, 2, index, .ahead, false, false, false, false⟩

/-- A SPLICE entry, AHEAD. -/
def splice (ident seq : Nat) (src : Source) (w : Int) (index : Option Nat) : Entry :=
  ⟨ident, seq, .splice, src, w, 0, 0, 0, 0, 0, index, .ahead, false, false, false, false⟩

/-- A map record of the press at `m`. -/
def record (kind : ItemKind) (m : Int) (st : RecordStatus) : MapRecord :=
  ⟨kind, m, 0, 0, 100, 0, 0, st, .unmatched⟩

/-- The 24 WOUND lanes of section 2.10, each 2,600 pu wide. -/
def plan24 : SlitPlan := { SlitPlan.cold with
  lanes := (List.range 24).map fun i => ⟨true, 1000 + i * 2600, 2600, if i % 2 = 0 then .upper else .lower, .wound⟩ }

/-- Set `n` open from `w` under a plan. -/
def openUnder (plan : SlitPlan) (n : Nat) (w : Int) (s : State) : State := { s with
  plan := plan
  reels := { s.reels with
    openSet := some ⟨n, w, 0, .none, plan.reelLanes.map fun l => newReel n l (plan.lane l) none w⟩, nextSet := n + 1 } }

def withEntries (l : List Entry) (s : State) : State := { s with
  track := { s.track with entries := l, seq := 43, nextIdent := l.length + 8 } }

def withMessages (l : List Message) (s : State) : State := { s with diq := { s.diq with messages := l } }

def withWrites (l : List AlignWrite) (s : State) : State := { s with align := { s.align with queue := l } }

def withRecords (l : List MapRecord) (s : State) : State := { s with
  pmap := { s.pmap with state := .closed, id := some 31007, mEnd := 3000000, d0 := 2000, records := l } }

def withAnchors (l : List Anchor) (d : Int) (s : State) : State := { s with
  align := { s.align with anchors := l, dLast := d } }

def withPort (x : LinePort) (s : State) : State := { s with port := x }

def withReel (x : ReelLink) (s : State) : State := { s with reel := x }

def withLink (x : InspectionLink) (s : State) : State := { s with link := x }

def valid (s : State) : State := { s with tracker := { s.tracker with valid := true } }

/-- The start of the sequence of section 2.10, at line position `p`. -/
def worked (p : Int) : State :=
  valid (withRecords [record .flag 2 .released, record .flag 1 .released, record .splice 0 .released]
    (withEntries [{ flag 0 40 .map 1125000 (some 0) with
        len := 40, x0 := 12000, x1 := 12300, cls := 2, sev := 1, passage := .slit [5] 0 },
      flag 1 41 .map 1180000 (some 1), splice 2 42 .map 1230000 (some 2)]
    (openUnder plan24 7 1000000 (line p))))

/-- Set 8 of section 2.10 open, with the merged entry 41 past the knife and the splice 42 ahead of it. -/
def worked8 (p : Int) : State :=
  valid (withRecords [record .flag 2 .retired, record .flag 1 .released, record .splice 0 .released]
    (withEntries [{ flag 1 41 .merged 1180180 (some 1) with x1 := 30500, sev := 3, passage := .slit [12] 0 },
      splice 2 42 .map 1230000 (some 2)] (openUnder plan24 8 1170000 (line p))))

/-- The reels that hold a flag, with its depth and its place across. -/
def flagsOf (s : State) : List (Nat × Int × Int) :=
  match s.reels.openSet with
  | none => []
  | some o => (o.reels.map fun r => r.flags.map fun f => (r.lane, f.depth, f.across)).flatten

/-! ### Ill-formed commands are refused (WellFormed) -/

theorem test_wf_unknown_named : (Instr.unknownCommand 0x105A).wf = false := by decide
theorem test_wf_unknown : (Instr.unknownCommand 0x0B).wf = true := by decide
theorem test_wf_register_own_row : (Instr.registerWrite 22 0).wf = false := by decide
theorem test_wf_register : (Instr.registerWrite 21 0).wf = true := by decide
theorem test_wf_status_none : (Instr.statusRead 0).wf = false := by decide
theorem test_wf_status : (Instr.statusRead 1).wf = true := by decide

/-! ### Position Unit and Position Comparators (chapter 01) -/

/-- R1, R3: 00 to 10 is forward with DIR_INVERT at 0; a reverse count at 0 is clamped and raises POSITION_LIMIT. -/
theorem test_encoder :
    let t := after (.encoderTransition false true) (line 0)
    (after (.encoderTransition true false) (line 700)).pos.p = 701 ∧ t.pos.p = 0 ∧
      t.events.flag .positionLimit = true := by decide +kernel

/-- Section 1.6, "A comparator that falls behind": 50,000 to 80,000 with two skipped. -/
theorem test_comparator_behind :
    let s := { line 73412 with
      comps := { Comparators.cold with ch2 := ⟨50000, 50000, 10000, .absolute, true, 0, false, false⟩ } }
    let t := after (.encoderTransition true false) s
    t.comps.ch2.matchPoint = 80000 ∧ t.comps.ch2.skipped = 2 ∧ t.comps.ch2.out = true ∧ t.events.flag .cmp2 = true := by
  decide +kernel

/-- R16, R20: a strobe match that passes three points counts the two skipped, and is one strobe. -/
theorem test_strobe_behind :
    let s := { line 99999 with
      comps := { Comparators.cold with ch0 := { Channel.cold with run := true, matchPoint := 20000 } }
      tracker := { OffsetTracker.cold with strobePitch := 30000 } }
    let t := after (.encoderTransition true false) s
    t.comps.ch0.matchPoint = 110000 ∧ t.comps.ch0.skipped = 2 ∧ t.comps.strobeSeq = 1 ∧
      t.tracker.history = [⟨1, 100000⟩] := by decide +kernel

/-- R148: a count from 65,534 raises TALLY_SAT; one that finds 65,535 does not. -/
theorem test_tally_saturates :
    let s := fun n => { line 0 with
      tally := { Tallies.cold with live := { TallyBank.zero with totals := List.replicate 16 n } } }
    let t := fun n => after (.encoderTransition true true) (s n)
    (t 65533).events.flag .tallySat = false ∧ (t 65534).events.flag .tallySat = true ∧
      (t 65535).events.flag .tallySat = false ∧
      [65533, 65534, 65535].map (fun n => (t n).total .encoderFaults) = [65534, 65535, 65535] := by decide +kernel

theorem test_tick_tenth :
    (after .tick { line 0 with pos := { (line 0).pos with sampleCount := 9 } }).pos.sampleDue = true := by
  decide +kernel

/-- R17: an output is negated when one tick has elapsed since the match. -/
theorem test_pulse_end :
    let s := { line 0 with comps := { Comparators.cold with ch1 := { Channel.cold with out := true } } }
    (after (.pulseEnd 1) (after .tick s)).comps.ch1.out = false ∧ (after (.pulseEnd 1) s).comps.ch1.out = true := by
  decide +kernel

/-- A mounted roll at `p`, with a sample due whose base is `base`. -/
def sampled (base p : Int) : State := { line p with pos := { (line p).pos with sampleBase := base, sampleDue := true } }

/-- The table below R7: 2,150 pu in one sample is 20,000 mm/s, clamped, with OVERSPEED; -40 pu is -400 mm/s. -/
theorem test_speed_table :
    let t := after .speedSample (sampled 10000 12150)
    t.pos.v = 20000 ∧ t.pos.overspeed = true ∧ t.events.flag .overspeed = true ∧
      (after .speedSample (sampled 10040 10000)).pos.v = -400 := by decide +kernel

theorem test_cold_reset :
    let t := after (.coldReset true false 5) (worked 1200000)
    t.pos.p = 0 ∧ t.pos.encA = true ∧ t.pins.adr = 5 ∧ t.track.entries = [] ∧ t.pos.offNip = 30000 := by decide +kernel

theorem test_warm_reset :
    let t := after .warmReset (worked 1200000)
    t.pos.p = 0 ∧ t.pos.offNip = 90000 ∧ t.track.entries = [] ∧ t.reels.nextSet = 7 := by decide +kernel

/-! ### The worked sequence of section 2.10 -/

/-- Step 1: the detection merges into entry 41. -/
theorem test_step1_merge :
    let t := after .detection (withMessages [.detection 1188180 60 30350 30500 4 3] (worked 1200500))
    t.track.entries[1]? = some { flag 1 41 .merged 1180180 (some 1) with x1 := 30500, sev := 3 } ∧
      t.total .merged = 1 := by decide +kernel

/-- Step 2: entry 40 is committed at 12,500 mm, 600 pu across the lane 5 reel, and its map record is retired. -/
theorem test_step2_commit :
    let t := after .commit (worked 1215000)
    flagsOf t = [(5, 12500, 600)] ∧ (t.pmap.records.map fun r => r.status) = [.retired, .released, .released] ∧
      t.track.entries.length = 2 := by decide +kernel

/-- Step 3: a detection between the lines is stored as SLIT in lane set {8}. Step 8: below the w_start of set 8 it is
late. -/
theorem test_step3_step8 :
    let t := after .detection (withMessages [.detection 1158000 30 20000 20050 1 1]
      (withEntries [splice 2 42 .map 1230000 (some 2)] (worked 1215000)))
    let u := after .detection (withMessages [.detection 1173000 30 0 10 3 1] (worked8 1262000))
    (t.track.entries.map fun e => (e.seq, e.w, e.passage)) =
      [(43, 1150000, .slit [8] 0), (42, 1230000, .ahead)] ∧ t.total .placed = 1 ∧
      u.track.late = ⟨some .flag, 1165000, 3⟩ ∧ u.total .late = 1 ∧ u.events.flag .lateFlag = true ∧
      u.track.entries.length = 2 := by decide +kernel

/-- Step 5: entry 41 passes the knife into lane 12. -/
theorem test_step5_knife :
    let t := after .knifePassage (withEntries [{ flag 1 41 .merged 1180180 (some 1) with x1 := 30500 }]
      (worked 1240180))
    (t.track.entries.map fun e => e.passage) = [.slit [12] 0] := by decide +kernel

/-- Step 9: the floor of a depth, 1,018 mm, and 500 pu across the lane 12 reel of set 8. -/
theorem test_step9_commit : flagsOf (after .commit (worked8 1270180)) = [(12, 1018, 500)] := by decide +kernel

/-- Step 10: a SPLICE passes the knife into every lane. -/
theorem test_step10_splice :
    let t := after .knifePassage (withEntries [splice 2 42 .map 1230000 (some 2)] (worked8 1290000))
    (t.track.entries.map fun e => e.lanes) = [List.range' 1 24] := by decide +kernel

/-! ### The worked roll of section 3.6 -/

/-- Its map at P = 998,000, with records 2, 3 and 4 in the list. -/
def roll : State :=
  withAnchors [⟨3000000, -5000⟩] 2000
    (withRecords [record .flag 2999800 .retired, record .flag 2950000 .retired, record .flag 2905700 .released,
        record .splice 2900000 .released, record .flag 2880000 .released, record .splice 2700000 .unreleased,
        record .flag 2650000 .unreleased, record .splice 2400000 .unreleased]
      (withEntries [flag 0 40 .map 939886 (some 2), splice 1 41 .map 997000 (some 3), flag 2 42 .map 1197400 (some 4)]
        { line 998000 with pmap := { PressMap.cold with horizon := 400000 } }))

/-- The predictions at the mount. -/
theorem test_prediction_mount :
    (roll.pmap.records.map fun r => roll.predict r.m) =
      [-2996, 496000, 939886, 997000, 1197400, 3001000, 3502000, 6007000] := by decide +kernel

/-- The first splice: the anchor is accepted at -2,000 ppm, and the predictions move. -/
theorem test_first_splice :
    let t := after .spliceSensorEdge roll
    t.align.anchors = [⟨2900000, 993000⟩, ⟨3000000, -5000⟩] ∧ t.align.dLast = -2000 ∧
      t.align.queue = [.confirmation 3 993000, .marking 3000000] ∧ t.events.flag .spliceMatched = true ∧
      t.predict 2905700 = 936114 ∧ t.predict 2880000 = 1192600 ∧ t.predict 2400000 = 5983000 := by decide +kernel

/-- The confirmation, the marking and the walk. -/
theorem test_walk :
    let t := after .walkStep (after .walkStep (after .marking (after .confirmation (after .spliceSensorEdge roll))))
    (t.track.entries.map fun e => (e.mapIndex, e.source, e.w, e.lanes.length, e.pendingReplace)) =
      [(some 2, .map, 936114, 0, false), (some 3, .confirmed, 993000, 0, false), (some 4, .map, 1192600, 0, false)] ∧
      (t.track.entries.map fun e => decide (e.passage = .ahead)) = [false, true, true] := by decide +kernel

theorem test_marking_marks :
    let t := after .marking (after .confirmation (after .spliceSensorEdge roll))
    (t.track.entries.map fun e => e.pendingReplace) = [true, false, true] := by decide +kernel

/-- R67: a release that waits when a walk step completes is granted before the next step, a DETECTION that arrives
meanwhile or not. -/
theorem test_walk_yields :
    let s := after .walkStep (after .marking (after .confirmation (after .spliceSensorEdge
      { roll with pmap := { roll.pmap with horizon := 3000000 } })))
    let t := after .detection (withMessages [.detection 1188180 60 0 100 4 3] s)
    let steps := fun u => (u.track.entries.filter fun e => e.pendingReplace).length
    s.align.yields = ⟨false, true, false⟩ ∧ t.total .placed = 1 ∧ steps (after .walkStep t) = 1 ∧
      (after .mapRelease t).total .released = 1 ∧ steps (after .walkStep (after .mapRelease t)) = 0 := by
  decide +kernel

theorem test_confirmation_moves :
    let t := after .confirmation (after .spliceSensorEdge roll)
    (t.track.entries.map fun e => (e.w, e.source)) =
      [(939886, .map), (993000, .confirmed), (1197400, .map)] := by decide +kernel

/-- A sighting within the guard is ignored: 2,000 pu from the last guarded one. -/
theorem test_double_edge :
    let t := after .spliceSensorEdge { roll with
      pos := { roll.pos with p := 3302000 }, align := { roll.align with lastGuarded := some 3295000 } }
    t.total .sightingsIgnored = 1 ∧ t.align.queue = [] := by decide +kernel

/-- An unexpected splice at 3,295,000 is placed, and the missed splice 5 is declared at the next sample. -/
theorem test_live_splice :
    let t := after .liveSplicePlacement (withEntries [] (withWrites [.liveSplice 3295000 .sensor false]
      { roll with pos := { roll.pos with p := 3300000 } }))
    (t.track.entries.map fun e => (e.w, e.source, e.kind)) = [(3295000, .sensor, .splice)] ∧
      t.align.queue = [] := by decide +kernel

/-- R66: a splice becomes MISSED when its window has passed the sensor, with P above 3,014,000. -/
theorem test_missed_splice :
    let at_ := fun p => after .speedSample
      (withAnchors [⟨2900000, 993000⟩, ⟨3000000, -5000⟩] (-2000) { roll with
        pos := { roll.pos with p := p, sampleBase := p, sampleDue := true } })
    ((at_ 3014000).pmap.records[5]?.map fun r => r.matchState) = some .unmatched ∧
      ((at_ 3014001).pmap.records[5]?.map fun r => r.matchState) = some .missed := by decide +kernel

/-- At the mount record 0 is released and found late at once, at w -2,996. -/
theorem test_release_late :
    let t := after .mapRelease (withAnchors [⟨3000000, -5000⟩] 2000
      (withRecords [record .flag 2999800 .unreleased, record .flag 2950000 .unreleased] (line 0)))
    t.track.late = ⟨some .flag, -2996, 0⟩ ∧ t.total .released = 1 ∧ t.track.entries = [] ∧
      (t.pmap.records.map fun r => r.status) = [.retired, .unreleased] := by decide +kernel

/-- Record 1 is released at P 96,000 with a HORIZON of 400,000, not before. -/
theorem test_release_horizon :
    let at_ := fun p => after .mapRelease (withAnchors [⟨3000000, -5000⟩] 2000
      (withRecords [record .flag 2950000 .unreleased] { line p with pmap := { PressMap.cold with horizon := 400000 } }))
    (at_ 95999).track.entries.length = 0 ∧ ((at_ 96000).track.entries.map fun e => e.w) = [496000] := by decide +kernel

/-! ### Messages (chapters 03, 04) -/

theorem test_map_begin :
    let t := after .mapBegin (withMessages [.mapBegin 31007 3000000 2000] State.reset)
    t.pmap.state = .opened ∧ t.pmap.mEnd = 3000000 ∧ t.diq.lastResult = .ok ∧ t.diq.messages = [] := by decide +kernel

/-- The fourth record of section 3.6 rises, and is refused with MAP_ORDER. -/
theorem test_map_record_order :
    let s := withMessages [.mapRecord 2912000 0 0 100 0] (withRecords [record .flag 2905700 .unreleased] State.reset)
    let t := after .mapRecord { s with pmap := { s.pmap with state := .opened } }
    t.diq.lastResult = .mapOrder ∧ t.pmap.records.length = 1 := by decide +kernel

/-- A MAP RECORD of kind 1 is a SPLICE, and keeps no extent. -/
theorem test_map_record_splice :
    let s := withMessages [.mapRecord 2900000 7 3 100 0x3F] (withRecords [record .flag 2905700 .unreleased] State.reset)
    let t := after .mapRecord { s with pmap := { s.pmap with state := .opened } }
    t.diq.lastResult = .ok ∧ t.pmap.records[1]? = some ⟨.splice, 2900000, 0, 0, 0, 0, 0, .unreleased, .unmatched⟩ := by
  decide +kernel

/-- MAP CLOSE carries 9 and the part holds 1: TRUNCATED. -/
theorem test_map_close :
    let s := withMessages [.mapClose 9] (withRecords [record .flag 2905700 .unreleased] State.reset)
    let t := after .mapClose { s with pmap := { s.pmap with state := .opened } }
    t.pmap.state = .closed ∧ t.pmap.truncated = true ∧ t.events.flag .mapTruncated = true := by decide +kernel

/-- The tracker of section 4.5, with its estimate at `o`. -/
def tracked (o peak : Int) : State := { line 812500 with
  tracker := { OffsetTracker.cold with
    o := o, valid := true, latest := some 136, peak := peak
    history := [⟨8, 800003⟩, ⟨7, 700030⟩, ⟨6, 600020⟩, ⟨5, 500012⟩] } }

/-- Message 3: 122 + round(178 / 2) = 211, peak 178. -/
theorem test_beacon_wide :
    let t := after .beacon (withMessages [.beacon 8 799703] (tracked 122 16))
    t.tracker.o = 211 ∧ t.tracker.peak = 178 ∧ t.tracker.latest = some 300 := by decide +kernel

/-- Message 2: 120 + round(16 / 8) = 122, peak 16. -/
theorem test_beacon_narrow :
    let t := after .beacon (withMessages [.beacon 7 699894] (tracked 120 0))
    t.tracker.o = 122 ∧ t.tracker.peak = 16 := by decide +kernel

/-- R75, R84: a camera sighting is converted with o as it stands and goes to the write queue. -/
theorem test_splice_sighting :
    let t := after .spliceSighting (withMessages [.spliceSighting 805000] (tracked 211 0))
    t.align.queue = [.liveSplice 800211 .camera false] ∧ t.diq.messages = [] ∧ t.diq.lastResult = .ok := by
  decide +kernel

theorem test_latched_sighting :
    let t := after .latchedSightingTaken { line 900000 with align := { AlignmentUnit.cold with latch := some 800000 } }
    t.align.latch = none ∧ t.align.queue = [.liveSplice 800000 .sensor false] ∧
      t.align.lastGuarded = some 800000 := by decide +kernel

/-! ### Slit Plan, reels and the Completed Reel Queue (chapters 05, 06) -/

/-- The six lanes of section 5.5, with WEB_SHIFT at `shift`. -/
def plan6 (shift : Int) : SlitPlan := { SlitPlan.cold with
  webShift := shift
  lanes := [⟨true, 0, 300, .none, .trim⟩, ⟨true, 300, 4000, .upper, .wound⟩, ⟨true, 4300, 4000, .lower, .wound⟩,
    ⟨true, 8320, 4000, .upper, .forcedReject⟩, ⟨true, 12320, 4000, .lower, .wound⟩, ⟨true, 16320, 280, .none, .trim⟩]
    ++ List.replicate 18 LaneRecord.cold }

theorem test_plan6 : (plan6 0).status = .valid ∧ (plan6 0).reelCount = 4 := by decide +kernel

/-- Entries A to E of section 5.5. -/
theorem test_lane_sets :
    (plan6 120).laneSet 4150 4200 = [2, 3] ∧ (plan6 120).laneSet 8190 8195 = [] ∧
      (plan6 120).laneSet 16300 16450 = [6] ∧ (plan6 (-150)).laneSet 100 200 = [1] ∧
      (plan6 120).laneSet 16500 16550 = [] := by decide +kernel

/-- Section 5.5: a write of 720 is stored as 500 and raises SHIFT_CLAMPED. -/
theorem test_web_shift_clamped :
    let t := after (.webShiftWrite 720) (line 0)
    t.plan.webShift = 500 ∧ t.events.flag .shiftClamped = true := by decide +kernel

/-- Section 6.5: SET START at P = 2,090,000. -/
theorem test_set_start :
    let t := after .setStart { line 2090000 with
      plan := plan6 0, reels := { ReelTable.cold with nextSet := 12 } }
    (t.reels.openSet.map fun o => (o.number, o.wStart, o.lengthStop)) = some (12, 2000000, .none) ∧
      t.reels.nextSet = 13 ∧ (t.openReels.map fun r => (r.lane, r.grade, r.cause)) =
        [(2, .accept, .none), (3, .accept, .none), (4, .reject, .forced), (5, .accept, .none)] := by decide +kernel

/-- The grading table of section 6.5. -/
def grading12 : Grading := { Grading.cold with
  classDown := [255, 2, 255, 255, 1, 255, 255, 255], classReject := [255, 5, 255, 255, 2, 255, 255, 255]
  spliceDown := 1, spliceReject := 2, minLength := 300 }

/-- Section 6.5, steps 5, 6, 8 and 9 of the lane 3 reel. -/
theorem test_grades :
    let g := fun counts splices => computeGrade grading12 false
      { newReel 12 3 ((plan6 0).lane 3) none 2000000 with classCounts := counts, spliceCount := splices }
    g [1, 3, 0, 0, 0, 0, 0, 0] 1 = (.downgrade, .cls 1) ∧ g [1, 3, 0, 0, 0, 0, 0, 0] 2 = (.downgrade, .cls 1) ∧
      g [1, 3, 0, 0, 2, 0, 0, 0] 2 = (.downgrade, .cls 1) ∧ g [1, 3, 0, 0, 2, 0, 0, 0] 3 = (.reject, .splices) := by
  decide +kernel

/-- Section 6.3, "A full flag list": 20 items from 300 to 6,000 mm, of severity 1 but for two of 0. -/
theorem test_full_flag_list :
    let item := fun (d : Int) (v : Fin 4) => (⟨d, 0, 2, v, .live, false⟩ : FlagItem)
    let r := { newReel 12 9 LaneRecord.cold none 0 with
      flags := (List.range' 1 20).map fun i => item (300 * i) (if i = 4 ∨ i = 16 then 0 else 1) }
    let t := [item 3000 2, item 5500 0, item 5600 1, item 5900 1].foldl (fun r it => takeFlag it r) r
    (t.flags.map fun f => f.depth) = [300, 600, 900, 1500, 1800, 2100, 2400, 2700, 3000, 3000, 3300, 3600, 3900, 4200,
      4500, 5100, 5400, 5600, 5700, 6000] ∧ t.unlisted = 4 ∧ t.committed = 4 ∧ t.classCounts = [0, 0, 4, 0, 0, 0, 0, 0] := by
  decide +kernel

/-- Section 6.5: SET END at P = 4,790,000, with a reel still at ACCEPT rejected for its length of 270 m. -/
theorem test_set_end :
    let s := openUnder (plan6 0) 12 2000000 (line 4790000)
    let t := after .setEnd { s with reels := { s.reels with grading := grading12 } }
    (t.queue.records.map fun r => (r.lane, r.length, r.cause)) =
      [(2, 270000, .shortLength), (3, 270000, .shortLength), (4, 270000, .forced), (5, 270000, .shortLength)] ∧
      (t.tally.live.lane 2).metres = 270 ∧ (t.tally.live.lane 2).reels = 1 ∧ t.reels.openSet = none := by decide +kernel

/-- Section 2.10, step 7: SET CHANGE at P = 1,260,000. -/
theorem test_set_change :
    let t := after .setChange (worked 1260000)
    (t.reels.openSet.map fun o => (o.number, o.wStart)) = some (8, 1170000) ∧ t.queue.records.length = 24 ∧
      (t.queue.records.head?.map fun r => (r.setNumber, r.wEnd, r.length)) = some (7, some 1170000, 17000) := by
  decide +kernel

/-- A queue of `k` records of set 40, lanes 1 onward. -/
def queued (k : Nat) : ReelQueue := ⟨(List.range' 1 k).map fun n => newReel 40 n LaneRecord.cold none 0, true⟩

/-- Section 6.7: with 14 slots free and a plan of 22 reels SET END is refused, and room is wanted. -/
theorem test_set_end_full :
    let s := openUnder { plan24 with lanes := plan24.lanes.take 22 ++ List.replicate 2 LaneRecord.cold } 43 0
      { line 90000 with queue := { queued 50 with roomWanted := false } }
    let t := after .setEnd s
    t.port.result = .queueFull ∧ t.queue.roomWanted = true ∧ t.queue.records.length = 50 := by decide +kernel

/-! ### Stop Planner (chapter 07) -/

/-- The D table below R130. -/
theorem test_slow_down :
    ([20000, 10000, 6000, 2580, 500].map fun v => slowDown v StopParams.cold) =
      [2510438, 630438, 228438, 43330, 0] := by decide +kernel

/-- The planner of section 7.8 holding entry 310 at stop point 5,040,000, in a state with a speed. -/
def stopping (st : PlannerState) (v p : Int) : State :=
  withEntries [{ flag 0 310 .map 5000000 none with sev := 3 }] { line p with
    pos := { (line p).pos with v := v }
    planner := { StopPlanner.cold with
      state := st, target := .entry 0 .flag
      params := { StopParams.cold with flagStop := true, classMask := 0x30, minSeverity := 2 } } }

/-- SLOW is asserted at the count to 4,409,562, not before. The second stop: at creep speed, three moves in one position
test, without SHORT. -/
theorem test_position_tests :
    let at_ := fun p => after (.encoderTransition true false) (stopping .armed 10000 p)
    let t := after (.encoderTransition true false) (stopping .armed 500 5038999)
    (at_ 4409560).planner.state = .armed ∧ (at_ 4409561).planner.state = .slowing ∧
      (at_ 4409561).slow = true ∧ (at_ 4409561).halt = false ∧
      t.planner.state = .halting ∧ t.planner.short = false ∧ t.planner.targetPoint = 5040000 ∧
      t.planner.notedSeq = some 310 ∧ t.halt = true := by decide +kernel

/-- The first stop's record: P 5,032,640 against 5,030,000 is OVERSHOOT by 2,640. -/
theorem test_stop_record :
    let s := { sampled 5032640 5032640 with
      pos := { (sampled 5032640 5032640).pos with settle := 4 }
      planner := { StopPlanner.cold with
        state := .halting, target := .entry 1 .flag, targetPoint := 5030000, notedSeq := some 1877, short := true
        retargeted := true } }
    let t := after .speedSample s
    t.planner.state = .stopped ∧ t.planner.record =
      ⟨.flag, some 1877, none, 5030000, 5032640, 2640, .overshoot, true, true⟩ ∧
      t.total .stopsMade = 1 ∧ t.total .shortStops = 1 := by decide +kernel

/-- STOP RELEASE with the target 1,877 and the entry 310 still to come: STOPPED is written, and 310 is armed. -/
theorem test_stop_release :
    let s := withEntries [flag 7 1877 .live 4990000 none, { flag 0 310 .map 5000000 none with sev := 3 }]
      { stopping .stopped 0 5030000 with
        planner := { (stopping .stopped 0 5030000).planner with target := .entry 7 .flag, targetPoint := 5030000 } }
    let t := after .stoppedMarkWrite (after .stopRelease s)
    (t.track.entries.map fun e => e.stopped) = [true, false] ∧ t.planner.state = .armed ∧
      t.planner.target = .entry 0 .flag ∧ t.planner.short = false ∧ t.port.result = .ok := by decide +kernel

/-- STOP CANCEL of an armed target writes SKIPPED. -/
theorem test_stop_cancel :
    let t := after .skippedMarkWrite (after .stopCancel (stopping .armed 500 4000000))
    (t.track.entries.map fun e => e.skipped) = [true] ∧ t.planner.state = .idle ∧ t.port.xack = true := by
  decide +kernel

/-! ### Line Port (sections 9.1, 9.2) -/

theorem test_roll_mount :
    let s := withRecords [] State.reset
    let t := after .rollMount { s with port := { s.port with arg0 := 0xFFFF, arg1 := 0xEC78 } }
    t.align.anchors = [⟨3000000, -5000⟩] ∧ t.align.dLast = 2000 ∧ t.mounted = true ∧ t.port.result = .ok := by
  decide +kernel

theorem test_roll_end :
    let t := after .rollEndEmptying (after .rollEnd (withEntries [flag 0 40 .live 950000 none] (line 900000)))
    t.mounted = false ∧ t.total .unwound = 1 ∧ t.track.entries = [] ∧ t.port.result = .ok := by decide +kernel

/-- R84: a SPLICE SIGHTING that waits behind the sensor latch when the roll ends is discarded with NO_ROLL. -/
theorem test_roll_end_sighting :
    let s := withMessages [.spliceSighting 5, .mapClose 1] { line 900000 with
      align := { AlignmentUnit.cold with latch := some 1 }, port := { LinePort.cold with access := some .rollEnd } }
    let t := after .rollEndEmptying s
    t.diq.messages = [.mapClose 1] ∧ t.diq.lastResult = .noRoll ∧ t.total .linkDropped = 1 ∧ t.mounted = false := by
  decide +kernel

theorem test_roll_end_set_open : (after .rollEnd (worked 1200000)).port.result = .setOpen := by decide +kernel
theorem test_map_clear_mounted : (after .mapClear (worked 1200000)).port.result = .rollMounted := by decide +kernel
theorem test_map_clear : (after .mapClear (withRecords [record .flag 2 .retired] State.reset)).pmap.records = [] := by
  decide +kernel

theorem test_preset_range :
    let at_ := fun d : Word => (after .preset { line 0 with port := { LinePort.cold with arg0 := d } }).port.result
    at_ 3 = .ok ∧ at_ 4 = .badArg ∧ at_ 0 = .badArg := by decide +kernel

theorem test_snap_tallies :
    let t := after .snapTallies (countTotal .placed 3 (line 0))
    t.tally.snap.total .placed = 3 ∧ t.total .placed = 0 ∧ t.tally.snapCause = .command := by decide +kernel

theorem test_unknown_command : (after (.unknownCommand 0x0B) (line 0)).port.result = .badArg := by decide +kernel

theorem test_pos_hi :
    let t := after .posHiRead (line 1200000)
    t.port.dout = some 18 ∧ t.port.posLatch = 20352 := by decide +kernel

/-- A write of EVENT clears each flag written with 1. -/
theorem test_event_write :
    let s := { line 0 with events := { Events.cold with flagsA := 0x0003, flagsB := 0x0003 } }
    (after (.eventWrite .a 1) s).events.flagsA = 2 ∧ (after (.eventWrite .b 2) s).events.flagsB = 1 := by decide +kernel

/-- LIRQ follows the flags and the enables. -/
theorem test_enable_write :
    let s := { line 0 with events := { Events.cold with flagsB := 0x0010 } }
    (after (.enableWrite .b 0x0010) s).lirq = true ∧ (after (.enableWrite .a 0x0010) s).lirq = false := by
  decide +kernel

/-- Bits 7 to 0 of word 19 are lanes 17 to 24. -/
theorem test_grade_change_write :
    let s := { line 0 with reels := { ReelTable.cold with indications := 0xFF0001 } }
    (after (.laneGradeChangeWrite .b 0x0001) s).reels.indications = 0xFE0001 ∧
      (after (.laneGradeChangeWrite .a 0x0001) s).reels.indications = 0xFF0000 := by decide +kernel

theorem test_table_select :
    let t := after (.tableSelectWrite 7) (withPort { LinePort.cold with tableAddr := 99 } (line 0))
    t.port.tableSelect = .anchors ∧ t.port.tableAddr = 0 ∧
      (after (.tableSelectWrite 15) (line 0)).port.bflt = true := by
  decide +kernel

/-- Word 1 of ANCHORS record 1 after word 0 has latched the record. -/
theorem test_table_read :
    let s := withPort { LinePort.cold with tableSelect := .anchors, tableAddr := 8 }
      (withAnchors [⟨3000000, -5000⟩] 2000 (line 0))
    let t := after .tableDataRead s
    let u := after .tableDataRead (after .tableDataRead t)
    t.port.dout = some 1 ∧ u.port.dout = some 50880 ∧ u.port.tableAddr = 11 := by decide +kernel

/-- A PITCH written whole: its upper word is held, and the value is taken at its last word. -/
theorem test_pitch_write :
    let t := after (.tableDataWrite 0x0080) (after (.tableDataWrite 0x0001) State.reset)
    t.pos.pitch = 65664 ∧ t.port.result = .ok ∧ t.port.held = none := by decide +kernel

theorem test_pitch_locked : (after (.tableDataWrite 1) (line 0)).port.bflt = true := by decide +kernel

theorem test_register_write :
    (after (.registerWrite 7 0xBEEF) (line 0)).port.arg3 = 0xBEEF ∧
      (after (.registerWrite 0 1) (line 0)).port.bflt = true := by
  decide +kernel

theorem test_strobe_negated :
    let t := after .dataStrobeNegated (after .posHiRead (line 0))
    t.port.xack = false ∧ t.port.dout = none := by decide +kernel

/-- R28: word 0 of TRACK slot 1: kind SPLICE, source MAP, and the seq in word 1. -/
theorem test_track_read :
    let s := withEntries [flag 0 40 .map 1150000 none, splice 1 42 .map 1230000 none]
      (withPort { LinePort.cold with tableSelect := .track, tableAddr := 16 } (line 1200000))
    let t := after .trackRecordLatch (after .tableDataRead s)
    t.port.dout = some 2 ∧ t.port.xack = true ∧ (after .tableDataRead t).port.dout = some 42 := by
  decide +kernel

/-! ### Inspection Link (section 9.3) -/

/-- A link with an open message. -/
def linked (ph : LinkPhase) : State := withLink { InspectionLink.cold with phase := ph } (line 0)

/-- The address 0101000 with the write direction is acknowledged, another is not. -/
theorem test_link_address :
    (after (.inspectionLinkByte 0x50) (line 0)).link.phase = .addressed ∧
      (after (.inspectionLinkByte 0x52) (line 0)).link.phase = .ignored := by decide +kernel

/-- A BEACON of strobe 7, camera position 699,894, is appended at the stop condition. -/
theorem test_link_beacon :
    let t := after .inspectionMessage (linked (.message .beacon [7, 0x00, 0x0A, 0xAD, 0xF6]))
    t.diq.messages = [.beacon 7 699894] ∧ t.link.phase = .idle := by decide +kernel

theorem test_link_short :
    let t := after .inspectionMessage (linked (.message .beacon [7, 0]))
    t.diq.messages = [] ∧ t.total .shortMessages = 1 := by decide +kernel

/-- A repeated start abandons a complete message, and counts it. -/
theorem test_repeated_start :
    let t := after .repeatedStart (linked (.message .mapClose [0, 9]))
    t.diq.messages = [] ∧ t.total .shortMessages = 1 := by decide +kernel

/-- A hold of HOLD_LIMIT ticks expires. -/
theorem test_hold_expiry :
    let at_ := fun n => after .holdExpiry (withLink { InspectionLink.cold with
      phase := .message .beacon [], holding := true, holdTicks := n, holdLimitNow := 100 } (line 0))
    (at_ 99).link.holding = true ∧ (at_ 100).link.holding = false ∧ (at_ 100).events.flag .linkDrop = true ∧
      (at_ 100).total .linkDropped = 1 := by decide +kernel

/-- R73: the fall of the fill to RESUME, 24, ends a hold; one to 25 keeps it. -/
theorem test_hold_resumes :
    let at_ := fun n => after .mapClose (withMessages (List.replicate n (.mapClose 1)) (withLink
      { InspectionLink.cold with phase := .message .beacon [], holding := true } (line 0)))
    (at_ 25).link.holding = false ∧ (at_ 26).link.holding = true ∧ (at_ 26).diq.messages.length = 25 := by
  decide +kernel

/-- Free slots 31, OFFSET_VALID with the map CLOSED, OK, 2 records, peak 255; FFh beyond. -/
theorem test_status_read :
    let s := withMessages [.mapClose 0] (withRecords [record .flag 2 .retired, record .flag 1 .retired] (tracked 5 300))
    (after (.statusRead 8) s).link.sent = [31, 0x09, 0, 0, 2, 255, 0xFF, 0xFF] := by decide +kernel

/-! ### Reel Link (section 9.4) -/

/-- A line whose assembler stands as given, with `k` records queued. -/
def assembling (a : Assembler) (k : Nat) : State :=
  withReel { ReelLink.cold with assembler := a } { line 0 with queue := queued k }

/-- C3h opens a frame; with EVEN parity its four ones need a parity bit of 0. -/
theorem test_character :
    (after (.characterReceived ⟨0xC3, 0⟩ false true) (line 0)).reel.assembler = .needKind ∧
      (after (.characterReceived ⟨0xC3, 0⟩ true true) (line 0)).reel.assembler = .hunting := by decide +kernel

/-- R173: REEL_PARITY written NONE within a character, which is still received under EVEN; the next is not. -/
theorem test_parity_write :
    let s := after (.tableDataWrite 0) (withPort { LinePort.cold with tableAddr := 34 } (line 0))
    let t := after (.characterReceived ⟨0xC3, 1⟩ true true) s
    t.reel.assembler = .hunting ∧ (after (.characterReceived ⟨0xC3, 0⟩ true true) s).reel.assembler = .needKind ∧
      (after (.characterReceived ⟨0xC3, 0⟩ true true) t).reel.assembler = .needKind := by decide +kernel

/-- A POLL of three records of set 40: the sum 81h + 4 + 3 + 0 + 40 + 1 is B1h, so the check is 4Fh. -/
theorem test_poll :
    (after .poll (assembling (.complete 0x01 []) 3)).reel.sending = [0xC3, 0x81, 4, 3, 0, 40, 1, 0x4F] := by
  decide +kernel

/-- R175: a reply built while another is being sent waits whole, and the bytes stay in the stages. -/
theorem test_poll_waits :
    let lead : RxByte := ⟨0xC3, false, false, false, false⟩
    let t := after .poll (withReel { ReelLink.cold with
      assembler := .complete 0x01 [], sending := [1], charLeft := 5, holdingStage := some lead } (assembling .hunting 3))
    t.reel.waiting = some [0xC3, 0x81, 4, 3, 0, 40, 1, 0x4F] ∧ t.reel.sending = [1] ∧ t.reel.charLeft = 5 ∧
      t.reel.holdingStage = some lead ∧ t.reel.assembler = .hunting := by decide +kernel

theorem test_poll_empty :
    (after .poll (assembling (.complete 0x01 []) 0)).reel.sending = [0xC3, 0x81, 4, 0, 0, 0, 0, 0x7B] := by
  decide +kernel

theorem test_fetch_empty :
    (after .fetch (assembling (.complete 0x02 []) 0)).reel.sending = [0xC3, 0x82, 1, 1, 0x7C] := by decide +kernel

/-- A record without items has a body of 28 bytes, and a reply of 29. -/
theorem test_fetch_length :
    (((after .fetch (assembling (.complete 0x02 []) 1)).reel.sending).take 4) = [0xC3, 0x82, 29, 0] := by decide +kernel

/-- Section 6.7: a RELEASE of the head is OK, and one of another lane is a MISMATCH. -/
theorem test_release :
    let at_ := fun lane => after .release (assembling (.complete 0x03 [0, 40, lane]) 3)
    (at_ 1).queue.records.length = 2 ∧ (at_ 5).queue.records.length = 3 ∧
      (at_ 5).reel.sending = [0xC3, 0x83, 1, 2, 0x7A] := by decide +kernel

/-- Kind FFh: a request whose body has the wrong length is UNKNOWN. -/
theorem test_unknown_frame :
    (after .unknownFrame (assembling (.complete 0x03 [0, 40]) 3)).reel.sending = [0xC3, 0xFF, 1, 3, 0xFD] := by
  decide +kernel

theorem test_frame_discard :
    let t := after .reelFrameDiscard (assembling .failed 0)
    t.reel.assembler = .hunting ∧ t.total .framesDiscarded = 1 := by decide +kernel

theorem test_frame_gap :
    let at_ := fun n => after .frameGapExpiry
      (withReel { ReelLink.cold with assembler := .needKind, gapTicks := n } (line 0))
    (at_ 20).reel.assembler = .needKind ∧ (at_ 21).reel.assembler = .hunting := by decide +kernel

/-- R173: C3h, of four ones, is sent low first, from its least significant bit; its parity bit is 0 under EVEN and 1 under
ODD. -/
theorem test_character_bits :
    characterBits .even 0xC3 = [false, true, true, false, false, false, false, true, true, false, true] ∧
      characterBits .odd 0x01 = [false, true, false, false, false, false, false, false, false, false, true] ∧
      characterBits .odd 0xC3 = [false, true, true, false, false, false, false, true, true, true, true] ∧
      (characterBits .none 0x80).length = 10 := by decide

/-- TXD in the first character of a reply at 16 CLK periods a bit, and after a REEL_PARITY written NONE within it: the
parity bit of the character on the line is still sent, and the next character has none. -/
theorem test_txd :
    let x := { ReelLink.cold with divisor := 1, waiting := some [0xC3, 0x00] }
    let s := after .replyTransmitStart (withReel x (line 0))
    let t := after (.tableDataWrite 0) (withPort { LinePort.cold with tableAddr := 34 } s)
    (withReel x (line 0)).txd = true ∧ s.txd = false ∧
      ([15, 16, 48, 144, 159, 160, 176, 336, 352].map t.reel.txdAfter) =
        [false, true, false, false, false, true, false, true, true] := by decide +kernel

theorem test_reply_start :
    let t := after .replyTransmitStart (withReel { ReelLink.cold with waiting := some [1, 2] } (line 0))
    t.reel.sending = [1, 2] ∧ t.reel.waiting = none ∧ t.reel.charLeft = 11440 := by decide +kernel

/-! ### The queue of commands -/

theorem test_idle : step State.reset = .next State.reset := by rfl

theorem test_step :
    step { State.reset with pending := [.tick, .poll] } = exec .tick { State.reset with pending := [.poll] } := by
  rfl

/-! ### Witnesses: states and operands that meet the hypotheses of the obligations -/

theorem cold_bounded (s : State) (h : s.tally = Tallies.cold) : TalliesBounded s := by
  unfold TalliesBounded
  rw [h]
  exact ⟨zero_bounded, zero_bounded⟩

theorem witness_StepRunsFrontCommand : State.reset.pending = [] := rfl

/-- A waiting read of a TRACK record, with nothing asked for behind it. -/
def waiting (w : WaitingAccess) (s : State) : State := withPort { LinePort.cold with ds := true, access := some w } s

theorem witness_CommandsChangeOnlyTheirParts :
    ((Instr.tick).wf = true ∧ endsAccess .tick = false ∧ ∃ t, exec .tick State.reset = .next t) ∧
    ((Instr.trackRecordLatch).wf = true ∧ endsAccess .trackRecordLatch = true ∧
      (waiting .trackRead (line 0)).port.next = none ∧
      ∃ t, exec .trackRecordLatch (waiting .trackRead (line 0)) = .next t) :=
  ⟨⟨rfl, rfl, _, rfl⟩, rfl, rfl, rfl, _, rfl⟩

theorem witness_WarmReset : (worked 1200000).portFree := rfl

theorem witness_EncoderCount :
    (line 700).turnsTo true false ∧ (line 700).turnsTo false true ∧
    (line 700).nextP false true < 700 ∧
    { line 700 with pos := { (line 700).pos with pitch := 1 } }.nextP true false = 700 := by
  unfold State.turnsTo; decide +kernel

/-- Bounded banks at 0, and with every total one below its limit. -/
theorem witness_EncoderFault : TalliesBounded State.reset ∧ TalliesBounded { State.reset with
    tally := { Tallies.cold with live := { TallyBank.zero with totals := List.replicate 16 65534 } } } := by
  refine ⟨cold_bounded _ rfl, ⟨rfl, rfl, ?_, zero_bounded.2.2.2⟩, zero_bounded⟩
  intro n hn
  obtain ⟨_, rfl⟩ := List.mem_replicate.mp hn
  decide

/-- Channel 1 can be ended while channel 2 has matched since the tick. -/
theorem witness_TickAndPulse :
    (State.reset.comps.get 1).outTicked = false ∧
    let s := { line 0 with comps := { Comparators.cold with
      ch1 := { Channel.cold with out := true, outTicked := true }, ch2 := { Channel.cold with out := true } } }
    (s.comps.get 1).out = true ∧ (s.comps.get 1).outTicked = true ∧ (s.comps.get 2).outTicked = false := by
  decide

theorem witness_SpeedSample :
    (sampled 0 20).pos.sampleDue = true ∧ State.reset.pos.sampleDue = false := ⟨rfl, rfl⟩

/-- A planner at the point of making its stop. -/
def settling : State := { sampled 5032640 5032640 with
  pos := { (sampled 5032640 5032640).pos with settle := 4 }
  planner := { StopPlanner.cold with
    state := .halting, target := .entry 1 .flag, targetPoint := 5030000, notedSeq := some 1877, short := true } }

theorem witness_StopMade :
    settling.pos.sampleDue = true ∧ settling.planner.state = .halting ∧ settling.pos.p = settling.pos.sampleBase ∧
    settling.planner.params.settle ≤ min 255 (settling.pos.settle + 1) ∧ TalliesBounded settling :=
  ⟨rfl, rfl, rfl, by decide, cold_bounded _ rfl⟩

/-- The point of a held target, and the tests of the states at a count: of 5,040,000 less the P reached. No test: with v
below 0, and in the states without one, IDLE having no target. -/
theorem witness_PositionTest :
    (∀ s ∈ [stopping .armed (-10) 4000000, line 700, stopping .halting 500 5039999, stopping .stopped 0 5040000],
      (cycleNext (s.pos.encA, s.pos.encB) = (true, false)) ∧ s.nextP true false ≠ s.pos.p ∧
        (s.pos.v < 0 ∨ s.planner.state = .idle ∨ s.planner.state = .halting ∨ s.planner.state = .stopped)) ∧
    (line 700).targetPoint (line 700).planner.target = none ∧
    (∀ st ∈ [PlannerState.armed, .slowing, .creeping], ∀ v ∈ [(500 : Int), 10000], ∀ p ∈ [(4000000 : Int), 5038999,
        5040001],
      let s := stopping st v p
      (cycleNext (s.pos.encA, s.pos.encB) = (true, false)) ∧ s.nextP true false ≠ s.pos.p ∧ 0 ≤ s.pos.v ∧
        1 ≤ s.planner.params.decel ∧ s.targetPoint s.planner.target = some 5040000) ∧
    ([4000001, 4409562, 5039000, 5040001].map fun p : Int =>
      (decide (5040000 - p ≤ 630438), decide (5040000 - p ≤ 1000), decide (5040000 - p < 0))) =
      [(false, false, false), (true, false, false), (true, true, false), (true, true, true)] := by
  decide +kernel

/-- Line position 99,999, with the strobe channel and channels 1 to 3 running. -/
def comparing (ch : Channel) : State := { line 99999 with
  comps := { Comparators.cold with ch0 := { Channel.cold with run := true, matchPoint := 100000 }, ch2 := ch } }

/-- The strobe channel running with a match point and a STROBE_PITCH. -/
def strobing (p m pitch : Int) : State := { line p with
  comps := { Comparators.cold with ch0 := { Channel.cold with run := true, matchPoint := m } }
  tracker := { OffsetTracker.cold with strobePitch := pitch } }

theorem witness_ComparatorMatch :
    (comparing Channel.cold).turnsTo true false ∧
    (comparing Channel.cold).pos.p < (comparing Channel.cold).nextP true false ∧
    (∃ ch : Channel, ch.run = true ∧ (comparing ch).comps.get 2 = ch ∧ ch.reference = .absolute ∧
      ch.matchPoint ≠ 0 ∧ ch.matchPoint ≤ (comparing ch).nextP true false ∧ ch.reload = 0) ∧
    (∃ ch : Channel, ch.run = true ∧ ch.reference = .absolute ∧ ch.matchPoint = 80000 ∧ ch.reload = 15000 ∧
      ch.matchPoint + (2 - 1) * ch.reload ≤ (comparing ch).nextP true false ∧
      (comparing ch).nextP true false < ch.matchPoint + 2 * ch.reload ∧ ch.matchPoint + 2 * ch.reload ≤ posMax) ∧
    ((comparing Channel.cold).comps.ch0.run = true ∧
      (comparing Channel.cold).comps.ch0.matchPoint ≤ (comparing Channel.cold).nextP true false ∧
      0 < (comparing Channel.cold).tracker.strobePitch) ∧
    (strobing 99999 20000 30000).comps.ch0.run = true ∧ (strobing 99999 20000 30000).tracker.strobePitch = 30000 ∧
    ((20000 : Int) + (3 - 1) * 30000 ≤ (strobing 99999 20000 30000).nextP true false ∧
      (strobing 99999 20000 30000).nextP true false < 20000 + 3 * 30000 ∧ (20000 : Int) + 3 * 30000 ≤ posMax) ∧
    (strobing 99999 20000 0).tracker.strobePitch = 0 ∧ (strobing 99999 20000 0).nextP true false = 100000 := by
  refine ⟨?_, ?_, ⟨⟨50000, 50000, 0, .absolute, true, 0, false, false⟩, ?_⟩,
    ⟨⟨80000, 80000, 15000, .absolute, true, 0, false, false⟩, ?_⟩, ?_, ?_⟩
  · unfold State.turnsTo; decide +kernel
  all_goals decide +kernel

/-- The last advance below the greatest P: the point 4,294,967,000 is passed, and the next would lie beyond; the same of
the strobe channel. -/
theorem witness_ComparatorMatch_last :
    let ch : Channel := ⟨0, 4294966000, 1000, .absolute, true, 0, false, false⟩
    let s := { line 4294967199 with comps := { Comparators.cold with ch2 := ch } }
    s.turnsTo true false ∧ s.pos.p < s.nextP true false ∧ ch.matchPoint + 1 * ch.reload ≤ s.nextP true false ∧
      ch.matchPoint + 1 * ch.reload ≤ posMax ∧ posMax < ch.matchPoint + (1 + 1) * ch.reload ∧
      (strobing 4294967199 4294966000 1000).comps.ch0.matchPoint = ch.matchPoint ∧
      (strobing 4294967199 4294966000 1000).tracker.strobePitch = ch.reload ∧
      (strobing 4294967199 4294966000 1000).nextP true false = s.nextP true false := by
  unfold State.turnsTo; decide +kernel

theorem witness_KnifePassage :
    let s := worked 1240000
    let e := flag 1 41 .map 1180000 (some 1)
    let t := withEntries [e, splice 2 42 .map 1230000 (some 2)] s
    TrackOrdered t ∧ t.listed [] e [splice 2 42 .map 1230000 (some 2)] ∧ e.passage = .ahead ∧
      e.w + t.pos.offKnife ≤ t.pos.p ∧ e.pendingReplace = false := by
  unfold TrackOrdered State.listed; decide +kernel

/-- Entry 40 of section 2.10 at its commit. -/
def entry40 : Entry := { flag 0 40 .map 1125000 (some 0) with
  len := 40, x0 := 12000, x1 := 12300, cls := 2, sev := 1, passage := .slit [5] 0 }

def behind40 : List Entry := [flag 1 41 .map 1180000 (some 1), splice 2 42 .map 1230000 (some 2)]

theorem worked_ordered (p : Int) : TrackOrdered (worked p) := by
  unfold TrackOrdered
  show (worked 0).track.entries.length ≤ 1024 ∧ ((worked 0).track.entries.Pairwise fun e f => e.w ≤ f.w) ∧
    ((worked 0).track.entries.map fun e => e.ident).Nodup ∧
    ∀ e ∈ (worked 0).track.entries, e.ident < (worked 0).track.nextIdent ∧ e.lanes.Nodup ∧
      ∀ n ∈ e.lanes, 1 ≤ n ∧ n ≤ 24
  decide +kernel

theorem witness_CommitUnwound :
    let s := { worked 1215000 with reels := ReelTable.cold }
    TrackOrdered s ∧ TalliesBounded s ∧ s.listed [] entry40 behind40 ∧ entry40.passage ≠ .ahead ∧
      entry40.w + s.pos.offNip ≤ s.pos.p ∧ entry40.pendingReplace = false ∧ s.openFor entry40.w = false :=
  ⟨worked_ordered 1215000, cold_bounded _ rfl, rfl, by decide, by decide, rfl, rfl⟩

theorem witness_CommitFlag :
    let s := worked 1215000
    let t := { s with plan := { s.plan with lanes := [] } }
    TrackOrdered s ∧ TalliesBounded s ∧ s.listed [] entry40 behind40 ∧ entry40.passage = .slit [5] 0 ∧
      entry40.w + s.pos.offNip ≤ s.pos.p ∧ (∃ o, s.reels.openSet = some o ∧ o.wStart ≤ entry40.w) ∧
      (∃ n ∈ [5], (s.plan.lane n).used = true) ∧
      TrackOrdered t ∧ TalliesBounded t ∧ t.listed [] entry40 behind40 ∧
      (∃ o, t.reels.openSet = some o ∧ o.wStart ≤ entry40.w) ∧ ∀ n ∈ [5], (t.plan.lane n).used = false :=
  ⟨worked_ordered 1215000, cold_bounded _ rfl, rfl, rfl, by decide, ⟨_, rfl, by decide⟩, by decide,
    worked_ordered 1215000, cold_bounded _ rfl, rfl, ⟨_, rfl, by decide⟩, by decide⟩

/-- A reel of lane 5 whose list is full: an item of severity 0 among items of severity 1, against entry 40 of severity 1
and another of severity 0. -/
theorem witness_CommitFlag_full :
    let item := fun (d : Int) (v : Fin 4) => (⟨d, 0, 2, v, .live, false⟩ : FlagItem)
    let pre := (List.range' 1 9).map fun i : Nat => item i 1
    let post := (List.range' 11 10).map fun i : Nat => item i 1
    let r := { newReel 7 5 (plan24.lane 5) none 1000000 with flags := pre ++ item 10 0 :: post }
    20 ≤ r.flags.length ∧ (r.flags.Pairwise fun x y => x.depth ≤ y.depth) ∧ (∀ y ∈ pre, (item 10 0).sev ≤ y.sev) ∧
      (∀ y ∈ post, (item 10 0).sev < y.sev) ∧ (item 10 0).sev < entry40.sev ∧ (item 20 0).sev ≤ (item 10 0).sev ∧
      r.lane ∈ [5] ∧ (plan24.lane r.lane).used = true ∧ (plan24.lane r.lane).disposition ≠ .trim ∧ 1 ≤ r.lane ∧
      (newReel 7 5 (plan24.lane 5) none 1000000).flags.length < 20 := by
  decide +kernel

theorem witness_CommitSplice :
    let e := { splice 2 42 .map 1230000 (some 2) with passage := .slit [] 0 }
    let s := withEntries [e] (worked8 1320000)
    TrackOrdered s ∧ TalliesBounded s ∧ s.listed [] e [] ∧
      e.kind = .splice ∧ e.passage ≠ .ahead ∧ e.w + s.pos.offNip ≤ s.pos.p ∧ e.pendingReplace = false ∧
      ∃ o, s.reels.openSet = some o ∧ o.wStart ≤ e.w := by
  refine ⟨?_, cold_bounded _ rfl, rfl, rfl, by decide, by decide, rfl, _, rfl, by decide⟩
  unfold TrackOrdered
  decide +kernel

/-- An entry of record 2 of section 3.6 that waits for its walk step. -/
def pendingEntry : Entry := { flag 0 40 .map 939886 (some 2) with pendingReplace := true }

/-- Record 2 with its entry marked, at line position `p`; `m` its press coordinate. -/
def replacing (m p : Int) : State :=
  withAnchors [⟨2900000, 993000⟩, ⟨3000000, -5000⟩] (-2000)
    (withRecords [record .flag 2999800 .retired, record .flag 2950000 .retired, record .flag m .released]
      (withEntries [pendingEntry] (line p)))

/-- The walk step (m at 2,905,700; and past the end of the roll, where the prediction lies below 0), the knife passage
and the commit of an entry with PENDING_REPLACE. -/
theorem witness_ReplacementStep :
    (∀ m ∈ [(2905700 : Int), 3000000],
      let s := replacing m 998000
      s.listed [] pendingEntry [] ∧ s.classOne = false ∧ s.align.queue = [] ∧
      (s.align.yields.detection && s.classThree || s.align.yields.release && s.classFour ||
        s.align.yields.access && s.classFive) = false ∧ pendingEntry.mapIndex = some 2 ∧
      s.pmap.records[2]? = some (record .flag m .released)) ∧
    (replacing 3000000 998000).predict 3000000 < 0 ∧ ¬ (replacing 2905700 998000).predict 2905700 < 0 ∧
    (let s := replacing 2905700 999886;
      pendingEntry.passage = .ahead ∧ pendingEntry.w + s.pos.offKnife ≤ s.pos.p) ∧
    (let e := { pendingEntry with passage := .slit [] 0 };
      e.passage ≠ .ahead ∧ e.w + (line 1100000).pos.offNip ≤ (line 1100000).pos.p) ∧
    TrackOrdered (replacing 2905700 998000) ∧ TalliesBounded (replacing 2905700 998000) := by
  refine ⟨?_, ?_, ?_, ?_, ?_, ?_, cold_bounded _ rfl⟩
  · unfold State.listed; decide +kernel
  · decide +kernel
  · decide +kernel
  · decide +kernel
  · decide +kernel
  · unfold TrackOrdered; decide +kernel

theorem witness_ConfirmationAndMarking :
    let e := splice 1 41 .map 997000 (some 3)
    let pre := [flag 0 40 .map 939886 (some 2)]
    let post := [flag 2 42 .map 1197400 (some 4)]
    let s := withWrites [.confirmation 3 993000, .marking 3000000] roll
    let t := withWrites [.confirmation 5 993000] roll
    let u := withWrites [.marking 3000000] roll
    (s.align.queue = .confirmation 3 993000 :: [.marking 3000000] ∧ s.classOne = false ∧ TrackOrdered s ∧
      TalliesBounded s ∧ s.listed pre e post ∧ e.mapIndex = some 3 ∧ ∀ f ∈ pre, f.mapIndex ≠ some 3) ∧
    (t.classOne = false ∧ ∀ f ∈ t.track.entries, f.mapIndex ≠ some 5) ∧
    u.align.queue = .marking 3000000 :: [] ∧ u.classOne = false := by
  refine ⟨⟨rfl, by decide +kernel, ?_, cold_bounded _ rfl, rfl, rfl, by decide +kernel⟩, by decide +kernel, rfl,
    by decide +kernel⟩
  unfold TrackOrdered
  decide +kernel

/-- A live splice beyond the greatest P, below 0, and between. -/
theorem witness_LiveSplicePlaced :
    (∀ w ∈ [posMax + 1, posMax, 0, -1],
      let s := withWrites [.liveSplice w .sensor false] roll
      s.align.queue = .liveSplice w .sensor false :: [] ∧ s.classOne = false ∧ s.track.entries.length < 1024) ∧
    TrackOrdered roll ∧ TalliesBounded roll := by
  refine ⟨by decide +kernel, ?_, cold_bounded _ rfl⟩
  unfold TrackOrdered
  decide +kernel

/-- Detections that are dropped, late, placed ahead, committed at once, and merged, over the list of section 2.10. -/
theorem witness_DetectionPlaced :
    (∀ c ∈ [posMax + 8001, 7999, 8000, 1158000, 1148000, 1188180],
      let s := withMessages [.detection c 60 30350 30500 4 3] (worked 1200500)
      s.diq.messages = .detection c 60 30350 30500 4 3 :: [] ∧ s.mounted = true ∧ s.grantsThree = true ∧
        s.track.entries.length < 1024) ∧
    (∀ c ∈ [posMax + 8001, 7999, 8000, 1158000], ∀ e ∈ (worked 0).track.entries,
      ¬ (e.source = .map ∧ absInt (c - 8000 - e.w) ≤ 300)) ∧
    (let e := flag 1 41 .map 1180000 (some 1);
      (worked 0).listed [entry40] e [splice 2 42 .map 1230000 (some 2)] ∧ e.source = .map ∧ e.kind = .flag ∧
        e.passage = .ahead ∧ absInt (1188180 - 8000 - e.w) ≤ 300 ∧ e.x0 ≤ 30500 ∧ 30350 ≤ e.x1 ∧ e.cls = 4 ∧
        entry40.passage ≠ .ahead) ∧
    TrackOrdered (worked 1200500) ∧ TalliesBounded (worked 1200500) :=
  ⟨by decide +kernel, by decide +kernel, ⟨rfl, by decide +kernel⟩, worked_ordered _, cold_bounded _ rfl⟩

theorem witness_MessageDiscarded :
    TalliesBounded (withMessages [.detection 0 0 1 0 0 0] (line 0)) ∧
    (withMessages [.detection 0 0 1 0 0 0] (line 0)).diq.messages = .detection 0 0 1 0 0 0 :: [] ∧ (0 : Int) < 1 ∧
    (withMessages [.spliceSighting 0] State.reset).diq.messages = .spliceSighting 0 :: [] ∧
    (withMessages [.spliceSighting 0] State.reset).mounted = false :=
  ⟨cold_bounded _ rfl, rfl, by decide, rfl, rfl⟩

/-- A Track List of `n` entries, every one from one source and AHEAD; of 1,024, full. -/
def crowd (n : Nat) (src : Source) : State := withWrites [.liveSplice 3000000 .sensor false]
  (withEntries ((List.range n).map fun i => flag i i src (2000000 + i) none) (line 1200000))

theorem crowd_length (n : Nat) (src : Source) : (crowd n src).track.entries.length = n := by
  simp [crowd, withEntries, withWrites]

theorem crowd_ordered (n : Nat) (hn : n ≤ 1024) (src : Source) (s : State) (h : s.track = (crowd n src).track) :
    TrackOrdered s := by
  unfold TrackOrdered
  rw [h]
  refine ⟨(crowd_length n src).le.trans hn, ?_, ?_, ?_⟩
  · show ((List.range n).map _).Pairwise _
    refine List.pairwise_map.mpr (List.pairwise_lt_range.imp ?_)
    intro a b hab
    show (2000000 + a : Int) ≤ 2000000 + b
    omega
  · show (((List.range n).map _).map _).Nodup
    rw [List.map_map]
    exact List.nodup_range.map fun a b hab => hab
  · intro e he
    obtain ⟨i, hi, rfl⟩ := List.mem_map.mp he
    refine ⟨?_, List.nodup_nil, fun n hn => absurd hn List.not_mem_nil⟩
    show i < ((List.range n).map _).length + 8
    rw [List.length_map, List.length_range]
    exact Nat.lt_add_right 8 (List.mem_range.mp hi)

theorem crowd_notDue (n : Nat) (src : Source) (s : State) (h : s.track = (crowd n src).track)
    (hp : s.pos = (line 1200000).pos) : s.classOne = false := by
  unfold State.classOne
  rw [h, List.any_eq_false]
  intro e he
  obtain ⟨i, -, rfl⟩ := List.mem_map.mp he
  show ¬ (decide ((2000000 + i : Int) + s.pos.offKnife ≤ s.pos.p) = true)
  rw [hp, decide_eq_true_eq]
  show ¬ ((2000000 + i : Int) + 60000 ≤ 1200000)
  omega

/-- The last entry of a list of maps stands behind every other. -/
theorem crowd_listed (n : Nat) (src : Source) :
    (crowd (n + 1) src).listed ((List.range n).map fun i => flag i i src (2000000 + i) none)
      (flag n n src (2000000 + n) none) [] := by
  simp [State.listed, crowd, withEntries, withWrites, List.range_succ]

theorem crowd_source (n : Nat) (src : Source) :
    ∀ e ∈ (crowd n src).track.entries, e.source = src ∧ e.pendingReplace = false := by
  intro e he
  obtain ⟨i, -, rfl⟩ := List.mem_map.mp he
  exact ⟨rfl, rfl⟩

theorem crowd_w (n : Nat) (src : Source) : ∀ e ∈ (crowd n src).track.entries, ∃ i < n, e.w = 2000000 + (i : Nat) := by
  intro e he
  obtain ⟨i, hi, rfl⟩ := List.mem_map.mp he
  exact ⟨i, List.mem_range.mp hi, rfl⟩

/-- A DETECTION far from every entry of a full list, and granted. -/
theorem crowd_detection (src : Source) :
    let s := withWrites [] (withMessages [.detection 3008000 60 0 100 4 3] (crowd 1024 src))
    s.mounted = true ∧ s.grantsThree = true ∧ s.track = (crowd 1024 src).track ∧ (0 : Int) ≤ 100 ∧
      (3008000 : Int) + (if s.tracker.valid then s.tracker.o else 0) - s.pos.offInspect = 3000000 ∧
      ∀ e ∈ s.track.entries, ¬ (|(3000000 : Int) - e.w| ≤ s.track.mergeWindow) := by
  refine ⟨rfl, ?_, rfl, by decide, rfl, ?_⟩
  · have h1 : State.classOne (withWrites [] (withMessages [.detection 3008000 60 0 100 4 3] (crowd 1024 src))) = false :=
      crowd_notDue 1024 src _ rfl rfl
    have h2 : (crowd 1024 src).track.entries.any (fun e => e.pendingReplace) = false :=
      List.any_eq_false.mpr fun e he => by rw [(crowd_source 1024 src e he).2]; decide
    unfold State.grantsThree State.classTwo State.walkRequested State.walkDue
    rw [h1]
    show (!false && !(false || (true && (crowd 1024 src).track.entries.any (fun e => e.pendingReplace)) && _)) = true
    rw [h2]
    rfl
  · intro e he
    obtain ⟨i, hi, hw⟩ := crowd_w 1024 src e he
    rw [hw]
    show ¬ (|(3000000 : Int) - (2000000 + i)| ≤ 300)
    intro h
    have := abs_le.mp h
    omega

/-- A live splice that meets a full list and needs no room in it: beyond the greatest P, below 0, and at the commit
line. -/
theorem witness_LiveSplicePlaced_full (src : Source) :
    ∀ w ∈ [posMax + 1, -1, 1110000],
      let s := withWrites [.liveSplice w .sensor false] (crowd 1024 src)
      s.align.queue = .liveSplice w .sensor false :: [] ∧ s.classOne = false ∧ TrackOrdered s ∧ TalliesBounded s ∧
        s.track.entries.length = 1024 ∧ (w < 0 ∨ posMax < w ∨ w ≤ s.commitLine) := by
  intro w hw
  refine ⟨rfl, crowd_notDue _ src _ rfl rfl, crowd_ordered _ (Nat.le_refl _) src _ rfl, cold_bounded _ rfl,
    crowd_length _ src, ?_⟩
  show w < 0 ∨ posMax < w ∨ w ≤ (line 1200000).commitLine
  revert w
  decide +kernel

/-- A full list whose last entry can be withdrawn, and one without such an entry. -/
theorem witness_FullList :
    (∀ src : Source, (crowd 1024 src).align.queue = .liveSplice 3000000 .sensor false :: [] ∧
      (crowd 1024 src).classOne = false ∧ TrackOrdered (crowd 1024 src) ∧ TalliesBounded (crowd 1024 src) ∧
      (crowd 1024 src).track.entries.length = 1024) ∧
    (line 1200000).commitLine < 3000000 ∧
    (∀ src : Source, let s := withWrites [] (withMessages [.detection 3008000 60 0 100 4 3] (crowd 1024 src))
      s.mounted = true ∧ s.grantsThree = true ∧ s.track = (crowd 1024 src).track ∧ (0 : Int) ≤ 100 ∧
      (3008000 : Int) + (if s.tracker.valid then s.tracker.o else 0) - s.pos.offInspect = 3000000 ∧
      ∀ e ∈ s.track.entries, ¬ (|(3000000 : Int) - e.w| ≤ s.track.mergeWindow)) ∧
    (crowd 1024 .map).listed ((List.range 1023).map fun i => flag i i .map (2000000 + i) none)
      (flag 1023 1023 .map (2000000 + (1023 : Nat)) none) [] ∧
    ∀ e ∈ (crowd 1024 .live).track.entries, ¬ (e.source = .map ∧ e.passage = .ahead) :=
  ⟨fun src => ⟨rfl, crowd_notDue _ src _ rfl rfl, crowd_ordered _ (Nat.le_refl _) src _ rfl, cold_bounded _ rfl,
      crowd_length _ src⟩,
    by decide, crowd_detection, crowd_listed 1023 .map,
    fun e he h => absurd ((crowd_source _ .live e he).1.symm.trans h.1) (by decide)⟩

/-- A release at the cursor: found late, stored, committed at once, and with the list full. -/
def releasing (m p : Int) (s : State) : State :=
  withAnchors [⟨3000000, -5000⟩] 2000 (withRecords [record .flag 2999999 .retired, record .flag m .unreleased]
    { s with pos := { s.pos with p := p } })

theorem witness_MapRelease :
    (∀ x ∈ [((2999800 : Int), (0 : Int)), (2950000, 0), (2950000, 600000)],
      let s := releasing x.1 x.2 (line 0)
      s.pmap.records[1]? = some (record .flag x.1 .unreleased) ∧ s.mounted = true ∧
        s.predict x.1 ≤ s.pos.p + s.pmap.horizon ∧ s.predict x.1 ≤ posMax ∧ s.pmap.withheld = false ∧
        s.grantsFour = true ∧ s.track.entries.length < 1024) ∧
    (releasing 2999800 0 (line 0)).predict 2999800 < 0 ∧
    (releasing 2950000 0 (line 0)).commitLine < (releasing 2950000 0 (line 0)).predict 2950000 ∧
    (releasing 2950000 600000 (line 0)).predict 2950000 ≤ (releasing 2950000 600000 (line 0)).commitLine ∧
    TrackOrdered (releasing 2950000 0 (line 0)) ∧ TalliesBounded (releasing 2950000 0 (line 0)) := by
  refine ⟨by decide +kernel, by decide +kernel, by decide +kernel, by decide +kernel, ?_, cold_bounded _ rfl⟩
  unfold TrackOrdered
  decide +kernel

/-- The same with the list full. -/
theorem witness_MapRelease_full :
    let s := releasing 2800000 1200000 (withWrites [] (crowd 1024 .live))
    s.predict 2800000 ≤ s.pos.p + s.pmap.horizon ∧ s.classOne = false ∧ s.align.queue = [] ∧ s.diq.messages = [] ∧
      (∀ e ∈ s.track.entries, e.pendingReplace = false) ∧ s.commitLine < s.predict 2800000 ∧
      s.track.entries.length = 1024 ∧ TrackOrdered s := by
  refine ⟨?_, crowd_notDue 1024 .live _ rfl rfl, rfl, rfl, fun e he => (crowd_source 1024 .live e he).2,
    ?_, crowd_length 1024 .live, crowd_ordered 1024 (Nat.le_refl _) .live _ rfl⟩
  · show (releasing 2800000 1200000 (line 0)).predict 2800000 ≤ 1200000 + 1000000
    decide +kernel
  · show 1200000 - 90000 < (releasing 2800000 1200000 (line 0)).predict 2800000
    decide +kernel

/-- A request of each class that waits. -/
theorem witness_ArbiterOrder :
    (withEntries [flag 0 40 .map 0 none] (line 60000)).classOne = true ∧
    (withWrites [.marking 5] (line 0)).classTwo = true ∧
    (withWrites [.marking 5] (withMessages [.detection 0 0 0 0 0 0] (line 0))).mounted = true ∧
    (withMessages [.detection 0 0 0 0 0 0] (line 0)).classThree = true ∧
    (releasing 2950000 0 (line 0)).classFour = true ∧
    (let s := releasing 2950000 0 (line 0);
      let t := { s with align := { s.align with yields := ⟨false, true, false⟩ } };
      t.align.yields.release = true ∧ t.classFour = true) ∧
    (withWrites [.marking 5] (line 0)).align.queue ≠ [] := by decide +kernel

/-- A waiting access whose DS is still asserted, or was negated early. -/
def dropped (early : Bool) (s : State) : State := withPort { s.port with ds := !early, early := early } s

/-- R161: a ROLL END whose DS was negated early is carried out, without XACK. -/
theorem test_early_roll_end :
    let s := after .rollEndEmptying (dropped true (waiting .rollEnd (line 900000)))
    s.mounted = false ∧ s.port.result = .ok ∧ s.port.access = none ∧ s.port.xack = false := by decide +kernel

/-- R60: a latched sighting that is taken leaves the latch. -/
theorem test_latch_emptied :
    (after .latchedSightingTaken { roll with align := { roll.align with latch := some 500000 } }).align.latch = none := by
  decide +kernel

/-- The reads of a slot that holds an entry and of a vacant one, with DS asserted and negated early. -/
theorem witness_TrackRecordLatched :
    let at_ := fun a => withPort { LinePort.cold with access := some .trackRead, tableSelect := .track, tableAddr := a }
      (withEntries [flag 0 40 .live 1150000 none] (line 1200000))
    (∀ a ∈ [0, 16], ∀ b ∈ [false, true],
      let s := dropped b (at_ a)
      s.port.access = some .trackRead ∧ s.port.early = b ∧ s.port.next = none ∧ s.grantsFive = true) ∧
    (at_ 0).track.entries[0 / 16]? = some (flag 0 40 .live 1150000 none) ∧
    (at_ 16).track.entries.length ≤ 16 / 16 := by decide +kernel

theorem witness_RollEndEmpties :
    let s := waiting .rollEnd (line 900000)
    let t := withMessages [.spliceSighting 5] { s with align := { s.align with latch := some 1 } }
    (∀ b ∈ [false, true], (dropped b s).port.access = some .rollEnd ∧ (dropped b s).port.early = b ∧
      (dropped b s).port.next = none ∧ (dropped b s).grantsFive = true) ∧ TalliesBounded s ∧
      TalliesBounded (dropped true s) ∧
    (∀ stamp rest, s.diq.messages ≠ .spliceSighting stamp :: rest) ∧
    t.port.access = some .rollEnd ∧ t.port.early = false ∧ t.grantsFive = true ∧ TalliesBounded t ∧
    t.diq.messages = .spliceSighting 5 :: [] ∧ t.align.source ≠ .sensor ∧ t.align.latch ≠ none :=
  ⟨by decide +kernel, cold_bounded _ rfl, cold_bounded _ rfl, fun _ _ h => (List.cons_ne_nil _ _ h.symm), rfl, rfl,
    by decide +kernel, cold_bounded _ rfl, rfl, by decide, by decide⟩

theorem witness_StopMarksWritten :
    TrackOrdered (waiting .stopRelease (stopping .idle 0 5030000)) ∧ ∀ w ∈ [WaitingAccess.stopRelease, .stopCancel],
      ∀ b ∈ [false, true],
      let s := dropped b (waiting w { line 0 with planner := { StopPlanner.cold with setAside := some 7 } })
      s.port.early = b ∧ s.port.next = none ∧ s.grantsFive = true ∧ s.planner.setAside = some 7 ∧ s.port.access = some w := by
  unfold TrackOrdered; decide +kernel

/-- Sightings far from every prediction, from the three sources. -/
theorem witness_SightingsUnexpected :
    let s := roll
    let l := { roll with align := { roll.align with latch := some 500000 } }
    let c := valid (withMessages [.spliceSighting 505000] roll)
    SightingTaken .spliceSensorEdge s 993000 .sensor false ∧
    SightingTaken .latchedSightingTaken l 500000 .sensor false ∧
    SightingTaken .spliceSighting c 500000 .camera false ∧
    l.mounted = true ∧ l.passesGuard 500000 ∧ l.matchesNone 500000 false ∧ c.matchesNone 500000 false := by
  refine ⟨⟨by decide +kernel, .inl ?_⟩, ⟨by decide +kernel, .inr (.inl ?_)⟩, ⟨by decide +kernel, .inr (.inr ?_)⟩, rfl,
    ?_, ?_, ?_⟩
  · decide +kernel
  · decide +kernel
  · exact ⟨rfl, by decide, rfl, ⟨505000, [], rfl, by decide⟩, rfl, rfl⟩
  · intro last h
    cases h
  all_goals
    refine .inr (.inr (.inr ?_))
    unfold State.matchesRecord
    simp only [← absInt_eq_abs]
    decide +kernel

/-- A sighting within the guard; edges with two places free and fewer, with the latch empty and full; a SPLICE SIGHTING
that waits, and one from an unselected source. -/
theorem witness_SightingsIgnoredOrHeld :
    let guarded := { roll with align := { roll.align with lastGuarded := some 990000 } }
    let crowded := withWrites (List.replicate 7 (.marking 0)) (withMessages [.spliceSighting 1] roll)
    let latched := { crowded with align := { crowded.align with latch := some 1 } }
    let unselected := { crowded with align := { crowded.align with source := .sensor } }
    (SightingTaken .spliceSensorEdge guarded 993000 .sensor false ∧ guarded.mounted = true ∧
      TalliesBounded guarded ∧ guarded.align.lastGuarded = some 990000 ∧
      |(993000 : Int) - 990000| ≤ guarded.align.spliceGuard) ∧
    (crowded.mounted = true ∧ crowded.align.source ≠ .camera ∧ crowded.align.source ≠ .sensor ∧
      crowded.align.latch = none ∧ 7 ≤ crowded.align.queue.length) ∧
    latched.align.latch ≠ none ∧ State.reset.mounted = false ∧ unselected.align.source = .sensor ∧
    crowded.diq.messages = .spliceSighting 1 :: [] := by
  refine ⟨⟨⟨by decide +kernel, .inl ?_⟩, rfl, cold_bounded _ rfl, rfl, by decide⟩,
    by decide +kernel, by decide, by decide,
    rfl, rfl⟩
  decide +kernel

/-- Sightings of record 3 of section 3.6 whose anchor is accepted, and rejected for its ratio; the first match in map
order within the window. -/
theorem witness_AnchorOffered :
    let near := { roll with align := { roll.align with anchors := [⟨2900100, 988000⟩], dLast := 0 } }
    (∀ s ∈ [roll, near], SightingTaken .spliceSensorEdge s 993000 .sensor false ∧ s.mounted = true ∧
      s.passesGuard 993000 ∧ s.matchesRecord 993000 (record .splice 2900000 .released) ∧
      s.pmap.records[3]? = some (record .splice 2900000 .released)) ∧
    (∀ r ∈ roll.pmap.records.take 3, r.kind ≠ .splice) ∧
    (2900000 : Int) < 3000000 ∧ (993000 + 5000) * 1000000 / ((3000000 - 2900000) * 10) - 1000000 = (-2000 : Int) ∧
    50000 < (993000 - 988000) * 1000000 / ((2900100 - 2900000) * 10) - (1000000 : Int) := by
  refine ⟨?_, by decide +kernel, by decide, by decide, by decide⟩
  intro s hs
  simp only [List.mem_cons, List.mem_nil_iff, or_false] at hs
  rcases hs with rfl | rfl <;>
    refine ⟨⟨by decide +kernel, .inl (by decide +kernel)⟩, rfl, fun last h => (by cases h), ?_, rfl⟩ <;>
    (unfold State.matchesRecord; rw [← absInt_eq_abs]; decide +kernel)

/-- An anchor rejected for its order: the matched record lies at the newest anchor's own press coordinate. -/
theorem witness_AnchorOffered_rejected :
    let s := { roll with align := { roll.align with anchors := [⟨2900000, 990000⟩], dLast := 0 } }
    SightingTaken .spliceSensorEdge s 993000 .sensor false ∧
      s.matchesRecord 993000 (record .splice 2900000 .released) ∧ s.align.anchors = ⟨2900000, 990000⟩ :: [] := by
  refine ⟨⟨by decide +kernel, .inl (by decide +kernel)⟩, ?_, rfl⟩
  unfold State.matchesRecord
  rw [← absInt_eq_abs]
  decide +kernel

theorem witness_Prediction :
    let s := withAnchors [⟨2900000, 993000⟩, ⟨3000000, -5000⟩] (-2000) (line 0)
    s.align.anchors = ⟨2900000, 993000⟩ :: [⟨3000000, -5000⟩] ∧ (2880000 : Int) < 2900000 ∧
      s.align.anchors = [] ++ ⟨2900000, 993000⟩ :: ⟨3000000, -5000⟩ :: [] ∧
      (s.align.anchors.Pairwise fun x y => x.m < y.m) ∧ (2900000 : Int) ≤ 2905700 ∧
      (withAnchors [⟨3000000, -5000⟩] 2000 (line 0)).align.anchors = ⟨3000000, -5000⟩ :: [] ∧
      (line 0).align.anchors = [] := by decide +kernel

/-- A message that leaves the DIQ during a hold, with 24 and with 25 messages behind it. -/
theorem witness_TakenFromHead :
    ∀ n ∈ [24, 25],
      let s := withMessages (.mapClose 1 :: List.replicate n (.mapClose 1)) (withLink
        { InspectionLink.cold with phase := .message .beacon [], holding := true } (line 0))
      s.diq.messages = .mapClose 1 :: List.replicate n (.mapClose 1) ∧ s.link.holding = true ∧
        (List.replicate n (Message.mapClose 1)).length = n ∧ s.diq.resume = 24 := by decide

theorem witness_MapMessages :
    (withMessages [.mapBegin 1 2 3] State.reset).diq.messages = .mapBegin 1 2 3 :: [] ∧
    (withMessages [.mapRecord 1 0 0 0 0] State.reset).diq.messages = .mapRecord 1 0 0 0 0 :: [] ∧
    (withMessages [.mapClose 1] State.reset).diq.messages = .mapClose 1 :: [] ∧
    State.reset.pmap.state ≠ .opened ∧ { PressMap.cold with state := .opened }.state = .opened := by decide

/-- The beacons of section 4.5: stale, the first of a roll, and within, above and past the windows. -/
theorem witness_Beacon :
    (∀ h ∈ (tracked 211 0).tracker.history, h.number ≠ 4) ∧
    (tracked 211 0).tracker.history = [⟨8, 800003⟩] ++ ⟨7, 700030⟩ :: [⟨6, 600020⟩, ⟨5, 500012⟩] ∧
    (∀ g ∈ [(⟨8, 800003⟩ : Strobe)], g.number ≠ 7) ∧ (tracked 211 0).tracker.valid = true ∧
    TalliesBounded (withMessages [.beacon 7 699894] (tracked 120 0)) ∧
    { (tracked 0 0).tracker with valid := false }.valid = false :=
  ⟨by decide, rfl, by decide, rfl, cold_bounded _ rfl, rfl⟩

/-- The link at each of its phases, with no hold. -/
theorem witness_LinkBytes :
    (∀ ph ∈ [LinkPhase.idle, .restarted, .ignored, .addressed, .message .beacon [7], .message .mapClose [0, 9],
        .reading],
      (linked ph).link.holding = false ∧ (linked ph).link.phase = ph) ∧
    (0b0101#4 ++ State.reset.pins.adr ++ 0#1) = (0x50 : Byte) ∧
    ([(7 : Byte)].length < MessageKind.beacon.bodyLength) ∧
    MessageKind.mapClose.bodyLength ≤ [(0 : Byte), 9].length := by decide

theorem witness_StopsAndStarts :
    TalliesBounded (linked (.message .mapClose [0, 9])) ∧
    (linked (.message .mapClose [0, 9])).link.phase = .message .mapClose [0, 9] ∧
    [(0 : Byte), 9].length = MessageKind.mapClose.bodyLength ∧
    (linked (.message .mapClose [0, 9])).diq.messages.length < 32 ∧
    [(7 : Byte)].length < MessageKind.beacon.bodyLength ∧
    (linked .addressed).link.phase = .addressed ∧
    ∀ k bytes, (linked .reading).link.phase ≠ .message k bytes :=
  ⟨cold_bounded _ rfl, rfl, rfl, by decide, by decide, rfl, fun _ _ h => by cases h⟩

theorem witness_HoldsAndStatusReads :
    let held := fun n => withLink { InspectionLink.cold with
      phase := .message .beacon [], holding := true, holdTicks := n, holdLimitNow := 100 } (line 0)
    ((held 100).link.holding = true ∧ (held 100).link.holdLimitNow ≠ 0 ∧
      (held 100).link.holdLimitNow ≤ (held 100).link.holdTicks ∧ TalliesBounded (held 100)) ∧
    (held 99).link.holdTicks < 1000 ∧ (held 99).link.holdTicks < (held 99).link.holdLimitNow ∧
    (line 0).link.phase = .idle ∧ (line 0).link.holding = false ∧ (line 0).diq.messages.length ≤ 32 :=
  ⟨⟨rfl, by decide, by decide, cold_bounded _ rfl⟩, by decide, by decide, rfl, rfl, by decide⟩

/-- The assembler at each of its places, and a line with both stages full behind a reply that waits. -/
theorem witness_CharacterReceived :
    (∀ a ∈ [Assembler.hunting, .needKind, .needLength 1, .body 1 2 [0], .body 1 1 [0]],
      let x := { ReelLink.cold with assembler := a }
      x.holdingStage = none ∧ x.shiftStage = none ∧ x.overrunNext = false ∧ x.gapNext = false ∧ x.waiting = none ∧
        x.assembler ≠ .failed ∧ x.assembler = a) ∧
    (∀ k bs, Assembler.body 1 2 [0] ≠ .complete k bs) ∧
    (let y : RxByte := ⟨7, false, false, false, false⟩;
      let x := { ReelLink.cold with holdingStage := some y, shiftStage := some y, waiting := some [1] };
      x.holdingStage = some y ∧ x.shiftStage = some y ∧ x.waiting = some [1]) ∧
    (let x := { ReelLink.cold with earlier := [⟨.even, 20⟩, ⟨.odd, 7⟩] };
      x.quiet ∧ x.earlier[1 - 1]? = some ⟨.even, 20⟩ ∧ x.earlier[2 - 1]? = some ⟨.odd, 7⟩) :=
  ⟨by decide, fun _ _ h => Assembler.noConfusion h, ⟨rfl, rfl, rfl⟩, ⟨rfl, rfl, rfl, rfl⟩, rfl, rfl⟩

/-- Each kind of frame with the transmitter idle, and while another reply is being sent; with nothing, one byte and two
bytes in the stages. -/
theorem witness_FramesServed :
    (∀ x ∈ [((0x01 : Byte), ([] : List Byte)), (0x02, []), (0x03, [0, 40, 1]), (0x04, [])],
      let s := assembling (.complete x.1 x.2) 3
      s.reel.assembler = .complete x.1 x.2 ∧ s.reel.sending = [] ∧ s.reel.waiting = none ∧
        s.reel.holdingStage = none ∧ s.queue.records ≠ [] ∧ s.queue.roomWanted = true) ∧
    (assembling (.complete 0x01 []) 0).queue.records = [] ∧
    (let lead : RxByte := ⟨0xC3, false, false, false, false⟩;
      ∀ x ∈ [none, some lead], ∀ y ∈ [none, some { lead with afterGap := true }, some lead], ∀ f ∈ [[], [1]],
      let s := withReel { ReelLink.cold with
        assembler := .complete 0x01 [], holdingStage := x, shiftStage := y, sending := f } (line 0)
      s.reel.assembler = .complete 0x01 [] ∧ s.reel.waiting = none ∧ s.reel.holdingStage = x ∧
        s.reel.shiftStage = y ∧ s.reel.sending = f) ∧
    ∀ x : ReelLink, TalliesBounded (withReel x (line 0)) :=
  ⟨by decide +kernel, by decide +kernel, by decide +kernel, fun _ => cold_bounded _ rfl⟩

/-- Failed frames with nothing, one byte and two bytes in the stages, and with a reply that waits; a gap that has run out
while collecting, while hunting and with a byte in the stages; and a character marked with it. -/
theorem witness_FramesDiscarded :
    let lead : RxByte := ⟨0xC3, false, false, false, false⟩
    let link := fun a x y w => withReel
      { ReelLink.cold with assembler := a, holdingStage := x, shiftStage := y, waiting := w, gapTicks := 21 } (line 0)
    (∀ x ∈ [none, some lead], ∀ y ∈ [none, some { lead with afterGap := true }, some lead], ∀ w ∈ [none, some [1]],
      (link .failed x y w).reel.assembler = .failed) ∧
    (lead.value = 0xC3 ∧ lead.parityError = false ∧ lead.framingError = false ∧ lead.overrun = false) ∧
    State.reset.reel.assembler ≠ .failed ∧
    ((link .needKind none none none).reel.gapLimit < (link .needKind none none none).reel.gapTicks ∧
      (link .needKind none none none).reel.assembler.collecting = true ∧
      (link .hunting none none none).reel.assembler.collecting = false ∧
      (link .needKind (some lead) none (some [1])).reel.holdingStage ≠ none) ∧
    State.reset.reel.gapTicks ≤ State.reset.reel.gapLimit ∧
    (let s := withReel { ReelLink.cold with parity := .none, assembler := .needKind, gapNext := true } (line 0);
      s.reel.gapNext = true ∧ s.reel.assembler.collecting = true ∧ s.reel.holdingStage = none ∧
      s.reel.shiftStage = none ∧ s.reel.waiting = none ∧ s.reel.overrunNext = false ∧ s.reel.parity = .none) ∧
    ∀ x : ReelLink, TalliesBounded (withReel x (line 0)) :=
  ⟨by decide, by decide, by decide, by decide, by decide, by decide, fun _ => cold_bounded _ rfl⟩

theorem witness_ReplyStarts :
    (let x := { ReelLink.cold with waiting := some [1] };
      x.waiting = some [1] ∧ x.sending = [] ∧ x.assembler = .hunting ∧ TalliesBounded (withReel x (line 0))) ∧
    (let x := { ReelLink.cold with sending := [1], charLeft := 20001 }; x.sending = 1 :: [] ∧ 20000 < x.charLeft) :=
  ⟨⟨rfl, rfl, rfl, cold_bounded _ rfl⟩, rfl, by decide⟩

/-- Characters of 176 CLK periods in a tick of 400: of five bytes three end within it, of two every one. -/
theorem witness_ReplyStarts_tick :
    let s := fun bs => withReel { ReelLink.cold with divisor := 1, sending := bs, charLeft := 40 }
      { line 0 with pos := { (line 0).pos with tickDivisor := 400 } }
    let char := 11 * (16 * 1)
    (s [1, 2, 3, 4, 5]).reel.sending = 1 :: ([2, 3] ++ 4 :: [5]) ∧
    (s [1, 2, 3, 4, 5]).reel.charLeft + [(2 : Byte), 3].length * char ≤ 400 ∧
    400 < (s [1, 2, 3, 4, 5]).reel.charLeft + ([(2 : Byte), 3].length + 1) * char ∧
    (s [1, 2]).reel.charLeft + [(2 : Byte)].length * char ≤ 400 ∧ (s [1, 2]).reel.parity ≠ .none ∧
    (after .tick (s [1, 2, 3, 4, 5])).reel.sending = [4, 5] ∧
    (after .tick (s [1, 2, 3, 4, 5])).reel.charLeft = 168 ∧ (after .tick (s [1, 2])).reel.sending = [] := by
  decide +kernel

/-- A character of 1,144 times 10 periods in its third bit, and the same with nothing sent. -/
theorem witness_ReplyStarts_line :
    let x := { ReelLink.cold with sending := [1], charLeft := 9000 }
    2 < bitsOf x.onLine.parity ∧ 360 < bitPeriods x.onLine ∧
    x.charLeft + 2 * bitPeriods x.onLine + 360 = bitsOf x.onLine.parity * bitPeriods x.onLine ∧
    ReelLink.cold.sending = [] := by decide

theorem witness_FrameRoundTrip : (characterBits .even 0xC3)[9]? = some false ∧
    (List.replicate 255 (0xC3 : Byte)).length ≤ 255 :=
  ⟨by decide, (List.length_replicate ..).le⟩

/-- An IDLE planner at a sample: with nothing in the list, with a candidate, and with a length stop before it. -/
def idling (l : List Entry) : State := { sampled 4000000 4000000 with
  track := { TrackList.cold with entries := l, nextIdent := 400 }
  planner := { StopPlanner.cold with params := { StopParams.cold with flagStop := true, lengthStop := true } } }

theorem witness_Selection :
    (let s := { settling with pos := { settling.pos with settle := 1 } };
      s.pos.sampleDue = true ∧ TrackOrdered s ∧ s.planner.state = .halting ∧
      min 255 (s.pos.settle + 1) < s.planner.params.settle) ∧
    ((sampled 20 0).pos.sampleDue = true ∧ TrackOrdered (sampled 20 0) ∧
      (sampled 20 0).pos.p < (sampled 20 0).pos.sampleBase) ∧
    (∀ l ∈ [[], [flag 310 310 .map 5000000 none]], let s := idling l; s.pos.sampleDue = true ∧
      s.planner.state = .idle ∧ s.pos.sampleBase ≤ s.pos.p ∧ 1 ≤ s.planner.params.decel) ∧
    TrackOrdered (idling [flag 310 310 .map 5000000 none]) ∧ TrackOrdered (idling []) ∧
    (idling [flag 310 310 .map 5000000 none]).listed [] (flag 310 310 .map 5000000 none) [] ∧
    (let e := flag 310 310 .map 5000000 none;
      e.kind = .flag ∧ (0xFF : BitVec 8).getLsbD e.cls.val = true ∧ e.stopped = false ∧ e.skipped = false ∧
      (4000000 : Int) < e.w + 40000 + 0) ∧
    (let o : OpenSet := ⟨7, 3900000, 100, .pending, []⟩;
      let s := { idling [flag 310 310 .map 5000000 none] with reels := { ReelTable.cold with openSet := some o } };
      s.reels.openSet = some o ∧ 0 < o.target ∧ o.lengthStop = .pending ∧
      s.pos.p < o.wStart + o.target * 10000 + s.pos.offNip ∧
      o.wStart + o.target * 10000 + s.pos.offNip < 5000000 + 40000 + 0) := by
  refine ⟨?_, ?_, by decide +kernel, ?_, ?_, rfl, by decide +kernel, by decide +kernel⟩ <;>
    (unfold TrackOrdered; decide +kernel)

/-- An ARMED, SLOWING or CREEPING planner at a sample that holds entry 0 of the list, at stop point 5,040,000, behind
another candidate or alone. -/
def holding (st : PlannerState) (l : List Entry) : State := { idling l with
  planner := { (idling l).planner with state := st, target := .entry 0 .flag } }

theorem witness_Selection_held :
    let target := flag 0 310 .map 5000000 none
    let nearer := flag 1 311 .live 4500000 none
    (∀ st ∈ [PlannerState.armed, .slowing, .creeping], ∀ l ∈ [[target], [nearer, target], []],
      let s := holding st l
      s.pos.sampleDue = true ∧ s.pos.sampleBase ≤ s.pos.p ∧ s.planner.state = st ∧ 1 ≤ s.planner.params.decel ∧
        s.targetPoint (.entry 0 .flag) = if l = [] then none else some 5040000) ∧
    (holding .slowing [target]).stillQualifies (.entry 0 .flag) ∧
    ¬ (holding .slowing []).stillQualifies (.entry 0 .flag) ∧
    Selected (holding .slowing [target]) (.entry 0 .flag) 5040000 ∧
    Selected (holding .slowing [nearer, target]) (.entry 1 .flag) 4540000 ∧
    NoneSelected (holding .slowing []) ∧ TrackOrdered (holding .slowing [nearer, target]) := by
  have hq : ∀ (l : List Entry) (e : Entry), e.kind = .flag → e.source ≠ .sensor → e.source ≠ .camera →
      e.source ≠ .confirmed → e.stopped = false → e.skipped = false → e.cls.val < 8 →
      (holding .slowing l).qualifies e := by
    intro l e h1 h2 h3 h4 h5 h6 h7
    refine ⟨.inl ⟨h1, rfl, ?_, Nat.zero_le _, ?_⟩, h5, h6, by simp [holding, idling, StopPlanner.cold]⟩
    · show (0xFF : BitVec 8).getLsbD e.cls.val = true
      have : ∀ c : Fin 8, (0xFF : BitVec 8).getLsbD c.val = true := by decide
      exact this e.cls
    · cases h : e.source with
      | map => exact .inl ⟨rfl, show (7 : BitVec 3).getLsbD 0 = true by decide⟩
      | live => exact .inr (.inl ⟨rfl, show (7 : BitVec 3).getLsbD 1 = true by decide⟩)
      | merged => exact .inr (.inr ⟨rfl, show (7 : BitVec 3).getLsbD 2 = true by decide⟩)
      | sensor => exact absurd h h2
      | camera => exact absurd h h3
      | confirmed => exact absurd h h4
  have hl : ∀ (l : List Entry) (o : OpenSet), ¬ (holding .slowing l).lengthQualifies o := by
    intro l o h
    cases h.1
  have q0 := fun l => hq l (flag 0 310 .map 5000000 none) rfl (by decide) (by decide) (by decide) rfl rfl (by decide)
  have q1 := fun l => hq l (flag 1 311 .live 4500000 none) rfl (by decide) (by decide) (by decide) rfl rfl (by decide)
  refine ⟨by decide +kernel, ⟨_, List.mem_cons_self, rfl, q0 _⟩, ?_, ⟨by decide, .inl ⟨[], _, [], rfl, q0 _, rfl,
    by decide, by simp, by simp, fun o h => absurd h (hl _ o)⟩⟩,
    ⟨by decide, .inl ⟨[], _, [flag 0 310 .map 5000000 none], rfl, q1 _, rfl, by decide, by simp, ?_,
      fun o h => absurd h (hl _ o)⟩⟩, ⟨by simp [holding, idling], fun o h => absurd h (hl _ o)⟩, ?_⟩
  · rintro ⟨e, he, -⟩
    cases he
  · intro f hf _ _
    cases List.mem_singleton.mp hf
    decide
  · unfold TrackOrdered; decide +kernel

theorem witness_RollCommands :
    (line 0).portFree ∧ (line 0).mounted = true ∧ (line 0).reels.openSet = none ∧
    (worked 0).reels.openSet ≠ none ∧ State.reset.portFree ∧ State.reset.mounted = false ∧
    State.reset.pmap.state ≠ .opened ∧ ((0xFFE1 : Word) ++ (0x7B80 : Word)).toInt = -2000000 ∧
    ((0x001E : Word) ++ (0x8481 : Word)).toInt = 2000001 := by
  unfold State.portFree; decide +kernel

theorem witness_SetStart :
    (line 0).portFree ∧ State.reset.mounted = false ∧ (line 0).mounted = true ∧ (worked 0).mounted = true ∧
    (worked 0).reels.openSet ≠ none ∧ (line 0).plan.status ≠ .valid ∧
    { line 0 with plan := plan24 }.plan.status = .valid ∧ TrackOrdered { line 0 with plan := plan24 } := by
  unfold State.portFree TrackOrdered; decide +kernel

/-- A set under a VALID plan, with room and without it. -/
theorem witness_SetEndAndChange :
    let o := fun plan : SlitPlan => (⟨7, 1000000, 0, .none, plan.reelLanes.map fun l =>
      newReel 7 l (plan.lane l) none 1000000⟩ : OpenSet)
    let crowded := { worked 1260000 with queue := queued 64 }
    (line 0).reels.openSet = none ∧ (worked 1260000).portFree ∧
    (worked 1260000).reels.openSet = some (o plan24) ∧ (worked 1260000).plan.status = .valid ∧
    { worked 1260000 with plan := SlitPlan.cold }.plan.status ≠ .valid ∧
    (worked 1260000).queue.records.length + (o plan24).reels.length ≤ 64 ∧
    64 < crowded.queue.records.length + (o plan24).reels.length ∧ crowded.queue.records.length ≤ 64 ∧
    RollConsistent (worked 1260000) ∧ TalliesBounded (worked 1260000) ∧ TrackOrdered (worked 1260000) := by
  refine ⟨rfl, rfl, rfl, by decide +kernel, by decide +kernel, by decide +kernel, by decide +kernel, by decide +kernel,
    ⟨?_, ?_, ?_, ?_⟩, cold_bounded _ rfl, worked_ordered _⟩
  · intro _ h; cases h
  · intro _; exact ⟨rfl, by decide +kernel⟩
  · intro x h; cases h; decide +kernel
  · intro h; cases h

theorem witness_StopReleaseAndCancel :
    TrackOrdered (stopping .stopped 0 5040000) ∧
    (stopping .stopped 0 5040000).portFree ∧ (stopping .stopped 0 5040000).planner.state = .stopped ∧
    (stopping .idle 0 0).planner.state = .idle ∧
    (stopping .stopped 0 0).planner.target = .entry 0 .flag ∧
    (let s := { openUnder plan24 7 0 (stopping .stopped (-10) 0) with
      planner := { StopPlanner.cold with state := .stopped, target := .length 7 } };
      s.portFree ∧ s.planner.target = .length 7 ∧ s.reels.openSet ≠ none ∧ s.pos.v < 0) := by
  unfold State.portFree TrackOrdered; decide +kernel

theorem witness_SimpleCommands :
    (line 0).portFree ∧ (withPort { LinePort.cold with arg0 := 3 } (line 0)).portFree ∧
    (withPort { LinePort.cold with arg0 := 3 } (line 0)).port.arg0.toNat = (3 : Fin 4).val ∧
    (line 0).port.arg0.toNat = 0 ∧
    (0x100B : Word).toNat % 256 ∉ [0x01, 0x02, 0x03, 0x04, 0x05, 0x06, 0x07, 0x08, 0x09, 0x0A, 0x5A] := by
  unfold State.portFree; decide +kernel

theorem witness_SingleWords :
    (line 0).portFree ∧ 0 ≤ (line 0).plan.shiftLimit ∧ (14 : Word).toNat = Table.lateRecord.code := by
  unfold State.portFree; decide +kernel

/-- TABLE_ADDR past a table, at word 0 of a record of TRACK and of another table, and at a later word. -/
theorem witness_TableDataRead :
    (line 0).portFree ∧ TalliesBounded (line 0) ∧ ListsOrdered (line 0) ∧
    (∀ x ∈ [(Table.anchors, 72), (.config, 37)], x.1.records * x.1.stride ≤ x.2) ∧
    (∀ x ∈ [(Table.track, 16368), (.anchors, 64), (.config, 0)],
      x.2 < x.1.records * x.1.stride ∧ x.2 % x.1.stride = 0) ∧
    (∀ x ∈ [(Table.track, 16383), (.anchors, 71)], x.2 < x.1.records * x.1.stride ∧ x.2 % x.1.stride ≠ 0) := by
  refine ⟨rfl, cold_bounded _ rfl, ⟨fun o h => (by cases h), fun r h => (by cases h), rfl, rfl⟩, ?_⟩
  decide +kernel

/-- CONFIG fields at the ends of their ranges, written at any time and only with no roll mounted; a lane's and a limit's;
a field of two words, of which the upper is held or stands as it is; and the writes that end in a bus fault. -/
theorem witness_TableDataWrite :
    (line 0).portFree ∧ State.reset.portFree ∧ State.reset.reels.openSet = none ∧
    (∃ f ∈ oneWordFields, f.table = .config ∧ f.addr = 3 ∧ f.writable (line 0) ∧ f.takes 1000 ∧ ¬ f.takes 999) ∧
    (∃ f ∈ oneWordFields, f.table = .config ∧ f.addr = 27 ∧ f.writable State.reset ∧ ¬ f.writable (line 0) ∧
      f.takes 1 ∧ f.takes 65535 ∧ ¬ f.takes 0) ∧
    (∃ f ∈ oneWordFields, f.table = .slitPlan ∧ f.addr = 194 ∧ f.writable State.reset ∧ ¬ f.writable (worked 0) ∧
      f.takes 1 ∧ ¬ f.takes 0) ∧
    (∃ f ∈ oneWordFields, f.table = .grading ∧ f.addr = 15 ∧ f.writable (line 0) ∧ f.takes 255 ∧ ¬ f.takes 256) ∧
    (∃ f ∈ twoWordFields, f.table = .config ∧ f.addr = 1 ∧ f.writable State.reset ∧
      f.field = .pitch ∧ f.takes 16777216 State.reset ∧ ¬ f.takes 16777217 State.reset ∧ ¬ f.takes 0 State.reset ∧
      ∀ u, State.reset.port.held ≠ some (f.field, u)) ∧
    (∃ f ∈ twoWordFields, f.table = .config ∧ f.addr = 9 ∧ f.writable State.reset ∧ f.takes 10000 State.reset ∧
      ¬ f.takes 20000 State.reset) ∧
    WriteFaults (line 0) .config 0 ∧ WriteFaults (line 0) .config 37 ∧ WriteFaults State.reset .track 0 ∧
    WriteFaults State.reset .slitPlan 5 ∧ WriteFaults (worked 0) .slitPlan 0 := by
  refine ⟨rfl, rfl, rfl, ⟨configFields[1], ?_, rfl, rfl, trivial, ?_, ?_⟩,
    ⟨configFields[9], ?_, rfl, rfl, rfl, ?_, ?_, ?_, ?_⟩, ⟨(laneFields 23)[2], ?_, rfl, rfl, rfl, ?_, ?_, ?_⟩,
    ⟨(classFields 7)[1], ?_, rfl, rfl, trivial, ?_, ?_⟩,
    ⟨configPairs[0], ?_, rfl, rfl, rfl, rfl, ?_, ?_, ?_, ?_⟩, ⟨configPairs[3], ?_, rfl, rfl, rfl, ?_, ?_⟩,
    .inr (.inr (.inr (.inr ⟨rfl, rfl, by decide⟩))), .inl (by decide), .inr (.inl (by decide)),
    .inr (.inr (.inl ⟨rfl, .inr (.inl (by decide))⟩)), .inr (.inr (.inl ⟨rfl, .inl (by decide +kernel)⟩))⟩
  all_goals first
    | exact List.mem_append_left _ (List.mem_append_left _ (List.mem_append_left _ (List.mem_append_left _
        (List.mem_append_left _ (List.getElem_mem _)))))
    | exact List.mem_append_left _ (List.mem_append_left _ (List.mem_append_left _ (List.mem_append_left _
        (List.mem_append_right _ (List.mem_flatMap.mpr ⟨23, List.mem_finRange _, List.getElem_mem _⟩)))))
    | exact List.mem_append_left _ (List.mem_append_left _ (List.mem_append_left _
        (List.mem_append_right _ (List.mem_flatMap.mpr ⟨7, List.mem_finRange _, List.getElem_mem _⟩))))
    | exact List.mem_append_left _ (List.mem_append_left _ (List.getElem_mem _))
    | (show _ ∧ _; decide)
    | (show ¬ (_ ∧ _); decide)
    | (show ¬ (_ = _); decide +kernel)
    | (intro u h; cases h)

/-- The severity of the stop filter, in its range and out of it. -/
theorem witness_TableDataWrite_filter :
    (line 0).portFree ∧ TrackOrdered (line 0) ∧
    ∃ f ∈ filterFields, f.table = .stopParams ∧ f.addr = 13 ∧ f.takes 3 ∧ ¬ f.takes 4 :=
  ⟨rfl, by unfold TrackOrdered; decide +kernel, filterFields[2], List.getElem_mem _, rfl, rfl,
    by show _ ∧ _; decide, by show ¬ (_ ∧ _); decide⟩

/-- R127, R132: a filter that takes no FLAG any more gives up the only target. -/
theorem test_filter_write_evaluates :
    let s := after (.tableDataWrite 0)
      (withPort { LinePort.cold with tableSelect := .stopParams, tableAddr := 11 } (stopping .armed 0 0))
    s.planner.state = .idle ∧ s.planner.target = .none ∧ s.planner.params.flagStop = false := by decide +kernel

/-- A read of STOP_STATE kept behind a read of a TRACK record or a command whose DS was negated early; the live error of
IDLE is 0. -/
theorem witness_Handshake_read :
    let at_ := fun w => withPort { LinePort.cold with access := some w, early := true, next := some (.read 12) } (line 0)
    (∀ x ∈ accessEndings, (at_ x.2).port.access = some x.2 ∧ (at_ x.2).grantsFive = true ∧
      (at_ x.2).port.early = true ∧ (at_ x.2).port.next = some (.read 12)) ∧
      (12 : Fin 32) ≠ 22 ∧ StopErrorIs (at_ .trackRead) 0 ∧ StopErrorIs (stopping .armed 0 5040100) 100 := by
  refine ⟨by decide +kernel, by decide, .inl ⟨rfl, rfl⟩, .inr (.inl ⟨by decide, 5040000, ?_, ?_⟩)⟩ <;>
    decide +kernel

/-- SLOWING and HALTING, as STOP_STATE shows them, with a target of kind FLAG. -/
theorem test_stop_state_read :
    let at_ := fun (s : State) (w : Fin 32) => (after .trackRecordLatch (withPort { LinePort.cold with
      ds := true, access := some .trackRead, early := true, next := some (.read w) } s)).port.dout
    at_ (stopping .slowing 500 4900000) 12 = some 0x12 ∧ at_ (stopping .halting 500 4900000) 12 = some 0x14 ∧
      at_ (stopping .slowing 500 5039900) 13 = some 0xFF9C ∧ at_ (stopping .slowing 500 0) 10 = some 500 := by
  decide +kernel

theorem witness_Handshake :
    (line 0).portFree ∧ accessOf (.registerWrite 4 7) = some (.write 4 7) ∧
    (waiting .trackRead (line 0)).port.access ≠ none ∧ ((2 : Fin 32).val ∈ [2, 24, 25]) ∧
    (∀ y ∈ accessEndings, ∀ n ∈ [none, some (BusAccess.write 4 7)],
      let x := { LinePort.cold with access := some y.2, early := true, next := n };
      let s := withPort x (line 0);
      s.port.access = some y.2 ∧ s.grantsFive = true ∧ s.port.early = true ∧ s.port.next = n) := by
  unfold State.portFree; decide +kernel

/-- A state that meets every invariant, with entries, anchors, a set open and the offset valid; and its step. -/
def living : State := { worked 1215000 with
  pending := [.commit], tracker := (tracked 211 0).tracker, align := roll.align }

theorem living_joined : MapJoined living := by
  have hi : ∀ i, i < 3 → (∀ r, living.pmap.records[i]? = some r →
      (living.track.entries.filter fun e => e.mapIndex == some i).length = if r.status = .released then 1 else 0) := by
    intro i h r hr
    interval_cases i <;> (cases hr; decide +kernel)
  refine ⟨fun i r hr => hi i ?_ r hr, ?_, fun h => absurd h (by decide)⟩
  · exact (List.getElem?_eq_some_iff.mp hr).1
  · show ∀ e ∈ living.track.entries, ∀ i, e.mapIndex = some i → i < 3
    intro e he i h
    have : ∀ e ∈ living.track.entries, ∀ i ∈ e.mapIndex, i < 3 := by decide +kernel
    exact this e he i h

theorem living_lists : ListsOrdered living := by
  refine ⟨?_, fun r h => (by cases h), rfl, rfl⟩
  intro o h
  cases h
  have : ∀ r ∈ living.openReels, r.flags = [] := by decide +kernel
  intro r hr
  rw [ReelRecord.listOrdered, this r hr]
  exact ⟨Nat.zero_le _, List.Pairwise.nil⟩

theorem witness_Invariants :
    PositionBounded living ∧ TrackOrdered living ∧ TalliesBounded living ∧ RollConsistent living ∧
    OffsetTracked living ∧ WithinCapacity living ∧ ShiftBounded living ∧ GeometryOrdered living ∧
    MapJoined living ∧ AnchorsOrdered living ∧ ListsOrdered living ∧
    CharacterTimed (withReel { ReelLink.cold with sending := [1], charLeft := 11440 } living) ∧ ∃ t, step living = .next t := by
  refine ⟨?_, worked_ordered 1215000, cold_bounded _ rfl, ⟨?_, ?_, ?_, ?_⟩, ⟨by decide, 136, rfl, by decide⟩, ?_, ?_,
    ?_, living_joined, ?_, living_lists, ⟨by decide, fun _ => by decide⟩, _, rfl⟩
  · unfold PositionBounded; decide +kernel
  · intro _ h; cases h
  · intro _; exact ⟨rfl, by decide +kernel⟩
  · intro x h; cases h; decide +kernel
  · intro h; cases h
  · unfold WithinCapacity; decide +kernel
  · unfold ShiftBounded; decide +kernel
  · unfold GeometryOrdered; decide +kernel
  · unfold AnchorsOrdered; decide +kernel

end Sys2Proof.Tests
end

