-- ==== Sys2Proof/Proofs/Frame.lean ====
section
/-! SUPPORT. What each command touches: one lemma per command, from the lemmas of the shared operations. Settles O3. -/

-- Kernel checks run beside the elaboration; a lemma marked `Elab.async false` waits for those before it, so that few of
-- them, each on a thread of its own, are under way at a time.

namespace Sys2Proof.Machine

/-! ### By blocks -/

/-- A part is named, or it is the same. -/
def Kept (ps : List Part) (s t : State) (p : Part) : Prop := p ∈ ps ∨ Same s t p

set_option Elab.async false in
theorem Kept.named {ps : List Part} {s t : State} {p : Part} (h : p ∈ ps := by decide) : Kept ps s t p := .inl h

theorem Kept.same {ps : List Part} {s t : State} {p : Part} (h : Same s t p) : Kept ps s t p := .inr h

theorem Same.refl (s : State) (p : Part) : Same s s p := Touches.refl [] s p List.not_mem_nil

theorem kept_pins {ps : List Part} {s t : State} (h : t.pins = s.pins) :
    Kept ps s t .pins :=
  have same (p : Part) : Same s (s.setPins t.pins) p := h ▸ Same.refl s p
  .inr (same .pins)

theorem kept_pos {ps : List Part} {s t : State} (h : t.pos = s.pos) :
    Kept ps s t .encoder ∧ Kept ps s t .position ∧ Kept ps s t .positionConfig ∧ Kept ps s t .roll ∧ Kept ps s t .timebase ∧ Kept ps s t .speed ∧ Kept ps s t .settle :=
  have same (p : Part) : Same s (s.setPos t.pos) p := h ▸ Same.refl s p
  ⟨.inr (same .encoder), .inr (same .position), .inr (same .positionConfig), .inr (same .roll), .inr (same .timebase), .inr (same .speed), .inr (same .settle)⟩

theorem kept_comps {ps : List Part} {s t : State} (h : t.comps = s.comps) :
    Kept ps s t .strobeChannel ∧ Kept ps s t .channels :=
  have same (p : Part) : Same s (s.setComps t.comps) p := h ▸ Same.refl s p
  ⟨.inr (same .strobeChannel), .inr (same .channels)⟩

theorem kept_pmap {ps : List Part} {s t : State} (h : t.pmap = s.pmap) :
    Kept ps s t .mapHeader ∧ Kept ps s t .mapRecords ∧ Kept ps s t .mapConfig ∧ Kept ps s t .withheld :=
  have same (p : Part) : Same s (s.setPmap t.pmap) p := h ▸ Same.refl s p
  ⟨.inr (same .mapHeader), .inr (same .mapRecords), .inr (same .mapConfig), .inr (same .withheld)⟩

theorem kept_align {ps : List Part} {s t : State} (h : t.align = s.align) :
    Kept ps s t .anchors ∧ Kept ps s t .writeQueue ∧ Kept ps s t .sightings ∧ Kept ps s t .yields ∧ Kept ps s t .alignConfig :=
  have same (p : Part) : Same s (s.setAlign t.align) p := h ▸ Same.refl s p
  ⟨.inr (same .anchors), .inr (same .writeQueue), .inr (same .sightings), .inr (same .yields), .inr (same .alignConfig)⟩

theorem kept_diq {ps : List Part} {s t : State} (h : t.diq = s.diq) :
    Kept ps s t .messages ∧ Kept ps s t .resume ∧ Kept ps s t .lastResult :=
  have same (p : Part) : Same s (s.setDiq t.diq) p := h ▸ Same.refl s p
  ⟨.inr (same .messages), .inr (same .resume), .inr (same .lastResult)⟩

theorem kept_tracker {ps : List Part} {s t : State} (h : t.tracker = s.tracker) :
    Kept ps s t .offset ∧ Kept ps s t .offsetConfig ∧ Kept ps s t .history :=
  have same (p : Part) : Same s (s.setTracker t.tracker) p := h ▸ Same.refl s p
  ⟨.inr (same .offset), .inr (same .offsetConfig), .inr (same .history)⟩

theorem kept_track {ps : List Part} {s t : State} (h : t.track = s.track) :
    Kept ps s t .entries ∧ Kept ps s t .entryCounters ∧ Kept ps s t .late ∧ Kept ps s t .mergeWindow :=
  have same (p : Part) : Same s (s.setTrack t.track) p := h ▸ Same.refl s p
  ⟨.inr (same .entries), .inr (same .entryCounters), .inr (same .late), .inr (same .mergeWindow)⟩

theorem kept_plan {ps : List Part} {s t : State} (h : t.plan = s.plan) :
    Kept ps s t .lanes ∧ Kept ps s t .shiftLimit ∧ Kept ps s t .webShift :=
  have same (p : Part) : Same s (s.setPlan t.plan) p := h ▸ Same.refl s p
  ⟨.inr (same .lanes), .inr (same .shiftLimit), .inr (same .webShift)⟩

theorem kept_reels {ps : List Part} {s t : State} (h : t.reels = s.reels) :
    Kept ps s t .openSet ∧ Kept ps s t .nextSet ∧ Kept ps s t .grading ∧ Kept ps s t .indications :=
  have same (p : Part) : Same s (s.setReels t.reels) p := h ▸ Same.refl s p
  ⟨.inr (same .openSet), .inr (same .nextSet), .inr (same .grading), .inr (same .indications)⟩

theorem kept_queue {ps : List Part} {s t : State} (h : t.queue = s.queue) :
    Kept ps s t .completed ∧ Kept ps s t .roomWanted :=
  have same (p : Part) : Same s (s.setQueue t.queue) p := h ▸ Same.refl s p
  ⟨.inr (same .completed), .inr (same .roomWanted)⟩

theorem kept_planner {ps : List Part} {s t : State} (h : t.planner = s.planner) :
    Kept ps s t .plannerState ∧ Kept ps s t .setAside ∧ Kept ps s t .stopRecord ∧ Kept ps s t .stopParams :=
  have same (p : Part) : Same s (s.setPlanner t.planner) p := h ▸ Same.refl s p
  ⟨.inr (same .plannerState), .inr (same .setAside), .inr (same .stopRecord), .inr (same .stopParams)⟩

theorem kept_tally {ps : List Part} {s t : State} (h : t.tally = s.tally) :
    Kept ps s t .liveTallies ∧ Kept ps s t .snapshot ∧ Kept ps s t .autosnap :=
  have same (p : Part) : Same s (s.setTally t.tally) p := h ▸ Same.refl s p
  ⟨.inr (same .liveTallies), .inr (same .snapshot), .inr (same .autosnap)⟩

set_option Elab.async false in
theorem kept_events {ps : List Part} {s t : State} (h : t.events = s.events) :
    Kept ps s t .flags ∧ Kept ps s t .enables :=
  have same (p : Part) : Same s (s.setEvents t.events) p := h ▸ Same.refl s p
  ⟨.inr (same .flags), .inr (same .enables)⟩

theorem kept_port {ps : List Part} {s t : State} (h : t.port = s.port) :
    Kept ps s t .result ∧ Kept ps s t .args ∧ Kept ps s t .posLatch ∧ Kept ps s t .window ∧ Kept ps s t .handshake :=
  have same (p : Part) : Same s (s.setPort t.port) p := h ▸ Same.refl s p
  ⟨.inr (same .result), .inr (same .args), .inr (same .posLatch), .inr (same .window), .inr (same .handshake)⟩

theorem kept_link {ps : List Part} {s t : State} (h : t.link = s.link) :
    Kept ps s t .link ∧ Kept ps s t .holdLimit :=
  have same (p : Part) : Same s (s.setLink t.link) p := h ▸ Same.refl s p
  ⟨.inr (same .link), .inr (same .holdLimit)⟩

theorem kept_reel {ps : List Part} {s t : State} (h : t.reel = s.reel) :
    Kept ps s t .receiver ∧ Kept ps s t .transmitter ∧ Kept ps s t .reelConfig ∧ Kept ps s t .earlier :=
  have same (p : Part) : Same s (s.setReel t.reel) p := h ▸ Same.refl s p
  ⟨.inr (same .receiver), .inr (same .transmitter), .inr (same .reelConfig), .inr (same .earlier)⟩

theorem kept_pending {ps : List Part} {s t : State} (h : t.pending = s.pending) :
    Kept ps s t .pending :=
  have same (p : Part) : Same s (s.setPending t.pending) p := h ▸ Same.refl s p
  .inr (same .pending)

/-- What a command touches, block by block: a block is unchanged, whole, or each of its parts is named or the same. -/
theorem touches_of_blocks {ps : List Part} {s t : State}
    (pins : Kept ps s t .pins := by exact kept_pins rfl)
    (pos : Kept ps s t .encoder ∧ Kept ps s t .position ∧ Kept ps s t .positionConfig ∧ Kept ps s t .roll ∧ Kept ps s t .timebase ∧ Kept ps s t .speed ∧ Kept ps s t .settle := by exact kept_pos rfl)
    (comps : Kept ps s t .strobeChannel ∧ Kept ps s t .channels := by exact kept_comps rfl)
    (pmap : Kept ps s t .mapHeader ∧ Kept ps s t .mapRecords ∧ Kept ps s t .mapConfig ∧ Kept ps s t .withheld := by exact kept_pmap rfl)
    (align : Kept ps s t .anchors ∧ Kept ps s t .writeQueue ∧ Kept ps s t .sightings ∧ Kept ps s t .yields ∧ Kept ps s t .alignConfig := by exact kept_align rfl)
    (diq : Kept ps s t .messages ∧ Kept ps s t .resume ∧ Kept ps s t .lastResult := by exact kept_diq rfl)
    (tracker : Kept ps s t .offset ∧ Kept ps s t .offsetConfig ∧ Kept ps s t .history := by exact kept_tracker rfl)
    (track : Kept ps s t .entries ∧ Kept ps s t .entryCounters ∧ Kept ps s t .late ∧ Kept ps s t .mergeWindow := by exact kept_track rfl)
    (plan : Kept ps s t .lanes ∧ Kept ps s t .shiftLimit ∧ Kept ps s t .webShift := by exact kept_plan rfl)
    (reels : Kept ps s t .openSet ∧ Kept ps s t .nextSet ∧ Kept ps s t .grading ∧ Kept ps s t .indications := by exact kept_reels rfl)
    (queue : Kept ps s t .completed ∧ Kept ps s t .roomWanted := by exact kept_queue rfl)
    (planner : Kept ps s t .plannerState ∧ Kept ps s t .setAside ∧ Kept ps s t .stopRecord ∧ Kept ps s t .stopParams := by exact kept_planner rfl)
    (tally : Kept ps s t .liveTallies ∧ Kept ps s t .snapshot ∧ Kept ps s t .autosnap := by exact kept_tally rfl)
    (events : Kept ps s t .flags ∧ Kept ps s t .enables := by exact kept_events rfl)
    (port : Kept ps s t .result ∧ Kept ps s t .args ∧ Kept ps s t .posLatch ∧ Kept ps s t .window ∧ Kept ps s t .handshake := by exact kept_port rfl)
    (link : Kept ps s t .link ∧ Kept ps s t .holdLimit := by exact kept_link rfl)
    (reel : Kept ps s t .receiver ∧ Kept ps s t .transmitter ∧ Kept ps s t .reelConfig ∧ Kept ps s t .earlier := by exact kept_reel rfl)
    (pending : Kept ps s t .pending := by exact kept_pending rfl)
    : Touches ps s t := by
  obtain ⟨encoder, position, positionConfig, roll, timebase, speed, settle⟩ := pos
  obtain ⟨strobeChannel, channels⟩ := comps
  obtain ⟨mapHeader, mapRecords, mapConfig, withheld⟩ := pmap
  obtain ⟨anchors, writeQueue, sightings, yields, alignConfig⟩ := align
  obtain ⟨messages, resume, lastResult⟩ := diq
  obtain ⟨offset, offsetConfig, history⟩ := tracker
  obtain ⟨entries, entryCounters, late, mergeWindow⟩ := track
  obtain ⟨lanes, shiftLimit, webShift⟩ := plan
  obtain ⟨openSet, nextSet, grading, indications⟩ := reels
  obtain ⟨completed, roomWanted⟩ := queue
  obtain ⟨plannerState, setAside, stopRecord, stopParams⟩ := planner
  obtain ⟨liveTallies, snapshot, autosnap⟩ := tally
  obtain ⟨flags, enables⟩ := events
  obtain ⟨result, args, posLatch, window, handshake⟩ := port
  obtain ⟨link, holdLimit⟩ := link
  obtain ⟨receiver, transmitter, reelConfig, earlier⟩ := reel
  intro p hp
  exact (Part.rec (motive := Kept ps s t) pins encoder position positionConfig roll timebase speed settle
    strobeChannel channels mapHeader mapRecords mapConfig withheld anchors writeQueue sightings yields alignConfig
    messages resume lastResult offset offsetConfig history entries entryCounters late mergeWindow lanes shiftLimit
    webShift openSet nextSet grading indications completed roomWanted plannerState setAside stopRecord stopParams
    liveTallies snapshot autosnap flags enables result args posLatch window handshake link holdLimit receiver
    transmitter reelConfig earlier pending p).resolve_left hp

/-! ### Position Unit -/

theorem acceptPair_touches (a b : Bool) (s : State) : Touches [.pins, .encoder] s (acceptPair a b s) :=
  touches_of_blocks (pins := .named)
    (pos := ⟨.named, .same ⟨rfl, rfl⟩, .same ⟨rfl, rfl, rfl, rfl, rfl, rfl, rfl, rfl⟩, .same rfl, .same ⟨rfl, rfl, rfl,
      rfl⟩, .same ⟨rfl, rfl, rfl⟩, .same rfl⟩)

theorem setPosition_touches (p f : Int) (s : State) :
    Touches [.position] s (s.setPos { s.pos with p := p, frac := f }) :=
  touches_of_blocks
    (pos := ⟨.same ⟨rfl, rfl⟩, .named, .same ⟨rfl, rfl, rfl, rfl, rfl, rfl, rfl, rfl⟩, .same rfl, .same ⟨rfl, rfl, rfl,
      rfl⟩, .same ⟨rfl, rfl, rfl⟩, .same rfl⟩)

/-- R2, R3: a count writes the accumulator alone. -/
theorem counted_eq (x : PositionUnit) (d : Int) :
    (x.counted d).1 = { x with p := (x.counted d).1.p, frac := (x.counted d).1.frac } := by
  unfold PositionUnit.counted
  dsimp only
  split
  · rfl
  · split <;> rfl

theorem handOnP_touches (old : Int) (s : State) :
    Touches ([.strobeChannel, .channels, .history, .flags, .yields] ++ Part.planning) s (handOnP old s) := by
  unfold handOnP
  refine touches_ite (fun _ => Touches.refl _ s) fun _ => ?_
  refine Touches.trans (ps := [.strobeChannel, .channels, .history, .flags] ++ Part.planning) ?_ (lapseRelease_touches _)
  refine Touches.trans (ps := [.strobeChannel, .channels, .history, .flags]) ?_ (positionTest_touches _)
  exact touches_ite (fun _ => testComparators_touches s) fun _ => Touches.refl _ s

theorem count_touches (d : Int) (s : State) :
    Touches ([.position, .strobeChannel, .channels, .history, .flags, .yields] ++ Part.planning) s (count d s) := by
  have moved : Touches [.position] s (s.setPos (s.pos.counted d).1) := by
    rw [counted_eq]
    exact setPosition_touches _ _ s
  exact (moved.trans (rs := [.position, .flags]) (raiseIf_touches _ _ _)).trans (handOnP_touches _ _)

theorem transition_touches (a b : Bool) (s : State) :
    Touches ([.pins, .encoder, .position, .strobeChannel, .channels, .history, .yields] ++ Part.counting ++ Part.planning)
      s (transition a b s) := by
  unfold transition
  split
  · exact (acceptPair_touches a b s).mono
  · exact (acceptPair_touches a b s).trans (count_touches _ _)
  · exact (acceptPair_touches a b s).trans (count_touches _ _)
  · exact ((acceptPair_touches a b s).trans (rs := [.pins, .encoder] ++ Part.counting) (countTotal_touches _ _ _)).trans
      (raise_touches _ _)

theorem ticked_holdLimit (x : InspectionLink) : x.ticked.holdLimit = x.holdLimit := by
  unfold InspectionLink.ticked
  split <;> rfl

theorem tick_touches (s : State) :
    Touches [.timebase, .strobeChannel, .channels, .link, .receiver, .transmitter] s (tick s) :=
  touches_of_blocks
    (pos := ⟨.same ⟨rfl, rfl⟩, .same ⟨rfl, rfl⟩, .same ⟨rfl, rfl, rfl, rfl, rfl, rfl, rfl, rfl⟩, .same rfl, .named,
      .same ⟨rfl, rfl, rfl⟩, .same rfl⟩) (comps := ⟨.named, .named⟩) (link := ⟨.named, .same (ticked_holdLimit s.link)⟩)
    (reel := ⟨.named, .named, .same ⟨rfl, rfl, rfl⟩, .same rfl⟩)

theorem endPulse_touches (i : Fin 4) (s : State) : Touches [.strobeChannel, .channels] s (endPulse i s) :=
  touches_ite (fun _ => setAnyChannel_touches _ i s) fun _ => Touches.refl _ s

theorem measure_touches (s : State) : Touches [.timebase, .speed, .settle, .flags] s (measure s) := by
  have sampled : Touches [.timebase, .speed, .settle] s (s.setPos s.pos.sampled) :=
    touches_of_blocks
      (pos := ⟨.same ⟨rfl, rfl⟩, .same ⟨rfl, rfl⟩, .same ⟨rfl, rfl, rfl, rfl, rfl, rfl, rfl, rfl⟩, .same rfl, .named,
        .named, .named⟩)
  exact sampled.trans (raiseIf_touches _ _ _)

set_option Elab.async false in
theorem speedSample_touches (s : State) :
    Touches ([.timebase, .speed, .stopRecord, .mapRecords] ++ Part.counting ++ Part.planning) s (speedSample s) :=
  touches_ite (fun _ => ((measure_touches s).trans (rs := [.timebase, .speed, .stopRecord] ++ Part.counting ++ Part.planning)
    (evaluateAtSample_touches _)).trans (declareMissed_touches _)) fun _ => Touches.refl _ s

/-! ### The head of the DIQ (R73 to R75) -/

/-- A command changed nothing, or took the head from the DIQ before all else that it did. -/
def TookHead (ps : List Part) (s t : State) : Prop := t = s ∨ Touches ps (popMessage s) t

theorem TookHead.refl (ps : List Part) (s : State) : TookHead ps s s := .inl rfl

theorem TookHead.touches {ps rs : List Part} {s t : State} (h : TookHead ps s t)
    (hp : ([.messages, .link] : List Part).all (rs.contains ·) = true := by decide)
    (hq : ps.all (rs.contains ·) = true := by decide) : Touches rs s t := by
  rcases h with rfl | h
  · exact Touches.refl _ _
  · exact (popMessage_touches s).trans h hp hq

theorem tookHead_ite {ps : List Part} {s t u : State} {c : Prop} [Decidable c] (h : c → TookHead ps s t)
    (k : ¬c → TookHead ps s u) : TookHead ps s (if c then t else u) := by
  split
  · exact h ‹_›
  · exact k ‹_›

theorem discardMessage_tookHead (r : ResultCode) (s : State) :
    TookHead (.lastResult :: Part.counting) s (discardMessage r s) :=
  .inr ((countTotal_touches _ _ _).trans (setLastResult_touches r _))

theorem TookHead.mono {ps qs : List Part} {s t : State} (h : TookHead ps s t)
    (hsub : ps.all (qs.contains ·) = true := by decide) : TookHead qs s t := by
  rcases h with rfl | h
  · exact .inl rfl
  · exact .inr (h.mono hsub)

/-! ### Track List -/

/-- A re-placement with what it hands on (R45, R29). -/
theorem replaced_touches (e : Entry) (h : Bool) (s : State) :
    Touches Part.moving s (completeOp h s (replaceEntry e s)) :=
  (replaceEntry_touches e s).trans (completeOp_touches h s _)

theorem knifePassage_touches (s : State) : Touches Part.moving s (knifePassage s) := by
  unfold knifePassage
  split
  · exact Touches.refl _ s
  · split
    · exact Touches.refl _ s
    · exact touches_ite (fun _ => replaced_touches _ _ s) fun _ =>
        (setEntries_touches _ s).trans (completeOp_touches false s _)

theorem commitDue_touches (s : State) : Touches Part.moving s (commitDue s) := by
  unfold commitDue
  split
  · exact Touches.refl _ s
  · split
    · exact Touches.refl _ s
    · refine touches_ite (fun _ => replaced_touches _ _ s) fun _ => ?_
      exact ((takeEntry_touches _ s).trans (rs := [.entries, .openSet, .indications, .mapRecords] ++ Part.counting)
        (commitEntry_touches _ _)).trans (completeOp_touches true s _)

theorem walkStep_touches (s : State) : Touches (.yields :: Part.moving) s (walkStep s) := by
  unfold walkStep
  refine touches_ite (fun _ => ?_) fun _ => Touches.refl _ s
  split
  · exact Touches.refl _ s
  · exact (replaced_touches _ _ s).trans (settleYields_touches _)

theorem confirmation_touches (s : State) : Touches (.writeQueue :: Part.moving) s (confirmation s) := by
  unfold confirmation
  split <;> try exact Touches.refl _ s
  unfold confirmEntry
  split
  · exact (popWrite_touches s).mono
  · exact (((popWrite_touches s).trans (rs := [.writeQueue, .entries]) (takeEntry_touches _ _)).trans
      (rs := .writeQueue :: Part.moving) (placeMoved_touches _ _)).trans (completeOp_touches true s _)

theorem marking_touches (s : State) : Touches [.entries, .writeQueue] s (marking s) := by
  unfold marking
  split <;> try exact Touches.refl _ s
  exact (popWrite_touches s).trans (setEntries_touches _ _)

theorem placedItem_touches (it : Item) (h : Bool) (before s : State) :
    Touches Part.placing s (completeOp h before (placeItem it s).1) :=
  (placeItem_touches it s).trans (completeOp_touches h before _)

theorem liveSplicePlacement_touches (s : State) : Touches (.writeQueue :: Part.placing) s (liveSplicePlacement s) := by
  unfold liveSplicePlacement
  split <;> try exact Touches.refl _ s
  refine (popWrite_touches s).trans (qs := Part.placing) ?_
  unfold placeLiveSplice
  refine touches_ite (fun _ => (countTotal_touches _ _ _).mono) fun _ => touches_ite (fun _ => ?_) fun _ => ?_
  · exact (lateItem_touches _ _ _ _ _).mono
  · exact placedItem_touches _ _ _ _

theorem placeDetection_touches (it : Item) (s : State) : Touches (.lastResult :: Part.placing) s (placeDetection it s) := by
  have result (r : ResultCode) {u : State} (h : Touches Part.placing s u) :
      Touches (.lastResult :: Part.placing) s (setLastResult r u) := h.trans (setLastResult_touches r _)
  unfold placeDetection
  refine touches_ite (fun _ => result _ (countTotal_touches _ _ _).mono) fun _ =>
    touches_ite (fun _ => result _ (lateItem_touches _ _ _ _ _).mono) fun _ => ?_
  split
  · refine result _ (Touches.trans (ps := Part.moving) ?_ (completeOp_touches true s _))
    exact ((takeEntry_touches _ s).trans (rs := Part.moving) (placeMoved_touches _ _)).trans (countTotal_touches _ _ _)
  · refine result _ (Touches.trans (ps := Part.placing) ?_ (completeOp_touches _ s _))
    exact touches_ite (fun _ => (placeItem_touches it s).trans (countTotal_touches _ _ _))
      fun _ => (placeItem_touches it s).mono

theorem detection_tookHead (s : State) : TookHead (.lastResult :: Part.placing) s (detection s) := by
  unfold detection
  split <;> try exact .refl _ s
  exact tookHead_ite (fun _ => (discardMessage_tookHead _ s).mono) fun _ => tookHead_ite
    (fun _ => (discardMessage_tookHead _ s).mono) fun _ => tookHead_ite
    (fun _ => .inr ((grantDetection_touches _).trans (placeDetection_touches _ _))) fun _ => .refl _ s

set_option Elab.async false in
theorem detection_touches (s : State) : Touches (Part.serving ++ Part.placing) s (detection s) :=
  (detection_tookHead s).touches

theorem mapRelease_touches (s : State) : Touches Part.placing s (mapRelease s) := by
  have counted {u : State} (h : Touches Part.placing (grantRelease s) u) :
      Touches Part.placing (grantRelease s) (countTotal .released 1 u) := h.trans (countTotal_touches _ _ _)
  have completed {u : State} (h : Touches Part.placing (grantRelease s) u) :
      Touches Part.placing (grantRelease s) (completeOp true (grantRelease s) u) := h.trans (completeOp_touches _ _ _)
  unfold mapRelease
  refine touches_ite (fun _ => ?_) fun _ => Touches.refl _ s
  split
  · exact Touches.refl _ s
  · split
    · exact Touches.refl _ s
    · refine (grantRelease_touches s).trans (qs := Part.placing) ?_
      unfold releaseRecord
      refine touches_ite (fun _ => counted (lateItem_touches _ _ _ _ _).mono) fun _ => ?_
      have placed (it : Item) : Touches Part.placing (grantRelease s) (placeItem it (grantRelease s)).1 :=
        (placeItem_touches it _).mono
      dsimp only
      split
      · exact completed (counted ((placed _).trans (setStatus_touches _ _ _)))
      · exact completed (counted (placed _))
      · exact counted (placed _)
      · exact placed _
      · exact (placed _).trans (setWithheld_touches _ _)

theorem dropWaitingSighting_tookHead (s : State) :
    TookHead (.lastResult :: Part.counting) s (dropWaitingSighting s) :=
  tookHead_ite (fun _ => discardMessage_tookHead _ s) fun _ => .refl _ s

/-- The blocks that ROLL END resets beside the list (R13, R47, R61, R70, R147). -/
theorem unmount_touches (s : State) :
    Touches [.roll, .mapHeader, .mapRecords, .writeQueue, .sightings, .yields, .plannerState, .setAside, .strobeChannel,
        .result] s
      (setResult .ok (((((s.setPmap s.pmap.emptied).setAlign
        { s.align with queue := [], latch := none, lastGuarded := none, yields := Yields.none }).setPlanner
        { s.planner.idled with setAside := none }).setComps
        { s.comps with ch0 := { s.comps.ch0 with run := false, out := false, outTicked := false } }).setPos
        { s.pos with roll := .noRoll })) :=
  touches_of_blocks
    (pos := ⟨.same ⟨rfl, rfl⟩, .same ⟨rfl, rfl⟩, .same ⟨rfl, rfl, rfl, rfl, rfl, rfl, rfl, rfl⟩, .named, .same ⟨rfl,
      rfl, rfl, rfl⟩, .same ⟨rfl, rfl, rfl⟩, .same rfl⟩) (comps := ⟨.named, .same ⟨rfl, rfl, rfl⟩⟩)
    (pmap := ⟨.named, .named, .same ⟨rfl, rfl⟩, .same rfl⟩)
    (align := ⟨.same ⟨rfl, rfl⟩, .named, .named, .named, .same ⟨rfl, rfl, rfl⟩⟩)
    (planner := ⟨.named, .named, .same rfl, .same rfl⟩)
    (port := ⟨.named, .same ⟨rfl, rfl, rfl, rfl⟩, .same rfl, .same ⟨rfl, rfl, rfl, rfl⟩, .same ⟨rfl, rfl, rfl, rfl, rfl,
      rfl, rfl⟩⟩)

theorem emptyRoll_dropped_touches (s : State) :
    Touches [.roll, .entries, .withheld, .mapHeader, .mapRecords, .writeQueue, .sightings, .yields, .plannerState, .setAside,
      .strobeChannel, .result, .liveTallies, .flags] (dropWaitingSighting s) (emptyRoll s) := by
  have emptied (s : State) : Touches ([.entries, .withheld] ++ Part.counting) s
      (signalRoom s.track.entries.length (setEntries [] (countTotal .unwound s.track.entries.length s))) :=
    ((countTotal_touches _ _ s).trans (rs := .entries :: Part.counting) (setEntries_touches _ _)).trans
      (signalRoom_touches _ _)
  exact (emptied _).trans (unmount_touches _)

theorem emptyRoll_touches (s : State) :
    Touches ([.roll, .entries, .withheld, .mapHeader, .mapRecords, .writeQueue, .sightings, .yields, .plannerState,
      .setAside, .strobeChannel, .result] ++ Part.serving ++ Part.counting) s (emptyRoll s) :=
  ((dropWaitingSighting_tookHead s).touches (rs := Part.serving ++ Part.counting)).trans (emptyRoll_dropped_touches s)

/-- R23, R144, R145: a mark written for an access of class 5. -/
theorem markWritten_touches (f : Entry → Entry) (s : State) :
    Touches ([.entries, .setAside, .yields, .result] ++ Part.planning) s (setResult .ok (writeMark f (grantAccess s))) :=
  ((grantAccess_touches s).trans (rs := [.entries, .setAside, .yields] ++ Part.planning) (writeMark_touches f _)).trans
    (setResult_touches _ _)

/-! ### Sightings and messages -/

/-- R60: what a command of a sighting comes to: a count or a message discarded; a sighting latched; or one taken, with two
places free in the write queue. Only with a roll mounted or a sighting latched does more than the first come about. -/
def Sighted (s t : State) : Prop :=
  Touches (Part.serving ++ Part.counting) s t ∨
  (s.mounted = true ∨ s.align.latch ≠ none) ∧
    (Touches [.sightings] s t ∨ ∃ w src u v, s.takesSighting = true ∧ Touches [.sightings, .messages, .link] s v ∧
      Touches [.lastResult] (takeSighting w src u v) t)

theorem Sighted.touches {s t : State} (h : Sighted s t) : Touches (Part.serving ++ Part.sighting) s t := by
  rcases h with h | ⟨_, h | ⟨w, src, u, v, _, h, k⟩⟩
  · exact h.mono
  · exact h.mono
  · exact (h.trans (rs := [.messages, .link] ++ Part.sighting) (takeSighting_touches w src u v)).trans k

theorem sensorEdge_sighted (s : State) : Sighted s (sensorEdge s) := by
  unfold sensorEdge
  split
  · rename_i h
    unfold sensorSighting
    split
    · exact .inl (countTotal_touches _ _ s).mono
    · split
      · exact .inr ⟨.inl h.1, .inr ⟨_, _, _, s, ‹_›, Touches.refl _ s, Touches.refl _ _⟩⟩
      · exact .inr ⟨.inl h.1, .inl (setLatch_touches _ s)⟩
  · exact .inl (Touches.refl _ s)

theorem takeLatched_sighted (s : State) : Sighted s (takeLatched s) := by
  unfold takeLatched
  split
  · exact .inl (Touches.refl _ s)
  · rename_i w hw
    split
    · exact .inr ⟨.inr (by simp [hw]), .inr ⟨_, _, _, _, ‹_›, (setLatch_touches none s).mono, Touches.refl _ _⟩⟩
    · exact .inl (Touches.refl _ s)

theorem spliceSighting_sighted (s : State) : Sighted s (spliceSighting s) := by
  unfold spliceSighting
  split <;> try exact .inl (Touches.refl _ s)
  split
  · rename_i hm
    unfold cameraSighting
    split
    · exact .inl ((popMessage_touches s).trans (setLastResult_touches _ _))
    · split
      · exact .inl (Touches.refl _ s)
      · rename_i hh
        have free : s.takesSighting = true := by
          simp only [State.holdsCamera, Bool.or_eq_true, Bool.not_eq_true', not_or, Bool.not_eq_false] at hh
          exact hh.1
        exact .inr ⟨.inl hm, .inr ⟨_, _, _, _, free, (popMessage_touches s).mono, setLastResult_touches _ _⟩⟩
  · exact .inl (discardMessage_touches _ s)

theorem sensorEdge_touches (s : State) : Touches Part.sighting s (sensorEdge s) := by
  unfold sensorEdge sensorSighting
  exact touches_ite (fun _ => touches_ite (fun _ => (countTotal_touches _ _ s).mono) fun _ =>
    touches_ite (fun _ => takeSighting_touches _ _ _ s) fun _ => (setLatch_touches _ s).mono) fun _ => Touches.refl _ s

theorem takeLatched_touches (s : State) : Touches Part.sighting s (takeLatched s) := by
  unfold takeLatched
  split
  · exact Touches.refl _ s
  · exact touches_ite (fun _ => (setLatch_touches none s).trans (takeSighting_touches _ _ _ _)) fun _ => Touches.refl _ s

theorem spliceSighting_touches (s : State) : Touches (Part.serving ++ Part.sighting) s (spliceSighting s) :=
  (spliceSighting_sighted s).touches

theorem spliceSighting_tookHead (s : State) : TookHead (.lastResult :: Part.sighting) s (spliceSighting s) := by
  unfold spliceSighting
  split <;> try exact .refl _ s
  refine tookHead_ite (fun _ => ?_) fun _ => (discardMessage_tookHead _ s).mono
  unfold cameraSighting
  exact tookHead_ite (fun _ => .inr (setLastResult_touches _ _).mono) fun _ => tookHead_ite (fun _ => .refl _ s)
    fun _ => .inr ((takeSighting_touches _ _ _ _).trans (setLastResult_touches _ _))

theorem mapBegin_tookHead (s : State) : TookHead [.lastResult, .mapHeader, .mapRecords] s (mapBegin s) := by
  unfold mapBegin
  split <;> try exact .refl _ s
  rename_i id mEnd d0 _ _
  have opened (s : State) : Touches [.mapHeader, .mapRecords] s (s.setPmap (s.pmap.openedWith id mEnd d0)) :=
    touches_of_blocks (pmap := ⟨.named, .named, .same ⟨rfl, rfl⟩, .same rfl⟩)
  unfold serveMapBegin
  exact tookHead_ite (fun _ => .inr ((setLastResult_touches (beginResult s mEnd d0) _).trans (opened _))) fun _ =>
    .inr (setLastResult_touches _ _).mono

set_option Elab.async false in
theorem mapBegin_touches (s : State) : Touches (Part.serving ++ [.mapHeader, .mapRecords]) s (mapBegin s) :=
  (mapBegin_tookHead s).touches

theorem afterRecord_touches (r : ResultCode) (rec : MapRecord) (s : State) :
    Touches [.mapHeader, .mapRecords] s (s.setPmap (s.pmap.afterRecord r rec)) := by
  unfold PressMap.afterRecord
  split
  · exact (setRecords_touches _ s).mono
  · split
    · exact touches_of_blocks (pmap := ⟨.named, .named, .same ⟨rfl, rfl⟩, .same rfl⟩)
    · exact Touches.refl _ s

/-- R73: the map is not looked at as the head leaves. -/
@[simp] theorem popMessage_pmap (s : State) : (popMessage s).pmap = s.pmap := (popMessage_touches s).pmap

theorem mapRecord_tookHead (s : State) : TookHead [.lastResult, .mapHeader, .mapRecords] s (mapRecord s) := by
  unfold mapRecord
  split <;> try exact .refl _ s
  rename_i m len x0 x1 packed rest _
  have map : (setLastResult (s.pmap.recordResult m x0 x1 packed) (popMessage s)).pmap = s.pmap := popMessage_pmap s
  unfold serveMapRecord
  dsimp only
  rw [← map]
  exact .inr ((setLastResult_touches _ _).trans (afterRecord_touches _ _ _))

theorem mapRecord_touches (s : State) : Touches (Part.serving ++ [.mapHeader, .mapRecords]) s (mapRecord s) :=
  (mapRecord_tookHead s).touches

theorem mapClose_tookHead (s : State) : TookHead [.lastResult, .mapHeader, .flags] s (mapClose s) := by
  unfold mapClose
  split <;> try exact .refl _ s
  rename_i n _ _
  have closed : Touches [.mapHeader] (popMessage s) ((popMessage s).setPmap ((popMessage s).pmap.closedWith n)) :=
    touches_of_blocks (pmap := ⟨.named, .same rfl, .same ⟨rfl, rfl⟩, .same rfl⟩)
  unfold serveMapClose
  exact tookHead_ite (fun _ => .inr ((closed.trans (rs := [.lastResult, .mapHeader]) (setLastResult_touches .ok _)).trans
    (raiseIf_touches _ _ _))) fun _ => .inr (setLastResult_touches .mapState _).mono

theorem mapClose_touches (s : State) : Touches (Part.serving ++ [.mapHeader, .flags]) s (mapClose s) :=
  (mapClose_tookHead s).touches

theorem setSample_touches (x : OffsetTracker) (s : State) :
    Touches [.offset] s (s.setTracker { s.tracker with o := x.o, valid := x.valid, latest := x.latest, peak := x.peak }) :=
  touches_of_blocks (tracker := ⟨.named, .same ⟨rfl, rfl, rfl, rfl, rfl, rfl⟩, .same rfl⟩)

theorem takeSample_touches (e : Int) (s : State) : Touches [.offset, .flags] s (takeSample e s) :=
  touches_ite (fun _ => (setSample_touches (s.tracker.followed e) s).trans (raiseIf_touches _ _ _)) fun _ =>
    (setSample_touches (s.tracker.started e) s).mono

theorem beacon_tookHead (s : State) : TookHead (.lastResult :: .offset :: Part.counting) s (beacon s) := by
  unfold beacon
  split <;> try exact .refl _ s
  unfold serveBeacon
  dsimp only
  split
  · exact .inr (countTotal_touches _ _ _).mono
  · exact .inr ((takeSample_touches _ _).trans (setLastResult_touches _ _))

theorem beacon_touches (s : State) : Touches (Part.serving ++ .offset :: Part.counting) s (beacon s) :=
  (beacon_tookHead s).touches

/-! ### Links -/

theorem holdExpiry_touches (s : State) : Touches (.link :: Part.counting) s (holdExpiry s) :=
  touches_ite (fun _ => ((countTotal_touches _ _ s).trans (rs := Part.counting) (raise_touches _ _)).trans
    (setTransfer_touches _ _ _ _ _ _ _ _)) fun _ => Touches.refl _ s

theorem statusRead_touches (n : Nat) (s : State) : Touches (.link :: Part.counting) s (statusRead n s) :=
  (abandonMessage_touches s).trans (setTransfer_touches _ _ _ _ _ _ _ _)

theorem servePoll_touches (s : State) : Touches Part.replying s (servePoll s) := by
  unfold servePoll
  split
  · exact touches_ite (fun _ => replyWith_touches _ _ s) fun _ => Touches.refl _ s
  · exact Touches.refl _ s

theorem serveFetch_touches (s : State) : Touches Part.replying s (serveFetch s) := by
  unfold serveFetch
  split
  · exact touches_ite (fun _ => replyWith_touches _ _ s) fun _ => Touches.refl _ s
  · exact Touches.refl _ s

theorem releaseEffect_touches (set lane : Nat) (s : State) :
    Touches [.completed, .roomWanted, .flags] s (releaseEffect set lane s) :=
  touches_ite (fun _ => removeHead_touches s) fun _ => Touches.refl _ s

set_option Elab.async false in
theorem serveRelease_touches (s : State) : Touches ([.completed, .roomWanted] ++ Part.replying) s (serveRelease s) := by
  unfold serveRelease
  split
  · exact touches_ite (fun _ => (releaseEffect_touches _ _ s).trans (replyWith_touches _ _ _)) fun _ => Touches.refl _ s
  · exact Touches.refl _ s
  · exact Touches.refl _ s

theorem serveUnknown_touches (s : State) : Touches Part.replying s (serveUnknown s) := by
  unfold serveUnknown
  split
  · exact touches_ite (fun _ => Touches.refl _ s) fun _ => replyWith_touches _ _ s
  · exact Touches.refl _ s

theorem reelDiscard_touches (s : State) : Touches (.receiver :: Part.counting) s (reelDiscard s) :=
  touches_ite (fun _ => (discardFrame_touches s).trans (pump_touches _)) fun _ => Touches.refl _ s

theorem gapExpiry_touches (s : State) : Touches (.receiver :: Part.counting) s (gapExpiry s) := by
  have marked : Touches [.receiver] s (s.setReel { s.reel with gapNext := true }) :=
    touches_of_blocks (reel := ⟨.named, .same ⟨rfl, rfl, rfl, rfl⟩, .same ⟨rfl, rfl, rfl⟩, .same rfl⟩)
  exact touches_ite (fun _ => touches_ite (fun _ => marked.mono) fun _ =>
    touches_ite (fun _ => discardFrame_touches s) fun _ => Touches.refl _ s) fun _ => Touches.refl _ s

theorem startWaiting_touches (s : State) : Touches Part.replying s (startWaiting s) := by
  unfold startWaiting
  split
  · exact Touches.refl _ s
  · rename_i frame _
    have started : Touches [.transmitter] s (s.setReel { s.reel.startSending frame with waiting := none }) :=
      touches_of_blocks (reel := ⟨.same ⟨rfl, rfl, rfl, rfl, rfl, rfl, rfl⟩, .named, .same ⟨rfl, rfl, rfl⟩, .same rfl⟩)
    exact touches_ite (fun _ => started.trans (pump_touches _)) fun _ => Touches.refl _ s

/-- R173: a byte that enters takes a stage or marks the byte after it. -/
theorem enter_eq (x : ReelLink) (b : RxByte) : x.enter b = { x with
    holdingStage := (x.enter b).holdingStage, shiftStage := (x.enter b).shiftStage
    overrunNext := (x.enter b).overrunNext, gapNext := (x.enter b).gapNext } := by
  unfold ReelLink.enter
  dsimp only
  split <;> rfl

/-- R173: a character enters the receiver; the settings noted for it go. -/
theorem receive_touches (b : RxByte) (g : Nat) (s : State) :
    Touches [.receiver, .earlier] s (s.setReel (s.reel.receive b g)) := by
  unfold ReelLink.receive
  rw [enter_eq]
  exact touches_of_blocks (reel := ⟨.named, .same ⟨rfl, rfl, rfl, rfl⟩, .same ⟨rfl, rfl, rfl⟩, .named⟩)

theorem receiveCharacter_touches (c : Character) (a b : Bool) (s : State) :
    Touches ([.receiver, .earlier] ++ Part.counting) s (receiveCharacter c a b s) :=
  (receive_touches _ _ s).trans (pump_touches _)

/-! ### Resets -/

/-- The parts of a list as the bits of a number, which the kernel compares at once. -/
def Part.mask (ps : List Part) : Nat := ps.foldr (fun p m => 2 ^ p.ctorIdx ||| m) 0

theorem Part.ctorIdx_lt (p : Part) : p.ctorIdx < 59 :=
  Nat.le_of_ble_eq_true (Part.rec (motive := fun p => Nat.ble (p.ctorIdx + 1) 59 = true)
    rfl rfl rfl rfl rfl rfl rfl rfl rfl rfl rfl rfl rfl rfl rfl rfl rfl rfl rfl rfl rfl rfl rfl rfl rfl rfl rfl rfl
    rfl rfl rfl rfl rfl rfl rfl rfl rfl rfl rfl rfl rfl rfl rfl rfl rfl rfl rfl rfl rfl rfl rfl rfl rfl rfl rfl rfl
    rfl rfl rfl p)

theorem Part.mem_of_testBit_mask {ps : List Part} {p : Part} (h : (Part.mask ps).testBit p.ctorIdx = true) : p ∈ ps := by
  induction ps with
  | nil => simp [Part.mask] at h
  | cons q qs ih =>
    simp only [Part.mask, List.foldr_cons, Nat.testBit_or, Nat.testBit_two_pow, Bool.or_eq_true,
      decide_eq_true_eq] at h
    rcases h with h | h
    · have same : q = p := by rw [← Part.ofNat_ctorIdx q, h, Part.ofNat_ctorIdx]
      exact List.mem_cons.mpr (.inl same.symm)
    · exact List.mem_cons_of_mem q (ih h)

/-- A change is known by the parts that are not named. -/
theorem touches_of_unnamed {ps : List Part} {s t : State} (qs : List Part) (h : ∀ p ∈ qs, Same s t p)
    (hq : Part.mask (ps ++ qs) = 2 ^ 59 - 1) : Touches ps s t := by
  intro p hp
  have named : p ∈ ps ++ qs := Part.mem_of_testBit_mask (by rw [hq, Nat.testBit_two_pow_sub_one]; simp [p.ctorIdx_lt])
  exact h p ((List.mem_append.mp named).resolve_left hp)

theorem coldReset_touches (a b : Bool) (adr : BitVec 3) (s : State) :
    Touches (.pins :: Part.fields ++ Part.resetting ++ [.grading, .completed, .snapshot, .enables, .args]) s
      (coldReset a b adr s) :=
  touches_of_unnamed [.pending] (List.forall_mem_singleton.mpr rfl) (by decide +kernel)

theorem warmReset_touches (s : State) : Touches Part.resetting s (warmReset s) :=
  touches_of_unnamed [.pins, .positionConfig, .mapConfig, .alignConfig, .resume, .offsetConfig, .mergeWindow, .lanes,
    .shiftLimit, .grading, .completed, .stopParams, .snapshot, .autosnap, .enables, .args, .holdLimit, .reelConfig,
    .pending] (by
      simp only [List.forall_mem_cons]
      exact ⟨rfl, ⟨rfl, rfl, rfl, rfl, rfl, rfl, rfl, rfl⟩, ⟨rfl, rfl⟩, ⟨rfl, rfl, rfl⟩, rfl, ⟨rfl, rfl, rfl, rfl,
        rfl, rfl⟩, rfl, rfl, rfl, rfl, rfl, rfl, ⟨rfl, rfl, rfl⟩, rfl, ⟨rfl, rfl⟩, ⟨rfl, rfl, rfl, rfl⟩, rfl, ⟨rfl,
        rfl, rfl⟩, rfl, fun _ h => absurd h List.not_mem_nil⟩)
    (by decide +kernel)

end Sys2Proof.Machine
end

