-- ==== Sys2Proof/Proofs/Access.lean ====
section
/-! SUPPORT. What each access of the Line Port touches, and how a command relates to the access that it is (R161 to R167). -/

-- Kernel checks run beside the elaboration; a lemma marked `Elab.async false` waits for those before it, so that few of
-- them, each on a thread of its own, are under way at a time.

namespace Sys2Proof.Machine

/-! ### One of each kind -/

/-- `c` is of the kind of one of these. -/
def OneOf {α : Type} (like : α → α → Prop) (c : α) : List α → Prop
  | [] => False
  | [d] => like c d
  | d :: e :: l => like c d ∨ OneOf like c (e :: l)

theorem oneOf_of_mem {α : Type} {like : α → α → Prop} {c d : α} (h : like c d) : ∀ {l : List α}, d ∈ l → OneOf like c l
  | [_], .head _ => h
  | _ :: _ :: _, .head _ => .inl h
  | _ :: _ :: _, .tail _ m => .inr (oneOf_of_mem h m)

/-- Where one of each kind is listed, a property that holds of each but a few holds of every one not of their kind. -/
theorem holds_or_oneOf {α : Type} [DecidableEq α] {like : α → α → Prop} {kinds : List α} {c d : α} {n : Nat}
    (listed : kinds[n]? = some d) (h : like c d) (q : α → Bool) (few : List α)
    (each : (kinds.all fun d => q d || few.contains d) = true) : q d = true ∨ OneOf like c few :=
  (Bool.or_eq_true_iff.mp (List.all_eq_true.mp each d (List.mem_of_getElem? listed))).imp_right fun k =>
    oneOf_of_mem h (List.contains_iff_mem.mp k)

/-! ### Commands (R164) -/

theorem cmdRollMount_touches (s : State) :
    Touches [.position, .speed, .roll, .strobeChannel, .offset, .history, .anchors, .sightings, .result] s
      (cmdRollMount s) := by
  have mounted (w : Int) : Touches [.position, .speed, .roll, .strobeChannel, .offset, .history, .anchors, .sightings] s
      (mountRoll w s) :=
    touches_of_blocks
      (pos := ⟨.same ⟨rfl, rfl⟩, .named, .same ⟨rfl, rfl, rfl, rfl, rfl, rfl, rfl, rfl⟩, .named, .same ⟨rfl, rfl, rfl,
        rfl⟩, .named, .same rfl⟩) (comps := ⟨.named, .same ⟨rfl, rfl, rfl⟩⟩)
      (align := ⟨.named, .same rfl, .named, .same rfl, .same ⟨rfl, rfl, rfl⟩⟩)
      (tracker := ⟨.named, .same ⟨rfl, rfl, rfl, rfl, rfl, rfl⟩, .named⟩)
  unfold cmdRollMount
  exact touches_ite (fun _ => (setResult_touches _ s).mono) fun _ => touches_ite (fun _ => (setResult_touches _ s).mono)
    fun _ => touches_ite (fun _ => (setResult_touches _ s).mono) fun _ => (mounted _).trans (setResult_touches _ _)

set_option Elab.async false in
theorem cmdRollEnd_touches (s : State) : Touches [.result] s (cmdRollEnd s).1 := by
  unfold cmdRollEnd
  split
  · exact setResult_touches _ s
  · split
    · exact setResult_touches _ s
    · exact Touches.refl _ s

theorem cmdMapClear_touches (s : State) : Touches [.mapHeader, .mapRecords, .result] s (cmdMapClear s) :=
  touches_ite (fun _ => (setResult_touches _ s).mono) fun _ => (setMap_emptied_touches s).trans (setResult_touches _ _)

theorem openSet_touches (line : Int) (n : Word) (s : State) : Touches [.openSet, .nextSet, .channels] s (openSet line n s) :=
  (openSetAt_touches _ _ s).trans (presetSetChannels_touches _)

theorem cmdSetStart_touches (s : State) :
    Touches ([.openSet, .nextSet, .channels, .result] ++ Part.planning) s (cmdSetStart s) :=
  touches_ite (fun _ => (setResult_touches _ s).mono) fun _ => touches_ite (fun _ => (setResult_touches _ s).mono)
    fun _ => touches_ite (fun _ => (setResult_touches _ s).mono) fun _ =>
      ((openSet_touches _ _ s).trans (rs := [.openSet, .nextSet, .channels] ++ Part.planning) (evaluate_touches _)).trans
        (setResult_touches _ _)

/-- R106, R107: a set closed: its records go to the queue, and it is open no longer. -/
theorem closed_touches (o : OpenSet) (line : Int) (c : SnapCause) (s : State) :
    Touches ([.openSet, .completed, .snapshot] ++ Part.counting) s (dropOpenSet (closeRecords o line c s)) :=
  (closeRecords_touches o line c s).trans (dropOpenSet_touches _)

theorem cmdSetChange_touches (s : State) :
    Touches ([.openSet, .nextSet, .channels, .completed, .roomWanted, .snapshot, .result] ++ Part.counting ++
      Part.planning) s (cmdSetChange s) := by
  unfold cmdSetChange
  split
  · exact (setResult_touches _ s).mono
  · exact touches_ite (fun _ => (setResult_touches _ s).mono) fun _ => touches_ite
      (fun _ => (refuseQueueFull_touches s).mono) fun _ =>
      (((closed_touches _ _ _ s).trans
        (rs := [.openSet, .nextSet, .channels, .completed, .snapshot] ++ Part.counting) (openSet_touches _ _ _)).trans
        (rs := [.openSet, .nextSet, .channels, .completed, .snapshot] ++ Part.counting ++ Part.planning)
        (evaluate_touches _)).trans (setResult_touches _ _)

theorem cmdSetEnd_touches (s : State) :
    Touches ([.openSet, .completed, .roomWanted, .snapshot, .result] ++ Part.counting ++ Part.planning) s
      (cmdSetEnd s) := by
  unfold cmdSetEnd
  split
  · exact (setResult_touches _ s).mono
  · exact touches_ite (fun _ => (refuseQueueFull_touches s).mono) fun _ =>
      ((closed_touches _ _ _ s).trans (rs := [.openSet, .completed, .snapshot] ++ Part.counting ++ Part.planning)
        (evaluate_touches _)).trans (setResult_touches _ _)

theorem dropTarget_touches (st : LengthStop) (w : WaitingAccess) (s : State) :
    Touches ([.openSet, .setAside, .result] ++ Part.planning) s (dropTarget st w s).1 := by
  have evaluated {u : State} (h : Touches [.openSet, .plannerState, .setAside] s u) :
      Touches ([.openSet, .setAside, .result] ++ Part.planning) s (setResult .ok (evaluate u)) :=
    (h.trans (rs := [.openSet, .setAside] ++ Part.planning) (evaluate_touches _)).trans (setResult_touches _ _)
  unfold dropTarget
  split
  · exact (endStop_touches s).mono
  · exact evaluated ((endStop_touches s).trans (setLengthStop_touches _ _ _))
  · exact evaluated (endStop_touches s).mono

theorem cmdStopRelease_touches (s : State) :
    Touches ([.openSet, .setAside, .result] ++ Part.planning) s (cmdStopRelease s).1 := by
  unfold cmdStopRelease
  split
  · exact dropTarget_touches _ _ s
  · exact (setResult_touches _ s).mono

theorem cmdStopCancel_touches (s : State) :
    Touches ([.openSet, .setAside, .result] ++ Part.planning) s (cmdStopCancel s).1 := by
  unfold cmdStopCancel
  split
  · exact (setResult_touches _ s).mono
  · exact dropTarget_touches _ _ s

theorem presetChannel_ne_zero {n : Nat} {i : Fin 4} (h : presetChannel n = some i) : i ≠ 0 := by
  unfold presetChannel at h
  split at h <;> cases h <;> decide

theorem cmdPreset_touches (s : State) : Touches [.channels, .result] s (cmdPreset s) := by
  unfold cmdPreset
  split
  · exact (setChannel_touches _ _ s (presetChannel_ne_zero ‹_›)).trans (setResult_touches _ _)
  · exact (setResult_touches _ s).mono

theorem cmdSnapTallies_touches (s : State) : Touches [.liveTallies, .snapshot, .result] s (cmdSnapTallies s) :=
  (snapTallies_touches _ _ s).trans (setResult_touches _ _)

/-! ### The table window (R165 to R167) -/

theorem setWindow_touches (t : Table) (a : Nat) (l : Option RecordLatch) (h : Option (Field × Word)) (s : State) :
    Touches [.window] s (s.setPort { s.port with tableSelect := t, tableAddr := a, latch := l, held := h }) :=
  touches_of_blocks
    (port := ⟨.same rfl, .same ⟨rfl, rfl, rfl, rfl⟩, .same rfl, .named, .same ⟨rfl, rfl, rfl, rfl, rfl, rfl, rfl⟩⟩)

theorem latchRecord_touches (t : Table) (r : Nat) (s : State) : Touches [.window, .offset] s (latchRecord t r s) := by
  have copied (s : State) : Touches [.offset] s (copyEffect t r s) :=
    touches_ite (fun _ => setSample_touches { s.tracker with peak := 0 } s) fun _ => Touches.refl _ s
  exact (setWindow_touches _ _ _ _ s).trans (copied _)

/-- R28: the copy of a TRACK record clears no peak. -/
theorem latchRecord_track_touches (r : Nat) (s : State) : Touches [.window] s (latchRecord .track r s) := by
  unfold latchRecord copyEffect
  rw [if_neg (by simp)]
  exact setWindow_touches _ _ _ _ s

set_option Elab.async false in
theorem readTable_touches (s : State) : Touches [.window, .offset] s (readTable s).1 := by
  unfold readTable
  dsimp only
  split
  · exact Touches.refl _ s
  · split
    · split
      · exact Touches.refl _ s
      · exact latchRecord_touches _ _ s
    · exact (setWindow_touches _ _ _ _ s).mono

theorem onLane_touches (i : Fin 24) (f : LaneRecord → LaneRecord) (s : State) : Touches [.lanes] s (onLane i f s) :=
  touches_of_blocks (plan := ⟨.named, .same rfl, .same rfl⟩)

theorem onParams_touches (f : StopParams → StopParams) (s : State) : Touches [.stopParams] s (onParams f s) :=
  touches_of_blocks (planner := ⟨.same ⟨rfl, rfl, rfl, rfl, rfl, rfl⟩, .same rfl, .same rfl, .named⟩)

theorem onFilter_touches (f : StopParams → StopParams) (s : State) :
    Touches (.stopParams :: Part.planning) s (onFilter f s) := (onParams_touches f s).trans (evaluate_touches _)

theorem onGrading_touches (f : Grading → Grading) (s : State) : Touches [.grading] s (onGrading f s) :=
  touches_of_blocks (reels := ⟨.same rfl, .same rfl, .named, .same rfl⟩)

theorem onChannel_touches (i : Fin 3) (f : Channel → Channel) (s : State) : Touches [.channels] s (onChannel i f s) :=
  setChannel_touches _ _ s (Fin.succ_ne_zero i)

theorem storeResume_touches (n : Nat) (s : State) : Touches [.resume, .link] s (storeResume n s) := by
  have stored : Touches [.resume] s (s.setDiq { s.diq with resume := n }) :=
    touches_of_blocks (diq := ⟨.same rfl, .named, .same rfl⟩)
  exact touches_ite (fun _ => stored.trans (signalResume_touches _)) fun _ => stored.mono

theorem storeShiftLimit_touches (v : Int) (s : State) :
    Touches [.shiftLimit, .webShift, .flags] s (storeShiftLimit v s) := by
  have stored : Touches [.shiftLimit] s (s.setPlan { s.plan with shiftLimit := v }) :=
    touches_of_blocks (plan := ⟨.same rfl, .named, .same rfl⟩)
  exact stored.trans (storeWebShift_touches _ _)

theorem setOffset_eq (x : PositionUnit) (v : Int) (st : Station) : x.setOffset v st = { x with
    offSplice := (x.setOffset v st).offSplice, offInspect := (x.setOffset v st).offInspect
    offTable := (x.setOffset v st).offTable, offKnife := (x.setOffset v st).offKnife
    offNip := (x.setOffset v st).offNip } := by
  cases st <;> rfl

theorem setConfig_touches (pitch : Int) (inv : Bool) (clkdiv : Nat) (a b c d e : Int) (s : State) :
    Touches [.positionConfig] s (s.setPos { s.pos with
      pitch := pitch, dirInvert := inv, clkdiv := clkdiv
      offSplice := a, offInspect := b, offTable := c, offKnife := d, offNip := e }) :=
  touches_of_blocks
    (pos := ⟨.same ⟨rfl, rfl⟩, .same ⟨rfl, rfl⟩, .named, .same rfl, .same ⟨rfl, rfl, rfl, rfl⟩, .same ⟨rfl, rfl, rfl⟩,
      .same rfl⟩)

theorem setAlignConfig_touches (w g : Int) (x : SpliceSource) (s : State) :
    Touches [.alignConfig] s (s.setAlign { s.align with matchWindow := w, spliceGuard := g, source := x }) :=
  touches_of_blocks (align := ⟨.same ⟨rfl, rfl⟩, .same rfl, .same ⟨rfl, rfl⟩, .same rfl, .named⟩)

theorem setOffsetConfig_touches (narrow wide : Nat) (w limit : Int) (m : PeakMode) (pitch : Int) (s : State) :
    Touches [.offsetConfig] s (s.setTracker { s.tracker with
      gNarrow := narrow, gWide := wide, wideWindow := w, captureLimit := limit, peakMode := m, strobePitch := pitch }) :=
  touches_of_blocks (tracker := ⟨.same ⟨rfl, rfl, rfl, rfl⟩, .named, .same rfl⟩)

theorem setCaptureLimit_touches (limit : Int) (s : State) :
    Touches [.offset, .offsetConfig] s (s.setTracker { s.tracker.invalidated with captureLimit := limit }) :=
  touches_of_blocks (tracker := ⟨.named, .named, .same rfl⟩)

theorem setHoldLimit_touches (n : Nat) (s : State) : Touches [.holdLimit] s (s.setLink { s.link with holdLimit := n }) :=
  touches_of_blocks (link := ⟨.same ⟨rfl, rfl, rfl, rfl, rfl, rfl, rfl⟩, .named⟩)

theorem setMapXOffset_touches (x : Int) (s : State) : Touches [.mapConfig] s (s.setPmap { s.pmap with xOffset := x }) :=
  touches_of_blocks (pmap := ⟨.same ⟨rfl, rfl, rfl, rfl, rfl⟩, .same rfl, .named, .same rfl⟩)

theorem setMergeWindow_touches (x : Int) (s : State) :
    Touches [.mergeWindow] s (s.setTrack { s.track with mergeWindow := x }) :=
  touches_of_blocks (track := ⟨.same rfl, .same ⟨rfl, rfl⟩, .same rfl, .named⟩)

set_option Elab.async false in
theorem setAutosnap_touches (x : Bool) (s : State) :
    Touches [.autosnap] s (s.setTally { s.tally with autosnap := x }) :=
  touches_of_blocks (tally := ⟨.same rfl, .same ⟨rfl, rfl, rfl⟩, .named⟩)

theorem setReelConfig_touches (m : Parity) (d g : Nat) (l : List ReceiveSettings) (s : State) :
    Touches [.reelConfig, .earlier] s (s.setReel { s.reel with parity := m, divisor := d, frameGap := g, earlier := l }) :=
  touches_of_blocks (reel := ⟨.same ⟨rfl, rfl, rfl, rfl, rfl, rfl, rfl⟩, .same ⟨rfl, rfl, rfl, rfl⟩, .named, .named⟩)

theorem setDivisor_touches (d : Nat) (s : State) : Touches [.reelConfig] s (s.setReel { s.reel with divisor := d }) :=
  touches_of_blocks (reel := ⟨.same ⟨rfl, rfl, rfl, rfl, rfl, rfl, rfl⟩, .same ⟨rfl, rfl, rfl, rfl⟩, .named, .same rfl⟩)

theorem setOffset_touches (v : Int) (st : Station) (s : State) :
    Touches [.positionConfig] s (s.setPos (s.pos.setOffset v st)) := by
  rw [setOffset_eq]
  exact setConfig_touches _ _ _ _ _ _ _ _ s

theorem setHorizon_touches (v : Int) (s : State) :
    Touches [.mapConfig, .yields] s (lapseRelease (s.setPmap { s.pmap with horizon := v })) := by
  have stored : Touches [.mapConfig] s (s.setPmap { s.pmap with horizon := v }) :=
    touches_of_blocks (pmap := ⟨.same ⟨rfl, rfl, rfl, rfl, rfl⟩, .same rfl, .named, .same rfl⟩)
  exact stored.trans (lapseRelease_touches _)

section Taking

variable {ps : List Part} {s : State}

theorem takeAny_touches {f : State → State} (h : Touches ps s (f s)) : Touches (.result :: ps) s (takeAny f s) :=
  h.trans (setResult_touches .ok _) (List.all_eq_true.mpr fun p hp => by simp [hp]) (by simp)

theorem takeRange_touches {lo hi v : Int} {f : State → State} (h : Touches ps s (f s)) :
    Touches (.result :: ps) s (takeRange lo hi v f s) :=
  touches_ite (fun _ => takeAny_touches h) fun _ => (setResult_touches _ s).mono (by simp)

theorem takeCode_touches {α : Type} {c : Option α} {f : α → State → State} (h : ∀ x, Touches ps s (f x s)) :
    Touches (.result :: ps) s (takeCode c f s) := by
  cases c with
  | some x => exact takeAny_touches (h x)
  | none => exact (setResult_touches _ s).mono (by simp)

end Taking

/-- The parts that the write of a field can change beside RESULT (R167). -/
def Field.parts : Field → List Part
  | .pitch | .dirInvert | .clkdiv | .offset _ => [.positionConfig]
  | .mergeWindow => [.mergeWindow]
  | .horizon => [.mapConfig, .yields]
  | .mapXOffset => [.mapConfig]
  | .matchWindow | .spliceGuard | .spliceSource => [.alignConfig]
  | .resume => [.resume, .link]
  | .holdLimit => [.holdLimit]
  | .gNarrow | .gWide | .wideWindow | .peakMode | .strobePitch => [.offsetConfig]
  | .captureLimit => [.offset, .offsetConfig]
  | .autosnap => [.autosnap]
  | .reelParity | .frameGap => [.reelConfig, .earlier]
  | .reelDivisor => [.reelConfig]
  | .shiftLimit => [.shiftLimit, .webShift, .flags]
  | .laneUse _ | .laneLeft _ | .laneWidth _ | .laneShaft _ | .laneDisposition _ => [.lanes]
  | .classDown _ | .classReject _ | .spliceDown | .spliceReject | .minLength => [.grading]
  | .creepSpeed | .decel | .reaction | .margin | .haltDist | .stopLead | .tolerance | .settle => [.stopParams]
  | .flagStop | .classMask | .minSeverity | .sourceMask | .spliceStop | .lengthStop => .stopParams :: Part.planning
  | .chBase _ | .chReload _ | .chReference _ | .chRun _ => [.channels]

theorem writeField_touches (f : Field) (hi lo : Word) (s : State) :
    Touches (.result :: f.parts) s (writeField f hi lo s) :=
  match f with
  | .offset st => touches_ite (fun _ => (setOffset_touches _ st s).trans (setResult_touches _ _) rfl rfl) fun _ =>
      (setResult_touches _ s).mono rfl
  | .horizon => takeRange_touches (setHorizon_touches _ s)
  | .resume => takeRange_touches (storeResume_touches _ s)
  | .shiftLimit => takeRange_touches (storeShiftLimit_touches _ s)
  | .laneUse i | .laneWidth i => takeRange_touches (onLane_touches i _ s)
  | .laneLeft i => takeAny_touches (onLane_touches i _ s)
  | .laneShaft i | .laneDisposition i => takeCode_touches fun _ => onLane_touches i _ s
  | .classDown _ | .classReject _ | .spliceDown | .spliceReject => takeRange_touches (onGrading_touches _ s)
  | .minLength => takeAny_touches (onGrading_touches _ s)
  | .creepSpeed | .decel | .reaction | .margin | .haltDist | .stopLead | .tolerance | .settle =>
    takeRange_touches (onParams_touches _ s)
  | .minSeverity => takeRange_touches (onFilter_touches _ s)
  | .flagStop | .classMask | .sourceMask | .spliceStop | .lengthStop => takeAny_touches (onFilter_touches _ s)
  | .chBase i | .chReload i | .chRun i => takeAny_touches (onChannel_touches i _ s)
  | .chReference i => takeCode_touches fun _ => onChannel_touches i _ s
  | .dirInvert => takeAny_touches (setConfig_touches _ _ _ _ _ _ _ _ s)
  | .pitch | .clkdiv => takeRange_touches (setConfig_touches _ _ _ _ _ _ _ _ s)
  | .mergeWindow => takeAny_touches (setMergeWindow_touches _ s)
  | .autosnap => takeAny_touches (setAutosnap_touches _ s)
  | .spliceSource => takeCode_touches fun _ => setAlignConfig_touches _ _ _ s
  | .matchWindow | .spliceGuard => takeRange_touches (setAlignConfig_touches _ _ _ s)
  | .peakMode => takeCode_touches fun _ => setOffsetConfig_touches _ _ _ _ _ _ s
  | .gNarrow | .gWide | .wideWindow | .strobePitch => takeRange_touches (setOffsetConfig_touches _ _ _ _ _ _ s)
  | .captureLimit => takeRange_touches (setCaptureLimit_touches _ s)
  | .mapXOffset => takeRange_touches (setMapXOffset_touches _ s)
  | .holdLimit => takeRange_touches (setHoldLimit_touches _ s)
  | .reelParity => takeCode_touches fun _ => setReelConfig_touches _ _ _ _ s
  | .frameGap => takeRange_touches (setReelConfig_touches _ _ _ _ s)
  | .reelDivisor => takeRange_touches (setDivisor_touches _ s)

theorem Field.parts_sub (f : Field) : ((.result :: f.parts).all ((.result :: Part.fields).contains ·)) = true := by
  cases f <;> rfl

theorem writeTable_touches (d : Word) (s : State) :
    Touches (.window :: .result :: Part.fields) s (writeTable d s).1 := by
  unfold writeTable
  split
  · exact Touches.refl _ s
  · rename_i fw _
    split
    · exact ((writeField_touches fw.field (s.upperOf fw.field) d s).mono fw.field.parts_sub).trans
        (setWindow_touches _ _ _ _ _)
    · exact (setWindow_touches _ _ _ _ s).mono

theorem selectTable_touches (d : Word) (s : State) : Touches [.window] s (selectTable d s).1 := by
  unfold selectTable
  split
  · exact Touches.refl _ s
  · exact setWindow_touches _ _ _ _ s

/-! ### The handshake (R161, R162) -/

theorem setHandshake_touches (ds : Bool) (a : Option WaitingAccess) (e : Bool) (n : Option BusAccess) (x b : Bool)
    (o : Option Word) (s : State) : Touches [.handshake] s (s.setPort
      { s.port with ds := ds, access := a, early := e, next := n, xack := x, bflt := b, dout := o }) :=
  touches_of_blocks (port := ⟨.same rfl, .same ⟨rfl, rfl, rfl, rfl⟩, .same rfl, .same ⟨rfl, rfl, rfl, rfl⟩, .named⟩)

theorem answer_touches (r : State × Served) : Touches [.handshake] r.1 (answer r) := by
  unfold answer
  split <;> exact setHandshake_touches _ _ _ _ _ _ _ r.1

/-- R161: an access is either kept behind the one being served, or served and answered. -/
theorem beginAccess_cases (a : BusAccess) (s : State) :
    (s.port.access ≠ none ∧ Touches [.handshake] s (beginAccess a s)) ∨
    (s.portFree ∧ beginAccess a s = answer (serve a s)) := by
  by_cases h : s.port.access = none
  · exact .inr ⟨h, beginAccess_free a s h⟩
  · rw [beginAccess_held a s h]
    exact .inl ⟨h, setHandshake_touches _ _ _ _ _ _ _ s⟩

/-- R161: a waiting access ends; one asked for behind it then begins. -/
theorem finishAccess_cases (d : Option Word) (s : State) :
    Touches [.handshake] s (finishAccess d s) ∧ (finishAccess d s).port.access = none ∨
    ∃ a u, s.port.next = some a ∧ Touches [.handshake] s u ∧ u.portFree ∧ finishAccess d s = answer (serve a u) := by
  unfold finishAccess
  split
  · cases hn : s.port.next with
    | none => exact .inl ⟨setHandshake_touches _ _ _ _ _ _ _ s, rfl⟩
    | some a => exact .inr ⟨a, _, rfl, setHandshake_touches _ _ _ _ _ _ _ s, rfl, beginAccess_free a _ rfl⟩
  · exact .inl ⟨setHandshake_touches _ _ _ _ _ _ _ s, rfl⟩

end Sys2Proof.Machine
end

