-- ==== Sys2Proof/Proofs/Effect.lean ====
section
/-! SUPPORT. What a command does apart from the handshake, the frame of every command (O3), and the one induction by which
every invariant of a step is proved. -/

-- Kernel checks run beside the elaboration; a lemma marked `Elab.async false` waits for those before it, so that few of
-- them, each on a thread of its own, are under way at a time.

namespace Sys2Proof.Machine

/-! ### The effect of a command -/

/-- What a command does to the state before the handshake takes its answer: an access of the Line Port as it is served,
and an operation that ends one before that end. -/
def effect (c : Instr) (s : State) : State :=
  match accessOf c with
  | some a => (serve a s).1
  | none =>
    match c with
    | .trackRecordLatch =>
      if s.grantedAccess = some .trackRead then latchRecord .track s.port.recordNumber (grantAccess s) else s
    | .rollEndEmptying => if s.grantedAccess = some .rollEnd then emptyRoll s else s
    | .stoppedMarkWrite =>
      if s.grantedAccess = some .stopRelease then setResult .ok (writeMark markStopped (grantAccess s)) else s
    | .skippedMarkWrite =>
      if s.grantedAccess = some .stopCancel then setResult .ok (writeMark markSkipped (grantAccess s)) else s
    | c =>
      match exec c s with
      | .next t => t
      | .fault _ => s
      | .refused _ => s

set_option Elab.async false in
theorem effect_access {c : Instr} {a : BusAccess} (h : accessOf c = some a) (s : State) :
    effect c s = (serve a s).1 := by
  unfold effect
  rw [h]

/-- An access is what `exec` makes of a command that is one, and it answers on the handshake lines. -/
theorem exec_access {c : Instr} {a : BusAccess} (h : accessOf c = some a) (s : State) :
    exec c s = .next (beginAccess a s) ∧ ([.handshake].all ((changes c).contains ·)) = true :=
  match c, a, h with
  | .rollMount, _, rfl | .rollEnd, _, rfl | .mapClear, _, rfl | .setStart, _, rfl | .setChange, _, rfl
  | .setEnd, _, rfl | .stopRelease, _, rfl | .stopCancel, _, rfl | .preset, _, rfl | .snapTallies, _, rfl
  | .warmReset, _, rfl | .unknownCommand _, _, rfl | .posHiRead, _, rfl | .webShiftWrite _, _, rfl
  | .eventWrite .a _, _, rfl | .eventWrite .b _, _, rfl | .enableWrite .a _, _, rfl | .enableWrite .b _, _, rfl
  | .laneGradeChangeWrite .a _, _, rfl | .laneGradeChangeWrite .b _, _, rfl | .tableSelectWrite _, _, rfl
  | .tableDataRead, _, rfl | .tableDataWrite _, _, rfl | .registerWrite _ _, _, rfl => ⟨rfl, rfl⟩

/-- The operations that end an access of the Line Port. -/
theorem endsAccess_cases {c : Instr} (h : endsAccess c = true) :
    c = .trackRecordLatch ∨ c = .rollEndEmptying ∨ c = .stoppedMarkWrite ∨ c = .skippedMarkWrite := by
  simpa only [endsAccess, List.contains_cons, List.contains_nil, Bool.or_false, Bool.or_eq_true, beq_iff_eq] using h

/-- An operation that may end an access does so when the access waits for it. -/
theorem finishes_or_not {p : Prop} [Decidable p] (d : Option Word) (s e t : State)
    (h : (if p then finishAccess d e else s) = t) :
    (∃ d, t = finishAccess d (if p then e else s)) ∨ t = if p then e else s := by
  split at h
  · exact .inl ⟨d, by rw [if_pos ‹_›, h]⟩
  · exact .inr (by rw [if_neg ‹_›, h])

/-- A command that is no access is the end of one with its effect before it, or its effect. -/
theorem exec_noAccess {c : Instr} {s t : State} (hn : accessOf c = none) (h : exec c s = .next t) :
    (endsAccess c = true ∧ ∃ d, t = finishAccess d (effect c s)) ∨ t = effect c s := by
  by_cases he : endsAccess c = true
  · rcases endsAccess_cases he with rfl | rfl | rfl | rfl
    · exact (finishes_or_not (some _) s _ t (Host.Outcome.next.inj h)).imp_left fun k => ⟨rfl, k⟩
    · exact (finishes_or_not none s _ t (Host.Outcome.next.inj h)).imp_left fun k => ⟨rfl, k⟩
    · exact (finishes_or_not none s _ t (Host.Outcome.next.inj h)).imp_left fun k => ⟨rfl, k⟩
    · exact (finishes_or_not none s _ t (Host.Outcome.next.inj h)).imp_left fun k => ⟨rfl, k⟩
  · refine .inr ?_
    unfold effect
    rw [hn]
    dsimp only
    split <;> first | exact absurd rfl he | rw [h]

/-- A command is one access of the Line Port, the end of one with its effect before it, or its effect. -/
theorem exec_cases {c : Instr} {s t : State} (h : exec c s = .next t) :
    (∃ a, accessOf c = some a ∧ t = beginAccess a s) ∨
    (∃ d, accessOf c = none ∧ endsAccess c = true ∧ t = finishAccess d (effect c s)) ∨
    (accessOf c = none ∧ t = effect c s) := by
  cases hc : accessOf c with
  | some a =>
    rewrite [(exec_access hc s).1] at h
    exact .inl ⟨a, rfl, (Host.Outcome.next.inj h).symm⟩
  | none =>
    rcases exec_noAccess hc h with ⟨he, d, ht⟩ | ht
    · exact .inr (.inl ⟨d, rfl, he, ht⟩)
    · exact .inr (.inr ⟨rfl, ht⟩)

/-! ### Every access is a well-formed command -/

/-- Log 33: the high byte of a word written to COMMAND is ignored. -/
theorem carryOut_congr {d e : Word} (h : d.toNat % 256 = e.toNat % 256) (s : State) : carryOut d s = carryOut e s := by
  unfold carryOut
  rw [h]

/-- A word written to COMMAND does what a well-formed command does. -/
theorem carryOut_effect (d : Word) (s : State) :
    ∃ c, c.wf = true ∧ (accessOf c).isSome = true ∧ (carryOut d s).1 = effect c s := by
  by_cases h : (Instr.unknownCommand d).wf = true
  · exact ⟨.unknownCommand d, h, rfl, rfl⟩
  · simp only [Instr.wf, namedCommandCodes, Bool.not_eq_true', List.contains_eq_mem, decide_eq_false_iff_not, not_not,
      List.mem_cons, List.not_mem_nil, or_false] at h
    have named {e : Word} {c : Instr} (hw : c.wf = true) (ha : accessOf c = some (.write 2 e))
        (he : d.toNat % 256 = e.toNat % 256) :
        ∃ c, c.wf = true ∧ (accessOf c).isSome = true ∧ (carryOut d s).1 = effect c s :=
      ⟨c, hw, by rw [ha]; rfl, by rw [effect_access ha, carryOut_congr he]; rfl⟩
    rcases h with h | h | h | h | h | h | h | h | h | h | h
    · exact named (c := .rollMount) rfl rfl h
    · exact named (c := .rollEnd) rfl rfl h
    · exact named (c := .mapClear) rfl rfl h
    · exact named (c := .setStart) rfl rfl h
    · exact named (c := .setChange) rfl rfl h
    · exact named (c := .setEnd) rfl rfl h
    · exact named (c := .stopRelease) rfl rfl h
    · exact named (c := .stopCancel) rfl rfl h
    · exact named (c := .preset) rfl rfl h
    · exact named (c := .snapTallies) rfl rfl h
    · exact named (c := .warmReset) rfl rfl h

/-- A write does what a well-formed command does. -/
theorem serveWrite_effect (word : Fin 32) (d : Word) (s : State) :
    ∃ c, c.wf = true ∧ (accessOf c).isSome = true ∧ (serveWrite word d s).1 = effect c s := by
  by_cases h : (Instr.registerWrite word d).wf = true
  · exact ⟨.registerWrite word d, h, rfl, rfl⟩
  · simp only [Instr.wf, ownRowWords, Bool.not_eq_true', List.contains_eq_mem, decide_eq_false_iff_not, not_not,
      List.mem_cons, List.not_mem_nil, or_false] at h
    have word_eq {n : Fin 32} (hn : word.val = n.val) : word = n := Fin.ext hn
    rcases h with h | h | h | h | h | h | h | h | h | h
    · rw [word_eq (n := 2) h]; exact carryOut_effect d s
    · rw [word_eq (n := 11) h]; exact ⟨.webShiftWrite d, rfl, rfl, rfl⟩
    · rw [word_eq (n := 14) h]; exact ⟨.eventWrite .a d, rfl, rfl, rfl⟩
    · rw [word_eq (n := 15) h]; exact ⟨.eventWrite .b d, rfl, rfl, rfl⟩
    · rw [word_eq (n := 16) h]; exact ⟨.enableWrite .a d, rfl, rfl, rfl⟩
    · rw [word_eq (n := 17) h]; exact ⟨.enableWrite .b d, rfl, rfl, rfl⟩
    · rw [word_eq (n := 18) h]; exact ⟨.laneGradeChangeWrite .a d, rfl, rfl, rfl⟩
    · rw [word_eq (n := 19) h]; exact ⟨.laneGradeChangeWrite .b d, rfl, rfl, rfl⟩
    · rw [word_eq (n := 20) h]; exact ⟨.tableSelectWrite d, rfl, rfl, rfl⟩
    · rw [word_eq (n := 22) h]; exact ⟨.tableDataWrite d, rfl, rfl, rfl⟩

/-- A read without a row of its own changes nothing (log 12). -/
theorem serveRead_plain (word : Fin 32) (s : State) (h8 : word ≠ 8) (h22 : word ≠ 22) : (serveRead word s).1 = s := by
  unfold serveRead
  dsimp only
  split <;> first
    | rfl
    | exact absurd (Fin.ext ‹_›) h8
    | exact absurd (Fin.ext ‹_›) h22

/-- Every access changes nothing or does what a well-formed command does, XACK or not. -/
theorem serve_effect (a : BusAccess) (s : State) :
    (serve a s).1 = s ∨ ∃ c, c.wf = true ∧ (accessOf c).isSome = true ∧ (serve a s).1 = effect c s := by
  cases a with
  | read word =>
    by_cases h8 : word = 8
    · exact .inr ⟨.posHiRead, rfl, rfl, by subst h8; rfl⟩
    · by_cases h22 : word = 22
      · exact .inr ⟨.tableDataRead, rfl, rfl, by subst h22; rfl⟩
      · exact .inl (serveRead_plain word s h8 h22)
  | write word d => exact .inr (serveWrite_effect word d s)

/-! ### The frame -/

theorem carryOut_unknown_touches (d : Word) (h : (!namedCommandCodes.contains (d.toNat % 256)) = true) (s : State) :
    Touches [.result] s (carryOut d s).1 := by
  unfold carryOut
  split
  case h_12 => exact setResult_touches _ s
  all_goals
    rename_i value
    rewrite [value] at h
    cases h

theorem setArgs_touches (a b c d : Word) (s : State) :
    Touches [.args] s (s.setPort { s.port with arg0 := a, arg1 := b, arg2 := c, arg3 := d }) :=
  touches_of_blocks
    (port := ⟨.same rfl, .named, .same rfl, .same ⟨rfl, rfl, rfl, rfl⟩, .same ⟨rfl, rfl, rfl, rfl, rfl, rfl, rfl⟩⟩)

theorem setPosLatch_touches (w : Word) (s : State) : Touches [.posLatch] s (s.setPort { s.port with posLatch := w }) :=
  touches_of_blocks
    (port := ⟨.same rfl, .same ⟨rfl, rfl, rfl, rfl⟩, .named, .same ⟨rfl, rfl, rfl, rfl⟩, .same ⟨rfl, rfl, rfl, rfl, rfl,
      rfl, rfl⟩⟩)

/-- R164: a word without a row of its own takes the data, moves TABLE_ADDR, or ends in a bus fault. -/
theorem serveWrite_plain_touches (word : Fin 32) (d : Word) (s : State) (h : (!ownRowWords.contains word.val) = true) :
    Touches [.args, .window] s (serveWrite word d s).1 := by
  unfold serveWrite
  split
  case h_2 | h_3 | h_4 | h_5 => exact (setArgs_touches _ _ _ _ s).mono
  case h_14 => exact (setWindow_touches _ _ _ _ s).mono
  case h_16 => exact Touches.refl _ s
  all_goals
    rename_i value
    rewrite [value] at h
    cases h

theorem setFlags_touches (a b : Word) (s : State) :
    Touches [.flags] s (s.setEvents { s.events with flagsA := a, flagsB := b }) :=
  touches_of_blocks (events := ⟨.named, .same ⟨rfl, rfl⟩⟩)

set_option Elab.async false in
theorem setEnableWords_touches (a b : Word) (s : State) :
    Touches [.enables] s (s.setEvents { s.events with enableA := a, enableB := b }) :=
  touches_of_blocks (events := ⟨.same ⟨rfl, rfl⟩, .named⟩)

theorem clearEvents_touches (bank : Bank) (d : Word) (s : State) :
    Touches [.flags] s (s.setEvents (s.events.clear bank d)) := by
  cases bank <;> exact setFlags_touches _ _ s

theorem setEnables_touches (bank : Bank) (d : Word) (s : State) :
    Touches [.enables] s (s.setEvents (s.events.setEnables bank d)) := by
  cases bank <;> exact setEnableWords_touches _ _ s

/-- The effect of every command lies within the parts named for it; only an access has a spelling to be well formed. -/
theorem effect_touches (c : Instr) (s : State) (h : (accessOf c).isSome = true → c.wf = true) :
    Touches (changes c) s (effect c s) :=
  match c, h with
  | .coldReset a b adr, _ => coldReset_touches a b adr s
  | .encoderTransition a b, _ => transition_touches a b s
  | .tick, _ => tick_touches s
  | .pulseEnd i, _ => endPulse_touches i s
  | .speedSample, _ => speedSample_touches s
  | .knifePassage, _ => knifePassage_touches s
  | .commit, _ => commitDue_touches s
  | .walkStep, _ => walkStep_touches s
  | .confirmation, _ => confirmation_touches s
  | .marking, _ => marking_touches s
  | .liveSplicePlacement, _ => liveSplicePlacement_touches s
  | .detection, _ => detection_touches s
  | .mapRelease, _ => mapRelease_touches s
  | .trackRecordLatch, _ =>
    touches_ite (fun _ => (grantAccess_touches s).trans (latchRecord_track_touches _ _)) fun _ => Touches.refl _ s
  | .rollEndEmptying, _ => touches_ite (fun _ => (emptyRoll_touches s).mono (by decide +kernel)) fun _ => Touches.refl _ s
  | .stoppedMarkWrite, _ => touches_ite (fun _ => (markWritten_touches _ s).mono (by decide +kernel)) fun _ => Touches.refl _ s
  | .skippedMarkWrite, _ => touches_ite (fun _ => (markWritten_touches _ s).mono (by decide +kernel)) fun _ => Touches.refl _ s
  | .spliceSensorEdge, _ => sensorEdge_touches s
  | .latchedSightingTaken, _ => takeLatched_touches s
  | .spliceSighting, _ => spliceSighting_touches s
  | .mapBegin, _ => mapBegin_touches s
  | .mapRecord, _ => mapRecord_touches s
  | .mapClose, _ => mapClose_touches s
  | .beacon, _ => beacon_touches s
  | .inspectionMessage, _ => takeStop_touches s
  | .repeatedStart, _ => abandonMessage_touches s
  | .holdExpiry, _ => holdExpiry_touches s
  | .statusRead n, _ => statusRead_touches n s
  | .poll, _ => servePoll_touches s
  | .fetch, _ => serveFetch_touches s
  | .release, _ => serveRelease_touches s
  | .unknownFrame, _ => serveUnknown_touches s
  | .reelFrameDiscard, _ => reelDiscard_touches s
  | .frameGapExpiry, _ => gapExpiry_touches s
  | .replyTransmitStart, _ => startWaiting_touches s
  | .rollMount, _ => (cmdRollMount_touches s).mono (by decide +kernel)
  | .rollEnd, _ => (cmdRollEnd_touches s).mono rfl
  | .mapClear, _ => (cmdMapClear_touches s).mono (by decide +kernel)
  | .setStart, _ => (cmdSetStart_touches s).mono (by decide +kernel)
  | .setChange, _ => (cmdSetChange_touches s).mono (by decide +kernel)
  | .setEnd, _ => (cmdSetEnd_touches s).mono rfl
  | .stopRelease, _ => (cmdStopRelease_touches s).mono (by decide +kernel)
  | .stopCancel, _ => (cmdStopCancel_touches s).mono (by decide +kernel)
  | .preset, _ => (cmdPreset_touches s).mono (by decide +kernel)
  | .snapTallies, _ => (cmdSnapTallies_touches s).mono (by decide +kernel)
  | .warmReset, _ => warmReset_touches s
  | .unknownCommand d, h => (carryOut_unknown_touches d (h rfl) s).mono rfl
  | .posHiRead, _ =>
    (setPosLatch_touches _ s).mono (by decide +kernel)
  | .webShiftWrite d, _ => (storeWebShift_touches _ s).mono rfl
  | .eventWrite .a d, _ => (clearEvents_touches _ d s).mono rfl
  | .eventWrite .b d, _ => (clearEvents_touches _ d s).mono rfl
  | .enableWrite .a d, _ => (setEnables_touches _ d s).mono rfl
  | .enableWrite .b d, _ => (setEnables_touches _ d s).mono rfl
  | .laneGradeChangeWrite .a d, _ => (setIndications_touches _ s).mono rfl
  | .laneGradeChangeWrite .b d, _ => (setIndications_touches _ s).mono rfl
  | .tableSelectWrite d, _ => (selectTable_touches d s).mono rfl
  | .tableDataRead, _ => (readTable_touches s).mono rfl
  | .tableDataWrite d, _ => (writeTable_touches d s).mono rfl
  | .registerWrite word d, h => (serveWrite_plain_touches word d s (h rfl)).mono rfl
  | .inspectionLinkByte b, _ => takeLinkByte_touches b s
  | .characterReceived ch a b, _ => receiveCharacter_touches ch a b s
  | .dataStrobeNegated, _ => setHandshake_touches _ _ _ _ _ _ _ s

theorem finishAccess_touches (d : Option Word) (s : State) (h : s.port.next = none) :
    Touches [.handshake] s (finishAccess d s) := by
  rcases finishAccess_cases d s with hf | ⟨a, _, ha, _⟩
  · exact hf.1
  · rw [h] at ha; cases ha

/-- An operation that ends an access leaves the handshake to its end, which moves it. -/
theorem effect_next (c : Instr) (s : State) (h : endsAccess c = true) :
    (effect c s).port.next = s.port.next ∧ ([.handshake].all ((changes c).contains ·)) = true := by
  have next {ps : List Part} {t : State} (k : Touches ps s t) (hp : ps.contains .handshake = false) :
      t.port.next = s.port.next :=
    have ⟨_, _, _, e, _⟩ := k .handshake fun hm => by rewrite [List.contains_iff_mem.mpr hm] at hp; cases hp
    e
  rcases endsAccess_cases h with rfl | rfl | rfl | rfl
  · exact ⟨next (ps := [.window, .yields]) (touches_ite (fun _ => (grantAccess_touches s).trans
      (latchRecord_track_touches _ _)) fun _ => Touches.refl _ s) rfl, rfl⟩
  · exact ⟨next (touches_ite (fun _ => emptyRoll_touches s) fun _ => Touches.refl _ s) rfl, rfl⟩
  · exact ⟨next (touches_ite (fun _ => markWritten_touches _ s) fun _ => Touches.refl _ s) rfl, rfl⟩
  · exact ⟨next (touches_ite (fun _ => markWritten_touches _ s) fun _ => Touches.refl _ s) rfl, rfl⟩

theorem exec_touches {c : Instr} {s t : State} (hw : c.wf = true) (hn : endsAccess c = true → s.port.next = none)
    (h : exec c s = .next t) : Touches (changes c) s t := by
  have self : (changes c).all ((changes c).contains ·) = true :=
    List.all_eq_true.mpr fun p hp => List.contains_iff_mem.mpr hp
  have eff := effect_touches c s fun _ => hw
  rcases exec_cases h with ⟨a, ha, rfl⟩ | ⟨d, _, he, rfl⟩ | ⟨_, rfl⟩
  · have ⟨_, hs⟩ := exec_access ha s
    rcases beginAccess_cases a s with ⟨_, kept⟩ | ⟨_, served⟩
    · exact kept.mono hs
    · rewrite [effect_access ha] at eff
      rewrite [served]
      exact eff.trans (answer_touches _) self hs
  · have ⟨next, hs⟩ := effect_next c s he
    exact eff.trans (finishAccess_touches d _ (next.trans (hn he))) self hs
  · exact eff

/-! ### The kinds of the commands -/

/-- `c` is a command of the kind of `d`, with operands of its own. -/
def OfKind (c : Instr) : Instr → Prop
  | .coldReset .. => ∃ a b e, c = .coldReset a b e
  | .encoderTransition .. => ∃ a b, c = .encoderTransition a b
  | .pulseEnd .. => ∃ i, c = .pulseEnd i
  | .statusRead .. => ∃ n, c = .statusRead n
  | .unknownCommand .. => ∃ w, c = .unknownCommand w
  | .webShiftWrite .. => ∃ w, c = .webShiftWrite w
  | .eventWrite .. => ∃ k w, c = .eventWrite k w
  | .enableWrite .. => ∃ k w, c = .enableWrite k w
  | .laneGradeChangeWrite .. => ∃ k w, c = .laneGradeChangeWrite k w
  | .tableSelectWrite .. => ∃ w, c = .tableSelectWrite w
  | .tableDataWrite .. => ∃ w, c = .tableDataWrite w
  | .registerWrite .. => ∃ i w, c = .registerWrite i w
  | .inspectionLinkByte .. => ∃ b, c = .inspectionLinkByte b
  | .characterReceived .. => ∃ b p t, c = .characterReceived b p t
  | d => c = d

/-- The command of the kind that stands in `commandKinds`. -/
def kindOf : Instr → Instr
  | .coldReset .. => .coldReset false false 0
  | .encoderTransition .. => .encoderTransition false false
  | .pulseEnd .. => .pulseEnd 0
  | .statusRead .. => .statusRead 0
  | .unknownCommand .. => .unknownCommand 0
  | .webShiftWrite .. => .webShiftWrite 0
  | .eventWrite .. => .eventWrite .a 0
  | .enableWrite .. => .enableWrite .a 0
  | .laneGradeChangeWrite .. => .laneGradeChangeWrite .a 0
  | .tableSelectWrite .. => .tableSelectWrite 0
  | .tableDataWrite .. => .tableDataWrite 0
  | .registerWrite .. => .registerWrite 0 0
  | .inspectionLinkByte .. => .inspectionLinkByte 0
  | .characterReceived .. => .characterReceived ⟨0, 0⟩ false false
  | c => c

/-- The commands in the order of their definition, one of each kind. -/
def commandKinds : List Instr :=
  [.coldReset false false 0, .encoderTransition false false, .tick, .pulseEnd 0, .speedSample, .knifePassage, .commit,
   .walkStep, .confirmation, .marking, .liveSplicePlacement, .detection, .mapRelease, .trackRecordLatch, .rollEndEmptying,
   .stoppedMarkWrite, .skippedMarkWrite, .spliceSensorEdge, .latchedSightingTaken, .spliceSighting, .mapBegin, .mapRecord,
   .mapClose, .beacon, .inspectionMessage, .repeatedStart, .holdExpiry, .statusRead 0, .poll, .fetch, .release,
   .unknownFrame, .reelFrameDiscard, .frameGapExpiry, .replyTransmitStart, .rollMount, .rollEnd, .mapClear, .setStart,
   .setChange, .setEnd, .stopRelease, .stopCancel, .preset, .snapTallies, .warmReset, .unknownCommand 0, .posHiRead,
   .webShiftWrite 0, .eventWrite .a 0, .enableWrite .a 0, .laneGradeChangeWrite .a 0, .tableSelectWrite 0, .tableDataRead,
   .tableDataWrite 0, .registerWrite 0 0, .inspectionLinkByte 0, .characterReceived ⟨0, 0⟩ false false, .dataStrobeNegated]

theorem ofKind_kindOf : ∀ c : Instr, OfKind c (kindOf c)
  | .coldReset a b e => ⟨a, b, e, rfl⟩
  | .encoderTransition a b => ⟨a, b, rfl⟩
  | .characterReceived b p t => ⟨b, p, t, rfl⟩
  | .eventWrite k w | .enableWrite k w | .laneGradeChangeWrite k w => ⟨k, w, rfl⟩
  | .registerWrite i w => ⟨i, w, rfl⟩
  | .pulseEnd i => ⟨i, rfl⟩
  | .statusRead n => ⟨n, rfl⟩
  | .unknownCommand w | .webShiftWrite w | .tableSelectWrite w | .tableDataWrite w => ⟨w, rfl⟩
  | .inspectionLinkByte b => ⟨b, rfl⟩
  | .tick | .speedSample | .knifePassage | .commit | .walkStep | .confirmation | .marking | .liveSplicePlacement
  | .detection | .mapRelease | .trackRecordLatch | .rollEndEmptying | .stoppedMarkWrite | .skippedMarkWrite
  | .spliceSensorEdge | .latchedSightingTaken | .spliceSighting | .mapBegin | .mapRecord | .mapClose | .beacon
  | .inspectionMessage | .repeatedStart | .holdExpiry | .poll | .fetch | .release | .unknownFrame | .reelFrameDiscard
  | .frameGapExpiry | .replyTransmitStart | .rollMount | .rollEnd | .mapClear | .setStart | .setChange | .setEnd
  | .stopRelease | .stopCancel | .preset | .snapTallies | .warmReset | .posHiRead | .tableDataRead
  | .dataStrobeNegated => rfl

theorem changes_kindOf (c : Instr) : changes c = changes (kindOf c) := by
  cases c <;> rfl

theorem commandKinds_kindOf (c : Instr) : commandKinds[c.ctorIdx]? = some (kindOf c) := by
  cases c <;> rfl

/-! ### Invariants of a step -/

/-- A property of the state that depends on the parts named only. -/
def Reads (D : List Part) (P : State → Prop) : Prop := ∀ s t, (∀ p ∈ D, Same s t p) → P s → P t

/-- What touches no part that a property reads keeps it. -/
theorem Reads.frame {D ps : List Part} {P : State → Prop} {s t : State} (h : Reads D P) (k : Touches ps s t) (hs : P s)
    (hd : (D.all fun p => !ps.contains p) = true := by decide) : P t := by
  refine h s t (fun p hp => k p fun hm => ?_) hs
  have := List.all_eq_true.mp hd p hp
  rw [List.contains_iff_mem.mpr hm] at this
  cases this

/-- A command whose named parts are none that a property reads keeps it. -/
theorem Reads.effect_keeps {D : List Part} {P : State → Prop} (hr : Reads D P) {c : Instr} {s : State}
    (hw : (accessOf c).isSome = true → c.wf = true) (hs : P s)
    (hd : (D.all fun p => !(changes c).contains p) = true) : P (effect c s) := hr.frame (effect_touches c s hw) hs hd

/-- An effect keeps a property, or its command is one of the few that may change what the property reads. -/
theorem Reads.effect_cases {D : List Part} {P : State → Prop} (hr : Reads D P) (few : List Instr) {c : Instr} {s : State}
    (hw : (accessOf c).isSome = true → c.wf = true) (hs : P s)
    (each : (commandKinds.all fun d => (D.all fun p => !(changes d).contains p) || few.contains d) = true := by
      decide +kernel) : P (effect c s) ∨ OneOf OfKind c few := by
  refine Or.imp_left (hr.effect_keeps hw hs) ?_
  rw [changes_kindOf c]
  exact holds_or_oneOf (commandKinds_kindOf c) (ofKind_kindOf c) _ few each

/-- A property that every effect keeps, and that does not read the handshake, is kept by every command. An effect that is
no access of the Line Port finds the state of the command, of which more (`Pre`) may be known; an access that waited
behind another does not. -/
theorem Reads.exec_keeps {D : List Part} {P Pre : State → Prop} (hr : Reads D P)
    (kept : ∀ c s, ((accessOf c).isSome = true → c.wf = true) → (accessOf c = none → Pre s) → P s → P (effect c s))
    (hd : (D.all fun p => !([.handshake] : List Part).contains p) = true := by decide)
    {c : Instr} {s t : State} (h : exec c s = .next t) (hp : Pre s) (hs : P s) : P t := by
  have served (a : BusAccess) (u : State) (hu : P u) : P (answer (serve a u)) := by
    refine hr.frame (answer_touches _) ?_ hd
    rcases serve_effect a u with e | ⟨c, hw, ha, e⟩
    · rwa [e]
    · rw [e]
      exact kept c u (fun _ => hw) (fun hn => by rw [hn] at ha; cases ha) hu
  have eff (hn : accessOf c = none) : P (effect c s) :=
    kept c s (fun ha => by rw [hn] at ha; cases ha) (fun _ => hp) hs
  rcases exec_cases h with ⟨a, _, rfl⟩ | ⟨d, hn, _, rfl⟩ | ⟨hn, rfl⟩
  · rcases beginAccess_cases a s with ⟨_, k⟩ | ⟨_, e⟩
    · exact hr.frame k hs hd
    · rw [e]; exact served a s hs
  · rcases finishAccess_cases d (effect c s) with ⟨k, _⟩ | ⟨a, u, _, k, _, e⟩
    · exact hr.frame k (eff hn) hd
    · rw [e]; exact served a u (hr.frame k (eff hn) hd)
  · exact eff hn

theorem setPending_touches (l : List Instr) (s : State) : Touches [.pending] s (s.setPending l) :=
  touches_of_blocks (pending := .inl (by decide))

/-- The same for a step, which takes its command from the queue. -/
theorem Reads.step_keeps_of {D : List Part} {P Pre : State → Prop} (hr : Reads D P)
    (kept : ∀ c s, ((accessOf c).isSome = true → c.wf = true) → (accessOf c = none → Pre s) → P s → P (effect c s))
    (hq : ∀ s l, Pre s → Pre (s.setPending l))
    (hd : (D.all fun p => !([.handshake] : List Part).contains p) = true := by decide)
    (he : (D.all fun p => !([.pending] : List Part).contains p) = true := by decide)
    {s t : State} (h : step s = .next t) (hp : Pre s) (hs : P s) : P t := by
  unfold step at h
  split at h
  · cases h; exact hs
  · exact hr.exec_keeps kept hd h (hq _ _ hp) (hr.frame (setPending_touches _ s) hs he)

set_option Elab.async false in
/-- A property that every effect keeps, and that reads neither the handshake nor the queue of commands, is an invariant. -/
theorem Reads.step_keeps {D : List Part} {P : State → Prop} (hr : Reads D P)
    (kept : ∀ c s, ((accessOf c).isSome = true → c.wf = true) → P s → P (effect c s))
    (hd : (D.all fun p => !([.handshake] : List Part).contains p) = true := by decide)
    (he : (D.all fun p => !([.pending] : List Part).contains p) = true := by decide)
    {s t : State} (h : step s = .next t) (hs : P s) : P t :=
  hr.step_keeps_of (Pre := fun _ => True) (fun c s hw _ => kept c s hw) (fun _ _ _ => trivial) hd he h trivial hs

end Sys2Proof.Machine

namespace Sys2Proof.Proofs

open Sys2Proof.Machine

/-- Settles O3, from the frame of every effect and of the handshake behind it. -/
theorem commandsChangeOnlyTheirParts : Obligations.CommandsChangeOnlyTheirParts :=
  fun _ _ _ hw hn h => exec_touches hw hn h

end Sys2Proof.Proofs
end

