-- ==== Sys2Proof/Proofs/Position.lean ====
section
/-! SUPPORT. The range of P (R3): settles O55. -/

namespace Sys2Proof.Machine

/-- Away from the counts and the settings of P, P stays bounded as it was. -/
theorem positionBounded_reads : Reads [.position] PositionBounded := by
  intro s t same hs
  obtain ⟨hp, hf⟩ := same .position (List.mem_singleton.mpr rfl)
  unfold PositionBounded
  rw [hp, hf]
  exact hs

/-- R3: a count is clamped to the range. -/
theorem counted_bounded (x : PositionUnit) (d : Int) :
    0 ≤ (x.counted d).1.p ∧ (x.counted d).1.p ≤ posMax ∧ 0 ≤ (x.counted d).1.frac ∧ (x.counted d).1.frac ≤ 65535 := by
  unfold PositionUnit.counted posMax
  dsimp only
  split
  · dsimp only; omega
  · split
    · dsimp only; omega
    · dsimp only; omega

/-- R10, R12: a reset and a mount set P to 0. -/
theorem positionBounded_zero {s : State} (hp : s.pos.p = 0) (hf : s.pos.frac = 0) : PositionBounded s := by
  unfold PositionBounded posMax
  omega

theorem count_positionBounded (d : Int) (s : State) : PositionBounded (count d s) :=
  positionBounded_reads.frame (handOnP_touches _ _)
    (positionBounded_reads.frame (raiseIf_touches _ _ _) (counted_bounded s.pos d))

theorem transition_positionBounded (a b : Bool) {s : State} (hs : PositionBounded s) : PositionBounded (transition a b s) := by
  unfold transition
  split
  · exact positionBounded_reads.frame (acceptPair_touches a b s) hs
  · exact count_positionBounded _ _
  · exact count_positionBounded _ _
  · exact positionBounded_reads.frame (raise_touches _ _) (positionBounded_reads.frame (countTotal_touches _ _ _)
      (positionBounded_reads.frame (acceptPair_touches a b s) hs))

theorem cmdRollMount_positionBounded {s : State} (hs : PositionBounded s) : PositionBounded (cmdRollMount s) := by
  unfold cmdRollMount
  split
  · exact hs
  · split
    · exact hs
    · split
      · exact hs
      · exact positionBounded_zero rfl rfl

theorem effect_positionBounded (c : Instr) (s : State) (hw : (accessOf c).isSome = true → c.wf = true)
    (hs : PositionBounded s) : PositionBounded (effect c s) := by
  rcases positionBounded_reads.effect_cases [.coldReset false false 0, .warmReset, .encoderTransition false false,
    .rollMount] hw hs with
    kept | ⟨_, _, _, rfl⟩ | rfl | ⟨a, b, rfl⟩ | rfl
  · exact kept
  · exact positionBounded_zero rfl rfl
  · exact positionBounded_zero rfl rfl
  · exact transition_positionBounded a b hs
  · exact cmdRollMount_positionBounded hs

end Sys2Proof.Machine

namespace Sys2Proof.Proofs

open Sys2Proof.Machine

/-- Settles O55: of the commands only the encoder's counts, a mount and the resets set P. -/
theorem positionStaysBounded : Obligations.PositionStaysBounded :=
  fun _ _ hs h => positionBounded_reads.step_keeps effect_positionBounded (h := h) (hs := hs)

end Sys2Proof.Proofs
end

