-- ==== Sys2Proof/Proofs/Resets.lean ====
section
/-! SUPPORT. The two resets, block by block (R10 and each block's reset rule): settles O4, O5 and O54. -/

-- Kernel checks run beside the elaboration; a lemma marked `Elab.async false` waits for those before it, so that few of
-- them, each on a thread of its own, are under way at a time.

namespace Sys2Proof.Machine

theorem total_zero (k : Total) : TallyBank.zero.total k = 0 := List.getElem?_getD_replicate_default_eq 0 16 k.place

theorem lane_zero (n : Nat) : TallyBank.zero.lane n = ⟨0, 0, 0, 0⟩ := List.getElem?_getD_replicate_default_eq _ 24 (n - 1)

theorem lane_cold (n : Nat) : SlitPlan.cold.lane n = LaneRecord.cold := List.getElem?_getD_replicate_default_eq _ 24 (n - 1)

/-- R172. -/
theorem afterReset_eq (p : LinkPhase) : p.afterReset = if p = .idle then .idle else .ignored := by
  cases p <;> rfl

theorem usedLanes_cold : SlitPlan.cold.usedLanes = [] :=
  List.filter_eq_nil_iff.mpr fun n _ h => by rewrite [lane_cold] at h; cases h

theorem status_cold : SlitPlan.cold.status = .noLanes := by
  unfold SlitPlan.status
  exact if_pos usedLanes_cold

set_option Elab.async false in
theorem reelCount_cold : SlitPlan.cold.reelCount = 0 :=
  congrArg (fun l => (l.filter fun n => (SlitPlan.cold.lane n).hasReel).length) usedLanes_cold

end Sys2Proof.Machine

namespace Sys2Proof.Proofs

open Sys2Proof.Machine

/-- Settles O4: each block is its cold state, whatever the state before. -/
theorem coldReset : Obligations.ColdReset := fun _ _ _ _ =>
  ⟨_, rfl, ⟨rfl, rfl, rfl, rfl, rfl, rfl, rfl, rfl, rfl, rfl, rfl, rfl, rfl, rfl, rfl, rfl, rfl, rfl, rfl, rfl, rfl⟩,
    ⟨rfl, fun | 0 | 1 | 2 | 3 => ⟨rfl, rfl, rfl, rfl, rfl, rfl, rfl⟩⟩, ⟨rfl, rfl, rfl, rfl⟩,
    ⟨rfl, rfl, rfl, rfl, rfl, rfl, rfl, rfl⟩, ⟨rfl, rfl, rfl, rfl, rfl, rfl, rfl, rfl, rfl⟩, ⟨rfl, rfl, rfl⟩,
    ⟨rfl, rfl, rfl, rfl, rfl, rfl, rfl, rfl, rfl, rfl, rfl⟩,
    ⟨fun n _ _ => lane_cold n, rfl, rfl, status_cold, usedLanes_cold, reelCount_cold⟩,
    ⟨rfl, rfl, rfl, rfl, rfl, rfl, rfl, rfl, rfl, rfl⟩, ⟨rfl, rfl, rfl, rfl, rfl, rfl, rfl⟩,
    ⟨fun k => ⟨total_zero k, total_zero k⟩, rfl, rfl, rfl, fun n _ _ => ⟨lane_zero n, lane_zero n⟩⟩, rfl,
    ⟨rfl, rfl, rfl, rfl, rfl, rfl, rfl, rfl, rfl, rfl, rfl, rfl, rfl, rfl⟩, ⟨rfl, rfl, afterReset_eq _⟩,
    ⟨rfl, rfl, rfl, rfl, rfl, rfl, rfl, rfl, rfl, rfl⟩⟩

/-- Settles O5: WARM_RESET is an access of the free Line Port that answers at once. -/
theorem warmReset : Obligations.WarmReset := fun s free =>
  ⟨_, congrArg Host.Outcome.next (beginAccess_free (.write 2 0x5A) s free), rfl, rfl,
    ⟨rfl, fun | 0 | 1 | 2 | 3 => rfl⟩, ⟨rfl, rfl, rfl, rfl⟩, rfl, rfl, rfl, rfl, rfl, rfl, rfl,
    ⟨rfl, rfl, rfl, rfl, rfl, rfl, rfl⟩, ⟨total_zero, fun n _ _ => lane_zero n, rfl, rfl, rfl, rfl⟩, rfl,
    ⟨rfl, rfl, rfl, rfl, rfl, rfl, rfl, rfl, rfl, rfl⟩, ⟨rfl, rfl, afterReset_eq _⟩,
    ⟨rfl, rfl, rfl, rfl, rfl, rfl, rfl, rfl, rfl, rfl⟩⟩

/-- Settles O54: every list is empty, no set is open and no roll is mounted. -/
theorem resetMeetsInvariants : Obligations.ResetMeetsInvariants :=
  ⟨positionBounded_zero rfl rfl, ⟨Nat.zero_le _, .nil, .nil, fun _ h => (nomatch h)⟩, ⟨zero_bounded, zero_bounded⟩,
    ⟨fun h => (nomatch h), fun h => (nomatch h), fun _ h => (nomatch h), fun h => (nomatch h)⟩,
    ⟨by decide, (if_neg Bool.false_ne_true).mpr ⟨rfl, rfl, rfl⟩⟩,
    ⟨Nat.zero_le _, Nat.zero_le _, Nat.zero_le _, Nat.zero_le _, Nat.zero_le _, Nat.zero_le _⟩,
    ⟨by decide, by decide, by decide, by decide⟩,
    ⟨by decide, by decide, by decide, by decide, by decide, by decide⟩,
    ⟨fun _ _ h => (nomatch h), fun _ h => (nomatch h), fun _ => ⟨rfl, rfl, rfl⟩⟩,
    ⟨.nil, by decide, by decide, by decide, by decide⟩,
    ⟨fun _ h => (nomatch h), fun _ h => (nomatch h), rfl, rfl⟩, ⟨by decide, fun h => absurd rfl h⟩⟩

end Sys2Proof.Proofs
end

