-- ==== Sys2Proof/Proofs/Encoder.lean ====
section
/-! SUPPORT. The encoder's transitions and the comparators' tests at a rise of P (R1 to R4, R15 to R17, R20): settles O6, O7,
O8 and O12. -/

-- Kernel checks run beside the elaboration; a lemma marked `Elab.async false` waits for those before it, so that few of
-- them, each on a thread of its own, are under way at a time.

namespace Sys2Proof.Machine

/-! ### Transitions (R1 to R4) -/

/-- R1: the turn of a pair of levels from the accepted pair, forward or reverse by DIR_INVERT. -/
theorem turn_eq (x : PositionUnit) (a b : Bool) :
    x.turn a b = { PositionUnit.cold x.encA x.encB with dirInvert := x.dirInvert }.turn a b := rfl

theorem turn_same (x : PositionUnit) : x.turn x.encA x.encB = .unchanged := by
  rewrite [turn_eq]
  generalize x.encA = a, x.encB = b, x.dirInvert = d
  revert a b d
  decide

theorem turn_opposite (x : PositionUnit) : x.turn (!x.encA) (!x.encB) = .illegal := by
  rewrite [turn_eq]
  generalize x.encA = a, x.encB = b, x.dirInvert = d
  revert a b d
  decide

theorem turn_legal (x : PositionUnit) (a b : Bool)
    (h : cycleNext (x.encA, x.encB) = (a, b) ∨ cycleNext (a, b) = (x.encA, x.encB)) :
    x.turn a b = if (cycleNext (x.encA, x.encB) == (a, b)) != x.dirInvert then .forward else .reverse := by
  rewrite [turn_eq]
  revert h
  generalize x.encA = c, x.encB = e, x.dirInvert = d
  revert a b c e d
  decide

/-- R2, R3: the accumulator is clamped, and P is its whole part. -/
theorem counted_clamped (x : PositionUnit) (d : Int) :
    x.counted d = ({ x with
      p := clampInt 0 accumulatorMax (x.p * 65536 + x.frac + d) / 65536
      frac := clampInt 0 accumulatorMax (x.p * 65536 + x.frac + d) % 65536 },
      decide (x.p * 65536 + x.frac + d < 0) || decide (accumulatorMax < x.p * 65536 + x.frac + d)) := by
  unfold PositionUnit.counted PositionUnit.accumulator
  generalize x.p * 65536 + x.frac + d = n
  have max : posMax * 65536 + 65535 = accumulatorMax := rfl
  dsimp only
  rewrite [max]
  unfold clampInt
  by_cases h : n < 0
  · simp [h]
  · by_cases k : accumulatorMax < n
    · simp [h, k]
      decide
    · simp [h, k]

/-- R1 to R3: the state in which a legal transition, that asks for the accumulator `n`, hands P on. -/
def State.turned (s : State) (a b : Bool) (n : Int) : State :=
  raiseIf (decide (n < 0) || decide (accumulatorMax < n)) .positionLimit ((acceptPair a b s).setPos { s.pos with
    encA := a, encB := b, p := clampInt 0 accumulatorMax n / 65536, frac := clampInt 0 accumulatorMax n % 65536 })

theorem count_accepted (a b : Bool) (d : Int) (s : State) :
    count d (acceptPair a b s) = handOnP s.pos.p (s.turned a b (s.pos.p * 65536 + s.pos.frac + d)) := by
  unfold count
  rewrite [counted_clamped]
  rfl

theorem transition_legal {a b : Bool} {s : State} (h : s.turnsTo a b) :
    transition a b s = handOnP s.pos.p (s.turned a b (s.askedFor a b)) := by
  unfold transition State.askedFor
  rewrite [turn_legal s.pos a b h]
  cases (cycleNext (s.pos.encA, s.pos.encB) == (a, b)) != s.pos.dirInvert with
  | true => exact count_accepted a b s.pos.pitch s
  | false => exact count_accepted a b (-s.pos.pitch) s

/-- What stands when P is handed on. -/
theorem turned_fields (s : State) (a b : Bool) (n : Int) :
    (s.turned a b n).comps = s.comps ∧ (s.turned a b n).tracker = s.tracker ∧ (s.turned a b n).planner = s.planner ∧
    (s.turned a b n).reels = s.reels ∧ (s.turned a b n).pos = { s.pos with
      encA := a, encB := b, p := clampInt 0 accumulatorMax n / 65536, frac := clampInt 0 accumulatorMax n % 65536 } :=
  have raised := raiseIf_touches (decide (n < 0) || decide (accumulatorMax < n)) .positionLimit
    ((acceptPair a b s).setPos { s.pos with
      encA := a, encB := b, p := clampInt 0 accumulatorMax n / 65536, frac := clampInt 0 accumulatorMax n % 65536 })
  ⟨raised.comps, raised.tracker, raised.planner, raised.reels, raised.pos⟩

theorem turned_flag (s : State) (a b : Bool) (n : Int) (e : Event) : (s.turned a b n).events.flag e =
    (s.events.flag e || ((decide (n < 0) || decide (accumulatorMax < n)) && decide (.positionLimit = e))) :=
  raiseIf_flag _ _ _ _

/-! ### The comparators (R15 to R17, R20) -/

theorem get_put (c : Comparators) (x : Channel) (i : Fin 4) : (c.put x i).get i = x :=
  match i with
  | 0 | 1 | 2 | 3 => rfl

theorem get_put_ne (c : Comparators) (x : Channel) {i j : Fin 4} (h : j ≠ i) : (c.put x i).get j = c.get j := by
  revert h
  fin_cases i <;> fin_cases j <;> first | exact fun _ => rfl | exact fun h => absurd rfl h

/-- R15: the reference value at which a channel matches. -/
def State.matchAt (s : State) (i : Fin 4) : Option Int := (s.referenceOf (s.comps.get i)).filter (s.comps.get i).matches

theorem testChannel_eq (i : Fin 4) (e : Event) (s : State) : testChannel i e s = match s.matchAt i with
    | none => s
    | some r => raise e (s.setComps (s.comps.put ((s.comps.get i).fire (s.comps.get i).reload r) i)) := by
  unfold testChannel State.matchAt
  dsimp only
  cases s.referenceOf (s.comps.get i) with
  | none => rfl
  | some r =>
    rewrite [Option.filter_some]
    dsimp only
    cases (s.comps.get i).matches r <;> rfl

set_option Elab.async false in
theorem testChannel_get (i : Fin 4) (e : Event) (s : State) : (testChannel i e s).comps.get i =
    match s.matchAt i with
    | none => s.comps.get i
    | some r => (s.comps.get i).fire (s.comps.get i).reload r := by
  rewrite [testChannel_eq]
  cases s.matchAt i with
  | none => rfl
  | some r => exact get_put _ _ i

theorem testChannel_get_ne {i j : Fin 4} (e : Event) (s : State) (h : j ≠ i) :
    (testChannel i e s).comps.get j = s.comps.get j := by
  rewrite [testChannel_eq]
  cases s.matchAt i with
  | none => rfl
  | some r => exact get_put_ne _ _ h

theorem testChannel_flag (i : Fin 4) (e f : Event) (s : State) :
    (testChannel i e s).events.flag f = (s.events.flag f || ((s.matchAt i).isSome && decide (e = f))) := by
  rewrite [testChannel_eq]
  cases s.matchAt i with
  | none => exact (Bool.or_false _).symm
  | some r => exact raise_flag e f _

/-- A test of channels 1 to 3 is no strobe. -/
theorem testChannel_frame {i : Fin 4} (e : Event) (s : State) (h : i ≠ 0) : Touches [.channels, .flags] s (testChannel i e s) := by
  rewrite [testChannel_eq]
  cases s.matchAt i with
  | none => exact Touches.refl _ s
  | some r => exact (setChannel_touches _ i s h).trans (raise_touches _ _)

theorem matchAt_congr {s t : State} {i : Fin 4} (hc : t.comps.get i = s.comps.get i) (hp : t.pos = s.pos)
    (ho : t.reels = s.reels) : t.matchAt i = s.matchAt i := by
  unfold State.matchAt State.referenceOf State.setLength State.commitLine
  rewrite [hc, hp, ho]
  rfl

theorem testStrobe_frame (s : State) : (testStrobe s).pos = s.pos ∧ (testStrobe s).reels = s.reels ∧
    (testStrobe s).events = s.events ∧ ∀ j, j ≠ 0 → (testStrobe s).comps.get j = s.comps.get j :=
  have touched := testStrobe_touches s
  have ⟨c1, c2, c3⟩ := touched.same .channels
  ⟨touched.pos, touched.reels, touched.events, fun | 1, _ => c1 | 2, _ => c2 | 3, _ => c3⟩

/-- R15: each of channels 1 to 3 is tested as it stands before the tests of the others. -/
theorem testComparators_channel (s : State) {i : Fin 4} {e : Event}
    (h : (i = 1 ∧ e = .cmp1) ∨ (i = 2 ∧ e = .cmp2) ∨ (i = 3 ∧ e = .cmp3)) :
    (testComparators s).comps.get i = (match s.matchAt i with
      | none => s.comps.get i
      | some r => (s.comps.get i).fire (s.comps.get i).reload r) ∧
    (testComparators s).events.flag e = (s.events.flag e || (s.matchAt i).isSome) := by
  have ⟨p0, r0, e0, c0⟩ := testStrobe_frame s
  let u := testStrobe s
  let v := testChannel 1 .cmp1 u
  let w := testChannel 2 .cmp2 v
  have f1 := testChannel_frame .cmp1 u (i := 1) (by decide)
  have f2 := testChannel_frame .cmp2 v (i := 2) (by decide)
  have pv : v.pos = s.pos := f1.pos.trans p0
  have rv : v.reels = s.reels := f1.reels.trans r0
  have flag (i j k : Bool) (f : Event) (hi : decide (Event.cmp1 = f) = i) (hj : decide (Event.cmp2 = f) = j)
      (hk : decide (Event.cmp3 = f) = k) : (testComparators s).events.flag f = (s.events.flag f ||
        ((u.matchAt 1).isSome && i) || ((v.matchAt 2).isSome && j) || ((w.matchAt 3).isSome && k)) := by
    subst hi hj hk
    show (testChannel 3 .cmp3 w).events.flag f = _
    rewrite [testChannel_flag, testChannel_flag, testChannel_flag, e0]
    rfl
  rcases h with ⟨rfl, rfl⟩ | ⟨rfl, rfl⟩ | ⟨rfl, rfl⟩
  · have m := matchAt_congr (i := 1) (c0 1 (by decide)) p0 r0
    refine ⟨?_, ?_⟩
    · rewrite [← m, ← c0 1 (by decide), ← testChannel_get 1 .cmp1]
      exact (testChannel_get_ne .cmp3 w (by decide)).trans (testChannel_get_ne .cmp2 v (by decide))
    · rewrite [flag true false false _ rfl rfl rfl, m]
      simp
  · have c : v.comps.get 2 = s.comps.get 2 := (testChannel_get_ne .cmp1 u (by decide)).trans (c0 2 (by decide))
    have m := matchAt_congr (i := 2) c pv rv
    refine ⟨?_, ?_⟩
    · rewrite [← m, ← c, ← testChannel_get 2 .cmp2]
      exact testChannel_get_ne .cmp3 w (by decide)
    · rewrite [flag false true false _ rfl rfl rfl, m]
      simp
  · have c : w.comps.get 3 = s.comps.get 3 := (testChannel_get_ne .cmp2 v (by decide)).trans
      ((testChannel_get_ne .cmp1 u (by decide)).trans (c0 3 (by decide)))
    have m := matchAt_congr (i := 3) c (f2.pos.trans pv) (f2.reels.trans rv)
    refine ⟨?_, ?_⟩
    · rewrite [← m, ← c]
      exact testChannel_get 3 .cmp3 w
    · rewrite [flag false false true _ rfl rfl rfl, m]
      simp

/-- The advances of a match point that a number of reloads bounds. -/
theorem advances_eq {m reload r : Int} {k : Int} (h : 0 < reload) (low : m + k * reload ≤ r)
    (high : r < m + (k + 1) * reload) : (r - m) / reload = k := by
  rewrite [add_one_mul] at high
  refine le_antisymm (Int.lt_add_one_iff.mp ((Int.ediv_lt_iff_lt_mul h).mpr ?_)) ((Int.le_ediv_iff_mul_le h).mpr ?_)
  · rewrite [add_one_mul]
    omega
  · omega

/-- R16, R17: what a match makes of a channel. -/
theorem fire_outcomes (ch : Channel) (reload r : Int) :
    (reload = 0 → ch.fire reload r = { ch with out := true, outTicked := false, run := false }) ∧
    (∀ k : Nat, 1 ≤ k → 0 < reload → ch.matchPoint + (k - 1) * reload ≤ r → r < ch.matchPoint + k * reload →
      ch.matchPoint + k * reload ≤ posMax → ch.fire reload r = { ch with
        out := true, outTicked := false, matchPoint := ch.matchPoint + k * reload
        skipped := min 65535 (ch.skipped + (k - 1)) }) ∧
    ∀ k : Nat, 0 < reload → ch.matchPoint + k * reload ≤ r → ch.matchPoint + k * reload ≤ posMax →
      posMax < ch.matchPoint + (k + 1) * reload → ch.fire reload r = { ch with
        out := true, outTicked := false, run := false, matchPoint := ch.matchPoint + k * reload
        skipped := min 65535 (ch.skipped + (k - 1)) } := by
  have skips (k : Nat) : ((k : Int) - 1).toNat = k - 1 := by omega
  unfold Channel.fire
  refine ⟨fun h => if_pos h, fun k _ h low high room => ?_, fun k h reached low high => ?_⟩
  · have n : (r - ch.matchPoint) / reload = k - 1 := advances_eq h low (by rewrite [sub_add_cancel]; exact high)
    have fits : (k : Int) ≤ (posMax - ch.matchPoint) / reload := (Int.le_ediv_iff_mul_le h).mpr (by omega)
    dsimp only
    rewrite [if_neg (ne_of_gt h), n, sub_add_cancel, if_pos fits, skips]
    rfl
  · have room : (posMax - ch.matchPoint) / reload = k := advances_eq h low high
    have n : (k : Int) ≤ (r - ch.matchPoint) / reload := (Int.le_ediv_iff_mul_le h).mpr (by omega)
    dsimp only
    rewrite [if_neg (ne_of_gt h), room, if_neg (by omega), skips]
    rfl

theorem matches_iff (ch : Channel) (r : Int) : ch.matches r = true ↔ ch.run = true ∧ ch.matchPoint ≠ 0 ∧ ch.matchPoint ≤ r := by
  simp [Channel.matches, and_assoc]

theorem testComparators_flag (s : State) {e : Event} (h1 : e ≠ .cmp1) (h2 : e ≠ .cmp2) (h3 : e ≠ .cmp3) :
    (testComparators s).events.flag e = s.events.flag e := by
  have ⟨_, _, e0, _⟩ := testStrobe_frame s
  unfold testComparators
  rewrite [testChannel_flag, testChannel_flag, testChannel_flag, e0, decide_eq_false h1.symm, decide_eq_false h2.symm,
    decide_eq_false h3.symm]
  simp only [Bool.and_false, Bool.or_false]

/-- R20: the strobe channel at a rise of P. -/
theorem testComparators_strobe (s : State) :
    let t := testComparators s
    (s.comps.ch0.matches s.pos.p = true → t.comps.ch0 = s.comps.ch0.fire s.tracker.strobePitch s.pos.p ∧
      t.comps.strobeSeq = (s.comps.strobeSeq + 1) % 256 ∧
      t.tracker.history = (⟨(s.comps.strobeSeq + 1) % 256, s.pos.p⟩ :: s.tracker.history).take 4) ∧
    (s.comps.ch0.matches s.pos.p = false → t.comps.ch0 = s.comps.ch0 ∧ t.comps.strobeSeq = s.comps.strobeSeq ∧
      t.tracker.history = s.tracker.history) := by
  have tested : Touches [.channels, .flags] (testStrobe s) (testComparators s) :=
    ((testChannel_frame .cmp1 _ (by decide)).trans (rs := [.channels, .flags])
      (testChannel_frame .cmp2 _ (by decide))).trans (testChannel_frame .cmp3 _ (by decide))
  have ⟨ch0, seq⟩ := tested.same .strobeChannel
  have history : (testComparators s).tracker.history = (testStrobe s).tracker.history := tested.same .history
  dsimp only
  rewrite [ch0, seq, history]
  unfold testStrobe
  dsimp only
  cases s.comps.ch0.matches s.pos.p with
  | true => exact ⟨fun _ => ⟨rfl, rfl, rfl⟩, fun h => (nomatch h)⟩
  | false => exact ⟨fun h => (nomatch h), fun _ => ⟨rfl, rfl, rfl⟩⟩

/-- R17: an output whose tick has ended is negated, and nothing else changes. -/
theorem endPulse_negates (i : Fin 4) {s : State} (h : (s.comps.get i).out = true → (s.comps.get i).outTicked = true) :
    ((endPulse i s).comps.get i).out = false ∧ (∀ j, j ≠ i → (endPulse i s).comps.get j = s.comps.get j) ∧
    (endPulse i s).comps.strobeSeq = s.comps.strobeSeq := by
  unfold endPulse
  dsimp only
  split
  · refine ⟨congrArg Channel.out (get_put _ _ i), fun j hj => get_put_ne _ _ hj, ?_⟩
    match i with
    | 0 | 1 | 2 | 3 => rfl
  · rename_i kept
    exact ⟨Bool.eq_false_iff.mpr fun out => kept ⟨out, h out⟩, fun _ _ => rfl, rfl⟩

theorem ticked_get (c : Comparators) (i : Fin 4) : c.ticked.get i = { c.get i with outTicked := (c.get i).out } :=
  match i with
  | 0 | 1 | 2 | 3 => rfl

/-! ### P handed on (R2) -/

/-- A P handed on is tested by the comparators, when it has risen, and then by the Stop Planner. -/
theorem handOnP_tested (old : Int) (s : State) : ∃ u, (u = s ∨ old < s.pos.p ∧ u = testComparators s) ∧
    (old < s.pos.p → u = testComparators s) ∧ Touches (.yields :: Part.planning) u (handOnP old s) := by
  unfold handOnP
  split
  · exact ⟨s, .inl rfl, fun h => absurd h (by omega), Touches.refl _ s⟩
  · split
    · exact ⟨_, .inr ⟨‹_›, rfl⟩, fun _ => rfl, (positionTest_touches _).trans (lapseRelease_touches _)⟩
    · exact ⟨s, .inl rfl, fun h => absurd h ‹_›, (positionTest_touches _).trans (lapseRelease_touches _)⟩

/-- R15 to R17: a channel of 1 to 3 at a rise of P, with the reference value after it. -/
theorem channel_at_rise {a b : Bool} {s : State} {i : Fin 4} {e : Event} (h : s.turnsTo a b) (rise : s.pos.p < s.nextP a b)
    (hi : (i = 1 ∧ e = .cmp1) ∨ (i = 2 ∧ e = .cmp2) ∨ (i = 3 ∧ e = .cmp3)) {ch : Channel} (hc : s.comps.get i = ch)
    {ref : Option Int} (href : (s.turned a b (s.askedFor a b)).referenceOf ch = ref) :
    ((ref = none ∨ ch.run = false ∨ ch.matchPoint = 0 ∨ ∃ r, ref = some r ∧ r < ch.matchPoint) →
      (transition a b s).comps.get i = ch ∧ (transition a b s).events.flag e = s.events.flag e) ∧
    ∀ r, ref = some r → ch.run = true → ch.matchPoint ≠ 0 → ch.matchPoint ≤ r →
      (transition a b s).events.flag e = true ∧ (transition a b s).comps.get i = ch.fire ch.reload r := by
  have ⟨comps, _, _, _, pos⟩ := turned_fields s a b (s.askedFor a b)
  have ⟨u, _, hu, after⟩ := handOnP_tested s.pos.p (s.turned a b (s.askedFor a b))
  obtain rfl := hu (by rewrite [pos]; exact rise)
  have ⟨channel, flag⟩ := testComparators_channel (s.turned a b (s.askedFor a b)) hi
  have quiet : (s.turned a b (s.askedFor a b)).events.flag e = s.events.flag e := by
    rewrite [turned_flag]
    rcases hi with ⟨_, rfl⟩ | ⟨_, rfl⟩ | ⟨_, rfl⟩ <;> simp
  have tested : (s.turned a b (s.askedFor a b)).matchAt i = ref.filter ch.matches := by
    unfold State.matchAt
    rewrite [comps, hc, href]
    rfl
  rewrite [transition_legal h, after.comps, after.flag e, channel, flag, quiet, tested, comps, hc]
  refine ⟨fun miss => ?_, fun r hr run point reached => ?_⟩
  · have none : ref.filter ch.matches = none := Option.filter_eq_none_iff.mpr fun r hr m => by
      have ⟨run, point, reached⟩ := (matches_iff ch r).mp m
      rcases miss with h | h | h | ⟨q, hq, lt⟩
      · rewrite [h] at hr; cases hr
      · rewrite [h] at run; cases run
      · exact point h
      · rewrite [hq] at hr; cases hr; omega
    rewrite [none]
    exact ⟨rfl, Bool.or_false _⟩
  · have some : ref.filter ch.matches = some r := by
      rewrite [hr, Option.filter_some, if_pos ((matches_iff ch r).mpr ⟨run, point, reached⟩)]
      rfl
    rewrite [some]
    exact ⟨Bool.or_true _, rfl⟩

end Sys2Proof.Machine

namespace Sys2Proof.Proofs

open Sys2Proof.Machine

/-- Settles O6: the counted state is handed on, and only a rise of P tests the comparators. -/
theorem encoderCount : Obligations.EncoderCount := by
  refine ⟨fun a b s h => ⟨_, rfl, ?_⟩, fun s => ⟨_, rfl, ?_⟩⟩
  · have ⟨comps, tracker, planner, _, pos⟩ := turned_fields s a b (s.askedFor a b)
    have ⟨u, hu, _, after⟩ := handOnP_tested s.pos.p (s.turned a b (s.askedFor a b))
    have upos : u.pos = (s.turned a b (s.askedFor a b)).pos := by
      rcases hu with rfl | ⟨_, rfl⟩
      · rfl
      · exact (testComparators_touches _).pos
    have limit : u.events.flag .positionLimit = (s.turned a b (s.askedFor a b)).events.flag .positionLimit := by
      rcases hu with rfl | ⟨_, rfl⟩
      · rfl
      · exact testComparators_flag _ (by decide) (by decide) (by decide)
    have ⟨encA, encB⟩ := after.same .encoder
    have ⟨p, frac⟩ := after.same .position
    rewrite [transition_legal h]
    rewrite [encA, encB, p, frac, after.flag .positionLimit, limit, turned_flag, upos, pos]
    refine ⟨rfl, rfl, rfl, rfl, by simp [Bool.or_assoc], fun le => ?_, fun same => ?_⟩
    · have fell : u = s.turned a b (s.askedFor a b) := hu.resolve_right fun ⟨lt, _⟩ => by
        rewrite [pos] at lt
        exact absurd lt (not_lt.mpr le)
      rewrite [after.comps, after.tracker, fell]
      exact ⟨comps, tracker⟩
    · have held : handOnP s.pos.p (s.turned a b (s.askedFor a b)) = s.turned a b (s.askedFor a b) :=
        if_pos (by rewrite [pos]; exact same)
      rewrite [held, planner, pos]
      exact ⟨rfl, rfl⟩
  · have still : transition s.pos.encA s.pos.encB s = acceptPair s.pos.encA s.pos.encB s := by
      unfold transition
      rewrite [turn_same]
      rfl
    rewrite [still]
    exact ⟨rfl, rfl, rfl, rfl, rfl⟩

/-- Settles O7: an illegal transition is counted and raised, and hands nothing on. -/
theorem encoderFault : Obligations.EncoderFault := fun s bounded => by
  have illegal : transition (!s.pos.encA) (!s.pos.encB) s =
      raise .encoderFault (countTotal .encoderFaults 1 (acceptPair (!s.pos.encA) (!s.pos.encB) s)) := by
    unfold transition
    rewrite [turn_opposite]
    rfl
  have touched : Touches Part.counting (acceptPair (!s.pos.encA) (!s.pos.encB) s)
      (transition (!s.pos.encA) (!s.pos.encB) s) :=
    illegal ▸ (countTotal_touches _ _ _).trans (raise_touches _ _)
  refine ⟨_, rfl, touched.pos, ?_, ?_, ?_, touched.comps, touched.planner⟩
  · rewrite [illegal]
    exact (countTotal_total .encoderFaults .encoderFaults 1 (acceptPair (!s.pos.encA) (!s.pos.encB) s) bounded.length).trans
      (if_pos rfl)
  · rewrite [illegal]
    exact (transition_countsFrom_illegal _ _ s).shown bounded
  · rewrite [illegal, raise_flag]
    exact Bool.or_true _

/-- Settles O8: a tick marks every output that is asserted, so that its pulse can end. -/
theorem tickAndPulse : Obligations.TickAndPulse := by
  refine ⟨fun s => ⟨_, rfl, rfl, rfl, rfl, fun i => ?_⟩, fun i s _ ticked => ?_, fun i s ticked => ?_⟩
  · have marked : (tick s).comps.get i = { s.comps.get i with outTicked := (s.comps.get i).out } := ticked_get s.comps i
    have ⟨out, others, _⟩ := endPulse_negates i (s := tick s) fun h => by rewrite [marked] at h ⊢; exact h
    exact ⟨marked, _, rfl, out, others⟩
  · exact ⟨_, rfl, endPulse_negates i fun _ => ticked⟩
  · refine congrArg Host.Outcome.next (if_neg fun h => ?_)
    rewrite [ticked] at h
    exact Bool.false_ne_true h.2

/-- Settles O12: at a rise each channel is tested as it stands, and its match fires once. -/
theorem comparatorMatch : Obligations.ComparatorMatch := by
  refine ⟨fun a b s i e h rise hi => ⟨_, rfl, ?_⟩, fun a b s h rise => ⟨_, rfl, ?_⟩⟩
  · have ⟨_, _, _, reels, pos⟩ := turned_fields s a b (s.askedFor a b)
    refine And.imp id (fun hit r hr run point reached => ?_) (channel_at_rise h rise hi rfl ?_)
    · have ⟨flag, fired⟩ := hit r hr run point reached
      exact ⟨flag, by rewrite [fired]; exact fire_outcomes _ _ r⟩
    · unfold State.referenceOf State.setLength State.commitLine
      rewrite [reels, pos]
      cases (s.comps.get i).reference <;> cases s.reels.openSet <;> rfl
  · have ⟨comps, tracker, _, _, pos⟩ := turned_fields s a b (s.askedFor a b)
    have ⟨u, _, hu, after⟩ := handOnP_tested s.pos.p (s.turned a b (s.askedFor a b))
    obtain rfl := hu (by rewrite [pos]; exact rise)
    have ⟨hit, miss⟩ := testComparators_strobe (s.turned a b (s.askedFor a b))
    have p : (s.turned a b (s.askedFor a b)).pos.p = s.nextP a b := by rewrite [pos]; rfl
    rewrite [comps, tracker, p] at hit miss
    rewrite [transition_legal h, after.comps, after.tracker]
    refine ⟨fun ⟨run, point, reached⟩ => ?_, fun none => ?_⟩
    · have ⟨ch0, seq, history⟩ := hit ((matches_iff _ _).mpr ⟨run, point, reached⟩)
      have ⟨stop, advance, room⟩ := fire_outcomes s.comps.ch0 s.tracker.strobePitch (s.nextP a b)
      have out : (s.comps.ch0.fire s.tracker.strobePitch (s.nextP a b)).out = true ∧
          (s.comps.ch0.fire s.tracker.strobePitch (s.nextP a b)).outTicked = false := by
        unfold Channel.fire
        dsimp only
        split <;> [exact ⟨rfl, rfl⟩; (split <;> exact ⟨rfl, rfl⟩)]
      rewrite [ch0, seq, history]
      exact ⟨out.1, out.2, rfl, rfl, stop, advance, room⟩
    · refine miss (Bool.eq_false_iff.mpr fun m => ?_)
      have ⟨run, point, reached⟩ := (matches_iff _ _).mp m
      rcases none with h | h | h
      · rewrite [h] at run; cases run
      · exact point h
      · omega

end Sys2Proof.Proofs
end

