-- ==== Sys2Proof/Proofs/Sample.lean ====
section
/-! SUPPORT. The speed sample (R7 to R9, R66): settles O9. -/

namespace Sys2Proof.Machine

/-! ### The evaluation of a sample (R132, R137) -/

/-- Where a sample does not make the stop, it makes an evaluation or nothing. -/
theorem evaluateAtSample_outcomes (s : State) : evaluateAtSample s = s ∨ evaluateAtSample s = evaluate s ∨
    (s.planner.state = .halting ∧ evaluateAtSample s = enterStopped s) := by
  unfold evaluateAtSample
  split
  · exact .inl rfl
  · split
    · split
      · exact .inr (.inr ⟨‹_›, rfl⟩)
      · exact .inl rfl
    · exact .inr (.inl rfl)
    · exact .inr (.inl rfl)
    · exact .inr (.inl rfl)
    · exact .inr (.inl rfl)
    · exact .inl rfl

theorem enterStopped_touched (s : State) : Touches Part.counting
    (s.setPlanner { s.planner with state := .stopped, record := stopRecordOf s }) (enterStopped s) :=
  touches_ite (fun _ => ((raise_touches _ _).trans (rs := Part.counting) (countTotal_touches _ _ _)).trans
    ((raise_touches _ _).trans (rs := Part.counting) (countTotal_touches _ _ _)))
    fun _ => (raise_touches _ _).trans (countTotal_touches _ _ _)

theorem enterStopped_flag (s : State) {e : Event} (h1 : e ≠ .stopDone) (h2 : e ≠ .stopShort) (h3 : e ≠ .tallySat) :
    (enterStopped s).events.flag e = s.events.flag e := by
  have counted (f : Event) (k : Total) (t : State) (h : e ≠ f) :
      (countTotal k 1 (raise f t)).events.flag e = t.events.flag e := by
    rewrite [countTotal_flag k 1 _ e h3, raise_flag, decide_eq_false h.symm]
    exact Bool.or_false _
  unfold enterStopped
  dsimp only
  split
  · exact (counted _ _ _ h2).trans (counted _ _ _ h1)
  · exact counted _ _ _ h1

/-- R9: the settle count is cleared at an assertion of HALT, and otherwise stands. -/
theorem evaluateAtSample_settle (s : State) : (evaluateAtSample s).pos.settle =
    if (evaluateAtSample s).planner.state = .halting ∧ s.planner.state ≠ .halting then 0 else s.pos.settle := by
  rcases evaluateAtSample_outcomes s with h | h | ⟨halting, h⟩ <;> rewrite [h]
  · exact (Moved.refl s).settle
  · exact (evaluate_moved s).settle
  · rewrite [if_neg fun h => h.2 halting, (enterStopped_touched s).pos]
    rfl

theorem evaluateAtSample_flag (s : State) {e : Event} (h1 : e ≠ .stopDone) (h2 : e ≠ .stopShort) (h3 : e ≠ .tallySat) :
    (evaluateAtSample s).events.flag e = s.events.flag e := by
  rcases evaluateAtSample_outcomes s with h | h | ⟨_, h⟩ <;> rewrite [h]
  · rfl
  · exact (evaluate_touches s).flag e
  · exact enterStopped_flag s h1 h2 h3

/-! ### Missed splices (R66) -/

/-- R66: without a roll no splice is missed. -/
def State.missed (s : State) (r : MapRecord) : Bool := s.mounted && s.isMissed r

theorem State.missed_iff (s : State) (r : MapRecord) : s.missed r = decide (s.mounted = true ∧ r.kind = .splice ∧
    r.matchState = .unmatched ∧ s.predict r.m + s.align.matchWindow < s.pos.p - s.pos.offSplice) := by
  unfold State.missed State.isMissed
  rewrite [Bool.eq_iff_iff]
  simp [and_assoc]

theorem declareMissed_records (s : State) : (declareMissed s).pmap.records =
    s.pmap.records.map (fun r => if s.missed r then { r with matchState := .missed } else r) ∧
    (declareMissed s).events.flag .spliceMissed =
      (s.events.flag .spliceMissed || s.pmap.records.any s.missed) := by
  unfold declareMissed State.missed
  cases s.mounted with
  | false =>
    refine ⟨((List.map_congr_left fun r _ => if_neg ?_).trans (List.map_id _)).symm, ?_⟩
    · exact Bool.false_ne_true
    · exact (congrArg (_ || ·) (List.any_eq_false.mpr fun _ _ => Bool.false_ne_true)).trans (Bool.or_false _) |>.symm
  | true =>
    cases any : s.pmap.records.any s.isMissed with
    | false =>
      refine ⟨((List.map_congr_left fun r hr => if_neg ?_).trans (List.map_id _)).symm, ?_⟩
      · exact List.any_eq_false.mp any r hr
      · exact ((congrArg (_ || ·) any).trans (Bool.or_false _)).symm
    | true => exact ⟨rfl, (raise_flag _ _ _).trans (congrArg (_ || ·) any.symm)⟩

theorem declareMissed_flag (s : State) {e : Event} (h : e ≠ .spliceMissed) :
    (declareMissed s).events.flag e = s.events.flag e := by
  unfold declareMissed
  split
  · exact (raise_flag _ _ _).trans ((congrArg (_ || ·) (decide_eq_false h.symm)).trans (Bool.or_false _))
  · rfl

/-! ### The sample (R7 to R9) -/

theorem sampled_settle (x : PositionUnit) :
    x.sampled.settle = if x.p = x.sampleBase then min 255 (x.settle + 1) else 0 := by
  unfold PositionUnit.sampled
  refine if_congr ?_ rfl rfl
  unfold clampInt PositionUnit.delta
  split <;> [omega; (split <;> omega)]

theorem sampled_overspeed (x : PositionUnit) : x.sampled.overspeed = decide (2000 < (x.p - x.sampleBase).natAbs) := by
  refine decide_eq_decide.mpr ?_
  rewrite [absInt_eq_abs, Int.abs_eq_natAbs]
  exact Nat.ofNat_lt_cast

end Sys2Proof.Machine

namespace Sys2Proof.Proofs

open Sys2Proof.Machine

/-- Settles O9: the parts of the sample one after the other, each leaving the fields of the others alone. -/
theorem speedSample : Obligations.SpeedSample := by
  refine ⟨⟨fun s due => ⟨_, congrArg Host.Outcome.next (if_pos due), ?_⟩, fun s idle =>
    congrArg Host.Outcome.next (if_neg ?_)⟩, fun s due => ⟨_, congrArg Host.Outcome.next (if_pos due), ?_⟩⟩
  · have measured : (Machine.measure s).pos = s.pos.sampled := (raiseIf_touches _ _ _).pos
    have held : (Machine.measure s).planner = s.planner := (measure_touches s).planner
    have after := evaluateAtSample_touches (Machine.measure s)
    have last := declareMissed_touches (evaluateAtSample (Machine.measure s))
    have ⟨base, v, overspeed⟩ := after.same .speed
    have ⟨_, _, idle, _⟩ := after.same .timebase
    have ⟨p, _⟩ := after.same .position
    rewrite [last.pos, last.planner, base, v, overspeed, idle, p,
      declareMissed_flag _ (by decide),
      evaluateAtSample_flag _ (by decide) (by decide) (by decide), evaluateAtSample_settle, held, measured,
      Machine.measure, raiseIf_flag, sampled_settle, ← sampled_overspeed]
    exact ⟨rfl, rfl, rfl, rfl, rfl, congrArg (_ || ·) (Bool.and_true _), if_congr and_comm rfl rfl⟩
  · rewrite [idle]
    exact Bool.false_ne_true
  · have seen : Touches ([.timebase, .speed, .stopRecord] ++ Part.counting ++ Part.planning) s
        (evaluateAtSample (Machine.measure s)) :=
      (measure_touches s).trans (evaluateAtSample_touches _)
    have missed : (evaluateAtSample (Machine.measure s)).missed = s.missed := by
      funext r
      have ⟨p, _⟩ := seen.same .position
      have ⟨_, _, _, offSplice, _⟩ := seen.same .positionConfig
      rewrite [State.missed, State.missed, State.isMissed, State.isMissed, State.mounted, State.mounted,
        State.predict, State.predict, seen.align, p, offSplice, seen.same .roll]
      rfl
    have ⟨records, flag⟩ := declareMissed_records (evaluateAtSample (Machine.measure s))
    rewrite [missed, seen.pmap] at records flag
    have quiet : (Machine.measure s).events.flag .spliceMissed = s.events.flag .spliceMissed :=
      (raiseIf_flag _ _ _ _).trans ((congrArg (_ || ·) (Bool.and_false _)).trans (Bool.or_false _))
    rewrite [records, flag, evaluateAtSample_flag _ (by decide) (by decide) (by decide), quiet]
    rewrite [← funext s.missed_iff]
    exact ⟨rfl, rfl⟩

end Sys2Proof.Proofs
end

