-- ==== Sys2Proof/Proofs/Commands.lean ====
section
/-! SUPPORT. Commands of the Line Port that answer at once (R12, R13, R18, R52, R105, R150): settles O45, O46 and O49. -/

-- Kernel checks run beside the elaboration; a lemma marked `Elab.async false` waits for those before it, so that few of
-- them, each on a thread of its own, are under way at a time.

namespace Sys2Proof.Machine

/-! ### An answer of a free Line Port (R161, R164) -/

/-- R164: a command that comes to a result in `t` answers it at once. -/
theorem answers {c : Instr} {d : Word} {s u t : State} {r : ResultCode} (free : s.portFree)
    (hc : exec c s = .next (commandWrite d s)) (hd : carryOut d s = taken u) (hu : u = setResult r t) :
    exec c s = .next (t.answered r) := by
  rewrite [hc, commandWrite, beginAccess_free _ s free]
  exact congrArg (fun x => Host.Outcome.next (answer x)) (hd.trans (congrArg taken hu))

set_option Elab.async false in
/-- R13, R144, R145: a command that comes to a wait for its class 5 operation. -/
theorem waits {c : Instr} {d : Word} {s t : State} {w : WaitingAccess} (free : s.portFree)
    (hc : exec c s = .next (commandWrite d s)) (hd : carryOut d s = (t, .wait w)) : exec c s = .next (t.waitingFor w) := by
  rewrite [hc, commandWrite, beginAccess_free _ s free]
  exact congrArg (fun x => Host.Outcome.next (answer x)) hd

/-- The check of NO_ROLL passed. -/
theorem mounted_checked {s : State} (on : s.mounted = true) : ¬ (!s.mounted) = true := by
  rewrite [on]
  exact Bool.false_ne_true

/-- The check of SET_OPEN passed. -/
theorem closed_checked {s : State} (closed : s.reels.openSet = none) : ¬ s.reels.openSet.isSome = true := by
  rewrite [closed]
  exact Bool.false_ne_true

theorem carryOut_other {d : Word} (s : State)
    (h : d.toNat % 256 ∉ [0x01, 0x02, 0x03, 0x04, 0x05, 0x06, 0x07, 0x08, 0x09, 0x0A, 0x5A]) :
    carryOut d s = taken (setResult .badArg s) := by
  unfold carryOut
  split
  case h_12 => rfl
  all_goals
    rename_i value
    rewrite [value] at h
    exact absurd (by decide) h

/-! ### Two words of one value (R160) -/

theorem toNat_append_words (hi lo : Word) : (hi ++ lo).toNat = hi.toNat * 65536 + lo.toNat := by
  rewrite [BitVec.toNat_append, ← Nat.shiftLeft_add_eq_or_of_lt lo.isLt, Nat.shiftLeft_eq]
  rfl

theorem toInt_append_words (hi lo : Word) : (hi ++ lo).toInt = signed32 hi lo := by
  unfold signed32 unsigned32
  rewrite [BitVec.toInt_eq_toNat_cond, toNat_append_words]
  have := lo.isLt
  split <;> split <;> omega

/-! ### The preset of a channel (R18, R19) -/

theorem presetChannel_val : (i : Fin 4) → i ≠ 0 → presetChannel i.val = some i
  | 0, h => absurd rfl h
  | 1, _ | 2, _ | 3, _ => rfl

theorem presetChannel_none {n : Nat} (h : n = 0 ∨ 3 < n) : presetChannel n = none := by
  unfold presetChannel
  split <;> first | omega | rfl

theorem presetSetChannels_get (s : State) : (i : Fin 4) → i ≠ 0 →
    (presetSetChannels s).comps.get i = (s.comps.get i).presetForSet
  | 0, h => absurd rfl h
  | 1, _ | 2, _ | 3, _ => rfl

/-! ### The opening of a set (R104, R105, R110) -/

theorem openSet_opened (s t : State) (n : Word) (reels : t.reels = (openSet s.commitLine n s).reels)
    (comps : t.comps = (openSet s.commitLine n s).comps) : OpenedAt n.toNat s t := by
  refine ⟨by rewrite [reels]; rfl, ⟨_, by rewrite [reels]; rfl, rfl, rfl, rfl, ?_, ?_, fun r hr => ?_⟩,
    by rewrite [comps]; rfl, fun i hi => ?_⟩
  · rcases n.toNat.eq_zero_or_pos with h | h
    · exact (if_pos h).trans (if_neg (by omega)).symm
    · exact (if_neg (by omega)).trans (if_pos h).symm
  · calc (s.plan.reelLanes.map _).map _ = s.plan.reelLanes.map id := List.map_map ..
      _ = s.plan.reelLanes := List.map_id _
      _ = _ := List.filter_filter ..
      _ = _ := List.filter_congr fun _ _ => Bool.and_comm _ _
  · obtain ⟨l, _, rfl⟩ := List.mem_map.mp hr
    refine ⟨rfl, rfl, rfl, rfl, rfl, rfl, rfl, rfl, rfl, rfl, rfl, ?_⟩
    by_cases forced : (s.plan.lane l).disposition = .forcedReject
    · exact (Prod.ext (if_pos forced) (if_pos forced)).trans (if_pos forced).symm
    · exact (Prod.ext (if_neg forced) (if_neg forced)).trans (if_neg forced).symm
  · rewrite [comps]
    exact presetSetChannels_get _ i hi

end Sys2Proof.Machine

namespace Sys2Proof.Proofs

open Sys2Proof.Machine

/-- Settles O45: the checks of each command, in the order of its definition. -/
theorem rollCommands : Obligations.RollCommands := fun s free => by
  refine ⟨⟨?_, ?_, ?_, ?_⟩, ?_, ?_, ?_, ?_, ?_⟩
  · exact fun on => answers free rfl rfl (if_pos on)
  · exact fun off opened => answers free rfl rfl ((if_neg (Bool.eq_false_iff.mp off)).trans (if_pos opened))
  · exact fun off closed out => answers free rfl rfl ((if_neg (Bool.eq_false_iff.mp off)).trans ((if_neg closed).trans
      (if_pos (by rewrite [State.mountArg, ← toInt_append_words]; exact out))))
  · intro off closed lo hi
    rewrite [toInt_append_words] at lo hi ⊢
    exact answers free rfl rfl ((if_neg (Bool.eq_false_iff.mp off)).trans ((if_neg closed).trans (if_neg (by
      rewrite [State.mountArg]; omega))))
  · exact fun off => answers free rfl (if_pos (by rewrite [off]; rfl)) rfl
  · exact fun on opened => answers free rfl ((if_neg (mounted_checked on)).trans
      (if_pos (Option.isSome_iff_ne_none.mpr opened))) rfl
  · exact fun on closed => waits free rfl ((if_neg (mounted_checked on)).trans (if_neg (closed_checked closed)))
  · exact fun on => answers free rfl rfl (if_pos on)
  · exact fun off => answers free rfl rfl (if_neg (Bool.eq_false_iff.mp off))

/-- Settles O46: the opened set is evaluated, and an evaluation leaves the set and the channels alone. -/
theorem setStart : Obligations.SetStart := fun s free => by
  refine ⟨fun off => answers free rfl rfl (if_pos (by rewrite [off]; rfl)), fun on opened => answers free rfl rfl ?_,
    fun on closed bad => answers free rfl rfl ?_, fun on closed valid =>
      ⟨_, answers (r := .ok) (t := evaluate (openSet s.commitLine s.port.arg0 s)) free rfl rfl ?_, ?_⟩⟩
  · exact (if_neg (mounted_checked on)).trans (if_pos (Option.isSome_iff_ne_none.mpr opened))
  · exact (if_neg (mounted_checked on)).trans ((if_neg (closed_checked closed)).trans (if_pos bad))
  · exact (if_neg (mounted_checked on)).trans ((if_neg (closed_checked closed)).trans (if_neg (not_not.mpr valid)))
  · have after := evaluate_touches (openSet s.commitLine s.port.arg0 s)
    refine ⟨openSet_opened s _ _ after.reels after.comps, rfl, rfl, ?_, after.events, fun ordered => ?_⟩
    · exact congrArg (·.indications) after.reels
    · exact (evaluate_evaluated (openSet s.commitLine s.port.arg0 s) ordered.2.2.1).of_same rfl rfl rfl rfl rfl rfl

/-- Settles O49: each command answers in the state that it makes. -/
theorem simpleCommands : Obligations.SimpleCommands := fun s free => by
  refine ⟨fun i hi arg => ⟨_, answers (t := s.setComps (s.comps.put (s.comps.get i).preset i)) free rfl rfl ?_,
      get_put _ _ i, fun j hj => get_put_ne _ _ hj, ?_, rfl, rfl, rfl⟩, fun out => answers free rfl rfl ?_,
    ⟨_, answers (t := Machine.snapTallies .command none s) free rfl rfl rfl, rfl, rfl, rfl, total_zero,
      fun n _ _ => lane_zero n, rfl, rfl, rfl, rfl⟩,
    fun d h => answers free rfl (carryOut_other s h) rfl⟩
  · unfold cmdPreset
    rewrite [arg, presetChannel_val i hi]
    rfl
  · match i with
    | 0 | 1 | 2 | 3 => rfl
  · unfold cmdPreset
    rewrite [presetChannel_none out]
    rfl

end Sys2Proof.Proofs
end

