-- ==== Sys2Proof/Proofs/RollEnd.lean ====
section
/-! SUPPORT. The emptying of an accepted ROLL END (R13, R47, R61, R70, R84): settles O26. -/

-- Kernel checks run beside the elaboration; a lemma marked `Elab.async false` waits for those before it, so that few of
-- them, each on a thread of its own, are under way at a time.

namespace Sys2Proof.Machine

/-! ### The end of a waiting access (R161) -/

theorem finishAccess_frame (d : Option Word) (s : State) (h : s.port.early = true → s.port.next = none) :
    (finishAccess d s).port.result = s.port.result ∧ finishAccess d s = { s with port := (finishAccess d s).port } := by
  unfold finishAccess
  split
  · rewrite [h ‹_›]
    exact ⟨rfl, rfl⟩
  · exact ⟨rfl, rfl⟩

/-! ### A sighting that waits at the head of the DIQ (R60, R84) -/

theorem selects_camera_iff : (x : SpliceSource) → (x.selects .camera = true ↔ x ≠ .sensor)
  | .sensor => by decide
  | .camera => by decide
  | .both => by decide

theorem holdsCamera_iff (s : State) : s.holdsCamera = true ↔ 7 ≤ s.align.queue.length ∨ s.align.latch ≠ none := by
  unfold State.holdsCamera State.takesSighting State.freeWrites
  rewrite [Bool.or_eq_true, Bool.not_eq_true', decide_eq_false_iff_not, Option.isSome_iff_ne_none]
  exact or_congr_left (by omega)

set_option Elab.async false in
theorem sightingWaits_iff (s : State) : s.sightingWaits = true ↔ ∃ stamp rest,
    s.diq.messages = .spliceSighting stamp :: rest ∧ s.align.source ≠ .sensor ∧
    (7 ≤ s.align.queue.length ∨ s.align.latch ≠ none) := by
  unfold State.sightingWaits
  split
  · rename_i stamp rest head
    rewrite [Bool.and_eq_true, selects_camera_iff, holdsCamera_iff]
    exact ⟨fun waits => ⟨stamp, rest, head, waits⟩, fun ⟨_, _, _, waits⟩ => waits⟩
  · rename_i other
    exact ⟨fun h => absurd h Bool.false_ne_true, fun ⟨stamp, rest, head, _⟩ => absurd head (other stamp rest)⟩

theorem discardMessage_total (r : ResultCode) (s : State) (k : Total) (h : s.tally.live.totals.length = 16) :
    (discardMessage r s).total k = if .linkDropped = k then min 65535 (s.total .linkDropped + 1) else s.total k := by
  have popped : (popMessage s).tally = s.tally := (popMessage_touches s).tally
  have counted := countTotal_total .linkDropped k 1 (popMessage s) (by rewrite [popped]; exact h)
  unfold State.total at counted ⊢
  rewrite [popped] at counted
  exact counted

theorem dropWaitingSighting_kept (s : State) :
    Touches ([.lastResult, .messages, .link] ++ Part.counting) s (dropWaitingSighting s) :=
  (dropWaitingSighting_tookHead s).touches

theorem dropWaitingSighting_countsFrom (s : State) : CountsFrom s (dropWaitingSighting s) :=
  countsFrom_ite (fun _ => discardMessage_countsFrom _ s) fun _ => .refl s

/-! ### The roll emptied -/

/-- R47: the list emptied, with every entry counted as unwound. -/
def unwindAll (s : State) : State :=
  signalRoom s.track.entries.length (setEntries [] (countTotal .unwound s.track.entries.length s))

theorem unwindAll_touches (s : State) : Touches ([.entries, .withheld] ++ Part.counting) s (unwindAll s) :=
  ((countTotal_touches _ _ s).trans (rs := .entries :: Part.counting) (setEntries_touches _ _)).trans
    (signalRoom_touches _ _)

theorem unwindAll_entries (s : State) : (unwindAll s).track.entries = [] := (signalRoom_touches _ _).same .entries

theorem unwindAll_total (s : State) (k : Total) (h : s.tally.live.totals.length = 16) : (unwindAll s).total k =
    if .unwound = k then min 65535 (s.total .unwound + s.track.entries.length) else s.total k :=
  ((signalRoom_touches _ _).total k).trans (countTotal_total _ k _ s h)

theorem unwindAll_room (s : State) : RoomSignalled s (unwindAll s) :=
  signalRoom_room s _ (congrArg (·.withheld) (countTotal_touches _ _ s).pmap)

/-- The other blocks of the roll, as ROLL END leaves them. -/
def unmount (s : State) : State :=
  setResult .ok (((((s.setPmap s.pmap.emptied).setAlign
    { s.align with queue := [], latch := none, lastGuarded := none, yields := Yields.none }).setPlanner
    { s.planner.idled with setAside := none }).setComps
    { s.comps with ch0 := { s.comps.ch0 with run := false, out := false, outTicked := false } }).setPos
    { s.pos with roll := .noRoll })

theorem unmount_port (s : State) : (unmount s).port = { s.port with result := .ok } := rfl

theorem unmount_total (s : State) (k : Total) : (unmount s).total k = s.total k := rfl

theorem emptyRoll_eq (s : State) : emptyRoll s = unmount (unwindAll (dropWaitingSighting s)) := rfl

theorem emptyRoll_total (s : State) (k : Total) (b : TalliesBounded s) : (emptyRoll s).total k =
    if .unwound = k then min 65535 (s.total .unwound + s.track.entries.length)
    else if s.sightingWaits = true ∧ .linkDropped = k then min 65535 (s.total .linkDropped + 1) else s.total k := by
  have dropped (j : Total) : (dropWaitingSighting s).total j =
      if s.sightingWaits = true ∧ .linkDropped = j then min 65535 (s.total .linkDropped + 1) else s.total j := by
    unfold dropWaitingSighting
    split
    · rewrite [discardMessage_total _ s j b.length]
      exact if_congr (and_iff_right ‹_›).symm rfl rfl
    · exact (if_neg fun h => absurd h.1 ‹_›).symm
  have unwound := unwindAll_total (dropWaitingSighting s) k ((dropWaitingSighting_countsFrom s).bounded b).length
  rewrite [dropped, dropped, (dropWaitingSighting_kept s).track,
    if_neg (c := _ ∧ Total.linkDropped = .unwound) fun h => nomatch h.2] at unwound
  rewrite [emptyRoll_eq, unmount_total]
  exact unwound

end Sys2Proof.Machine

namespace Sys2Proof.Proofs

open Sys2Proof.Machine

/-- Settles O26: the sighting dropped, the list unwound, the other blocks reset, and then the access ended. -/
theorem rollEndEmpties : Obligations.RollEndEmpties := fun s access timely granted bounded => by
  have rolled : exec .rollEndEmptying s = .next (finishAccess none (emptyRoll s)) :=
    congrArg Host.Outcome.next (if_pos ((if_pos granted).trans access))
  have before := dropWaitingSighting_kept s
  have unwound := unwindAll_touches (dropWaitingSighting s)
  have touched : Touches ([.lastResult, .messages, .link, .entries, .withheld] ++ Part.counting) s
      (unwindAll (dropWaitingSighting s)) := before.trans unwound
  have port : (emptyRoll s).port = { s.port with result := .ok } := by
    rewrite [emptyRoll_eq, unmount_port, touched.port]
    rfl
  have total := fun k => emptyRoll_total s k bounded
  have room : RoomSignalled s (unwindAll (dropWaitingSighting s)) := by
    rewrite [RoomSignalled, ← before.pmap, ← before.track]
    exact unwindAll_room _
  have entries := unwindAll_entries (dropWaitingSighting s)
  have shown := (emptyRoll_countsFrom s).shown bounded
  have ended := finishAccess_ended none (emptyRoll s)
  have framed := finishAccess_frame none (emptyRoll s)
  rewrite [port] at framed
  rewrite [AccessEnded, port] at ended
  obtain ⟨result, frame⟩ := framed timely
  have ended := ended timely
  have ⟨ch1, ch2, ch3⟩ := touched.same .channels
  have diq := unwound.diq
  have link := unwound.link
  generalize (finishAccess none (emptyRoll s)).port = p at result frame ended
  rewrite [rolled, frame]
  rewrite [emptyRoll_eq] at total shown ⊢
  generalize unwindAll (dropWaitingSighting s) = u at *
  refine ⟨_, rfl, shown, total .unwound, entries, (touched.same .entryCounters).1, touched.same .late, room, rfl, rfl, rfl, rfl,
    rfl, rfl, rfl, rfl, (touched.same .anchors).1, rfl, rfl, rfl, rfl, touched.same .stopRecord, rfl, rfl, ch1, ch2, ch3, rfl,
    (touched.same .position).1, (touched.same .speed).2.1, touched.tracker, touched.same .resume,
    fun stamp rest head camera full => ?_, fun room => ?_, result, ended⟩
  · have waits := (sightingWaits_iff s).mpr ⟨stamp, rest, head, camera, full⟩
    have dropped : dropWaitingSighting s = discardMessage .noRoll s := if_pos waits
    have head : s.diq.messages.tail = rest := by rewrite [head]; rfl
    have taken : TakenFromHead rest s (discardMessage .noRoll s) := (head ▸ popMessage_takenFromHead s).of_touches
      ((countTotal_touches _ _ _).trans (rs := .lastResult :: Part.counting) (setLastResult_touches _ _))
    rewrite [dropped] at diq link
    rewrite [TakenFromHead, ← diq, ← link] at taken
    exact ⟨taken, congrArg (·.lastResult) diq, (total .linkDropped).trans ((if_neg nofun).trans (if_pos ⟨waits, rfl⟩))⟩
  · have none : ¬ s.sightingWaits = true := fun waits => by
      obtain ⟨stamp, rest, head, camera, full⟩ := (sightingWaits_iff s).mp waits
      rcases room stamp rest head with sensor | ⟨le, empty⟩
      · exact camera sensor
      · exact full.elim (fun h => absurd h (by omega)) (fun h => h empty)
    have same : dropWaitingSighting s = s := if_neg none
    rewrite [same] at diq link
    exact ⟨diq, link, (total .linkDropped).trans ((if_neg nofun).trans (if_neg fun h => none h.1))⟩

end Sys2Proof.Proofs
end

