-- ==== Sys2Proof/Proofs/Moves.lean ====
section
/-! SUPPORT. The operations of the Track List arbiter reach the map records only by a status report and the open set only
by a delivery: what those two keep, every operation of classes 1 to 4 keeps. -/

-- Kernel checks run beside the elaboration; a lemma marked `Elab.async false` waits for those before it, so that few of
-- them, each on a thread of its own, are under way at a time.

namespace Sys2Proof.Machine

/-- The parts that the operations of classes 1 to 4 change beside the map records and the open set. -/
def Part.aside : List Part :=
  [.entries, .entryCounters, .late, .withheld, .yields, .writeQueue, .messages, .lastResult, .link, .plannerState, .settle,
   .liveTallies, .flags]

/-- What status reports and deliveries keep, and what does not read the parts aside. -/
structure KeptByMoves (P : State → Prop) : Prop where
  frame : ∀ {s t : State}, Touches Part.aside s t → P s → P t
  status : ∀ (i : Option Nat) (st : RecordStatus) {s : State}, P s → P (setStatus i st s)
  deliver : ∀ (e : Entry) (w : Int) {s : State}, P s → P (deliverEntry e w s)

namespace KeptByMoves

variable {P : State → Prop} (k : KeptByMoves P) {s : State}
include k

theorem count (c : Total) (n : Nat) (h : P s) : P (countTotal c n s) := k.frame (countTotal_touches c n s).mono h

theorem raised (e : Event) (h : P s) : P (raise e s) := k.frame (raise_touches e s).mono h

theorem entries (l : List Entry) (h : P s) : P (setEntries l s) := k.frame (setEntries_touches l s).mono h

set_option Elab.async false in
theorem made (h : P s) : P (entryMade s) := k.frame (entryMade_touches s).mono h

theorem yields (y : Yields) (h : P s) : P (setYields y s) := k.frame (setYields_touches y s).mono h

theorem result (r : ResultCode) (h : P s) : P (setLastResult r s) := k.frame (setLastResult_touches r s).mono h

theorem popped (h : P s) : P (popWrite s) := k.frame (popWrite_touches s).mono h

theorem completed (b : Bool) (u : State) (h : P s) : P (completeOp b u s) := k.frame (completeOp_touches b u s).mono h

theorem committed (e : Entry) (h : P s) : P (commitEntry e s) := by
  refine k.status _ _ ?_
  split
  · exact k.count _ _ h
  · split
    · exact k.deliver _ _ h
    · exact k.count _ _ h

theorem late (kind : ItemKind) (w : Int) (c : Fin 8) (i : Option Nat) (h : P s) : P (lateItem kind w c i s) :=
  k.status _ _ (k.frame (setLate_touches _ _).mono (k.raised _ (k.count _ _ h)))

theorem moved (e : Entry) (h : P s) : P (placeMoved e s) := by
  unfold placeMoved
  split
  · split
    · exact k.entries _ h
    · exact k.entries _ h
  · split
    · exact k.committed _ h
    · exact k.late _ _ _ _ h

theorem replaced (e : Entry) (h : P s) : P (replaceEntry e s) := by
  unfold replaceEntry
  dsimp only
  split
  · exact k.late _ _ _ _ (k.entries _ h)
  · exact k.moved _ (k.entries _ h)

theorem withdrawn (e : Entry) (h : P s) : P (withdraw e s) := k.yields _ (k.status _ _ (k.count _ _ (k.entries _ h)))

theorem stored (it : Item) (h : P s) : P (storeItem it s) := k.made (k.entries _ h)

theorem placed (it : Item) (h : P s) : P (placeItem it s).1 := by
  unfold placeItem storeOrMakeRoom
  split
  · split
    · exact k.stored it h
    · split
      · exact h
      · split
        · exact k.stored it (k.withdrawn _ h)
        · exact k.raised _ (k.count _ _ h)
  · split
    · exact k.committed _ (k.made h)
    · exact k.late _ _ _ _ h

theorem knifePassage (h : P s) : P (knifePassage s) := by
  unfold Machine.knifePassage
  split
  · exact h
  · split
    · exact h
    · split
      · exact k.completed _ _ (k.replaced _ h)
      · exact k.completed _ _ (k.entries _ h)

theorem commitDue (h : P s) : P (commitDue s) := by
  unfold Machine.commitDue
  split
  · exact h
  · split
    · exact h
    · split
      · exact k.completed _ _ (k.replaced _ h)
      · exact k.completed _ _ (k.committed _ (k.entries _ h))

theorem walkStep (h : P s) : P (walkStep s) := by
  unfold Machine.walkStep
  split
  · split
    · exact h
    · exact k.yields _ (k.completed _ _ (k.replaced _ h))
  · exact h

theorem confirmation (h : P s) : P (confirmation s) := by
  unfold Machine.confirmation
  split
  · unfold confirmEntry
    split
    · exact k.popped h
    · exact k.completed _ _ (k.moved _ (k.entries _ (k.popped h)))
  · exact h
  · exact h
  · exact h

set_option Elab.async false in
theorem liveSplice (h : P s) : P (liveSplicePlacement s) := by
  unfold liveSplicePlacement
  split
  · unfold placeLiveSplice
    split
    · exact k.count _ _ (k.popped h)
    · split
      · exact k.late _ _ _ _ (k.popped h)
      · exact k.completed _ _ (k.placed _ (k.popped h))
  · exact h
  · exact h
  · exact h

theorem detectionPlaced (it : Item) (h : P s) : P (placeDetection it s) := by
  unfold placeDetection
  split
  · exact k.result _ (k.count _ _ h)
  · split
    · exact k.result _ (k.late _ _ _ _ h)
    · split
      · exact k.result _ (k.completed _ _ (k.count _ _ (k.moved _ (k.entries _ h))))
      · refine k.result _ (k.completed _ _ ?_)
        unfold placeFlag
        dsimp only
        split
        · exact k.count _ _ (k.placed it h)
        · exact k.placed it h

theorem popMessage (h : P s) : P (popMessage s) := k.frame (popMessage_touches s).mono h

theorem discarded (r : ResultCode) (h : P s) : P (discardMessage r s) := k.frame (discardMessage_touches r s).mono h

theorem detection (h : P s) : P (detection s) := by
  unfold Machine.detection
  split
  · split
    · exact k.discarded _ h
    · split
      · exact k.discarded _ h
      · split
        · exact k.detectionPlaced _ (k.yields _ (k.popMessage h))
        · exact h
  · exact h

theorem released (i : Nat) (it : Item) (h : P s) : P (releaseRecord i it s) := by
  unfold releaseRecord
  split
  · exact k.count _ _ (k.late _ _ _ _ h)
  · dsimp only
    split
    · exact k.completed _ _ (k.count _ _ (k.status _ _ (k.placed it h)))
    · exact k.completed _ _ (k.count _ _ (k.placed it h))
    · exact k.count _ _ (k.placed it h)
    · exact k.placed it h
    · exact k.frame (setWithheld_touches _ _).mono (k.placed it h)

theorem mapRelease (h : P s) : P (mapRelease s) := by
  unfold Machine.mapRelease
  split
  · split
    · exact h
    · split
      · exact h
      · exact k.released _ _ (k.yields _ h)
  · exact h

end KeptByMoves

end Sys2Proof.Machine
end

