-- ==== Sys2Proof/Proofs/Sighting.lean ====
section
/-! SUPPORT. What a sighting that has been taken comes to, and how the head leaves the DIQ. -/

namespace Sys2Proof.Machine

/-! ### The head of the DIQ -/

theorem popMessage_messages (s : State) : (popMessage s).diq.messages = s.diq.messages.tail :=
  (popMessage_takenFromHead s).1

/-- A command that takes the head leaves the rest of the DIQ as it was. -/
theorem TookHead.messages {ps : List Part} {s t : State} (h : TookHead ps s t)
    (hp : Part.messages ∉ ps := by decide) : t.diq.messages = s.diq.messages ∨ t.diq.messages = s.diq.messages.tail := by
  rcases h with rfl | h
  · exact .inl rfl
  · exact .inr (Eq.trans (h.same .messages hp) (popMessage_messages s))

/-! ### A sighting taken (R61 to R65) -/

/-- A sighting taken is counted, or queued as a live splice with its event, or accepted as an anchor. -/
theorem takeSighting_cases (w : Int) (source : SightingSource) (u : Bool) (s : State) :
    takeSighting w source u s = countTotal .sightingsIgnored 1 s ∨
    (∃ e, takeSighting w source u s = appendWrite (.liveSplice w source u) (raise e (s.guardedAt w))) ∨
    ∃ i r a b rest, s.align.anchors = a :: rest ∧ anchorAccepted a b = true ∧
      takeSighting w source u s = acceptAnchor i r a b (s.guardedAt w) := by
  by_cases h : s.passesGuard w
  · rw [takeSighting_passed w source u s h]
    split
    · exact .inr (.inl ⟨_, rfl⟩)
    · split
      · rename_i a rest _ ha
        split
        · exact .inr (.inr ⟨_, _, a, _, rest, ha, ‹_›, rfl⟩)
        · exact .inr (.inl ⟨_, rfl⟩)
      · exact .inr (.inl ⟨_, rfl⟩)
  · simp only [State.passesGuard, not_forall, not_lt] at h
    obtain ⟨last, hl, hw⟩ := h
    exact .inl (takeSighting_guarded w last source u s hl hw)

theorem guardedAt_touches (w : Int) (s : State) : Touches [.sightings] s (s.guardedAt w) := setGuarded_touches _ s

/-- A sighting queued touches neither the anchors nor the map. -/
theorem queuedSighting_touches (x : AlignWrite) (e : Event) (w : Int) (s : State) :
    Touches [.sightings, .flags, .writeQueue] s (appendWrite x (raise e (s.guardedAt w))) :=
  ((guardedAt_touches w s).trans (rs := [.sightings, .flags]) (raise_touches e _)).trans (appendWrite_touches x _)

/-- What an accepted anchor does to the Anchor Table (R57). -/
theorem acceptAnchor_anchors (i : Nat) (r : MapRecord) (a b : Anchor) (s : State) :
    (acceptAnchor i r a b s).align.anchors = (b :: s.align.anchors).take 8 ∧
      (acceptAnchor i r a b s).align.dLast = newRatio a b := by
  by_cases h : r.status = .released
  · simp only [acceptAnchor, if_pos h]; exact ⟨rfl, rfl⟩
  · simp only [acceptAnchor, if_neg h]; exact ⟨rfl, rfl⟩

/-- What an accepted anchor appends to the write queue (R63, R67): two writes at most. -/
theorem acceptAnchor_queue (i : Nat) (r : MapRecord) (a b : Anchor) (s : State) :
    ∃ l, l.length ≤ 2 ∧ (acceptAnchor i r a b s).align.queue = s.align.queue ++ l := by
  by_cases h : r.status = .released
  · exact ⟨[.confirmation i b.w, .marking a.m], Nat.le_refl 2, by simp only [acceptAnchor, if_pos h]; exact List.append_assoc _ _ _⟩
  · exact ⟨[.marking a.m], Nat.le_succ 1, by simp only [acceptAnchor, if_neg h]; rfl⟩

/-- What an accepted anchor makes of the map: a record is MATCHED (R63). -/
theorem acceptAnchor_records (i : Nat) (r : MapRecord) (a b : Anchor) (s : State) :
    (acceptAnchor i r a b s).pmap.records = s.pmap.records.modify i fun r => { r with matchState := .matched } := by
  by_cases h : r.status = .released
  · simp only [acceptAnchor, if_pos h]; rfl
  · simp only [acceptAnchor, if_neg h]; rfl

/-- A sighting appends two writes at most. -/
theorem takeSighting_queue (w : Int) (source : SightingSource) (u : Bool) (s : State) :
    ∃ l, l.length ≤ 2 ∧ (takeSighting w source u s).align.queue = s.align.queue ++ l := by
  rcases takeSighting_cases w source u s with e | ⟨ev, e⟩ | ⟨i, r, a, b, _, _, _, e⟩
  · exact ⟨[], Nat.zero_le 2, by rw [e, (countTotal_touches _ _ s).align, List.append_nil]⟩
  · exact ⟨[.liveSplice w source u], Nat.le_succ 1, by rw [e]; rfl⟩
  · rw [e]
    exact acceptAnchor_queue i r a b (s.guardedAt w)

end Sys2Proof.Machine
end

