-- ==== Sys2Proof/Proofs/Capacity.lean ====
section
/-! SUPPORT. The limits of the queues and tables (R50, R57, R67, R72, R77, R121), each an invariant of its own. -/

-- Kernel checks run beside the elaboration; a lemma marked `Elab.async false` waits for those before it, so that few of
-- them, each on a thread of its own, are under way at a time.

namespace Sys2Proof.Machine

/-! ### The DIQ (R72) -/

def MessagesWithin (s : State) : Prop := s.diq.messages.length ≤ 32

set_option Elab.async false in
theorem messagesWithin_reads : Reads [.messages] MessagesWithin := fun s t same hs => by
  have h : t.diq.messages = s.diq.messages := same .messages (List.mem_singleton.mpr rfl)
  rwa [MessagesWithin, h]

theorem tookHead_messagesWithin {ps : List Part} {s t : State} (hs : MessagesWithin s) (h : TookHead ps s t)
    (hp : Part.messages ∉ ps := by decide) : MessagesWithin t := by
  unfold MessagesWithin at *
  rcases h.messages hp with e | e
  · rwa [e]
  · rw [e, List.length_tail]; omega

theorem appendMessage_messagesWithin (m : Message) {s : State} (hs : MessagesWithin s) :
    MessagesWithin (appendMessage m s) := by
  unfold appendMessage
  split
  · exact hs
  · rename_i full
    simp only [State.diqFull, decide_eq_true_eq, not_le] at full
    simp only [MessagesWithin, State.setDiq_diq, List.length_append, List.length_singleton]
    omega

theorem takeStop_messagesWithin {s : State} (hs : MessagesWithin s) : MessagesWithin (takeStop s) := by
  unfold takeStop
  refine messagesWithin_reads.frame (setTransfer_touches _ _ _ _ _ _ _ _) ?_
  split
  case h_5 =>
    split
    · exact appendMessage_messagesWithin _ hs
    · exact messagesWithin_reads.frame (countTotal_touches _ _ s) hs
  all_goals exact hs

theorem effect_messagesWithin (c : Instr) (s : State) (hw : (accessOf c).isSome = true → c.wf = true)
    (hs : MessagesWithin s) : MessagesWithin (effect c s) := by
  rcases messagesWithin_reads.effect_cases [.coldReset false false 0, .warmReset, .detection, .spliceSighting,
    .mapBegin, .mapRecord, .mapClose, .beacon, .rollEndEmptying, .inspectionMessage] hw hs with
    kept | ⟨_, _, _, rfl⟩ | rfl | rfl | rfl | rfl | rfl | rfl | rfl | rfl | rfl
  · exact kept
  · exact Nat.zero_le 32
  · exact Nat.zero_le 32
  · exact tookHead_messagesWithin hs (detection_tookHead s)
  · exact tookHead_messagesWithin hs (spliceSighting_tookHead s)
  · exact tookHead_messagesWithin hs (mapBegin_tookHead s)
  · exact tookHead_messagesWithin hs (mapRecord_tookHead s)
  · exact tookHead_messagesWithin hs (mapClose_tookHead s)
  · exact tookHead_messagesWithin hs (beacon_tookHead s)
  · show MessagesWithin (if _ then _ else _)
    split
    · exact messagesWithin_reads.frame (emptyRoll_dropped_touches s)
        (tookHead_messagesWithin hs (dropWaitingSighting_tookHead s))
    · exact hs
  · exact takeStop_messagesWithin hs

/-! ### The write queue (R67) -/

def WritesWithin (s : State) : Prop := s.align.queue.length ≤ 8

theorem writesWithin_reads : Reads [.writeQueue] WritesWithin := fun s t same hs => by
  have h : t.align.queue = s.align.queue := same .writeQueue (List.mem_singleton.mpr rfl)
  rwa [WritesWithin, h]

theorem popWrite_writesWithin {s : State} (hs : WritesWithin s) : WritesWithin (popWrite s) := by
  simp only [WritesWithin, popWrite, State.setAlign_align, List.length_tail] at *
  omega

theorem confirmation_writesWithin {s : State} (hs : WritesWithin s) : WritesWithin (confirmation s) := by
  unfold confirmation
  split
  · unfold confirmEntry
    split
    · exact popWrite_writesWithin hs
    · refine writesWithin_reads.frame (completeOp_touches _ _ _) (writesWithin_reads.frame (placeMoved_touches _ _) ?_)
      exact writesWithin_reads.frame (takeEntry_touches _ _) (popWrite_writesWithin hs)
  · exact hs
  · exact hs
  · exact hs

theorem marking_writesWithin {s : State} (hs : WritesWithin s) : WritesWithin (marking s) := by
  unfold marking
  split
  · exact writesWithin_reads.frame (setEntries_touches _ _) (popWrite_writesWithin hs)
  · exact hs
  · exact hs
  · exact hs

theorem placeLiveSplice_touches (it : Item) (s : State) : Touches Part.placing s (placeLiveSplice it s) := by
  unfold placeLiveSplice
  refine touches_ite (fun _ => (countTotal_touches _ _ _).mono) fun _ => touches_ite (fun _ => ?_) fun _ => ?_
  · exact (lateItem_touches _ _ _ _ _).mono
  · exact placedItem_touches _ _ _ _

theorem liveSplicePlacement_writesWithin {s : State} (hs : WritesWithin s) : WritesWithin (liveSplicePlacement s) := by
  unfold liveSplicePlacement
  split
  · exact writesWithin_reads.frame (placeLiveSplice_touches _ _) (popWrite_writesWithin hs)
  · exact hs
  · exact hs
  · exact hs

theorem sighted_writesWithin {s t : State} (hs : WritesWithin s) (h : Sighted s t) : WritesWithin t := by
  rcases h with h | ⟨_, h | ⟨w, src, u, v, free, h, k⟩⟩
  · exact writesWithin_reads.frame h hs
  · exact writesWithin_reads.frame h hs
  · refine writesWithin_reads.frame k ?_
    obtain ⟨l, hl, e⟩ := takeSighting_queue w src u v
    have same : v.align.queue = s.align.queue := h.same .writeQueue
    have room : 2 ≤ 8 - s.align.queue.length := of_decide_eq_true free
    rw [WritesWithin, e, same, List.length_append]
    omega

theorem effect_writesWithin (c : Instr) (s : State) (hw : (accessOf c).isSome = true → c.wf = true)
    (hs : WritesWithin s) : WritesWithin (effect c s) := by
  rcases writesWithin_reads.effect_cases [.coldReset false false 0, .warmReset, .confirmation, .marking,
    .liveSplicePlacement, .rollEndEmptying, .spliceSensorEdge, .latchedSightingTaken, .spliceSighting] hw hs with
    kept | ⟨_, _, _, rfl⟩ | rfl | rfl | rfl | rfl | rfl | rfl | rfl | rfl
  · exact kept
  · exact Nat.zero_le 8
  · exact Nat.zero_le 8
  · exact confirmation_writesWithin hs
  · exact marking_writesWithin hs
  · exact liveSplicePlacement_writesWithin hs
  · show WritesWithin (if _ then _ else _)
    split
    · exact Nat.zero_le 8
    · exact hs
  · exact sighted_writesWithin hs (sensorEdge_sighted s)
  · exact sighted_writesWithin hs (takeLatched_sighted s)
  · exact sighted_writesWithin hs (spliceSighting_sighted s)

/-! ### The Strobe History (R77) -/

def HistoryWithin (s : State) : Prop := s.tracker.history.length ≤ 4

theorem historyWithin_reads : Reads [.history] HistoryWithin := fun s t same hs => by
  have h : t.tracker.history = s.tracker.history := same .history (List.mem_singleton.mpr rfl)
  rwa [HistoryWithin, h]

theorem testStrobe_historyWithin {s : State} (hs : HistoryWithin s) : HistoryWithin (testStrobe s) := by
  unfold testStrobe
  dsimp only
  split
  · exact List.length_take_le 4 _
  · exact hs

theorem testComparators_historyWithin {s : State} (hs : HistoryWithin s) : HistoryWithin (testComparators s) :=
  historyWithin_reads.frame (testChannel_touches 3 .cmp3 _) (historyWithin_reads.frame (testChannel_touches 2 .cmp2 _)
    (historyWithin_reads.frame (testChannel_touches 1 .cmp1 _) (testStrobe_historyWithin hs)))

set_option Elab.async false in
theorem count_historyWithin (d : Int) {s : State} (hs : HistoryWithin s) : HistoryWithin (count d s) := by
  have moved : HistoryWithin (raiseIf (s.pos.counted d).2 .positionLimit (s.setPos (s.pos.counted d).1)) :=
    historyWithin_reads.frame (raiseIf_touches _ _ _) hs
  show HistoryWithin (handOnP _ _)
  unfold handOnP
  split
  · exact moved
  · refine historyWithin_reads.frame (lapseRelease_touches _) (historyWithin_reads.frame (positionTest_touches _) ?_)
    split
    · exact testComparators_historyWithin moved
    · exact moved

theorem transition_historyWithin (a b : Bool) {s : State} (hs : HistoryWithin s) : HistoryWithin (transition a b s) := by
  have accepted := historyWithin_reads.frame (acceptPair_touches a b s) hs
  unfold transition
  split
  · exact accepted
  · exact count_historyWithin _ accepted
  · exact count_historyWithin _ accepted
  · exact historyWithin_reads.frame (raise_touches _ _) (historyWithin_reads.frame (countTotal_touches _ _ _) accepted)

theorem cmdRollMount_historyWithin {s : State} (hs : HistoryWithin s) : HistoryWithin (cmdRollMount s) := by
  unfold cmdRollMount
  split
  · exact hs
  · split
    · exact hs
    · split
      · exact hs
      · exact Nat.zero_le 4

theorem effect_historyWithin (c : Instr) (s : State) (hw : (accessOf c).isSome = true → c.wf = true)
    (hs : HistoryWithin s) : HistoryWithin (effect c s) := by
  rcases historyWithin_reads.effect_cases [.coldReset false false 0, .warmReset, .encoderTransition false false,
    .rollMount] hw hs with
    kept | ⟨_, _, _, rfl⟩ | rfl | ⟨a, b, rfl⟩ | rfl
  · exact kept
  · exact Nat.zero_le 4
  · exact Nat.zero_le 4
  · exact transition_historyWithin a b hs
  · exact cmdRollMount_historyWithin hs

end Sys2Proof.Machine
end

