-- ==== Sys2Proof/Proofs/MapLimits.lean ====
section
/-! SUPPORT. The limits of the map records and of the Completed Reel Queue (R50, R121), and the Anchor Table with its order
(R57, R59). -/

-- Kernel checks run beside the elaboration; a lemma marked `Elab.async false` waits for those before it, so that few of
-- them, each on a thread of its own, are under way at a time.

namespace Sys2Proof.Machine

/-- R42: a delivery changes the open set's records, the indications and the tallies. -/
theorem deliverEntry_touches (e : Entry) (w : Int) (s : State) :
    Touches ([.openSet, .indications] ++ Part.counting) s (deliverEntry e w s) := by
  unfold deliverEntry
  split
  · exact deliverFlag_touches _ _ _ _ s
  · exact deliverSplice_touches s

/-! ### The map records (R50) -/

def RecordsWithin (s : State) : Prop := s.pmap.records.length ≤ 4096

theorem recordsWithin_reads : Reads [.mapRecords] RecordsWithin := fun s t same hs => by
  have h : t.pmap.records = s.pmap.records := same .mapRecords (List.mem_singleton.mpr rfl)
  rwa [RecordsWithin, h]

theorem setStatus_records_length (i : Option Nat) (st : RecordStatus) (s : State) :
    (setStatus i st s).pmap.records.length = s.pmap.records.length := by
  cases i with
  | none => rfl
  | some i => exact List.length_modify _ _ _

theorem recordsWithin_moves : KeptByMoves RecordsWithin where
  frame h := recordsWithin_reads.frame h
  status i st s h := by rwa [RecordsWithin, setStatus_records_length]
  deliver e w s h := recordsWithin_reads.frame (deliverEntry_touches e w s) h

theorem declareMissed_records_length (s : State) : (declareMissed s).pmap.records.length = s.pmap.records.length := by
  unfold declareMissed
  split
  · exact List.length_map _
  · rfl

theorem speedSample_recordsWithin {s : State} (hs : RecordsWithin s) : RecordsWithin (speedSample s) := by
  unfold speedSample
  split
  · rw [RecordsWithin, declareMissed_records_length]
    exact recordsWithin_reads.frame (evaluateAtSample_touches _) (recordsWithin_reads.frame (measure_touches s) hs)
  · exact hs

theorem sighted_recordsWithin {s t : State} (hs : RecordsWithin s) (h : Sighted s t) : RecordsWithin t := by
  rcases h with h | ⟨_, h | ⟨w, src, u, v, _, h, k⟩⟩
  · exact recordsWithin_reads.frame h hs
  · exact recordsWithin_reads.frame h hs
  · refine recordsWithin_reads.frame k ?_
    have hv : RecordsWithin v := recordsWithin_reads.frame h hs
    rcases takeSighting_cases w src u v with e | ⟨ev, e⟩ | ⟨i, r, a, b, _, _, _, e⟩
    · rw [e]; exact recordsWithin_reads.frame (countTotal_touches _ _ v) hv
    · rw [e]; exact recordsWithin_reads.frame (queuedSighting_touches _ _ _ v) hv
    · rw [e, RecordsWithin, acceptAnchor_records, List.length_modify]; exact hv

theorem mapBegin_recordsWithin {s : State} (hs : RecordsWithin s) : RecordsWithin (mapBegin s) := by
  unfold mapBegin
  split
  · unfold serveMapBegin
    dsimp only
    split
    · exact Nat.zero_le 4096
    · exact recordsWithin_reads.frame (setLastResult_touches _ _) (recordsWithin_reads.frame (popMessage_touches s) hs)
  · exact hs

theorem recordResult_room {pm : PressMap} {m x0 x1 : Int} {b : Byte} (h : pm.recordResult m x0 x1 b = .ok) :
    pm.records.length < 4096 := by
  unfold PressMap.recordResult at h
  split at h
  · cases h
  · split at h
    · cases h
    · omega

theorem afterRecord_length {pm : PressMap} {m x0 x1 : Int} {b : Byte} (rec : MapRecord)
    (hs : pm.records.length ≤ 4096) : (pm.afterRecord (pm.recordResult m x0 x1 b) rec).records.length ≤ 4096 := by
  unfold PressMap.afterRecord
  split
  · rename_i ok
    have := recordResult_room ok
    rw [List.length_append, List.length_singleton]
    omega
  · split <;> exact hs

theorem mapRecord_recordsWithin {s : State} (hs : RecordsWithin s) : RecordsWithin (mapRecord s) := by
  unfold mapRecord
  split
  · rename_i m len x0 x1 packed _ _
    have same : (setLastResult (s.pmap.recordResult m x0 x1 packed) (popMessage s)).pmap = s.pmap := popMessage_pmap s
    unfold serveMapRecord
    rw [RecordsWithin, State.setPmap_pmap, same]
    exact afterRecord_length _ hs
  · exact hs

theorem emptied_recordsWithin {s : State} (h : s.pmap.records = []) : RecordsWithin s := by
  rw [RecordsWithin, h]; exact Nat.zero_le 4096

set_option Elab.async false in
theorem effect_recordsWithin (c : Instr) (s : State) (hw : (accessOf c).isSome = true → c.wf = true)
    (hs : RecordsWithin s) : RecordsWithin (effect c s) := by
  rcases recordsWithin_reads.effect_cases [.coldReset false false 0, .warmReset, .speedSample, .knifePassage,
    .commit, .walkStep, .confirmation, .liveSplicePlacement, .detection, .mapRelease, .rollEndEmptying,
    .spliceSensorEdge, .latchedSightingTaken, .spliceSighting, .mapBegin, .mapRecord, .mapClear] hw hs with
    kept | ⟨_, _, _, rfl⟩ | rfl | rfl | rfl | rfl | rfl | rfl | rfl | rfl | rfl | rfl | rfl | rfl | rfl | rfl |
    rfl | rfl
  · exact kept
  · exact emptied_recordsWithin rfl
  · exact emptied_recordsWithin rfl
  · exact speedSample_recordsWithin hs
  · exact recordsWithin_moves.knifePassage hs
  · exact recordsWithin_moves.commitDue hs
  · exact recordsWithin_moves.walkStep hs
  · exact recordsWithin_moves.confirmation hs
  · exact recordsWithin_moves.liveSplice hs
  · exact recordsWithin_moves.detection hs
  · exact recordsWithin_moves.mapRelease hs
  · show RecordsWithin (if _ then _ else _)
    split
    · exact emptied_recordsWithin rfl
    · exact hs
  · exact sighted_recordsWithin hs (sensorEdge_sighted s)
  · exact sighted_recordsWithin hs (takeLatched_sighted s)
  · exact sighted_recordsWithin hs (spliceSighting_sighted s)
  · exact mapBegin_recordsWithin hs
  · exact mapRecord_recordsWithin hs
  · show RecordsWithin (cmdMapClear s)
    unfold cmdMapClear
    split
    · exact hs
    · exact emptied_recordsWithin rfl

/-! ### The Completed Reel Queue (R121) -/

def CompletedWithin (s : State) : Prop := s.queue.records.length ≤ 64

theorem completedWithin_reads : Reads [.completed] CompletedWithin := fun s t same hs => by
  have h : t.queue.records = s.queue.records := same .completed (List.mem_singleton.mpr rfl)
  rwa [CompletedWithin, h]

/-- R123: the head leaves the queue, or the queue is as it was. -/
theorem removeHead_records (s : State) : (removeHead s).queue.records = s.queue.records.tail := by
  unfold removeHead
  dsimp only
  split
  · exact (raise_touches _ _).same .completed
  · rfl

/-- R106: the records closed go behind those in the queue. -/
theorem closeRecords_records (o : OpenSet) (line : Int) (c : SnapCause) (s : State) :
    (closeRecords o line c s).queue.records =
      s.queue.records ++ o.reels.map (closeReel s.reels.grading s.plan line) := by
  have counted (l : List ReelRecord) (s : State) : Touches Part.counting s (l.foldl (fun s r => countReel r s) s) :=
    touches_foldl (fun s r => countReel_touches r s) l s
  unfold closeRecords
  dsimp only
  split
  · exact Eq.trans ((snapTallies_touches _ _ _).same .completed) ((counted _ _).same .completed)
  · exact (counted _ _).same .completed

theorem closed_completedWithin (o : OpenSet) (line : Int) (c : SnapCause) {s : State}
    (room : ¬ s.freeSlots < o.reels.length) (hs : CompletedWithin s) :
    CompletedWithin (dropOpenSet (closeRecords o line c s)) := by
  unfold State.freeSlots at room
  unfold CompletedWithin at *
  show (closeRecords o line c s).queue.records.length ≤ 64
  rw [closeRecords_records, List.length_append, List.length_map]
  omega

theorem serveRelease_completedWithin {s : State} (hs : CompletedWithin s) : CompletedWithin (serveRelease s) := by
  have removed (set lane : Nat) : CompletedWithin (releaseEffect set lane s) := by
    unfold releaseEffect
    split
    · rw [CompletedWithin, removeHead_records, List.length_tail]
      unfold CompletedWithin at hs
      omega
    · exact hs
  unfold serveRelease
  split
  · split
    · exact completedWithin_reads.frame (replyWith_touches _ _ _) (removed _ _)
    · exact hs
  · exact hs
  · exact hs

theorem cmdSetChange_completedWithin {s : State} (hs : CompletedWithin s) : CompletedWithin (cmdSetChange s) := by
  unfold cmdSetChange
  split
  · exact hs
  · split
    · exact hs
    · split
      · exact hs
      · refine completedWithin_reads.frame (setResult_touches _ _) (completedWithin_reads.frame (evaluate_touches _) ?_)
        exact completedWithin_reads.frame (openSet_touches _ _ _) (closed_completedWithin _ _ _ ‹_› hs)

theorem cmdSetEnd_completedWithin {s : State} (hs : CompletedWithin s) : CompletedWithin (cmdSetEnd s) := by
  unfold cmdSetEnd
  split
  · exact hs
  · split
    · exact hs
    · exact completedWithin_reads.frame (setResult_touches _ _) (completedWithin_reads.frame (evaluate_touches _)
        (closed_completedWithin _ _ _ ‹_› hs))

theorem effect_completedWithin (c : Instr) (s : State) (hw : (accessOf c).isSome = true → c.wf = true)
    (hs : CompletedWithin s) : CompletedWithin (effect c s) := by
  rcases completedWithin_reads.effect_cases [.coldReset false false 0, .release, .setChange, .setEnd] hw hs with
    kept | ⟨_, _, _, rfl⟩ | rfl | rfl | rfl
  · exact kept
  · exact Nat.zero_le 64
  · exact serveRelease_completedWithin hs
  · exact cmdSetChange_completedWithin hs
  · exact cmdSetEnd_completedWithin hs

/-! ### The Anchor Table (R57, R59) -/

def AnchorsWithin (s : State) : Prop := s.align.anchors.length ≤ 8

theorem anchorsWithin_reads : Reads [.anchors] AnchorsWithin := fun s t same hs => by
  have h : t.align.anchors = s.align.anchors := (same .anchors (List.mem_singleton.mpr rfl)).1
  rwa [AnchorsWithin, h]

theorem sighted_anchorsWithin {s t : State} (hs : AnchorsWithin s) (h : Sighted s t) : AnchorsWithin t := by
  rcases h with h | ⟨_, h | ⟨w, src, u, v, _, h, k⟩⟩
  · exact anchorsWithin_reads.frame h hs
  · exact anchorsWithin_reads.frame h hs
  · refine anchorsWithin_reads.frame k ?_
    have hv : AnchorsWithin v := anchorsWithin_reads.frame h hs
    rcases takeSighting_cases w src u v with e | ⟨ev, e⟩ | ⟨i, r, a, b, _, _, _, e⟩
    · rw [e]; exact anchorsWithin_reads.frame (countTotal_touches _ _ v) hv
    · rw [e]; exact anchorsWithin_reads.frame (queuedSighting_touches _ _ _ v) hv
    · rw [e, AnchorsWithin, (acceptAnchor_anchors i r a b _).1]
      exact List.length_take_le 8 _

theorem cmdRollMount_anchorsWithin {s : State} (hs : AnchorsWithin s) : AnchorsWithin (cmdRollMount s) := by
  unfold cmdRollMount
  split
  · exact hs
  · split
    · exact hs
    · split
      · exact hs
      · exact Nat.succ_le_succ (Nat.zero_le 7)

theorem effect_anchorsWithin (c : Instr) (s : State) (hw : (accessOf c).isSome = true → c.wf = true)
    (hs : AnchorsWithin s) : AnchorsWithin (effect c s) := by
  rcases anchorsWithin_reads.effect_cases [.coldReset false false 0, .warmReset, .spliceSensorEdge,
    .latchedSightingTaken, .spliceSighting, .rollMount] hw hs with
    kept | ⟨_, _, _, rfl⟩ | rfl | rfl | rfl | rfl | rfl
  · exact kept
  · exact Nat.zero_le 8
  · exact Nat.zero_le 8
  · exact sighted_anchorsWithin hs (sensorEdge_sighted s)
  · exact sighted_anchorsWithin hs (takeLatched_sighted s)
  · exact sighted_anchorsWithin hs (spliceSighting_sighted s)
  · exact cmdRollMount_anchorsWithin hs

theorem anchorsOrdered_of_eq {s t : State} (ha : t.align.anchors = s.align.anchors)
    (hd : t.align.dLast = s.align.dLast) (hm : t.pmap.d0 = s.pmap.d0) (hs : AnchorsOrdered s) : AnchorsOrdered t := by
  unfold AnchorsOrdered
  rw [ha, hd, hm]
  exact hs

theorem anchorsOrdered_reads : Reads [.anchors, .mapHeader] AnchorsOrdered := fun s t same hs =>
  anchorsOrdered_of_eq (same .anchors (by decide)).1 (same .anchors (by decide)).2 (same .mapHeader (by decide)).2.2.2.1 hs

theorem acceptAnchor_anchorsOrdered (i : Nat) (r : MapRecord) {a b : Anchor} {rest : List Anchor} {s : State}
    (hs : AnchorsOrdered s) (ha : s.align.anchors = a :: rest) (acc : anchorAccepted a b = true) :
    AnchorsOrdered (acceptAnchor i r a b s) := by
  obtain ⟨sorted, _, _, dlo, dhi⟩ := hs
  obtain ⟨hl, hd⟩ := acceptAnchor_anchors i r a b s
  have map : (acceptAnchor i r a b s).pmap.d0 = s.pmap.d0 := ((acceptAnchor_touches i r a b s).same .mapHeader).2.2.2.1
  simp only [anchorAccepted, Bool.and_eq_true, decide_eq_true_eq] at acc
  obtain ⟨⟨below, lo⟩, hi⟩ := acc
  have all : (b :: s.align.anchors).Pairwise fun a b => a.m < b.m := by
    refine List.pairwise_cons.mpr ⟨fun c hc => ?_, sorted⟩
    rw [ha] at hc sorted
    rcases List.mem_cons.mp hc with rfl | hc
    · exact below
    · exact Int.lt_trans below (List.rel_of_pairwise_cons sorted hc)
  unfold AnchorsOrdered
  rw [hl, hd, map]
  exact ⟨all.sublist (List.take_sublist 8 _), lo, hi, dlo, dhi⟩

set_option Elab.async false in
theorem sighted_anchorsOrdered {s t : State} (hs : AnchorsOrdered s) (h : Sighted s t) : AnchorsOrdered t := by
  rcases h with h | ⟨_, h | ⟨w, src, u, v, _, h, k⟩⟩
  · exact anchorsOrdered_reads.frame h hs
  · exact anchorsOrdered_reads.frame h hs
  · refine anchorsOrdered_reads.frame k ?_
    have hv : AnchorsOrdered v := anchorsOrdered_reads.frame h hs
    rcases takeSighting_cases w src u v with e | ⟨ev, e⟩ | ⟨i, r, a, b, rest, ha, acc, e⟩
    · rw [e]; exact anchorsOrdered_reads.frame (countTotal_touches _ _ v) hv
    · rw [e]; exact anchorsOrdered_reads.frame (queuedSighting_touches _ _ _ v) hv
    · rw [e]; exact acceptAnchor_anchorsOrdered i r (anchorsOrdered_reads.frame (guardedAt_touches w v) hv) ha acc

/-- R49: the d0 of an accepted MAP BEGIN is a 16-bit value. -/
theorem beginResult_ok {s : State} {mEnd d0 : Int} (h : beginResult s mEnd d0 = .ok) :
    s.mounted = false ∧ -32768 ≤ d0 ∧ d0 ≤ 32767 := by
  unfold beginResult at h
  split at h
  · cases h
  · split at h
    · cases h
    · split at h
      · cases h
      · rename_i hm _ _
        exact ⟨Bool.eq_false_iff.mpr hm, by omega, by omega⟩

theorem mapBegin_anchorsOrdered {s : State} (hs : AnchorsOrdered s) : AnchorsOrdered (mapBegin s) := by
  unfold mapBegin
  split
  · rename_i id mEnd d0 _ _
    have popped : AnchorsOrdered (setLastResult (beginResult s mEnd d0) (popMessage s)) :=
      anchorsOrdered_reads.frame (setLastResult_touches _ _) (anchorsOrdered_reads.frame (popMessage_touches s) hs)
    unfold serveMapBegin
    dsimp only
    split
    · rename_i ok
      obtain ⟨_, lo, hi⟩ := beginResult_ok ok
      obtain ⟨sorted, a, b, _, _⟩ := popped
      exact ⟨sorted, a, b, lo, hi⟩
    · exact popped
  · exact hs

theorem afterRecord_d0 (pm : PressMap) (r : ResultCode) (rec : MapRecord) : (pm.afterRecord r rec).d0 = pm.d0 := by
  unfold PressMap.afterRecord
  split
  · rfl
  · split <;> rfl

theorem mapRecord_anchorsOrdered {s : State} (hs : AnchorsOrdered s) : AnchorsOrdered (mapRecord s) := by
  unfold mapRecord
  split
  · have popped := anchorsOrdered_reads.frame (popMessage_touches s) hs
    refine anchorsOrdered_of_eq (s := popMessage s) rfl rfl ?_ popped
    exact afterRecord_d0 _ _ _
  · exact hs

theorem mapClose_anchorsOrdered {s : State} (hs : AnchorsOrdered s) : AnchorsOrdered (mapClose s) := by
  unfold mapClose
  split
  · have popped := anchorsOrdered_reads.frame (popMessage_touches s) hs
    unfold serveMapClose
    dsimp only
    split
    · exact anchorsOrdered_reads.frame (raiseIf_touches _ _ _) (anchorsOrdered_of_eq (s := popMessage s) rfl rfl rfl popped)
    · exact anchorsOrdered_reads.frame (setLastResult_touches _ _) popped
  · exact hs

theorem AnchorsOrdered.mapEmptied {s t : State} (hs : AnchorsOrdered s) (ha : t.align.anchors = s.align.anchors)
    (hd : t.align.dLast = s.align.dLast) (hm : t.pmap.d0 = 0) : AnchorsOrdered t := by
  obtain ⟨sorted, a, b, _, _⟩ := hs
  unfold AnchorsOrdered
  rw [ha, hd, hm]
  exact ⟨sorted, a, b, by decide, by decide⟩

theorem cmdRollMount_anchorsOrdered {s : State} (hs : AnchorsOrdered s) : AnchorsOrdered (cmdRollMount s) := by
  unfold cmdRollMount
  split
  · exact hs
  · split
    · exact hs
    · split
      · exact hs
      · obtain ⟨_, _, _, lo, hi⟩ := hs
        refine ⟨List.pairwise_singleton _ _, ?_, ?_, lo, hi⟩
        · show -50000 ≤ s.pmap.d0; omega
        · show s.pmap.d0 ≤ 50000; omega

theorem anchorsOrdered_cleared {s : State} (ha : s.align.anchors = []) (hd : s.align.dLast = 0) (hm : s.pmap.d0 = 0) :
    AnchorsOrdered s := by
  unfold AnchorsOrdered
  rw [ha, hd, hm]
  exact ⟨List.Pairwise.nil, by decide⟩

theorem effect_anchorsOrdered (c : Instr) (s : State) (hw : (accessOf c).isSome = true → c.wf = true)
    (hs : AnchorsOrdered s) : AnchorsOrdered (effect c s) := by
  rcases anchorsOrdered_reads.effect_cases [.coldReset false false 0, .warmReset, .rollEndEmptying,
    .spliceSensorEdge, .latchedSightingTaken, .spliceSighting, .mapBegin, .mapRecord, .mapClose, .rollMount,
    .mapClear] hw hs with
    kept | ⟨_, _, _, rfl⟩ | rfl | rfl | rfl | rfl | rfl | rfl | rfl | rfl | rfl | rfl
  · exact kept
  · exact anchorsOrdered_cleared rfl rfl rfl
  · exact anchorsOrdered_cleared rfl rfl rfl
  · have dropped := (dropWaitingSighting_tookHead s).touches (rs := Part.serving ++ Part.counting)
    show AnchorsOrdered (if _ then _ else _)
    split
    · obtain ⟨ha, hd⟩ := ((dropped.trans (rs := Part.serving ++ Part.counting ++ [.roll, .entries, .withheld, .mapHeader,
        .mapRecords, .writeQueue, .sightings, .yields, .plannerState, .setAside, .strobeChannel, .result])
        (emptyRoll_dropped_touches s)).same .anchors)
      exact hs.mapEmptied ha hd rfl
    · exact hs
  · exact sighted_anchorsOrdered hs (sensorEdge_sighted s)
  · exact sighted_anchorsOrdered hs (takeLatched_sighted s)
  · exact sighted_anchorsOrdered hs (spliceSighting_sighted s)
  · exact mapBegin_anchorsOrdered hs
  · exact mapRecord_anchorsOrdered hs
  · exact mapClose_anchorsOrdered hs
  · exact cmdRollMount_anchorsOrdered hs
  · show AnchorsOrdered (cmdMapClear s)
    unfold cmdMapClear
    split
    · exact hs
    · exact hs.mapEmptied rfl rfl rfl

end Sys2Proof.Machine
end

