-- ==== Sys2Proof/Proofs/Lists.lean ====
section
/-! SUPPORT. The flag lists of the open set and of the queue (R115), through deliveries, openings and closings. -/

-- Kernel checks run beside the elaboration; a lemma marked `Elab.async false` waits for those before it, so that few of
-- them, each on a thread of its own, are under way at a time.

namespace Sys2Proof.Machine

/-! ### One record -/

theorem mem_insertFlag {it x : FlagItem} {l : List FlagItem} (h : x ∈ insertFlag it l) : x = it ∨ x ∈ l := by
  induction l with
  | nil => exact .inl (List.mem_singleton.mp h)
  | cons y ys ih =>
    unfold insertFlag at h
    split at h
    · exact List.mem_cons.mp h
    · rcases List.mem_cons.mp h with rfl | h
      · exact .inr (List.mem_cons_self ..)
      · exact (ih h).imp_right (List.mem_cons_of_mem y)

/-- R115: an insertion keeps the order of depth. -/
theorem insertFlag_sorted (it : FlagItem) {l : List FlagItem} (h : l.Pairwise fun x y => x.depth ≤ y.depth) :
    (insertFlag it l).Pairwise fun x y => x.depth ≤ y.depth := by
  induction l with
  | nil => exact List.pairwise_singleton _ _
  | cons x xs ih =>
    obtain ⟨hx, hs⟩ := List.pairwise_cons.mp h
    unfold insertFlag
    split
    · rename_i before
      refine List.pairwise_cons.mpr ⟨fun y hy => ?_, h⟩
      rcases List.mem_cons.mp hy with rfl | hy
      · exact Int.le_of_lt before
      · exact Int.le_trans (Int.le_of_lt before) (hx y hy)
    · rename_i behind
      refine List.pairwise_cons.mpr ⟨fun y hy => ?_, ih hs⟩
      rcases mem_insertFlag hy with rfl | hy
      · exact Int.not_lt.mp behind
      · exact hx y hy

theorem insertFlag_length (it : FlagItem) (l : List FlagItem) : (insertFlag it l).length = l.length + 1 := by
  induction l with
  | nil => rfl
  | cons x xs ih =>
    unfold insertFlag
    split
    · rfl
    · exact congrArg (· + 1) ih

theorem weakestFrom_lt {l : List FlagItem} {i j : Nat} {y : FlagItem} (h : weakestFrom i l = some (j, y)) :
    i ≤ j ∧ j < i + l.length := by
  induction l generalizing i j y with
  | nil => cases h
  | cons x xs ih =>
    rw [List.length_cons]
    unfold weakestFrom at h
    split at h
    · cases h; omega
    · rename_i k z hz
      have := ih hz
      split at h
      · cases h; omega
      · cases h; omega

/-- R115, R116: an offered item leaves at most 20, in order. -/
theorem offerFlag_listOrdered (it : FlagItem) {r : ReelRecord} (h : r.listOrdered) : (offerFlag it r).listOrdered := by
  obtain ⟨short, sorted⟩ := h
  unfold offerFlag
  split
  · exact ⟨by rw [insertFlag_length]; omega, insertFlag_sorted it sorted⟩
  · dsimp only
    split
    · exact ⟨short, sorted⟩
    · rename_i i x hw
      split
      · have inside := weakestFrom_lt hw
        refine ⟨?_, insertFlag_sorted it (sorted.sublist (List.eraseIdx_sublist _ _))⟩
        rw [insertFlag_length, List.length_eraseIdx_of_lt (by omega)]
        omega
      · exact ⟨short, sorted⟩

theorem listOrdered_of_flags {q r : ReelRecord} (e : q.flags = r.flags) (h : r.listOrdered) : q.listOrdered := by
  unfold ReelRecord.listOrdered
  rw [e]
  exact h

set_option Elab.async false in
/-- R113: a flag item taken by a record. -/
theorem takeFlag_listOrdered (it : FlagItem) {r : ReelRecord} (h : r.listOrdered) : (takeFlag it r).listOrdered :=
  offerFlag_listOrdered it (listOrdered_of_flags rfl h)

theorem takeFlag_lane (it : FlagItem) (r : ReelRecord) : (takeFlag it r).lane = r.lane := by
  unfold takeFlag
  rw [offerFlag_keeps]

theorem regrade_listOrdered (g : Grading) (f : Bool) {r : ReelRecord} (h : r.listOrdered) : (regrade g f r).listOrdered := by
  rw [regrade_keeps]
  exact listOrdered_of_flags rfl h

theorem regrade_lane (g : Grading) (f : Bool) (r : ReelRecord) : (regrade g f r).lane = r.lane := by
  rw [regrade_keeps]

theorem gradeFinally_flags (g : Grading) (f : Bool) (r : ReelRecord) : (gradeFinally g f r).flags = r.flags := by
  unfold gradeFinally
  rw [regrade_keeps]
  dsimp only
  split <;> rfl

/-- R120: the final grading leaves the flag list. -/
theorem closeReel_listOrdered (g : Grading) (p : SlitPlan) (w : Int) {r : ReelRecord} (h : r.listOrdered) :
    (closeReel g p w r).listOrdered := by
  refine listOrdered_of_flags (r := r) ?_ h
  exact gradeFinally_flags g _ _

/-! ### The records of the open set -/

/-- The flag lists of a set are in order. -/
def OpenSet.listsOrdered (o : OpenSet) : Prop := ∀ r ∈ o.reels, r.listOrdered

/-- The open set keeps its lanes, and the order of its flag lists. -/
def Redelivered (s t : State) : Prop :=
  ∃ f : OpenSet → OpenSet, (∀ o, ((f o).reels.map fun r => r.lane) = o.reels.map fun r => r.lane) ∧
    (∀ o, o.listsOrdered → (f o).listsOrdered) ∧ t.reels.openSet = s.reels.openSet.map f

theorem Redelivered.of_eq {s t : State} (h : t.reels.openSet = s.reels.openSet) : Redelivered s t :=
  ⟨id, fun _ => rfl, fun _ h => h, by rw [h, Option.map_id]; rfl⟩

theorem Redelivered.trans {s t u : State} (h : Redelivered s t) (k : Redelivered t u) : Redelivered s u := by
  obtain ⟨f, fl, fo, hf⟩ := h
  obtain ⟨g, gl, go, hg⟩ := k
  exact ⟨g ∘ f, fun o => (gl _).trans (fl o), fun o h => go _ (fo o h), by rw [hg, hf, Option.map_map]⟩

theorem redelivered_foldl {α : Type} {f : State → α → State} (h : ∀ s a, Redelivered s (f s a)) (l : List α)
    (s : State) : Redelivered s (l.foldl f s) := by
  induction l generalizing s with
  | nil => exact .of_eq rfl
  | cons a l ih => exact (h s a).trans (ih (f s a))

theorem countLane_redelivered (lane : Nat) (c : LaneCount) (n : Nat) (s : State) :
    Redelivered s (countLane lane c n s) := .of_eq ((countLane_touches lane c n s).same .openSet)

theorem deliverTo_redelivered (lanes : List Nat) {take : ReelRecord → ReelRecord} (s : State)
    (lane : ∀ r, (take r).lane = r.lane) (ordered : ∀ r, r.listOrdered → (take r).listOrdered) :
    Redelivered s (deliverTo lanes take s) := by
  cases h : s.reels.openSet with
  | none =>
    have old : s.openReels = [] := by rw [State.openReels, h]
    refine .of_eq ?_
    rw [deliverTo, old]
    show (setOpenReels [] s).reels.openSet = _
    rw [setOpenReels, h]
    exact h
  | some o =>
    let change (r : ReelRecord) : ReelRecord :=
      if lanes.contains r.lane then regrade s.reels.grading (s.plan.forced r.lane) (take r) else r
    have kept (r : ReelRecord) : (change r).lane = r.lane ∧ (r.listOrdered → (change r).listOrdered) := by
      simp only [change]
      split
      · exact ⟨by rw [regrade_lane, lane], fun h => regrade_listOrdered _ _ (ordered r h)⟩
      · exact ⟨rfl, fun h => h⟩
    refine ⟨fun o => { o with reels := o.reels.map change }, fun o => ?_, fun o ho q hq => ?_, ?_⟩
    · rw [List.map_map]
      exact List.map_congr_left fun r _ => (kept r).1
    · obtain ⟨r, hr, rfl⟩ := List.mem_map.mp hq
      exact (kept r).2 (ho r hr)
    · rw [deliverTo_openSet lanes take s o h, h]
      rfl

/-- R42: a delivery changes the records of the open set each on its own. -/
theorem deliverEntry_redelivered (e : Entry) (w : Int) (s : State) : Redelivered s (deliverEntry e w s) := by
  unfold deliverEntry
  split
  · unfold deliverFlag
    dsimp only
    split
    · exact .of_eq ((countTotal_touches _ _ s).same .openSet)
    · refine (redelivered_foldl (fun s n => countLane_redelivered n _ _ s) _ s).trans
        (redelivered_foldl (fun u n => ?_) _ _)
      split
      · exact deliverTo_redelivered _ u (takeFlag_lane _) fun r h => takeFlag_listOrdered _ h
      · exact .of_eq rfl
  · unfold deliverSplice
    exact (redelivered_foldl (fun s n => countLane_redelivered n _ _ s) _ s).trans
      (deliverTo_redelivered _ _ (fun _ => rfl) fun r h => listOrdered_of_flags rfl h)

/-! ### The lists (R115) -/

theorem listsOrdered_of_eq {s t : State} (ho : t.reels.openSet = s.reels.openSet)
    (hq : t.queue.records = s.queue.records) (hg : t.reels.grading = s.reels.grading) (hs : ListsOrdered s) :
    ListsOrdered t := by
  unfold ListsOrdered
  rw [ho, hq, hg]
  exact hs

theorem listsOrdered_reads : Reads [.openSet, .completed, .grading] ListsOrdered := fun s t same hs =>
  listsOrdered_of_eq (same .openSet (by decide)) (same .completed (by decide)) (same .grading (by decide)) hs

theorem Redelivered.listsOrdered {s t : State} (h : Redelivered s t) (hq : t.queue.records = s.queue.records)
    (hg : t.reels.grading = s.reels.grading) (hs : ListsOrdered s) : ListsOrdered t := by
  obtain ⟨f, _, ordered, e⟩ := h
  obtain ⟨opened, rest⟩ := hs
  unfold ListsOrdered
  rw [hq, hg]
  refine ⟨fun o' ho' => ?_, rest⟩
  rw [e] at ho'
  obtain ⟨o, ho, rfl⟩ := Option.map_eq_some_iff.mp ho'
  exact ordered o (opened o ho)

theorem listsOrdered_moves : KeptByMoves ListsOrdered where
  frame h := listsOrdered_reads.frame h
  status i st s h := listsOrdered_reads.frame (setStatus_touches i st s) h
  deliver e w s h := (deliverEntry_redelivered e w s).listsOrdered ((deliverEntry_touches e w s).same .completed)
    ((deliverEntry_touches e w s).same .grading) h

set_option Elab.async false in
/-- R110: the records of a set that opens have empty flag lists. -/
theorem openSet_listsOrdered (line : Int) (n : Word) {s : State} (hs : ListsOrdered s) : ListsOrdered (openSet line n s) := by
  obtain ⟨_, rest⟩ := hs
  refine ⟨fun o ho r hr => ?_, rest⟩
  cases ho
  obtain ⟨m, _, rfl⟩ := List.mem_map.mp hr
  exact ⟨Nat.zero_le 20, List.Pairwise.nil⟩

theorem closed_listsOrdered {o : OpenSet} (line : Int) (c : SnapCause) {s : State} (ho : s.reels.openSet = some o)
    (hs : ListsOrdered s) : ListsOrdered (dropOpenSet (closeRecords o line c s)) := by
  have grading : (closeRecords o line c s).reels.grading = s.reels.grading :=
    (closeRecords_touches o line c s).same .grading
  obtain ⟨opened, queued, limits⟩ := hs
  refine ⟨(fun o' ho' => nomatch ho'), fun r hr => ?_, ?_⟩
  · have records : r ∈ (closeRecords o line c s).queue.records := hr
    rw [closeRecords_records, List.mem_append] at records
    rcases records with h | h
    · exact queued r h
    · obtain ⟨q, hq, rfl⟩ := List.mem_map.mp h
      exact closeReel_listOrdered _ _ _ (opened o ho q hq)
  · rw [show (dropOpenSet (closeRecords o line c s)).reels.grading = s.reels.grading from grading]
    exact limits

theorem cmdSetStart_listsOrdered {s : State} (hs : ListsOrdered s) : ListsOrdered (cmdSetStart s) := by
  unfold cmdSetStart
  split
  · exact hs
  · split
    · exact hs
    · split
      · exact hs
      · exact listsOrdered_reads.frame (setResult_touches _ _) (listsOrdered_reads.frame (evaluate_touches _)
          (openSet_listsOrdered _ _ hs))

theorem cmdSetChange_listsOrdered {s : State} (hs : ListsOrdered s) : ListsOrdered (cmdSetChange s) := by
  unfold cmdSetChange
  split
  · exact hs
  · split
    · exact hs
    · split
      · exact hs
      · exact listsOrdered_reads.frame (setResult_touches _ _) (listsOrdered_reads.frame (evaluate_touches _)
          (openSet_listsOrdered _ _ (closed_listsOrdered _ _ ‹_› hs)))

theorem cmdSetEnd_listsOrdered {s : State} (hs : ListsOrdered s) : ListsOrdered (cmdSetEnd s) := by
  unfold cmdSetEnd
  split
  · exact hs
  · split
    · exact hs
    · exact listsOrdered_reads.frame (setResult_touches _ _) (listsOrdered_reads.frame (evaluate_touches _)
        (closed_listsOrdered _ _ ‹_› hs))

/-- R144: the length-stop state of the open set leaves its records. -/
theorem setLengthStop_redelivered (n : Nat) (st : LengthStop) (s : State) : Redelivered s (setLengthStop n st s) := by
  unfold setLengthStop State.setNumbered
  cases ho : s.reels.openSet with
  | none => exact .of_eq rfl
  | some o =>
    by_cases hn : o.number = n
    · refine ⟨fun o => { o with lengthStop := st }, fun _ => rfl, fun _ h => h, ?_⟩
      simp only [if_pos hn, ho, State.setReels_reels, Option.map_some]
    · simp only [if_neg hn]
      exact .of_eq rfl

theorem dropTarget_redelivered (st : LengthStop) (w : WaitingAccess) (s : State) : Redelivered s (dropTarget st w s).1 := by
  have evaluated {u : State} (h : Redelivered s u) : Redelivered s (setResult .ok (evaluate u)) :=
    (h.trans (.of_eq ((evaluate_touches u).same .openSet))).trans (.of_eq rfl)
  have ended : Redelivered s (endStop s) := .of_eq ((endStop_touches s).same .openSet)
  unfold dropTarget
  split
  · exact ended
  · exact evaluated (ended.trans (setLengthStop_redelivered _ _ _))
  · exact evaluated ended

theorem cmdStopRelease_redelivered (s : State) : Redelivered s (cmdStopRelease s).1 := by
  unfold cmdStopRelease
  split
  · exact dropTarget_redelivered _ _ s
  · exact .of_eq rfl

theorem cmdStopCancel_redelivered (s : State) : Redelivered s (cmdStopCancel s).1 := by
  unfold cmdStopCancel
  split
  · exact .of_eq rfl
  · exact dropTarget_redelivered _ _ s

theorem serveRelease_listsOrdered {s : State} (hs : ListsOrdered s) : ListsOrdered (serveRelease s) := by
  have removed (set lane : Nat) : ListsOrdered (releaseEffect set lane s) := by
    unfold releaseEffect
    split
    · obtain ⟨opened, queued, limits⟩ := hs
      have ho : (removeHead s).reels = s.reels := (removeHead_touches s).reels
      unfold ListsOrdered
      rw [ho, removeHead_records]
      exact ⟨opened, fun r hr => queued r (List.mem_of_mem_tail hr), limits⟩
    · exact hs
  unfold serveRelease
  split
  · split
    · exact listsOrdered_reads.frame (replyWith_touches _ _ _) (removed _ _)
    · exact hs
  · exact hs
  · exact hs

end Sys2Proof.Machine
end

