-- ==== Sys2Proof/Proofs/Limits.lean ====
section
/-! SUPPORT. The limits kept by the writes of the fields and by the transmitter: settles O60. -/

-- Kernel checks run beside the elaboration; a lemma marked `Elab.async false` waits for those before it, so that few of
-- them, each on a thread of its own, are under way at a time.

namespace Sys2Proof.Machine

/-! ### Writes of fields (R167) -/

/-- `f` is a field of the kind of `g`, of any place. -/
def FieldOfKind (f : Field) : Field → Prop
  | .offset _ => ∃ st, f = .offset st
  | .laneUse _ => ∃ i, f = .laneUse i
  | .laneLeft _ => ∃ i, f = .laneLeft i
  | .laneWidth _ => ∃ i, f = .laneWidth i
  | .laneShaft _ => ∃ i, f = .laneShaft i
  | .laneDisposition _ => ∃ i, f = .laneDisposition i
  | .classDown _ => ∃ c, f = .classDown c
  | .classReject _ => ∃ c, f = .classReject c
  | .chBase _ => ∃ i, f = .chBase i
  | .chReload _ => ∃ i, f = .chReload i
  | .chReference _ => ∃ i, f = .chReference i
  | .chRun _ => ∃ i, f = .chRun i
  | g => f = g

/-- The field of the kind that stands in `fieldKinds`. -/
def Field.kind : Field → Field
  | .offset _ => .offset .splice
  | .laneUse _ => .laneUse 0
  | .laneLeft _ => .laneLeft 0
  | .laneWidth _ => .laneWidth 0
  | .laneShaft _ => .laneShaft 0
  | .laneDisposition _ => .laneDisposition 0
  | .classDown _ => .classDown 0
  | .classReject _ => .classReject 0
  | .chBase _ => .chBase 0
  | .chReload _ => .chReload 0
  | .chReference _ => .chReference 0
  | .chRun _ => .chRun 0
  | f => f

/-- The fields in the order of their definition, one of each kind. -/
def fieldKinds : List Field :=
  [.pitch, .dirInvert, .clkdiv, .offset .splice, .mergeWindow, .horizon, .mapXOffset, .matchWindow, .spliceGuard,
   .spliceSource, .resume, .holdLimit, .gNarrow, .gWide, .wideWindow, .captureLimit, .peakMode, .strobePitch, .autosnap,
   .reelParity, .reelDivisor, .frameGap, .shiftLimit, .laneUse 0, .laneLeft 0, .laneWidth 0, .laneShaft 0,
   .laneDisposition 0, .classDown 0, .classReject 0, .spliceDown, .spliceReject, .minLength, .creepSpeed, .decel,
   .reaction, .margin, .haltDist, .stopLead, .tolerance, .settle, .flagStop, .classMask, .minSeverity, .sourceMask,
   .spliceStop, .lengthStop, .chBase 0, .chReload 0, .chReference 0, .chRun 0]

theorem fieldOfKind_kind (f : Field) : FieldOfKind f f.kind := by
  cases f with
  | offset st => exact ⟨st, rfl⟩
  | laneUse i | laneLeft i | laneWidth i | laneShaft i | laneDisposition i | classDown i | classReject i | chBase i
  | chReload i | chReference i | chRun i => exact ⟨i, rfl⟩
  | _ => exact rfl

theorem Field.parts_kind (f : Field) : f.parts = f.kind.parts := by
  cases f <;> rfl

theorem fieldKinds_kind (f : Field) : fieldKinds[f.ctorIdx]? = some f.kind := by
  cases f <;> rfl

/-- Every field but those of a few kinds has none of these parts. -/
theorem Field.spares_or {D : List Part} (few : List Field)
    (each : (fieldKinds.all fun g => (D.all fun p => !(.result :: g.parts).contains p) || few.contains g) = true)
    (f : Field) : (D.all fun p => !(.result :: f.parts).contains p) = true ∨ OneOf FieldOfKind f few := by
  rw [f.parts_kind]
  exact holds_or_oneOf (fieldKinds_kind f) (fieldOfKind_kind f) _ few each

/-- A write of TABLE_DATA keeps what the write of a field keeps. -/
theorem Reads.writeTable_keeps {D : List Part} {P : State → Prop} (hr : Reads D P)
    (hd : (D.all fun p => !([.window] : List Part).contains p) = true) (d : Word) {s : State}
    (field : ∀ f hi, P (writeField f hi d s)) (hs : P s) : P (writeTable d s).1 := by
  unfold writeTable
  split
  · exact hs
  · split
    · exact hr.frame (setWindow_touches _ _ _ _ _) (field _ _) hd
    · exact hr.frame (setWindow_touches _ _ _ _ s) hs hd

/-- The write of a field keeps a property, or the field is one of the few that hold what the property reads. -/
theorem Reads.writeField_cases {D : List Part} {P : State → Prop} (hr : Reads D P) (few : List Field) (f : Field)
    (hi lo : Word) {s : State} (hs : P s)
    (each : (fieldKinds.all fun g => (D.all fun p => !(.result :: g.parts).contains p) || few.contains g) = true := by
      decide +kernel) : P (writeField f hi lo s) ∨ OneOf FieldOfKind f few :=
  (f.spares_or few each).imp_left fun hd => hr.frame (writeField_touches f hi lo s) hs hd

set_option Elab.async false in
theorem takeRange_keeps {P : State → Prop} {lo hi v : Int} {f : State → State} {s : State}
    (result : ∀ (r : ResultCode) {u : State}, P u → P (setResult r u)) (taken : lo ≤ v → v ≤ hi → P (f s)) (hs : P s) :
    P (takeRange lo hi v f s) := by
  unfold takeRange
  split
  · rename_i h
    exact result _ (taken h.1 h.2)
  · exact result _ hs

theorem takeCode_keeps {α : Type} {P : State → Prop} {c : Option α} {f : α → State → State} {s : State}
    (result : ∀ (r : ResultCode) {u : State}, P u → P (setResult r u)) (taken : ∀ x, P (f x s)) (hs : P s) :
    P (takeCode c f s) := by
  cases c with
  | some x => exact result _ (taken x)
  | none => exact result _ hs

/-! ### WEB_SHIFT (R95, R96) -/

theorem shiftBounded_reads : Reads [.shiftLimit, .webShift] ShiftBounded := fun s t same hs => by
  have hl : t.plan.shiftLimit = s.plan.shiftLimit := same .shiftLimit (by decide)
  have hw : t.plan.webShift = s.plan.webShift := same .webShift (by decide)
  unfold ShiftBounded
  rw [hl, hw]
  exact hs

/-- R95: a stored WEB_SHIFT is clamped. -/
theorem storeWebShift_shiftBounded (x : Int) {s : State} (h0 : 0 ≤ s.plan.shiftLimit) (h1 : s.plan.shiftLimit ≤ 10000) :
    ShiftBounded (storeWebShift x s) :=
  have order : -s.plan.shiftLimit ≤ s.plan.shiftLimit := by omega
  shiftBounded_reads.frame (raiseIf_touches _ _ _) ⟨h0, h1, clampInt_lower _ _ _ order, clampInt_upper _ _ _ order⟩

theorem shiftBounded_cold {s : State} (h : s.plan = SlitPlan.cold) : ShiftBounded s := by
  unfold ShiftBounded
  rw [h]
  decide

theorem writeField_shiftBounded (f : Field) (hi lo : Word) {s : State} (hs : ShiftBounded s) :
    ShiftBounded (writeField f hi lo s) := by
  rcases shiftBounded_reads.writeField_cases [.shiftLimit] f hi lo hs with kept | rfl
  · exact kept
  · exact takeRange_keeps (fun _ _ h => shiftBounded_reads.frame (setResult_touches _ _) h)
      (fun h0 h1 => storeWebShift_shiftBounded _ h0 h1) hs

theorem effect_shiftBounded (c : Instr) (s : State) (hw : (accessOf c).isSome = true → c.wf = true)
    (hs : ShiftBounded s) : ShiftBounded (effect c s) := by
  have ⟨h0, h1, _, _⟩ := hs
  rcases shiftBounded_reads.effect_cases [.coldReset false false 0, .warmReset, .webShiftWrite 0, .tableDataWrite 0] hw hs with
    kept | ⟨_, _, _, rfl⟩ | rfl | ⟨d, rfl⟩ | ⟨d, rfl⟩
  · exact kept
  · exact shiftBounded_cold rfl
  · exact ⟨h0, h1, neg_nonpos.mpr h0, h0⟩
  · exact storeWebShift_shiftBounded _ h0 h1
  · exact shiftBounded_reads.writeTable_keeps rfl d (fun f hi => writeField_shiftBounded f hi d hs) hs

/-! ### The stations (R11) -/

theorem geometryOrdered_reads : Reads [.positionConfig] GeometryOrdered := fun s t same hs => by
  obtain ⟨_, _, _, h1, h2, h3, h4, h5⟩ := same .positionConfig (by decide)
  unfold GeometryOrdered
  rw [h1, h2, h3, h4, h5]
  exact hs

theorem geometryOrdered_cold {s : State} {a b : Bool} (h : s.pos = PositionUnit.cold a b) : GeometryOrdered s := by
  unfold GeometryOrdered
  rw [h]
  dsimp only [PositionUnit.cold]
  omega

theorem geometryOk_ordered {x : PositionUnit} (h : x.geometryOk = true) : 0 ≤ x.offSplice ∧ x.offSplice ≤ x.offInspect ∧
    x.offInspect < x.offTable ∧ x.offTable < x.offKnife ∧ x.offKnife < x.offNip ∧ x.offNip ≤ 2000000 := by
  simpa only [PositionUnit.geometryOk, Bool.and_eq_true, decide_eq_true_eq, and_assoc] using h

theorem setResult_geometryOrdered (r : ResultCode) {s : State} (hs : GeometryOrdered s) : GeometryOrdered (setResult r s) :=
  geometryOrdered_reads.frame (setResult_touches r s) hs

theorem writeField_geometryOrdered (f : Field) (hi lo : Word) {s : State} (hs : GeometryOrdered s) :
    GeometryOrdered (writeField f hi lo s) := by
  rcases geometryOrdered_reads.writeField_cases [.pitch, .clkdiv, .dirInvert, .offset .splice] f hi lo hs with
    kept | rfl | rfl | rfl | ⟨st, rfl⟩
  · exact kept
  · exact takeRange_keeps (fun r _ h => setResult_geometryOrdered r h) (fun _ _ => hs) hs
  · exact takeRange_keeps (fun r _ h => setResult_geometryOrdered r h) (fun _ _ => hs) hs
  · exact setResult_geometryOrdered .ok (s := s.setPos { s.pos with dirInvert := bitZero lo }) hs
  · show GeometryOrdered (if _ then _ else _)
    split
    · exact setResult_geometryOrdered _ (geometryOk_ordered ‹_›)
    · exact setResult_geometryOrdered _ hs

theorem effect_geometryOrdered (c : Instr) (s : State) (hw : (accessOf c).isSome = true → c.wf = true)
    (hs : GeometryOrdered s) : GeometryOrdered (effect c s) := by
  rcases geometryOrdered_reads.effect_cases [.coldReset false false 0, .tableDataWrite 0] hw hs with
    kept | ⟨_, _, _, rfl⟩ | ⟨d, rfl⟩
  · exact kept
  · exact geometryOrdered_cold rfl
  · exact geometryOrdered_reads.writeTable_keeps rfl d (fun f hi => writeField_geometryOrdered f hi d hs) hs

/-! ### The flag lists and the grading table (R115, R117) -/

theorem writeField_listsOrdered (f : Field) (hi lo : Word) {s : State} (hs : ListsOrdered s) :
    ListsOrdered (writeField f hi lo s) := by
  have result (r : ResultCode) {u : State} (h : ListsOrdered u) : ListsOrdered (setResult r u) :=
    listsOrdered_reads.frame (setResult_touches r u) h
  have ⟨opened, queued, down, reject⟩ := hs
  rcases listsOrdered_reads.writeField_cases [.classDown 0, .classReject 0, .spliceDown, .spliceReject, .minLength] f hi
    lo hs with kept | ⟨c, rfl⟩ | ⟨c, rfl⟩ | rfl | rfl | rfl
  · exact kept
  · exact takeRange_keeps result (fun _ _ => ⟨opened, queued, List.length_set.trans down, reject⟩) hs
  · exact takeRange_keeps result (fun _ _ => ⟨opened, queued, down, List.length_set.trans reject⟩) hs
  · exact takeRange_keeps result (fun _ _ => ⟨opened, queued, down, reject⟩) hs
  · exact takeRange_keeps result (fun _ _ => ⟨opened, queued, down, reject⟩) hs
  · exact result _ (u := onGrading _ s) ⟨opened, queued, down, reject⟩

theorem effect_listsOrdered (c : Instr) (s : State) (hw : (accessOf c).isSome = true → c.wf = true)
    (hs : ListsOrdered s) : ListsOrdered (effect c s) := by
  rcases listsOrdered_reads.effect_cases [.coldReset false false 0, .warmReset, .knifePassage, .commit, .walkStep,
    .confirmation, .liveSplicePlacement, .detection, .mapRelease, .release, .setStart, .setChange, .setEnd,
    .stopRelease, .stopCancel, .tableDataWrite 0] hw hs with
    kept | ⟨_, _, _, rfl⟩ | rfl | rfl | rfl | rfl | rfl | rfl | rfl | rfl | rfl | rfl | rfl | rfl | rfl | rfl |
    ⟨d, rfl⟩
  · exact kept
  · exact ⟨fun _ h => (nomatch h), fun _ h => (nomatch h), rfl, rfl⟩
  · exact ⟨fun _ h => (nomatch h), hs.2⟩
  · exact listsOrdered_moves.knifePassage hs
  · exact listsOrdered_moves.commitDue hs
  · exact listsOrdered_moves.walkStep hs
  · exact listsOrdered_moves.confirmation hs
  · exact listsOrdered_moves.liveSplice hs
  · exact listsOrdered_moves.detection hs
  · exact listsOrdered_moves.mapRelease hs
  · exact serveRelease_listsOrdered hs
  · exact cmdSetStart_listsOrdered hs
  · exact cmdSetChange_listsOrdered hs
  · exact cmdSetEnd_listsOrdered hs
  · have touched := effect_touches .stopRelease s hw
    exact (cmdStopRelease_redelivered s).listsOrdered (touched.same .completed) (touched.same .grading) hs
  · have touched := effect_touches .stopCancel s hw
    exact (cmdStopCancel_redelivered s).listsOrdered (touched.same .completed) (touched.same .grading) hs
  · exact listsOrdered_reads.writeTable_keeps rfl d (fun f hi => writeField_listsOrdered f hi d hs) hs

/-! ### The character on the line (R173) -/

/-- R173, of the Reel Link alone: what CharacterTimed says. -/
def ReelLink.timed (x : ReelLink) : Prop :=
  1 ≤ x.divisor ∧ (x.sending ≠ [] → 1 ≤ x.charLeft ∧ x.charLeft ≤ bitsOf x.onLine.parity * bitPeriods x.onLine)

theorem characterTimed_iff (s : State) : CharacterTimed s ↔ s.reel.timed := Iff.rfl

set_option Elab.async false in
theorem characterTimed_reads : Reads [.reelConfig, .transmitter] CharacterTimed := fun s t same hs => by
  obtain ⟨_, hd, _⟩ := same .reelConfig (by decide)
  obtain ⟨hs', hl, ho, _⟩ := same .transmitter (by decide)
  unfold CharacterTimed
  rw [hd, hs', hl, ho]
  exact hs

theorem characterTimed_cold {s : State} (h : s.reel = ReelLink.cold) : CharacterTimed s := by
  unfold CharacterTimed
  rw [h]
  exact ⟨by decide, fun h => absurd rfl h⟩

theorem charTime_pos {x : ReelLink} (h : 1 ≤ x.divisor) : 1 ≤ x.sendSettings.charTime := by
  rw [charTime_eq]
  have hb := bitsOf_pos x.sendSettings.parity
  have hp : 1 ≤ bitPeriods x.sendSettings := Nat.mul_pos (by decide) h
  exact Nat.mul_pos (by omega) hp

/-- R173: a reply that starts has its first character before it. -/
theorem ReelLink.timed.startSending {x : ReelLink} (h : x.timed) (frame : List Byte) : (x.startSending frame).timed :=
  ⟨h.1, fun _ => ⟨charTime_pos h.1, le_of_eq (charTime_eq _)⟩⟩

theorem ReelLink.timed.reply {x : ReelLink} (h : x.timed) (frame : List Byte) : (x.reply frame).timed := by
  unfold ReelLink.reply
  split
  · exact h.startSending frame
  · exact h

/-- R173: a character that begins after the one on the line has at most its whole time left, and some of it. -/
theorem drainBytes_timed {c : Nat} (hc : 1 ≤ c) : ∀ (l : List Byte) (left n : Nat), 1 ≤ left → left ≤ c →
    (drainBytes c l left n).1 ≠ [] → 1 ≤ (drainBytes c l left n).2 ∧ (drainBytes c l left n).2 ≤ c
  | [], left, n, _, _, h => absurd rfl h
  | b :: bs, left, n, h1, h2, h => by
    unfold drainBytes at h ⊢
    split
    · dsimp only; omega
    · rw [if_neg ‹_›] at h
      exact drainBytes_timed hc bs c (n - left) hc le_rfl h

theorem ReelLink.timed.transmit {x : ReelLink} (h : x.timed) (n : Nat) : (x.transmit n).timed := by
  obtain ⟨hd, ht⟩ := h
  refine ⟨hd, ?_⟩
  unfold ReelLink.transmit
  dsimp only
  cases hx : x.sending with
  | nil => exact fun h => absurd rfl h
  | cons b bs =>
    obtain ⟨h1, h2⟩ := ht (by rw [hx]; exact List.cons_ne_nil _ _)
    unfold drainBytes
    split
    · exact fun _ => ⟨by dsimp only; omega, by dsimp only; omega⟩
    · exact drainBytes_timed (charTime_pos hd) bs _ _ (charTime_pos hd) le_rfl

theorem replyWith_characterTimed (kind : Byte) (body : List Byte) {s : State} (hs : CharacterTimed s) :
    CharacterTimed (replyWith kind body s) :=
  characterTimed_reads.frame (pump_touches _) (ReelLink.timed.reply (x := { s.reel with assembler := .hunting }) hs _)

theorem serveRelease_characterTimed {s : State} (hs : CharacterTimed s) : CharacterTimed (serveRelease s) := by
  have released (set lane : Nat) : CharacterTimed (releaseEffect set lane s) := by
    unfold releaseEffect
    split
    · exact characterTimed_reads.frame (removeHead_touches s) hs
    · exact hs
  unfold serveRelease
  split
  · split
    · exact replyWith_characterTimed _ _ (released _ _)
    · exact hs
  · exact hs
  · exact hs

theorem startWaiting_characterTimed {s : State} (hs : CharacterTimed s) : CharacterTimed (startWaiting s) := by
  unfold startWaiting
  split
  · exact hs
  · split
    · exact characterTimed_reads.frame (pump_touches _) (ReelLink.timed.startSending hs _)
    · exact hs

theorem writeField_characterTimed (f : Field) (hi lo : Word) {s : State} (hs : CharacterTimed s) :
    CharacterTimed (writeField f hi lo s) := by
  have result (r : ResultCode) {u : State} (h : CharacterTimed u) : CharacterTimed (setResult r u) :=
    characterTimed_reads.frame (setResult_touches r u) h
  rcases characterTimed_reads.writeField_cases [.reelParity, .frameGap, .reelDivisor] f hi lo hs with
    kept | rfl | rfl | rfl
  · exact kept
  · exact takeCode_keeps result (fun _ => hs) hs
  · exact takeRange_keeps result (fun _ _ => hs) hs
  · exact takeRange_keeps result (fun h _ => ⟨Int.ofNat_le.mp h, hs.2⟩) hs

theorem effect_characterTimed (c : Instr) (s : State) (hw : (accessOf c).isSome = true → c.wf = true)
    (hs : CharacterTimed s) : CharacterTimed (effect c s) := by
  rcases characterTimed_reads.effect_cases [.coldReset false false 0, .warmReset, .tick, .poll, .fetch,
    .unknownFrame, .release, .replyTransmitStart, .tableDataWrite 0] hw hs with
    kept | ⟨_, _, _, rfl⟩ | rfl | rfl | rfl | rfl | rfl | rfl | rfl | ⟨d, rfl⟩
  · exact kept
  · exact characterTimed_cold rfl
  · exact ⟨hs.1, fun h => absurd rfl h⟩
  · exact ReelLink.timed.transmit hs _
  · show CharacterTimed (servePoll s)
    unfold servePoll
    split
    · split
      · exact replyWith_characterTimed _ _ hs
      · exact hs
    · exact hs
  · show CharacterTimed (serveFetch s)
    unfold serveFetch
    split
    · split
      · exact replyWith_characterTimed _ _ hs
      · exact hs
    · exact hs
  · show CharacterTimed (serveUnknown s)
    unfold serveUnknown
    split
    · split
      · exact hs
      · exact replyWith_characterTimed _ _ hs
    · exact hs
  · exact serveRelease_characterTimed hs
  · exact startWaiting_characterTimed hs
  · exact characterTimed_reads.writeTable_keeps rfl d (fun f hi => writeField_characterTimed f hi d hs) hs

end Sys2Proof.Machine

namespace Sys2Proof.Proofs

open Sys2Proof.Machine

/-- Settles O60: each limit is a property that every effect keeps and that reads no part of the bus handshake. -/
theorem limitsHold : Obligations.LimitsHold := fun _ _ h =>
  ⟨fun ⟨diq, writes, anchors, strobes, records, completed⟩ =>
      ⟨messagesWithin_reads.step_keeps effect_messagesWithin (h := h) (hs := diq),
       writesWithin_reads.step_keeps effect_writesWithin (h := h) (hs := writes),
       anchorsWithin_reads.step_keeps effect_anchorsWithin (h := h) (hs := anchors),
       historyWithin_reads.step_keeps effect_historyWithin (h := h) (hs := strobes),
       recordsWithin_reads.step_keeps effect_recordsWithin (h := h) (hs := records),
       completedWithin_reads.step_keeps effect_completedWithin (h := h) (hs := completed)⟩,
    fun hs => shiftBounded_reads.step_keeps effect_shiftBounded (h := h) (hs := hs),
    fun hs => geometryOrdered_reads.step_keeps effect_geometryOrdered (h := h) (hs := hs),
    fun hs => anchorsOrdered_reads.step_keeps effect_anchorsOrdered (h := h) (hs := hs),
    fun hs => listsOrdered_reads.step_keeps effect_listsOrdered (h := h) (hs := hs),
    fun hs => characterTimed_reads.step_keeps effect_characterTimed (h := h) (hs := hs)⟩

end Sys2Proof.Proofs
end

