-- ==== Sys2Proof/Proofs/TrackOrder.lean ====
section
/-! SUPPORT. Every operation of the arbiter keeps the order, the limit, the identities and the lane sets of the Track List
(R24, R98): settles O56. -/

-- One theorem at a time: kernel checks waiting for one another would each hold a thread and its memory.
set_option Elab.async false

namespace Sys2Proof.Machine

theorem trackOrdered_reads : Reads [.entries, .entryCounters] TrackOrdered := fun s t same hs => by
  have he : t.track.entries = s.track.entries := same .entries (by decide)
  have hi : t.track.nextIdent = s.track.nextIdent := (same .entryCounters (by decide)).2
  rw [trackOrdered_iff, he, hi]
  exact hs

/-- An empty list is in order. -/
theorem trackOrdered_nil {s : State} (h : s.track.entries = []) : TrackOrdered s := by
  rw [trackOrdered_iff, h]
  exact ⟨Nat.zero_le _, .nil, .nil, fun _ h => nomatch h⟩

/-- Entries changed one by one, each in its place, with its w, its identity and its lane set. -/
theorem setEntries_map_ordered {f : Entry → Entry} {s : State} (hs : TrackOrdered s)
    (hf : ∀ e ∈ s.track.entries, (f e).w = e.w ∧ (f e).ident = e.ident ∧ (f e).lanesFit) :
    TrackOrdered (setEntries (s.track.entries.map f) s) := EntriesOrdered.map hs f hf

theorem TrackOrdered.lanesFit {s : State} (hs : TrackOrdered s) {e : Entry} (he : e ∈ s.track.entries) : e.lanesFit :=
  (hs.2.2.2 e he).2

theorem TrackOrdered.identsNodup {s : State} (hs : TrackOrdered s) : (s.track.entries.map fun e => e.ident).Nodup :=
  hs.2.2.1

theorem TrackOrdered.ascending {s : State} (hs : TrackOrdered s) : s.track.entries.Pairwise fun x y => x.w ≤ y.w :=
  hs.2.1

theorem completeOp_ordered (b : Bool) (before : State) {s : State} (hs : TrackOrdered s) :
    TrackOrdered (completeOp b before s) := hs.of_touches (completeOp_touches b before s)

theorem commitEntry_ordered (e : Entry) {s : State} (hs : TrackOrdered s) : TrackOrdered (commitEntry e s) :=
  hs.of_touches (commitEntry_touches e s)

theorem lateItem_ordered (k : ItemKind) (w : Int) (c : Fin 8) (i : Option Nat) {s : State} (hs : TrackOrdered s) :
    TrackOrdered (lateItem k w c i s) := hs.of_touches (lateItem_touches k w c i s)

theorem passInPlace_ordered (e : Entry) {s : State} (hs : TrackOrdered s) : TrackOrdered (passInPlace e s) :=
  setEntries_map_ordered hs fun f hf => by
    split
    · exact passKnife_keeps s f (hs.lanesFit hf)
    · exact ⟨rfl, rfl, hs.lanesFit hf⟩

/-! ### Classes 1 and 2 -/

theorem knifePassage_ordered {s : State} (hs : TrackOrdered s) : TrackOrdered (knifePassage s) := by
  unfold knifePassage
  split
  · exact hs
  · rename_i e due
    split
    · exact hs
    · split
      · exact completeOp_ordered _ _ (replaceEntry_ordered e s hs (List.mem_of_find?_eq_some due))
      · exact completeOp_ordered _ _ (passInPlace_ordered e hs)

theorem commitDue_ordered {s : State} (hs : TrackOrdered s) : TrackOrdered (commitDue s) := by
  unfold commitDue
  split
  · exact hs
  · rename_i e due
    split
    · exact hs
    · split
      · exact completeOp_ordered _ _ (replaceEntry_ordered e s hs (List.mem_of_find?_eq_some due))
      · exact completeOp_ordered _ _ (commitEntry_ordered e (takeEntry_ordered e s hs))

theorem walkStep_ordered {s : State} (hs : TrackOrdered s) : TrackOrdered (walkStep s) := by
  unfold walkStep
  split
  · split
    · exact hs
    · rename_i e pending
      exact (completeOp_ordered _ _ (replaceEntry_ordered e s hs (List.mem_of_find?_eq_some pending))).of_touches
        (settleYields_touches _)
  · exact hs

theorem popWrite_ordered {s : State} (hs : TrackOrdered s) : TrackOrdered (popWrite s) :=
  hs.of_touches (popWrite_touches s)

theorem confirmation_ordered {s : State} (hs : TrackOrdered s) : TrackOrdered (confirmation s) := by
  unfold confirmation
  split
  · unfold confirmEntry
    split
    · exact popWrite_ordered hs
    · rename_i e found
      exact completeOp_ordered _ _ (placeMoved_ordered e (confirmedEntry e _) (popWrite s) (popWrite_ordered hs)
        (List.mem_of_find?_eq_some found) rfl rfl)
  · exact hs
  · exact hs
  · exact hs

theorem markBelow_ordered (bound : Int) {s : State} (hs : TrackOrdered s) : TrackOrdered (markBelow bound s) :=
  setEntries_map_ordered hs fun e he => by
    split
    · exact ⟨rfl, rfl, hs.lanesFit (e := e) he⟩
    · exact ⟨rfl, rfl, hs.lanesFit he⟩

theorem marking_ordered {s : State} (hs : TrackOrdered s) : TrackOrdered (marking s) := by
  unfold marking
  split
  · exact markBelow_ordered _ (popWrite_ordered hs)
  · exact hs
  · exact hs
  · exact hs

theorem liveSplicePlacement_ordered {s : State} (hs : TrackOrdered s) : TrackOrdered (liveSplicePlacement s) := by
  unfold liveSplicePlacement
  split
  · have popped := popWrite_ordered hs
    unfold placeLiveSplice
    split
    · exact popped.of_touches (countTotal_touches _ _ _)
    · split
      · exact lateItem_ordered _ _ _ _ popped
      · exact completeOp_ordered _ _ (placeItem_ordered _ _ popped)
  · exact hs
  · exact hs
  · exact hs

/-! ### Classes 3 to 5 -/

theorem placeFlag_ordered (it : Item) {s : State} (hs : TrackOrdered s) : TrackOrdered (placeFlag it s).1 := by
  unfold placeFlag
  dsimp only
  split
  · exact (placeItem_ordered it s hs).of_touches (countTotal_touches _ _ _)
  · exact placeItem_ordered it s hs

theorem mergeInto_ordered {e : Entry} (it : Item) {s : State} (hs : TrackOrdered s) (he : e ∈ s.track.entries) :
    TrackOrdered (mergeInto e it s) :=
  (placeMoved_ordered e (mergedEntry e it) s hs he rfl rfl).of_touches (countTotal_touches _ _ _)

theorem placeDetection_ordered (it : Item) {s : State} (hs : TrackOrdered s) : TrackOrdered (placeDetection it s) := by
  have result (r : ResultCode) {u : State} (hu : TrackOrdered u) : TrackOrdered (setLastResult r u) :=
    hu.of_touches (setLastResult_touches r u)
  unfold placeDetection
  split
  · exact result _ (hs.of_touches (countTotal_touches _ _ _))
  · split
    · exact result _ (lateItem_ordered _ _ _ _ hs)
    · split
      · rename_i e found
        exact result _ (completeOp_ordered _ _ (mergeInto_ordered it hs (List.mem_of_find?_eq_some found)))
      · exact result _ (completeOp_ordered _ _ (placeFlag_ordered it hs))

theorem detection_ordered {s : State} (hs : TrackOrdered s) : TrackOrdered (detection s) := by
  unfold detection
  split
  · split
    · exact hs.of_touches (discardMessage_touches _ s)
    · split
      · exact hs.of_touches (discardMessage_touches _ s)
      · split
        · exact placeDetection_ordered _
            ((hs.of_touches (popMessage_touches s)).of_touches (grantDetection_touches _))
        · exact hs
  · exact hs

theorem releaseRecord_ordered (i : Nat) (it : Item) {s : State} (hs : TrackOrdered s) :
    TrackOrdered (releaseRecord i it s) := by
  have counted {u : State} (hu : TrackOrdered u) : TrackOrdered (countTotal .released 1 u) :=
    hu.of_touches (countTotal_touches _ _ u)
  have placed := placeItem_ordered it s hs
  unfold releaseRecord
  split
  · exact counted (lateItem_ordered _ _ _ _ hs)
  · dsimp only
    split
    · exact completeOp_ordered _ _ (counted (placed.of_touches (setStatus_touches _ _ _)))
    · exact completeOp_ordered _ _ (counted placed)
    · exact counted placed
    · exact placed
    · exact placed.of_touches (setWithheld_touches _ _)

theorem mapRelease_ordered {s : State} (hs : TrackOrdered s) : TrackOrdered (mapRelease s) := by
  unfold mapRelease
  split
  · split
    · exact hs
    · split
      · exact hs
      · exact releaseRecord_ordered _ _ (hs.of_touches (grantRelease_touches s))
  · exact hs

/-- R23: a mark written leaves each entry its place. -/
theorem writeMark_ordered {mark : Entry → Entry}
    (hm : ∀ e, (mark e).w = e.w ∧ (mark e).ident = e.ident ∧ (mark e).lanes = e.lanes) {s : State} (hs : TrackOrdered s) :
    TrackOrdered (writeMark mark s) := by
  have marked : ∀ entries, EntriesOrdered entries s.track.nextIdent →
      TrackOrdered (evaluate ((setEntries entries s).setPlanner { s.planner with setAside := none })) := fun entries h =>
    TrackOrdered.of_touches (s := (setEntries entries s).setPlanner _) h (evaluate_touches _)
  refine marked _ ?_
  split
  · exact hs
  · refine EntriesOrdered.map hs _ fun e he => ?_
    split
    · obtain ⟨hw, hi, hl⟩ := hm e
      exact ⟨hw, hi, by unfold Entry.lanesFit; rw [hl]; exact hs.lanesFit he⟩
    · exact ⟨rfl, rfl, hs.lanesFit he⟩

/-! ### The step -/

theorem effect_ordered (c : Instr) (s : State) (hw : (accessOf c).isSome = true → c.wf = true) (hs : TrackOrdered s) :
    TrackOrdered (effect c s) := by
  have written {p : Prop} [Decidable p] {mark : Entry → Entry}
      (hm : ∀ e, (mark e).w = e.w ∧ (mark e).ident = e.ident ∧ (mark e).lanes = e.lanes) :
      TrackOrdered (if p then setResult .ok (writeMark mark (grantAccess s)) else s) := by
    split
    · exact (writeMark_ordered hm (hs.of_touches (grantAccess_touches s))).of_touches (setResult_touches _ _)
    · exact hs
  rcases trackOrdered_reads.effect_cases [.coldReset false false 0, .warmReset, .knifePassage, .commit, .walkStep,
    .confirmation, .marking, .liveSplicePlacement, .detection, .mapRelease, .rollEndEmptying, .stoppedMarkWrite,
    .skippedMarkWrite] hw hs with
    kept | ⟨_, _, _, rfl⟩ | rfl | rfl | rfl | rfl | rfl | rfl | rfl | rfl | rfl | rfl | rfl | rfl
  · exact kept
  · exact trackOrdered_nil rfl
  · exact trackOrdered_nil rfl
  · exact knifePassage_ordered hs
  · exact commitDue_ordered hs
  · exact walkStep_ordered hs
  · exact confirmation_ordered hs
  · exact marking_ordered hs
  · exact liveSplicePlacement_ordered hs
  · exact detection_ordered hs
  · exact mapRelease_ordered hs
  · show TrackOrdered (if _ then _ else _)
    split
    · exact trackOrdered_nil (unwindAll_entries (dropWaitingSighting s))
    · exact hs
  · exact written fun _ => ⟨rfl, rfl, rfl⟩
  · exact written fun _ => ⟨rfl, rfl, rfl⟩

end Sys2Proof.Machine

namespace Sys2Proof.Proofs

open Sys2Proof.Machine

/-- Settles O56: an entry is inserted in order where there is room, changed in its place, or taken out. -/
theorem trackStaysOrdered : Obligations.TrackStaysOrdered :=
  fun _ _ hs h => trackOrdered_reads.step_keeps effect_ordered (h := h) (hs := hs)

end Sys2Proof.Proofs
end

