-- ==== Sys2Proof/Proofs/Commit.lean ====
section
/-! SUPPORT. The class 1 operations of the Track List: the knife passage and the commit of the first due entry (R40 to R44,
R98 to R101). Settles O13 to O16. -/

-- One theorem at a time: kernel checks waiting for one another would each hold a thread and its memory.
set_option Elab.async false

namespace Sys2Proof.Machine

/-! ### What the claims about entries read -/

theorem Touches.sameReels {ps : List Part} {s t : State} (h : Touches ps s t)
    (hp : ∀ p ∈ ([.openSet, .nextSet, .grading, .indications, .lanes, .shiftLimit, .webShift, .liveTallies, .flags] :
      List Part), p ∉ ps := by decide) : SameReels s t := by
  have live : t.tally.live = s.tally.live := h .liveTallies (hp _ (by decide))
  refine ⟨h.reels fun p m => hp p ?_, h.plan fun p m => hp p ?_, by rw [live], h.total _ (hp _ (by decide)),
    h.flag _ (hp _ (by decide))⟩
  · revert p; decide
  · revert p; decide

/-- `t` agrees with `s` in all that the claims about a moved or placed entry read, but for the entries themselves. -/
structure SameClaims (s t : State) : Prop where
  reels : SameReels s t
  records : t.pmap.records = s.pmap.records
  lateRecord : t.track.late = s.track.late
  late : t.total .late = s.total .late
  unwound : t.total .unwound = s.total .unwound
  lateFlag : t.events.flag .lateFlag = s.events.flag .lateFlag

theorem SameClaims.trans {s t u : State} (h : SameClaims s t) (k : SameClaims t u) : SameClaims s u :=
  ⟨h.reels.trans k.reels, k.records.trans h.records, k.lateRecord.trans h.lateRecord, k.late.trans h.late,
    k.unwound.trans h.unwound, k.lateFlag.trans h.lateFlag⟩

theorem SameClaims.symm {s t : State} (h : SameClaims s t) : SameClaims t s :=
  ⟨h.reels.symm, h.records.symm, h.lateRecord.symm, h.late.symm, h.unwound.symm, h.lateFlag.symm⟩

theorem Touches.sameClaims {ps : List Part} {s t : State} (h : Touches ps s t)
    (hp : ∀ p ∈ ([.openSet, .nextSet, .grading, .indications, .lanes, .shiftLimit, .webShift, .liveTallies, .flags,
      .mapRecords, .late] : List Part), p ∉ ps := by decide) : SameClaims s t :=
  ⟨h.sameReels fun p m => hp p (by revert p; decide), h.same .mapRecords (hp _ (by decide)),
    h.same .late (hp _ (by decide)), h.total _ (hp _ (by decide)), h.total _ (hp _ (by decide)),
    h.flag _ (hp _ (by decide))⟩

/-- A count of a total that the claims do not read. -/
theorem countTotal_sameClaims (k : Total) (n : Nat) {s : State} (h : TalliesBounded s)
    (hk : k ≠ .unassigned ∧ k ≠ .late ∧ k ≠ .unwound := by decide) : SameClaims s (countTotal k n s) := by
  obtain ⟨unassigned, late, unwound⟩ := hk
  have same := countTotal_touches k n s
  exact ⟨countTotal_sameReels k n s unassigned h.length, same.same .mapRecords, same.same .late,
    by rw [countTotal_total _ _ _ _ h.length, if_neg late], by rw [countTotal_total _ _ _ _ h.length, if_neg unwound],
    countTotal_flag _ _ _ _ (by decide)⟩

theorem MovedTo.read {e : Entry} {rest : List Entry} {s s' t u : State} (h : MovedTo e rest s t) (hs : SameClaims s s')
    (hp : s'.pos = s.pos) (ht : SameClaims t u) (he : u.track.entries = t.track.entries) : MovedTo e rest s' u :=
  h.of_same hs.reels hs.records hs.lateRecord hs.late hs.unwound hp ht.reels ht.records he ht.lateRecord ht.late
    ht.unwound ht.lateFlag

theorem PlacedIn.read {it : Item} {s s' t u : State} (h : PlacedIn it s t) (hs : SameClaims s s')
    (hk : s'.track = s.track) (hp : s'.pos = s.pos) (ht : SameClaims t u) (hu : u.track = t.track) : PlacedIn it s' u :=
  h.of_same hs.reels hs.records hk hs.late hs.unwound hp ht.reels ht.records hu ht.late ht.unwound ht.lateFlag

theorem FoundLate.read {kind : ItemKind} {w : Int} {cls : Fin 8} {i : Option Nat} {s s' t u : State}
    (h : FoundLate kind w cls i s t) (hs : SameClaims s s') (ht : SameClaims t u) : FoundLate kind w cls i s' u := by
  have h := h.of_same ht.records ht.lateRecord ht.late ht.lateFlag
  unfold FoundLate CountedOnce Reported at *
  rw [hs.late, hs.records]
  exact h

/-! ### The end of an operation (R25, R29) -/

theorem completeOp_track (b : Bool) (before s : State) : (completeOp b before s).track = s.track :=
  (completeOp_touches b before s).track

theorem completeOp_sameClaims (b : Bool) (before s : State) : SameClaims s (completeOp b before s) :=
  (completeOp_touches b before s).sameClaims

/-- A hand-on reads of the state before the planner, the settle count, the length of the list and the room withheld. -/
theorem Touches.handedOn {ps : List Part} {before s : State} (h : Touches ps before s) (hs : TrackOrdered s)
    (hp : ∀ p ∈ ([.encoder, .position, .positionConfig, .roll, .timebase, .speed, .settle, .plannerState, .setAside,
      .stopRecord, .stopParams, .withheld] : List Part), p ∉ ps := by decide) :
    HandedOn before (completeOp true before s) :=
  completeOp_handedOn before s hs.identsNodup (h.planner fun p m => hp p (by revert p; decide))
    (h.same .settle (hp _ (by decide))) (h.same .withheld (hp _ (by decide)))

theorem signalRoom_of_length (s : State) : signalRoom s.track.entries.length s = s :=
  if_neg fun h => absurd h.1 (Nat.not_le.mpr h.2)

/-! ### The first due entry (R40) -/

section
variable {s : State} {pre post : List Entry} {e : Entry}

theorem State.listed.mem (listed : s.listed pre e post) : e ∈ s.track.entries := by
  rw [show s.track.entries = pre ++ e :: post from listed]
  exact List.mem_append_right _ List.mem_cons_self

theorem takeEntry_listed (ordered : TrackOrdered s) (listed : s.listed pre e post) :
    (takeEntry e s).track.entries = pre ++ post := by
  have nodup := ordered.identsNodup
  unfold State.listed at listed
  rw [listed] at nodup
  show removeEntry e.ident s.track.entries = _
  rw [listed, removeEntry_listed pre post e nodup]

theorem firstDue_listed (listed : s.listed pre e post) (before : ∀ f ∈ pre, s.due f = false) (due : s.due e = true) :
    s.firstDue = some e := by
  unfold State.firstDue
  rw [show s.track.entries = pre ++ e :: post from listed]
  exact find_listed s.due pre post e before due

theorem due_ahead (ahead : e.passage = .ahead) : s.due e = true ↔ e.w + s.pos.offKnife ≤ s.pos.p := by
  unfold State.due
  rw [ahead]
  exact decide_eq_true_iff

theorem due_slit (slit : e.passage ≠ .ahead) : s.due e = true ↔ e.w + s.pos.offNip ≤ s.pos.p := by
  unfold State.due
  cases h : e.passage with
  | ahead => exact absurd h slit
  | slit lanes shift => exact decide_eq_true_iff

theorem knifePassage_ahead (first : s.firstDue = some e) (ahead : e.passage = .ahead) : knifePassage s =
    if e.pendingReplace then completeOp true s (replaceEntry e s) else completeOp false s (passInPlace e s) := by
  unfold knifePassage
  rw [first]
  dsimp only
  rw [ahead]

theorem commitDue_slit (first : s.firstDue = some e) (slit : e.passage ≠ .ahead) : commitDue s =
    if e.pendingReplace then completeOp true s (replaceEntry e s)
    else completeOp true s (commitEntry e (takeEntry e s)) := by
  unfold commitDue
  rw [first]
  cases h : e.passage with
  | ahead => exact absurd h slit
  | slit lanes shift => dsimp only; rw [h]

/-! ### The knife passage (R41) -/

theorem passInPlace_listed (ordered : TrackOrdered s) (listed : s.listed pre e post) :
    passInPlace e s = setEntries (pre ++ passKnife s e :: post) s := by
  have nodup := ordered.identsNodup
  unfold State.listed at listed
  rw [listed] at nodup
  unfold passInPlace
  rw [listed, map_listed (passKnife s) pre post e nodup]

/-- R25: a knife passage in its place leaves the number of entries, so that it signals no room. -/
theorem completeOp_passInPlace (ordered : TrackOrdered s) (listed : s.listed pre e post) :
    completeOp false s (passInPlace e s) = setEntries (pre ++ passKnife s e :: post) s := by
  have same : s.track.entries.length = (setEntries (pre ++ passKnife s e :: post) s).track.entries.length := by
    rw [show s.track.entries = pre ++ e :: post from listed]
    simp [setEntries]
  rw [passInPlace_listed ordered listed]
  show signalRoom s.track.entries.length _ = _
  rw [same, signalRoom_of_length]

/-! ### The commit (R42 to R44) -/

theorem openFor_iff (w : Int) (s : State) : s.openFor w = true ↔ ∃ o, s.reels.openSet = some o ∧ o.wStart ≤ w := by
  unfold State.openFor
  cases s.reels.openSet with
  | none => exact ⟨nofun, fun ⟨_, held, _⟩ => nomatch held⟩
  | some o =>
    exact decide_eq_true_iff.trans
      ⟨fun began => ⟨o, rfl, began⟩, fun ⟨_, held, began⟩ => Option.some.inj held ▸ began⟩

theorem commitEntry_delivers {o : OpenSet} (ho : s.reels.openSet = some o) (hw : o.wStart ≤ e.w) :
    commitEntry e s = setStatus e.mapIndex .retired (deliverEntry e o.wStart s) := by
  unfold commitEntry
  rw [ho]
  dsimp only
  rw [if_pos hw]

/-- The part of a commit that does not depend on where the entry goes: it leaves the list, its record is RETIRED, its counts
saturate as they must, and room and an evaluation follow. -/
theorem commit_leaves (ordered : TrackOrdered s) (bounded : TalliesBounded s) (listed : s.listed pre e post) :
    let t := completeOp true s (commitEntry e (takeEntry e s))
    t.track.entries = pre ++ post ∧ Reported e.mapIndex .retired s t ∧ SaturationShown s t ∧ HandedOn s t := by
  have taken := takeEntry_touches e s
  have committed := commitEntry_touches e (takeEntry e s)
  have done := completeOp_touches true s (commitEntry e (takeEntry e s))
  refine ⟨?_, ?_, ?_, ?_⟩
  · rw [completeOp_track, commitEntry_entries, takeEntry_listed ordered listed]
  · have reported : Reported e.mapIndex .retired s (commitEntry e (takeEntry e s)) :=
      (commitEntry_reported e (takeEntry e s)).of_records rfl
    unfold Reported at *
    rw [done.same .mapRecords, reported]
  · exact (((CountsFrom.of_touches taken).trans (commitEntry_countsFrom e _ (ordered.lanes listed.mem))).trans
      (completeOp_countsFrom _ _ _)).shown bounded
  · exact (taken.trans (rs := .entries :: .openSet :: .indications :: .mapRecords :: Part.counting) committed).handedOn
      (commitEntry_ordered e (takeEntry_ordered e s ordered))

end

end Sys2Proof.Machine

namespace Sys2Proof.Proofs

open Sys2Proof.Machine

/-- Settles O13: the entry found first is changed in its place, which signals no room. -/
theorem knifePassage : Obligations.KnifePassage := by
  intro s pre post e ordered listed before ahead reached settled
  have first := firstDue_listed listed before ((due_ahead ahead).mpr reached)
  refine ⟨passKnife s e, passKnife_passedAs s e ahead, ?_⟩
  show Host.Outcome.next (Machine.knifePassage s) = _
  rw [knifePassage_ahead first ahead, if_neg (by rw [settled]; decide), completeOp_passInPlace ordered listed]
  rfl

/-- What COMMIT makes of the first due entry, SLIT and without PENDING_REPLACE. -/
theorem exec_commit {s : State} {pre post : List Entry} {e : Entry} (listed : s.listed pre e post)
    (before : ∀ f ∈ pre, s.due f = false) (slit : e.passage ≠ .ahead) (reached : e.w + s.pos.offNip ≤ s.pos.p)
    (settled : e.pendingReplace = false) :
    exec .commit s = .next (completeOp true s (commitEntry e (takeEntry e s))) := by
  show Host.Outcome.next (commitDue s) = _
  rw [commitDue_slit (firstDue_listed listed before ((due_slit slit).mpr reached)) slit,
    if_neg (by rw [settled]; decide)]

/-- Settles O14: with no set that takes it, the commit is one count of UNWOUND and the report. -/
theorem commitUnwound : Obligations.CommitUnwound := by
  intro s pre post e ordered bounded listed before slit reached settled closed
  obtain ⟨entries, reported, shown, handed⟩ := commit_leaves ordered bounded listed
  have unwound : commitEntry e (takeEntry e s) = setStatus e.mapIndex .retired (countTotal .unwound 1 (takeEntry e s)) :=
    commitEntry_unwound e (takeEntry e s) closed
  have counted : Touches Part.counting (takeEntry e s) (countTotal .unwound 1 (takeEntry e s)) := countTotal_touches _ _ _
  have after : Touches (.mapRecords :: .withheld :: Part.planning) (countTotal .unwound 1 (takeEntry e s))
      (completeOp true s (commitEntry e (takeEntry e s))) := by
    have done := completeOp_touches true s (commitEntry e (takeEntry e s))
    rw [unwound] at done ⊢
    exact (setStatus_touches _ _ _).trans done
  have whole : Touches (.entries :: .mapRecords :: .withheld :: .liveTallies :: .flags :: Part.planning) s
      (completeOp true s (commitEntry e (takeEntry e s))) :=
    ((takeEntry_touches e s).trans (rs := .entries :: Part.counting) counted).trans after
  refine ⟨_, exec_commit listed before slit reached settled, entries, ?_, shown, whole.reels, whole.same .late, ?_, reported,
    handed⟩
  · exact (after.total _).trans ((countTotal_total _ _ _ (takeEntry e s) bounded.length).trans (if_pos rfl))
  · intro ev other
    exact (after.flag ev).trans (countTotal_flag _ _ _ _ other)

/-- What a commit into the open set `o` delivers, seen from the state that COMMIT finds and at the state that it leaves. -/
theorem commit_delivers {s : State} {e : Entry} {o : OpenSet} (ho : s.reels.openSet = some o) (hw : o.wStart ≤ e.w) :
    SameReels (takeEntry e s) s ∧ SameReels (deliverEntry e o.wStart (takeEntry e s))
      (completeOp true s (commitEntry e (takeEntry e s))) := by
  have delivers : commitEntry e (takeEntry e s) = setStatus e.mapIndex .retired (deliverEntry e o.wStart (takeEntry e s)) :=
    commitEntry_delivers ho hw
  have done := completeOp_touches true s (commitEntry e (takeEntry e s))
  refine ⟨(takeEntry_touches e s).sameReels.symm, ?_⟩
  rw [delivers] at done ⊢
  exact ((setStatus_touches _ _ _).trans (rs := .mapRecords :: .withheld :: Part.planning) done).sameReels

/-- R42: a commit into the open set counts nothing as unwound. -/
theorem commit_notUnwound {s : State} {e : Entry} {o : OpenSet} (bounded : TalliesBounded s)
    (ho : s.reels.openSet = some o) (hw : o.wStart ≤ e.w) :
    (completeOp true s (commitEntry e (takeEntry e s))).total .unwound = s.total .unwound :=
  ((completeOp_touches _ _ _).total _).trans
    (commitEntry_total e (takeEntry e s) .unwound bounded.length ((openFor_iff _ _).mpr ⟨o, ho, hw⟩) (by decide))

/-- Settles O15: the delivery of a FLAG lies between its leaving the list and the report on its record. -/
theorem commitFlag : Obligations.CommitFlag := by
  intro s pre post e lanes shift o ordered bounded listed before flag slit reached settled ho hw
  obtain ⟨entries, reported, shown, handed⟩ := commit_leaves ordered bounded listed
  obtain ⟨reels, after⟩ := commit_delivers ho hw
  have fit := ordered.lanesFit listed.mem
  have carried : e.lanes = lanes ∧ e.knifeShift = shift := by
    unfold Entry.lanes Entry.knifeShift
    rw [slit]
    exact ⟨rfl, rfl⟩
  have given : deliverEntry e o.wStart (takeEntry e s) = deliverFlag e lanes shift o.wStart (takeEntry e s) := by
    unfold deliverEntry
    rw [flag, carried.1, carried.2]
  unfold Entry.lanesFit at fit
  rw [carried.1] at fit
  rw [given] at after
  exact ⟨_, exec_commit listed before (by rw [slit]; nofun) reached settled, entries, reported, commit_notUnwound bounded ho hw,
    shown, (deliverFlag_delivered e lanes shift o (takeEntry e s) ho fit.1 fit.2 bounded.1.1 bounded.1.2.1).of_same reels
      after, handed⟩

/-- Settles O16: as for a FLAG, with the delivery of a SPLICE. -/
theorem commitSplice : Obligations.CommitSplice := by
  intro s pre post e o ordered bounded listed before splice slit reached settled ho hw
  obtain ⟨entries, reported, shown, handed⟩ := commit_leaves ordered bounded listed
  obtain ⟨reels, after⟩ := commit_delivers ho hw
  have given : deliverEntry e o.wStart (takeEntry e s) = deliverSplice (takeEntry e s) := by
    unfold deliverEntry
    rw [splice]
  rw [given] at after
  exact ⟨_, exec_commit listed before slit reached settled, entries, reported, commit_notUnwound bounded ho hw, shown,
    (deliverSplice_delivered o (takeEntry e s) ho bounded.1.2.1).of_same reels after, handed⟩

end Sys2Proof.Proofs
end

