-- ==== Sys2Proof/Proofs/Replacement.lean ====
section
/-! SUPPORT. Entries given a new w: the re-placement step, the confirmation and the marking that asks for re-placement
(R45, R46, R67 to R69). Settles O17 and O18. -/

-- One theorem at a time: kernel checks waiting for one another would each hold a thread and its memory.
set_option Elab.async false

namespace Sys2Proof.Machine

/-- What an entry taken from the list can change where it comes to rest (R31, R42, R45). -/
def Part.resting : List Part := .entries :: .late :: .openSet :: .indications :: .mapRecords :: Part.counting

section
variable {s : State} {pre post : List Entry} {e : Entry}

/-! ### Entries moved (R35, R45, R46) -/

/-- An entry of the list, changed but for its lane set, comes to rest as the claims say of the state it was listed in. -/
theorem placeMoved_taken (ordered : TrackOrdered s) (bounded : TalliesBounded s) (listed : s.listed pre e post)
    {e' : Entry} (lanes : e'.lanes = e.lanes) : MovedTo e' (pre ++ post) s (placeMoved e' (takeEntry e s)) := by
  have fit : e'.lanesFit := by
    unfold Entry.lanesFit
    rw [lanes]
    exact ordered.lanesFit listed.mem
  have moved := placeMoved_movedTo e' (takeEntry e s) bounded.1.1 bounded.1.2.1 fit (takeEntry_ordered e s ordered).ascending
  rw [takeEntry_listed ordered listed] at moved
  exact moved.read (takeEntry_touches e s).sameClaims.symm rfl (Touches.refl [] _).sameClaims rfl

/-! ### The re-placement step (R45, R69) -/

/-- What a re-placement step of the entry `e` at the prediction `w` comes to, `rest` being the list without it. -/
def Replaced (e : Entry) (w : Int) (rest : List Entry) (s t : State) : Prop :=
  HandedOn s t ∧ SaturationShown s t ∧
  if w < 0 then t.track.entries = rest ∧ FoundLate e.kind w e.cls e.mapIndex s t
  else MovedTo { e with pendingReplace := false, w := min w posMax } rest s t

theorem replaceEntry_replaced (ordered : TrackOrdered s) (bounded : TalliesBounded s) (listed : s.listed pre e post) :
    Replaced e (s.predictionFor e) (pre ++ post) s (completeOp true s (replaceEntry e s)) := by
  have done := completeOp_sameClaims true s (replaceEntry e s)
  refine ⟨(replaceEntry_touches e s).handedOn (replaceEntry_ordered e s ordered listed.mem),
    ((replaceEntry_countsFrom e s (ordered.lanes listed.mem)).trans (completeOp_countsFrom _ _ _)).shown bounded, ?_⟩
  rw [completeOp_track]
  rw [replaceEntry_eq] at done ⊢
  split at done
  · rename_i below
    rw [if_pos below]
    rw [if_pos below]
    refine ⟨?_, (lateItem_foundLate _ _ _ _ (takeEntry e s) bounded.length).read
      (takeEntry_touches e s).sameClaims.symm done⟩
    rw [lateItem_entries, takeEntry_listed ordered listed]
  · rename_i above
    rw [if_neg above]
    rw [if_neg above]
    exact (placeMoved_taken ordered bounded listed
      (e' := { e with pendingReplace := false, w := min (s.predictionFor e) posMax }) rfl).read
      (Touches.refl [] s).sameClaims rfl done (by rw [completeOp_track])

/-- R67: the marks that a walk step settles are none of what a re-placement comes to. -/
theorem Replaced.settled {w : Int} {rest : List Entry} {t : State} (h : Replaced e w rest s t) :
    Replaced e w rest s (settleYields t) := by
  have same := (settleYields_touches t).sameClaims
  obtain ⟨handed, shown, placed⟩ := h
  refine ⟨handed.of_same rfl rfl rfl rfl rfl, shown, ?_⟩
  split at placed
  · rename_i below
    rw [if_pos below]
    exact ⟨placed.1, placed.2.read (Touches.refl [] s).sameClaims same⟩
  · rename_i above
    rw [if_neg above]
    exact placed.read (Touches.refl [] s).sameClaims rfl same rfl

/-- R67, R69: the walk step is granted with no entry due, no write queued and no request ahead of it. -/
theorem walkStep_granted (listed : s.listed pre e post) (pending : e.pendingReplace = true)
    (before : ∀ f ∈ pre, f.pendingReplace = false) (idle : s.classOne = false) (empty : s.align.queue = [])
    (free : s.yielding = false) : walkStep s = settleYields (completeOp true s (replaceEntry e s)) := by
  have found : s.firstPending = some e := by
    unfold State.firstPending
    rw [show s.track.entries = pre ++ e :: post from listed]
    exact find_listed _ pre post e before pending
  have requested : s.walkRequested = true := by
    unfold State.walkRequested State.walkDue
    rw [free, empty, Bool.and_eq_true, Bool.and_eq_true, List.any_eq_true]
    exact ⟨⟨rfl, e, listed.mem, pending⟩, rfl⟩
  have granted : s.grantsTwo = true := by
    unfold State.grantsTwo
    rw [idle]
    rfl
  unfold walkStep
  rw [if_pos ⟨granted, requested⟩, found]

/-! ### The confirmation (R46) -/

theorem grantedWrite_head {x : AlignWrite} {rest : List AlignWrite} (queue : s.align.queue = x :: rest)
    (idle : s.classOne = false) : s.grantedWrite = some x := by
  unfold State.grantedWrite State.grantsTwo
  rw [idle, queue]
  rfl

theorem popWrite_eq {x : AlignWrite} {rest : List AlignWrite} (queue : s.align.queue = x :: rest) :
    popWrite s = { s with align := { s.align with queue := rest } } := by
  unfold popWrite
  rw [queue]
  rfl

theorem confirmation_head {i : Nat} {w : Int} {rest : List AlignWrite} (queue : s.align.queue = .confirmation i w :: rest)
    (idle : s.classOne = false) : confirmation s = confirmEntry i w s := by
  unfold confirmation
  rw [grantedWrite_head queue idle]

/-- The move of a confirmed entry, with the write already off the queue. -/
theorem confirmEntry_moves (i : Nat) (w : Int) (ordered : TrackOrdered s) (bounded : TalliesBounded s)
    (listed : s.listed pre e post) (index : e.mapIndex = some i) (before : ∀ f ∈ pre, f.mapIndex ≠ some i) :
    (confirmEntry i w s).align.queue = s.align.queue.tail ∧ HandedOn s (confirmEntry i w s) ∧
      MovedTo (confirmedEntry e w) (pre ++ post) s (confirmEntry i w s) := by
  have popped := popWrite_touches s
  have found : (s.track.entries.find? fun e => e.mapIndex == some i) = some e := by
    rw [show s.track.entries = pre ++ e :: post from listed]
    exact find_listed _ pre post e (fun f hf => by simpa using before f hf) (by simp [index])
  have confirmed : confirmEntry i w s =
      completeOp true s (placeMoved (confirmedEntry e w) (takeEntry e (popWrite s))) := by
    unfold confirmEntry
    rw [found]
  have orderedAfter := popWrite_ordered ordered
  have moved : Touches Part.resting (popWrite s)
      (placeMoved (confirmedEntry e w) (takeEntry e (popWrite s))) :=
    (takeEntry_touches e (popWrite s)).trans (placeMoved_touches _ _)
  have whole : Touches (.writeQueue :: Part.resting) s
      (placeMoved (confirmedEntry e w) (takeEntry e (popWrite s))) := popped.trans moved
  rw [confirmed]
  refine ⟨?_, whole.handedOn (placeMoved_ordered e _ _ orderedAfter listed.mem rfl rfl), ?_⟩
  · exact (moved.trans (rs := Part.moving) (completeOp_touches true s _)).same .writeQueue
  · exact (placeMoved_taken (s := popWrite s) orderedAfter bounded listed (e' := confirmedEntry e w) rfl).read
      popped.sameClaims.symm rfl (completeOp_sameClaims _ _ _) (by rw [completeOp_track])

/-! ### The marking (R68) -/

theorem isMarked_iff (bound : Int) : s.isMarked bound e = true ↔
    e.source = .map ∧ ∃ i r, e.mapIndex = some i ∧ s.pmap.records[i]? = some r ∧ r.m < bound := by
  unfold State.isMarked State.mapRecord
  rw [Bool.and_eq_true, beq_iff_eq]
  refine and_congr_right fun _ => ?_
  cases e.mapIndex with
  | none => exact ⟨nofun, fun ⟨_, _, index, _⟩ => nomatch index⟩
  | some i =>
    dsimp only
    cases record : s.pmap.records[i]? with
    | none => exact ⟨nofun, fun ⟨_, _, index, found, _⟩ => nomatch (Option.some.inj index ▸ record).symm.trans found⟩
    | some r =>
      refine decide_eq_true_iff.trans ⟨fun below => ⟨i, r, rfl, record, below⟩, fun ⟨_, _, index, found, below⟩ => ?_⟩
      cases index
      cases record.symm.trans found
      exact below

theorem marking_head {bound : Int} {rest : List AlignWrite} (queue : s.align.queue = .marking bound :: rest)
    (idle : s.classOne = false) : marking s = markBelow bound (popWrite s) := by
  unfold marking
  rw [grantedWrite_head queue idle]

end

end Sys2Proof.Machine

namespace Sys2Proof.Proofs

open Sys2Proof.Machine

/-- What O17 says of a re-placement step, for a command that makes it: the marks of R67 are settled by the walk step
alone. -/
theorem replaced_by {c : Instr} {s t : State} {rest : List Entry} {e : Entry} {i : Nat} {r : MapRecord}
    (index : e.mapIndex = some i) (record : s.pmap.records[i]? = some r) (made : exec c s = .next t)
    (align : t.align = { s.align with yields := t.align.yields })
    (yields : t.align.yields = if c = .walkStep then ⟨t.classThree, t.classFour, t.classFive⟩ else s.align.yields)
    (replaced : Replaced e (s.predictionFor e) rest s t) :
    ∃ t, exec c s = .next t ∧ t.align = { s.align with yields := t.align.yields } ∧
      t.align.yields = (if c = .walkStep then ⟨t.classThree, t.classFour, t.classFive⟩ else s.align.yields) ∧
      Replaced e (s.predict r.m) rest s t :=
  ⟨t, made, align, yields, predictionFor_eq e s i r index record ▸ replaced⟩

/-- Settles O17: the walk step, the knife passage and the commit all make the same re-placement, and the walk step settles
its marks after it. -/
theorem replacementStep : Obligations.ReplacementStep := by
  intro c s pre post e i r ordered bounded listed pending index record asked
  have replaced := replaceEntry_replaced ordered bounded listed
  have align : (completeOp true s (replaceEntry e s)).align = s.align :=
    ((replaceEntry_touches e s).trans (rs := Part.moving) (completeOp_touches true s _)).align
  rcases asked with walk | knife | commit
  · obtain ⟨rfl, before, idle, empty, free⟩ := walk
    refine replaced_by index record (congrArg Host.Outcome.next (walkStep_granted listed pending before idle empty free))
      ?_ rfl replaced.settled
    exact congrArg (fun a : AlignmentUnit => { a with
      yields := (settleYields (completeOp true s (replaceEntry e s))).align.yields }) align
  · obtain ⟨rfl, before, ahead, reached⟩ := knife
    have first := firstDue_listed listed before ((due_ahead ahead).mpr reached)
    exact replaced_by index record (congrArg Host.Outcome.next ((knifePassage_ahead first ahead).trans (if_pos pending)))
      (by rw [align]) (congrArg (·.yields) align) replaced
  · obtain ⟨rfl, before, slit, reached⟩ := commit
    have first := firstDue_listed listed before ((due_slit slit).mpr reached)
    exact replaced_by index record (congrArg Host.Outcome.next ((commitDue_slit first slit).trans (if_pos pending)))
      (by rw [align]) (congrArg (·.yields) align) replaced

/-- Settles O18: the confirmation moves its entry as a re-placement would, and the marking changes each entry in its
place. -/
theorem confirmationAndMarking : Obligations.ConfirmationAndMarking := by
  refine ⟨fun s i w rest queue idle => ⟨fun pre post e ordered bounded listed index before => ?_, fun absent => ?_⟩,
    fun s bound rest queue idle => ?_⟩
  · have head := confirmation_head queue idle
    have shown := (confirmation_countsFrom s ordered).shown bounded
    obtain ⟨left, handed, moved⟩ := confirmEntry_moves i w ordered bounded listed index before
    rw [head] at shown
    exact ⟨_, congrArg Host.Outcome.next head, by rw [left, queue]; rfl, handed, shown, moved⟩
  · have none : (s.track.entries.find? fun e => e.mapIndex == some i) = none :=
      List.find?_eq_none.mpr fun f hf => by simpa using absent f hf
    refine congrArg Host.Outcome.next ((confirmation_head queue idle).trans ?_)
    unfold confirmEntry
    rw [none]
    exact popWrite_eq queue
  · refine ⟨_, congrArg Host.Outcome.next (marking_head queue idle), ?_, ?_⟩
    · rw [popWrite_eq queue]
      rfl
    · refine List.forall₂_map_right_iff.mpr (List.forall₂_same.mpr fun e _ => ?_)
      have marked : (popWrite s).isMarked bound e = true ↔ e.source = .map ∧
          ∃ i r, e.mapIndex = some i ∧ s.pmap.records[i]? = some r ∧ r.m < bound := isMarked_iff bound
      split
      · exact ⟨true, rfl, iff_of_true rfl (.inr (marked.mp ‹_›))⟩
      · exact ⟨e.pendingReplace, rfl, (or_iff_left (mt marked.mpr ‹_›)).symm⟩

end Sys2Proof.Proofs
end

