-- ==== Sys2Proof/Proofs/Placement.lean ====
section
/-! SUPPORT. Items placed by where their w lies, with room in the list (R30 to R32), and the live splice (R65, R84). Settles
O19. -/

-- One theorem at a time: kernel checks waiting for one another would each hold a thread and its memory.
set_option Elab.async false

namespace Sys2Proof.Machine

/-! ### Counts and hand-ons -/

theorem countTotal_countedOnce (k : Total) {s : State} (h : TalliesBounded s) : CountedOnce k s (countTotal k 1 s) := by
  unfold CountedOnce
  rw [countTotal_total _ _ _ _ h.length, if_pos rfl]

theorem CountedOnce.read {k : Total} {s s' t u : State} (h : CountedOnce k s t) (hs : s'.total k = s.total k)
    (ht : u.total k = t.total k) : CountedOnce k s' u := by
  unfold CountedOnce at *
  rw [hs, ht, h]

/-- Room is signalled by a fall of the number of entries alone. -/
theorem roomSignalled_of_length {s t : State} (hw : t.pmap.withheld = s.pmap.withheld)
    (hl : t.track.entries.length = s.track.entries.length) : RoomSignalled s t := by
  unfold RoomSignalled
  rw [hw, hl]
  by_cases full : 1024 ≤ s.track.entries.length
  · simp [Nat.not_lt.mpr full]
  · simp [full]

/-- The parts that a hand-on compares. -/
def Part.handing : List Part :=
  [.encoder, .position, .positionConfig, .roll, .timebase, .speed, .settle, .plannerState, .setAside, .stopRecord,
    .stopParams, .withheld]

section
variable {ps : List Part} {s t u : State}

/-- What changes neither the entries nor what a hand-on compares hands nothing on. -/
theorem Touches.handedNone (h : Touches ps s t)
    (hp : ∀ p ∈ (.entries :: Part.handing), p ∉ ps := by decide) : HandedNone s t :=
  ⟨roomSignalled_of_length (h.same .withheld (hp _ (by decide)))
    (congrArg List.length (h.same .entries (hp _ (by decide)))), h.planner fun p m => hp p (by revert p; decide),
    h.same .settle (hp _ (by decide))⟩

/-- What a completed operation hands on, when it changed nothing that a hand-on compares. -/
theorem Touches.completed (h : Touches ps s t) (ordered : TrackOrdered t) (b : Bool)
    (hp : ∀ p ∈ Part.handing, p ∉ ps := by decide) :
    if b = true then HandedOn s (completeOp b s t) else HandedNone s (completeOp b s t) := by
  cases b with
  | true => exact (if_pos rfl).mpr (h.handedOn ordered hp)
  | false =>
    have none_ := completeOp_handedNone s t (h.planner fun p m => hp p (by revert p; decide))
      (h.same .settle (hp _ (by decide))) (h.same .withheld (hp _ (by decide)))
    exact (if_neg Bool.false_ne_true).mpr none_

theorem RoomSignalled.seenFrom (h : RoomSignalled u t) (k : Touches ps s u)
    (hp : ∀ p ∈ (.entries :: Part.handing), p ∉ ps := by decide) : RoomSignalled s t := by
  have entries : u.track.entries = s.track.entries := k .entries (hp _ (by decide))
  have withheld : u.pmap.withheld = s.pmap.withheld := k .withheld (hp _ (by decide))
  unfold RoomSignalled at *
  rw [h, entries, withheld]

/-- A hand-on seen from a state before, which agrees in what a hand-on compares. -/
theorem HandedOn.seenFrom (h : HandedOn u t) (k : Touches ps s u)
    (hp : ∀ p ∈ (.entries :: Part.handing), p ∉ ps := by decide) : HandedOn s t :=
  ⟨h.1.seenFrom k hp, h.2.of_same (k.planner fun p m => hp p (by revert p; decide)).symm
    (k.same .settle (hp _ (by decide))).symm rfl rfl rfl rfl⟩

theorem HandedNone.seenFrom (h : HandedNone u t) (k : Touches ps s u)
    (hp : ∀ p ∈ (.entries :: Part.handing), p ∉ ps := by decide) : HandedNone s t :=
  ⟨h.1.seenFrom k hp, h.2.1.trans (k.planner fun p m => hp p (by revert p; decide)),
    h.2.2.trans (k.same .settle (hp _ (by decide)))⟩

end

/-! ### Live splices (R65, R84) -/

section
variable {s : State} {it : Item}

theorem not_above (below : it.w < 0) : ¬ posMax < it.w := not_lt.mpr (below.le.trans (by decide))

theorem placeLiveSplice_above (bounded : TalliesBounded s) (above : posMax < it.w) :
    CountedOnce .linkDropped s (placeLiveSplice it s) ∧ (placeLiveSplice it s).track = s.track ∧
      HandedNone s (placeLiveSplice it s) := by
  have dropped : placeLiveSplice it s = countTotal .linkDropped 1 s := if_pos above
  have touched := countTotal_touches .linkDropped 1 s
  rw [dropped]
  exact ⟨countTotal_countedOnce _ bounded, touched.track, touched.handedNone⟩

theorem placeLiveSplice_below (bounded : TalliesBounded s) (below : it.w < 0) :
    (placeLiveSplice it s).track.entries = s.track.entries ∧
      FoundLate .splice it.w it.cls none s (placeLiveSplice it s) ∧ HandedNone s (placeLiveSplice it s) := by
  have late : placeLiveSplice it s = lateItem .splice it.w it.cls none s :=
    (if_neg (not_above below)).trans (if_pos below)
  rw [late]
  exact ⟨lateItem_entries _ _ _ _ s, lateItem_foundLate _ _ _ _ s bounded.length, (lateItem_touches _ _ _ _ s).handedNone⟩

theorem placeLiveSplice_between (above : ¬ posMax < it.w) (below : ¬ it.w < 0) :
    placeLiveSplice it s = completeOp (placeItem it s).2.handsOn s (placeItem it s).1 :=
  (if_neg above).trans (if_neg below)

/-- R29, R30: with room for it or none needed, an item stands when it was stored or committed. -/
theorem placeItem_stands (room : s.track.entries.length < 1024 ∨ it.w ≤ s.commitLine) :
    (placeItem it s).2.handsOn = true ↔ s.commitLine < it.w ∨ s.openFor it.w = true := by
  rw [placeItem_handsOn it s room, Bool.or_eq_true, decide_eq_true_iff]

/-- R29, R30: an item placed with room for it, or with none needed, and handed on when it was stored or committed. -/
theorem placeItem_completed (ordered : TrackOrdered s) (bounded : TalliesBounded s)
    (room : s.track.entries.length < 1024 ∨ it.w ≤ s.commitLine) :
    let t := completeOp (placeItem it s).2.handsOn s (placeItem it s).1
    PlacedIn it s t ∧ if s.commitLine < it.w ∨ s.openFor it.w = true then HandedOn s t else HandedNone s t := by
  refine ⟨(placeItem_placedIn it s bounded.1.1 bounded.1.2.1 ordered.ascending room).read (Touches.refl [] s).sameClaims rfl
    rfl (completeOp_sameClaims _ _ _) (completeOp_track _ _ _), ?_⟩
  have handed := (placeItem_touches it s).completed (placeItem_ordered it s ordered) (placeItem it s).2.handsOn
  exact (if_congr (placeItem_stands room) rfl rfl).mp handed

theorem liveSplicePlacement_head {w : Int} {src : SightingSource} {u : Bool} {rest : List AlignWrite}
    (queue : s.align.queue = .liveSplice w src u :: rest) (idle : s.classOne = false) :
    liveSplicePlacement s = placeLiveSplice (liveSpliceItem w src u) (popWrite s) := by
  unfold liveSplicePlacement
  rw [grantedWrite_head queue idle]

/-- The placement leaves the queue as the write's grant left it. -/
theorem placeLiveSplice_queue {x : AlignWrite} {rest : List AlignWrite} (queue : s.align.queue = x :: rest) :
    (placeLiveSplice it (popWrite s)).align.queue = rest := by
  have left : (popWrite s).align.queue = rest := by
    rw [popWrite_eq queue]
  exact Eq.trans ((placeLiveSplice_touches it (popWrite s)).same .writeQueue) left

end

end Sys2Proof.Machine

namespace Sys2Proof.Proofs

open Sys2Proof.Machine

/-- Settles O19: the write leaves the queue, and the splice is placed in the state that this leaves. -/
theorem liveSplicePlaced : Obligations.LiveSplicePlaced := by
  intro s w src u rest queue idle ordered bounded room
  have head := liveSplicePlacement_head queue idle
  have shown := (liveSplicePlacement_countsFrom s).shown bounded
  have popped := popWrite_touches s
  rw [head] at shown
  refine ⟨_, congrArg Host.Outcome.next head, placeLiveSplice_queue queue, shown, ?_⟩
  split
  · rename_i above
    obtain ⟨counted, track, handed⟩ := placeLiveSplice_above (s := popWrite s) (it := liveSpliceItem w src u) bounded above
    exact ⟨counted, track, handed.seenFrom popped⟩
  · rename_i above
    split
    · rename_i below
      obtain ⟨entries, late, handed⟩ := placeLiveSplice_below (s := popWrite s) (it := liveSpliceItem w src u) bounded below
      exact ⟨entries, late.read popped.sameClaims.symm (Touches.refl [] _).sameClaims, handed.seenFrom popped⟩
    · rename_i below
      rw [placeLiveSplice_between (it := liveSpliceItem w src u) above below]
      obtain ⟨placed, handed⟩ := placeItem_completed (s := popWrite s) (it := liveSpliceItem w src u)
        (popWrite_ordered ordered) bounded (by
          rcases room with free | negative | high | behind
          · exact .inl free
          · exact absurd negative below
          · exact absurd high above
          · exact .inr behind)
      refine ⟨placed.read popped.sameClaims.symm rfl rfl (Touches.refl [] _).sameClaims rfl, ?_⟩
      by_cases stands : s.commitLine < w ∨ s.openFor w = true
      · rw [if_pos stands]
        exact ((if_pos stands).mp handed).seenFrom popped
      · rw [if_neg stands]
        exact ((if_neg stands).mp handed).seenFrom popped

end Sys2Proof.Proofs
end

