-- ==== Sys2Proof/Proofs/Detection.lean ====
section
/-! SUPPORT. A DETECTION taken at its grant: dropped, late, merged or placed (R34, R35, R85). Settles O20. -/

-- One theorem at a time: kernel checks waiting for one another would each hold a thread and its memory.
set_option Elab.async false

namespace Sys2Proof.Machine

/-- The state in which a granted DETECTION is placed: it has left the DIQ, and its request stands no more. -/
def State.atDetection (s : State) : State := grantDetection (popMessage s)

theorem atDetection_touches (s : State) : Touches [.messages, .link, .yields] s s.atDetection :=
  (popMessage_touches s).trans (grantDetection_touches _)

theorem atDetection_yields (s : State) : s.atDetection.align.yields = { s.align.yields with detection := false } := by
  show { (popMessage s).align.yields with detection := false } = _
  rw [(popMessage_touches s).align]

/-- R75: a DETECTION that passes its tests waits for its grant. -/
theorem detection_tested {s : State} {c len x0 x1 : Int} {cls : Fin 8} {sev : Fin 4} {rest : List Message}
    (head : s.diq.messages = .detection c len x0 x1 cls sev :: rest) (mounted : s.mounted = true) (extent : x0 ≤ x1) :
    detection s =
      if s.grantsThree = true then placeDetection (detectionItem s c len x0 x1 cls sev) s.atDetection else s := by
  unfold detection
  rw [head, mounted]
  exact if_neg (not_lt.mpr extent)

/-! ### Which entry a detection merges into (R34) -/

/-- R34: the item merges into an entry with these fields. -/
def State.mergesInto (s : State) (it : Item) (e : Entry) : Prop :=
  e.source = .map ∧ e.kind = .flag ∧ e.passage = .ahead ∧ |it.w - e.w| ≤ s.track.mergeWindow ∧ e.x0 ≤ it.x1 ∧
    it.x0 ≤ e.x1 ∧ e.cls = it.cls

/-- The test that `mergeTarget` makes of an entry. -/
def State.mergeTest (s : State) (it : Item) (e : Entry) : Bool :=
  e.source == .map && e.kind == .flag && e.passage == .ahead && absInt (it.w - e.w) ≤ s.track.mergeWindow &&
    (e.x0 ≤ it.x1 && it.x0 ≤ e.x1) && e.cls == it.cls

theorem mergeTest_iff (s : State) (it : Item) (e : Entry) : s.mergeTest it e = true ↔ s.mergesInto it e := by
  simp [State.mergeTest, State.mergesInto, absInt_eq_abs, and_assoc]

theorem mergeTarget_eq (it : Item) (s : State) : mergeTarget it s = s.track.entries.find? (s.mergeTest it) := rfl

section
variable {it : Item} {s : State} {pre post : List Entry} {e : Entry}

theorem mergeTarget_none (alone : ∀ e ∈ s.track.entries, ¬ s.mergesInto it e) : mergeTarget it s = none := by
  rw [mergeTarget_eq, List.find?_eq_none]
  exact fun e he => mt (mergeTest_iff s it e).mp (alone e he)

theorem mergeTarget_listed (listed : s.listed pre e post) (merges : s.mergesInto it e)
    (before : ∀ f ∈ pre, ¬ s.mergesInto it f) : mergeTarget it s = some e := by
  rw [mergeTarget_eq, show s.track.entries = pre ++ e :: post from listed]
  exact find_listed _ pre post e (fun f hf => Bool.eq_false_iff.mpr (mt (mergeTest_iff s it f).mp (before f hf)))
    ((mergeTest_iff s it e).mpr merges)

/-! ### The cases of a placement (R30, R85) -/

theorem setLastResult_sameClaims (r : ResultCode) (s : State) : SameClaims s (setLastResult r s) :=
  (setLastResult_touches r s).sameClaims

theorem placeDetection_lastResult :
    (placeDetection it s).diq.lastResult = if posMax < it.w then .badField else .ok := by
  unfold placeDetection
  split
  · rfl
  · split
    · rfl
    · split <;> rfl

/-- R67: a placement leaves the marks of class 3 and class 5. -/
theorem placeDetection_yields : (placeDetection it s).align.yields.detection = s.align.yields.detection ∧
    (placeDetection it s).align.yields.access = s.align.yields.access := by
  have kept {ps : List Part} {t : State} (h : Touches ps s t)
      (hp : ∀ p ∈ ([.anchors, .writeQueue, .sightings, .yields, .alignConfig] : List Part), p ∉ ps := by decide) :
      t.align.yields.detection = s.align.yields.detection ∧ t.align.yields.access = s.align.yields.access := by
    rw [h.align hp]
    exact ⟨rfl, rfl⟩
  unfold placeDetection
  split
  · have dropped := kept (countTotal_touches .linkDropped 1 s)
    exact dropped
  · split
    · have late := kept (lateItem_touches .flag it.w it.cls none s)
      exact late
    · split
      · rename_i e _
        have moved : Touches Part.resting s (mergeInto e it s) :=
          ((takeEntry_touches e s).trans (rs := Part.resting)
            (placeMoved_touches _ _)).trans (countTotal_touches _ _ _)
        have done := kept (moved.trans (rs := Part.moving) (completeOp_touches true s _))
        exact done
      · have counted : (placeFlag it s).1.align = (placeItem it s).1.align := by
          unfold placeFlag
          dsimp only
          split
          · exact (countTotal_touches .placed 1 (placeItem it s).1).align
          · rfl
        have placed : (completeOp (placeFlag it s).2 s (placeFlag it s).1).align = (placeItem it s).1.align :=
          ((completeOp_touches _ _ _).align).trans counted
        show (completeOp (placeFlag it s).2 s (placeFlag it s).1).align.yields.detection = _ ∧
          (completeOp (placeFlag it s).2 s (placeFlag it s).1).align.yields.access = _
        rw [placed, placeItem_yields]
        exact ⟨rfl, rfl⟩

/-! What every granted DETECTION comes to, wherever its item went. -/

section
variable {s : State} {c len x0 x1 : Int} {cls : Fin 8} {sev : Fin 4} {rest : List Message}

theorem exec_detection (head : s.diq.messages = .detection c len x0 x1 cls sev :: rest) (mounted : s.mounted = true)
    (extent : x0 ≤ x1) (granted : s.grantsThree = true) :
    exec .detection s = .next (placeDetection (detectionItem s c len x0 x1 cls sev) s.atDetection) :=
  congrArg Host.Outcome.next ((detection_tested head mounted extent).trans (if_pos granted))

/-- R73: it leaves the DIQ. -/
theorem placeDetection_taken (it : Item) {m : Message} (head : s.diq.messages = m :: rest) :
    TakenFromHead rest s (placeDetection it s.atDetection) := by
  have taken := popMessage_takenFromHead s
  rw [head] at taken
  exact (taken.of_touches (grantDetection_touches _)).of_touches (placeDetection_touches it s.atDetection)

theorem placeDetection_shown (it : Item) (ordered : TrackOrdered s) (bounded : TalliesBounded s) :
    SaturationShown s (placeDetection it s.atDetection) :=
  ((CountsFrom.of_touches (atDetection_touches s)).trans
    (placeDetection_countsFrom it s.atDetection (ordered.of_touches (atDetection_touches s)))).shown bounded

end

theorem placeDetection_above (bounded : TalliesBounded s) (above : posMax < it.w) :
    CountedOnce .linkDropped s (placeDetection it s) ∧ (placeDetection it s).track = s.track ∧
      HandedNone s (placeDetection it s) := by
  have dropped : placeDetection it s = setLastResult .badField (countTotal .linkDropped 1 s) := if_pos above
  have result := setLastResult_touches .badField (countTotal .linkDropped 1 s)
  have touched : Touches (.lastResult :: Part.counting) s (setLastResult .badField (countTotal .linkDropped 1 s)) :=
    (countTotal_touches .linkDropped 1 s).trans result
  rw [dropped]
  exact ⟨(countTotal_countedOnce _ bounded).read rfl (result.total _), touched.track, touched.handedNone⟩

/-- A late item counts LATE alone. -/
theorem lateItem_total (kind : ItemKind) (w : Int) (cls : Fin 8) (i : Option Nat) (bounded : TalliesBounded s) (k : Total)
    (hk : k ≠ .late) : (lateItem kind w cls i s).total k = s.total k := by
  unfold lateItem
  dsimp only
  rw [(setStatus_touches _ _ _).total, (setLate_touches _ _).total, (raise_touches _ _).total,
    countTotal_total _ _ _ _ bounded.length, if_neg hk.symm]

theorem placeDetection_below (bounded : TalliesBounded s) (below : it.w < 0) :
    (placeDetection it s).track.entries = s.track.entries ∧
      FoundLate .flag it.w it.cls none s (placeDetection it s) ∧
      (placeDetection it s).total .placed = s.total .placed ∧ HandedNone s (placeDetection it s) := by
  have late : placeDetection it s = setLastResult .ok (lateItem .flag it.w it.cls none s) :=
    (if_neg (not_above below)).trans (if_pos below)
  have result := setLastResult_touches .ok (lateItem .flag it.w it.cls none s)
  have touched : Touches (.lastResult :: .late :: .mapRecords :: Part.counting) s
      (setLastResult .ok (lateItem .flag it.w it.cls none s)) := (lateItem_touches _ _ _ _ s).trans result
  rw [late]
  exact ⟨lateItem_entries _ _ _ _ s, (lateItem_foundLate _ _ _ _ s bounded.length).read (Touches.refl [] s).sameClaims
    (setLastResult_sameClaims _ _), (result.total _).trans (lateItem_total _ _ _ _ bounded _ (by decide)),
    touched.handedNone⟩

/-- R35: the entry merged into is moved to the detection's w. -/
theorem placeDetection_merged (ordered : TrackOrdered s) (bounded : TalliesBounded s) (high : ¬ posMax < it.w)
    (low : ¬ it.w < 0) (listed : s.listed pre e post) (target : mergeTarget it s = some e) :
    CountedOnce .merged s (placeDetection it s) ∧ (placeDetection it s).track.seq = s.track.seq ∧
      HandedOn s (placeDetection it s) ∧ MovedTo (mergedEntry e it) (pre ++ post) s (placeDetection it s) := by
  have merged : placeDetection it s = setLastResult .ok (completeOp true s (mergeInto e it s)) := by
    unfold placeDetection
    rw [if_neg high, if_neg low, target]
  have moved : Touches Part.resting s
      (placeMoved (mergedEntry e it) (takeEntry e s)) := (takeEntry_touches e s).trans (placeMoved_touches _ _)
  have movedBounded : TalliesBounded (placeMoved (mergedEntry e it) (takeEntry e s)) := placeMoved_bounded _ _ bounded
  have counted : Touches Part.resting s (mergeInto e it s) :=
    moved.trans (countTotal_touches _ _ _)
  have done : Touches (.lastResult :: .withheld :: Part.planning) (mergeInto e it s)
      (setLastResult .ok (completeOp true s (mergeInto e it s))) :=
    (completeOp_touches true s _).trans (setLastResult_touches _ _)
  have entriesMoved := placeMoved_taken (e' := mergedEntry e it) ordered bounded listed rfl
  rw [merged]
  refine ⟨?_, ?_, ?_, ?_⟩
  · refine (countTotal_countedOnce .merged movedBounded).read ?_ (done.total _)
    exact (placeMoved_total _ (takeEntry e s) _ bounded.length (by decide) (by decide)).symm
  · exact (counted.trans (rs := .lastResult :: Part.moving) done).same .entryCounters |>.1
  · exact (counted.handedOn (mergeInto_ordered it ordered listed.mem)).of_same rfl rfl rfl rfl rfl
  · exact entriesMoved.read (Touches.refl [] s).sameClaims rfl
      ((countTotal_sameClaims .merged 1 movedBounded).trans done.sameClaims)
      (by rw [(setLastResult_touches _ _).track, completeOp_track]; exact (countTotal_touches _ _ _).same .entries)

theorem placeFlag_touches : Touches (.entryCounters :: .yields :: Part.resting) s (placeFlag it s).1 := by
  unfold placeFlag
  exact touches_ite (fun _ => (placeItem_touches it s).trans (countTotal_touches _ _ _))
    fun _ => (placeItem_touches it s).mono

theorem placeDetection_alone (high : ¬ posMax < it.w) (low : ¬ it.w < 0) (target : mergeTarget it s = none) :
    placeDetection it s = setLastResult .ok (completeOp (placeFlag it s).2 s (placeFlag it s).1) := by
  unfold placeDetection
  rw [if_neg high, if_neg low, target]

/-- R30: a live flag that stands is counted as placed, and one that is late or lost is not. -/
theorem placeFlag_total (bounded : TalliesBounded s) :
    if (placeItem it s).2.handsOn = true then CountedOnce .placed s (placeFlag it s).1
    else (placeFlag it s).1.total .placed = s.total .placed := by
  have uncounted := placeItem_total it s .placed bounded.length (by decide) (by decide) (by decide) (by decide)
  unfold placeFlag
  dsimp only
  split
  · exact (countTotal_countedOnce .placed (placeItem_bounded it s bounded)).read uncounted.symm rfl
  · exact uncounted

/-- What a live flag that merges with no entry counts and hands on. -/
theorem placeDetection_handed (ordered : TrackOrdered s) (bounded : TalliesBounded s) (high : ¬ posMax < it.w)
    (low : ¬ it.w < 0) (target : mergeTarget it s = none) :
    if (placeItem it s).2.handsOn = true then
      CountedOnce .placed s (placeDetection it s) ∧ HandedOn s (placeDetection it s)
    else (placeDetection it s).total .placed = s.total .placed ∧ HandedNone s (placeDetection it s) := by
  have counted := placeFlag_total (it := it) bounded
  have handed : if (placeItem it s).2.handsOn = true then HandedOn s (completeOp (placeFlag it s).2 s (placeFlag it s).1)
      else HandedNone s (completeOp (placeFlag it s).2 s (placeFlag it s).1) :=
    placeFlag_touches.completed (placeFlag_ordered it ordered) _
  have done : Touches (.lastResult :: .withheld :: Part.planning) (placeFlag it s).1
      (setLastResult .ok (completeOp (placeFlag it s).2 s (placeFlag it s).1)) :=
    (completeOp_touches _ s _).trans (setLastResult_touches _ _)
  rw [placeDetection_alone high low target]
  split at counted
  · rename_i stands
    rw [if_pos stands] at handed ⊢
    exact ⟨counted.read rfl (done.total _), handed.of_same rfl rfl rfl rfl rfl⟩
  · rename_i falls
    rw [if_neg falls] at handed ⊢
    exact ⟨(done.total _).trans counted, handed⟩

/-- R30: a live flag placed, with room for it or with none needed. -/
theorem placeDetection_placed (ordered : TrackOrdered s) (bounded : TalliesBounded s) (high : ¬ posMax < it.w)
    (low : ¬ it.w < 0) (target : mergeTarget it s = none) (room : s.track.entries.length < 1024 ∨ it.w ≤ s.commitLine) :
    PlacedIn it s (placeDetection it s) := by
  have placed := placeItem_placedIn it s bounded.1.1 bounded.1.2.1 ordered.ascending room
  have counted : SameClaims (placeItem it s).1 (placeFlag it s).1 ∧ (placeFlag it s).1.track = (placeItem it s).1.track := by
    unfold placeFlag
    dsimp only
    split
    · exact ⟨countTotal_sameClaims .placed 1 (placeItem_bounded it s bounded), (countTotal_touches _ _ _).track⟩
    · exact ⟨(Touches.refl [] _).sameClaims, rfl⟩
  have done : Touches (.lastResult :: .withheld :: Part.planning) (placeFlag it s).1
      (setLastResult .ok (completeOp (placeFlag it s).2 s (placeFlag it s).1)) :=
    (completeOp_touches _ s _).trans (setLastResult_touches _ _)
  rw [placeDetection_alone high low target]
  exact placed.read (Touches.refl [] s).sameClaims rfl rfl (counted.1.trans done.sameClaims) (done.track.trans counted.2)

end

end Sys2Proof.Machine

namespace Sys2Proof.Proofs

open Sys2Proof.Machine

/-- Settles O20: what each case of the placement comes to is seen from the state in which the DETECTION stood at the head. -/
theorem detectionPlaced : Obligations.DetectionPlaced := by
  intro s c len x0 x1 cls sev rest head mounted extent granted ordered bounded w it mergesInto
  have popped := atDetection_touches s
  have orderedThen : TrackOrdered s.atDetection := ordered.of_touches popped
  have boundedThen : TalliesBounded s.atDetection := bounded.of_tally popped.tally
  have same := popped.sameClaims.symm
  have track := popped.track
  have pos := popped.pos
  have position : s.atDetection.commitLine = s.commitLine := by unfold State.commitLine; rw [pos]
  have open_ : s.atDetection.openFor w = s.openFor w := by unfold State.openFor; rw [popped.reels]
  have test (e : Entry) : s.atDetection.mergesInto it e ↔ mergesInto e := by
    unfold State.mergesInto
    rw [track]
  have total (k : Total) : s.total k = s.atDetection.total k := (popped.total k).symm
  have marks := placeDetection_yields (it := it) (s := s.atDetection)
  rw [atDetection_yields] at marks
  refine ⟨placeDetection it s.atDetection, exec_detection head mounted extent granted, placeDetection_taken it head,
    placeDetection_shown it ordered bounded, placeDetection_lastResult, ?_, ?_, marks.1, marks.2, ?_, ?_⟩
  · intro above
    obtain ⟨counted, kept, handed⟩ := placeDetection_above (it := it) boundedThen above
    exact ⟨counted.read (total _) rfl, kept.trans track, handed.seenFrom popped⟩
  · intro below
    obtain ⟨entries, late, placed, handed⟩ := placeDetection_below (it := it) boundedThen below
    exact ⟨by rw [entries, track], late.read same (Touches.refl [] _).sameClaims, placed.trans (total _).symm,
      handed.seenFrom popped⟩
  · intro low high alone room
    have target : mergeTarget it s.atDetection = none :=
      mergeTarget_none (by rw [track]; exact fun e he => mt (test e).mp (alone e he))
    have notAbove : ¬ posMax < w := not_lt.mpr high
    have notBelow : ¬ w < 0 := not_lt.mpr low
    rw [← track, ← position] at room
    have placed := placeDetection_placed (it := it) orderedThen boundedThen notAbove notBelow target room
    have handed := placeDetection_handed (it := it) orderedThen boundedThen notAbove notBelow target
    have handedIff : (placeItem it s.atDetection).2.handsOn = true ↔ s.commitLine < w ∨ s.openFor w = true := by
      rw [placeItem_stands room, position, open_]
    refine ⟨placed.read same track.symm pos.symm (Touches.refl [] _).sameClaims rfl,
      fun stands => ?_, fun behind closed => ?_⟩
    · obtain ⟨counted, on⟩ := (if_pos (handedIff.mpr stands)).mp handed
      exact ⟨counted.read (total _) rfl, on.seenFrom popped⟩
    · have notStands : ¬ (placeItem it s.atDetection).2.handsOn = true :=
        fun stands => (handedIff.mp stands).elim (not_lt.mpr behind) (Bool.eq_false_iff.mp closed)
      obtain ⟨uncounted, nothing⟩ := (if_neg notStands).mp handed
      exact ⟨uncounted.trans (total _).symm, nothing.seenFrom popped⟩
  · intro low high pre post e listed merges before
    have listedThen : s.atDetection.listed pre e post := by
      unfold State.listed
      rw [track]
      exact listed
    have target := mergeTarget_listed (it := it) listedThen ((test e).mpr merges)
      fun f hf => mt (test f).mp (before f hf)
    obtain ⟨counted, seq, handed, moved⟩ := placeDetection_merged (it := it) orderedThen boundedThen (not_lt.mpr high)
      (not_lt.mpr low) listedThen target
    exact ⟨counted.read (total _) rfl, seq.trans (by rw [track]), handed.seenFrom popped,
      moved.read same pos.symm (Touches.refl [] _).sameClaims rfl⟩

end Sys2Proof.Proofs
end

