-- ==== Sys2Proof/Proofs/FullList.lean ====
section
/-! SUPPORT. A live item that is to be stored in a full list: an entry is withdrawn for it, or it is lost (R38, R39). Settles
O22. -/

-- One theorem at a time: kernel checks waiting for one another would each hold a thread and its memory.
set_option Elab.async false

namespace Sys2Proof.Machine

/-! ### Which entry is withdrawn (R38) -/

theorem withdrawable_iff (e : Entry) : e.withdrawable = true ↔ e.source = .map ∧ e.passage = .ahead := by
  simp [Entry.withdrawable]

theorem withdrawFrom_none {l : List Entry} (none : ∀ e ∈ l, e.withdrawable = false) : withdrawFrom l = .none := by
  induction l with
  | nil => rfl
  | cons x xs ih =>
    unfold withdrawFrom
    rw [ih fun e he => none e (List.mem_cons_of_mem x he), none x List.mem_cons_self]
    rfl

/-- In ascending order of w the last entry that can be withdrawn is the one of highest w, the last of equal w. -/
theorem withdrawFrom_last {pre post : List Entry} {e : Entry}
    (ascending : (pre ++ e :: post).Pairwise fun x y => x.w ≤ y.w) (open_ : e.withdrawable = true)
    (after : ∀ f ∈ post, f.withdrawable = false) : withdrawFrom (pre ++ e :: post) = some e := by
  induction pre with
  | nil =>
    show withdrawFrom (e :: post) = _
    unfold withdrawFrom
    rw [withdrawFrom_none after]
    exact if_pos open_
  | cons x xs ih =>
    obtain ⟨least, rest⟩ := List.pairwise_cons.mp ascending
    have before : x.w ≤ e.w := least e (List.mem_append_right _ List.mem_cons_self)
    show withdrawFrom (x :: (xs ++ e :: post)) = _
    unfold withdrawFrom
    rw [ih rest]
    exact if_neg (by simp [not_lt.mpr before])

section
variable {it : Item} {s : State} {pre post : List Entry} {e : Entry}

theorem storeOrMakeRoom_stored (full : s.track.entries.length = 1024) (live : it.mapIndex = none)
    (withdrawn : withdrawFrom s.track.entries = some e) :
    storeOrMakeRoom it s = (storeItem it (withdraw e s), .stored) := by
  unfold storeOrMakeRoom Item.fromMap
  rw [full, live, withdrawn]
  rfl

theorem storeOrMakeRoom_lost (full : s.track.entries.length = 1024) (live : it.mapIndex = none)
    (withdrawn : withdrawFrom s.track.entries = none) :
    storeOrMakeRoom it s = (raise .registerFull (countTotal .lost 1 s), .lost) := by
  unfold storeOrMakeRoom Item.fromMap
  rw [full, live, withdrawn]
  rfl

theorem placeItem_ahead (ahead : s.commitLine < it.w) : placeItem it s = storeOrMakeRoom it s := if_pos ahead

/-! ### Stored in the place of another (R38) -/

theorem insertedInOrder_length (e : Entry) {l : List Entry} (ascending : l.Pairwise fun x y => x.w ≤ y.w) :
    (insertedInOrder e l).length = l.length + 1 := by
  rw [← insertEntry_eq e l ascending, (insertEntry_perm e l).length_eq, List.length_cons]

theorem withdraw_counts (e : Entry) (s : State) : Touches [.mapRecords, .yields]
    (countTotal .withdrawn 1 (takeEntry e s)) (withdraw e s) :=
  (setStatus_touches _ _ _).trans (lapseRelease_touches _)

theorem withdraw_entries (ordered : TrackOrdered s) (listed : s.listed pre e post) :
    (withdraw e s).track.entries = pre ++ post := by
  have counted : Same (takeEntry e s) (countTotal .withdrawn 1 (takeEntry e s)) .entries :=
    (countTotal_touches _ _ _).same .entries
  have reported : Same (countTotal .withdrawn 1 (takeEntry e s)) (withdraw e s) .entries :=
    (withdraw_counts e s).same .entries
  exact (Eq.trans reported counted).trans (takeEntry_listed ordered listed)

theorem withdraw_reported (e : Entry) (s : State) : Reported e.mapIndex .unreleased s (withdraw e s) := by
  have counted : (countTotal .withdrawn 1 (takeEntry e s)).pmap.records = s.pmap.records :=
    (countTotal_touches .withdrawn 1 (takeEntry e s)).same .mapRecords
  exact (setStatus_reported e.mapIndex .unreleased (countTotal .withdrawn 1 (takeEntry e s))).of_records counted

theorem storeItem_storedFor (ordered : TrackOrdered s) (bounded : TalliesBounded s)
    (full : s.track.entries.length = 1024) (listed : s.listed pre e post) :
    StoredFor e (pre ++ post) it s (storeItem it (withdraw e s)) := by
  have entries := withdraw_entries ordered listed
  have ascending := (withdraw_ordered e s ordered listed.mem).1.ascending
  have withdrawn := withdraw_touches e s
  have stored : Touches [.entries, .entryCounters] (withdraw e s) (storeItem it (withdraw e s)) := storeItem_touches it _
  obtain ⟨seq, nextIdent⟩ := withdrawn.same .entryCounters
  obtain ⟨⟨made, used⟩, f, placed, passed⟩ := storeItem_stored it (withdraw e s) ascending
  have knife : (withdraw e s).knifeLine = s.knifeLine := by unfold State.knifeLine; rw [withdrawn.pos]
  have item : newEntry it (withdraw e s) = newEntry it s := by unfold newEntry; rw [seq, nextIdent]
  rw [entries] at placed ascending
  rw [knife, item] at passed
  refine ⟨?_, ?_, ?_, ?_, ⟨by rw [made, seq], by rw [used, nextIdent]⟩, f, placed, ?_⟩
  · exact (countTotal_countedOnce .withdrawn (s := takeEntry e s) bounded).read rfl
      ((stored.total _).trans ((withdraw_counts e s).total _))
  · unfold Reported
    exact Eq.trans (stored.same .mapRecords) (withdraw_reported e s)
  · have one : (pre ++ e :: post).length = 1024 := by rw [← full, show s.track.entries = pre ++ e :: post from listed]
    rw [List.length_append, List.length_cons] at one
    rw [placed, insertedInOrder_length f ascending, List.length_append]
    omega
  · exact (withdrawn.trans (rs := .entryCounters :: .entries :: .mapRecords :: .yields :: Part.counting) stored).same .withheld
  · split at passed
    · rename_i behind
      rw [if_pos behind]
      exact passed.of_plan withdrawn.plan.symm
    · rename_i before
      rw [if_neg before]
      exact passed

/-- What follows a store in a full list leaves it as it was, room included: the list is full again. -/
theorem StoredFor.completed {rest : List Entry} {t u : State} (h : StoredFor e rest it s t)
    (records : u.pmap.records = t.pmap.records) (track : u.track = t.track)
    (total : u.total .withdrawn = t.total .withdrawn) (room : RoomSignalled s u) : StoredFor e rest it s u := by
  obtain ⟨counted, reported, length, -, made, placed⟩ := h
  rw [← track] at length placed
  refine ⟨counted.read rfl total, ?_, length, ?_, ?_, placed⟩
  · unfold Reported
    rw [records]
    exact reported
  · unfold RoomSignalled at room
    rw [room, length]
    simp
  · unfold MadeOne
    rw [track]
    exact made

/-! ### Lost (R39) -/

theorem lost_lostItem (bounded : TalliesBounded s) : LostItem s (raise .registerFull (countTotal .lost 1 s)) := by
  have raised := raise_touches .registerFull (countTotal .lost 1 s)
  have touched : Touches Part.counting s (raise .registerFull (countTotal .lost 1 s)) :=
    (countTotal_touches .lost 1 s).trans raised
  refine ⟨touched.track, (countTotal_countedOnce .lost bounded).read rfl (raised.total _), ?_, touched.same .mapRecords, ?_⟩
  · rw [raise_flag]
    simp
  · exact (raised.total _).trans ((countTotal_total _ _ _ _ bounded.length).trans (if_neg (by decide)))

theorem LostItem.completed {ps : List Part} {t u : State} (h : LostItem s t) (k : Touches ps t u)
    (hp : ∀ p ∈ ([.mergeWindow, .entries, .entryCounters, .late, .liveTallies, .flags, .mapRecords] : List Part),
      p ∉ ps := by decide) : LostItem s u := by
  obtain ⟨track, counted, raised, records, withdrawn⟩ := h
  exact ⟨(k.track fun p m => hp p (by revert p; decide)).trans track, counted.read rfl (k.total _ (hp _ (by decide))),
    (k.flag _ (hp _ (by decide))).trans raised, Eq.trans (k.same .mapRecords (hp _ (by decide))) records,
    (k.total _ (hp _ (by decide))).trans withdrawn⟩

end

/-! ### Seen from the state before the grant -/

/-- What a live item's leaving its queue can change, before it is placed (R67, R73). -/
def Part.leaving : List Part := [.writeQueue, .messages, .link, .yields]

section
variable {s u t : State}

theorem StoredFor.seenFrom {e : Entry} {rest : List Entry} {it : Item} (h : StoredFor e rest it u t)
    (k : Touches Part.leaving s u) : StoredFor e rest it s t := by
  have knife : u.knifeLine = s.knifeLine := by unfold State.knifeLine; rw [k.pos]
  have item : newEntry it u = newEntry it s := by unfold newEntry; rw [k.track]
  obtain ⟨counted, reported, length, room, ⟨seq, nextIdent⟩, f, placed, passed⟩ := h
  refine ⟨counted.read (k.total _).symm rfl, reported.of_records (k.same .mapRecords), length, room.trans (k.same .withheld),
    ⟨by rw [seq, k.track], by rw [nextIdent, k.track]⟩, f, placed, ?_⟩
  rw [knife, item] at passed
  split at passed
  · rename_i behind
    exact (if_pos behind).mpr (passed.of_plan k.plan.symm)
  · rename_i before
    exact (if_neg before).mpr passed

theorem LostItem.seenFrom (h : LostItem u t) (k : Touches Part.leaving s u) : LostItem s t := by
  obtain ⟨track, counted, raised, records, withdrawn⟩ := h
  exact ⟨track.trans k.track, counted.read (k.total _).symm rfl, raised, records.trans (k.same .mapRecords),
    withdrawn.trans (k.total _)⟩

end

/-! ### The live splice and the detection -/

section
variable {it : Item} {s : State} {pre post : List Entry} {e : Entry}

/-- A live item that is to be stored in a full list. -/
structure MeetsFull (it : Item) (s : State) : Prop where
  ordered : TrackOrdered s
  bounded : TalliesBounded s
  full : s.track.entries.length = 1024
  low : ¬ it.w < 0
  high : ¬ posMax < it.w
  ahead : s.commitLine < it.w
  live : it.mapIndex = none

/-- R38: with an entry to give up. -/
theorem MeetsFull.placeItem_stored (m : MeetsFull it s) (listed : s.listed pre e post) (open_ : e.withdrawable = true)
    (after : ∀ f ∈ post, f.withdrawable = false) : placeItem it s = (storeItem it (withdraw e s), .stored) := by
  refine (placeItem_ahead m.ahead).trans (storeOrMakeRoom_stored m.full m.live ?_)
  have ascending := m.ordered.ascending
  rw [show s.track.entries = pre ++ e :: post from listed] at ascending ⊢
  exact withdrawFrom_last ascending open_ after

/-- R39: with none. -/
theorem MeetsFull.placeItem_lost (m : MeetsFull it s) (closed : ∀ e ∈ s.track.entries, e.withdrawable = false) :
    placeItem it s = (raise .registerFull (countTotal .lost 1 s), .lost) :=
  (placeItem_ahead m.ahead).trans (storeOrMakeRoom_lost m.full m.live (withdrawFrom_none closed))

theorem MeetsFull.placeLiveSplice_stored (m : MeetsFull it s) (listed : s.listed pre e post) (open_ : e.withdrawable = true)
    (after : ∀ f ∈ post, f.withdrawable = false) :
    StoredFor e (pre ++ post) it s (placeLiveSplice it s) ∧ HandedOn s (placeLiveSplice it s) := by
  have stored := m.placeItem_stored listed open_ after
  have ordered' := placeItem_ordered it s m.ordered
  have handed := (placeItem_touches it s).handedOn ordered'
  rw [placeLiveSplice_between m.high m.low]
  rw [stored] at handed ⊢
  exact ⟨(storeItem_storedFor m.ordered m.bounded m.full listed).completed ((completeOp_touches _ _ _).same .mapRecords)
    (completeOp_track _ _ _) ((completeOp_touches _ _ _).total _) handed.1, handed⟩

theorem MeetsFull.placeLiveSplice_lost (m : MeetsFull it s) (closed : ∀ e ∈ s.track.entries, e.withdrawable = false) :
    LostItem s (placeLiveSplice it s) ∧ HandedNone s (placeLiveSplice it s) := by
  have lost := m.placeItem_lost closed
  have handed := (placeItem_touches it s).completed (placeItem_ordered it s m.ordered) Placed.lost.handsOn
  rw [placeLiveSplice_between m.high m.low]
  rw [lost] at handed ⊢
  exact ⟨(lost_lostItem m.bounded).completed (completeOp_touches _ _ _), handed⟩

theorem MeetsFull.placeDetection_stored (m : MeetsFull it s) (alone : mergeTarget it s = none) (listed : s.listed pre e post)
    (open_ : e.withdrawable = true) (after : ∀ f ∈ post, f.withdrawable = false) :
    StoredFor e (pre ++ post) it s (placeDetection it s) ∧ CountedOnce .placed s (placeDetection it s) ∧
      HandedOn s (placeDetection it s) := by
  have stored := m.placeItem_stored listed open_ after
  have handed := placeDetection_handed m.ordered m.bounded m.high m.low alone
  have placed := placeItem_bounded it s m.bounded
  have counted : (placeFlag it s).1 = countTotal .placed 1 (placeItem it s).1 := by
    unfold placeFlag
    rw [stored]
    rfl
  have same := countTotal_touches .placed 1 (placeItem it s).1
  have done : Touches (.lastResult :: .withheld :: Part.planning) (countTotal .placed 1 (placeItem it s).1)
      (placeDetection it s) := by
    rw [placeDetection_alone m.high m.low alone, counted]
    exact (completeOp_touches _ s _).trans (setLastResult_touches _ _)
  have total : (countTotal .placed 1 (placeItem it s).1).total .withdrawn = (placeItem it s).1.total .withdrawn :=
    (countTotal_total _ _ _ _ placed.length).trans (if_neg (by decide))
  obtain ⟨once, on⟩ := (if_pos (by rw [stored]; rfl)).mp handed
  refine ⟨StoredFor.completed (t := (placeItem it s).1) ?_ (Eq.trans (done.same .mapRecords) (same.same .mapRecords))
    (done.track.trans same.track) ((done.total _).trans total) on.1, once, on⟩
  rw [stored]
  exact storeItem_storedFor m.ordered m.bounded m.full listed

theorem MeetsFull.placeDetection_lost (m : MeetsFull it s) (alone : mergeTarget it s = none)
    (closed : ∀ e ∈ s.track.entries, e.withdrawable = false) :
    LostItem s (placeDetection it s) ∧ (placeDetection it s).total .placed = s.total .placed ∧
      HandedNone s (placeDetection it s) := by
  have lost := m.placeItem_lost closed
  have handed := placeDetection_handed m.ordered m.bounded m.high m.low alone
  have uncounted : (placeFlag it s).1 = raise .registerFull (countTotal .lost 1 s) := by
    unfold placeFlag
    rw [lost]
    rfl
  have done : Touches (.lastResult :: .withheld :: Part.planning) (raise .registerFull (countTotal .lost 1 s))
      (placeDetection it s) := by
    rw [placeDetection_alone m.high m.low alone, uncounted]
    exact (completeOp_touches _ s _).trans (setLastResult_touches _ _)
  exact ⟨(lost_lostItem m.bounded).completed done, (if_neg (by rw [lost]; nofun)).mp handed⟩

end

end Sys2Proof.Machine

namespace Sys2Proof.Proofs

open Sys2Proof.Machine

/-- Settles O22: the last entry that can be withdrawn gives way, to a live splice and to a DETECTION alike. -/
theorem fullList : Obligations.FullList := by
  intro s ordered bounded full open_
  have closed {e : Entry} (h : ¬ open_ e) : e.withdrawable = false := Bool.eq_false_iff.mpr (mt (withdrawable_iff e).mp h)
  refine ⟨fun w src u rest queue idle low high ahead => ?_, ?_⟩
  · have placed := liveSplicePlacement_head queue idle
    have shown := (liveSplicePlacement_countsFrom s).shown bounded
    have leaves : Touches Part.leaving s (popWrite s) := (popWrite_touches s).mono
    have meets : MeetsFull (liveSpliceItem w src u) (popWrite s) :=
      ⟨popWrite_ordered ordered, bounded, full, not_lt.mpr low, not_lt.mpr high, ahead, rfl⟩
    rw [placed] at shown
    refine ⟨_, congrArg Host.Outcome.next placed, placeLiveSplice_queue queue, shown,
      fun pre post e listed opens after => ?_, fun none => ?_⟩
    · obtain ⟨stored, handed⟩ := meets.placeLiveSplice_stored listed ((withdrawable_iff e).mpr opens)
        fun f hf => closed (after f hf)
      exact ⟨stored.seenFrom leaves, handed.seenFrom leaves⟩
    · obtain ⟨lost, handed⟩ := meets.placeLiveSplice_lost fun f hf => closed (none f hf)
      exact ⟨lost.seenFrom leaves, handed.seenFrom leaves⟩
  · intro c len x0 x1 cls sev rest head mounted extent granted w it low high ahead alone
    have leaves : Touches Part.leaving s s.atDetection := (atDetection_touches s).mono
    have track := leaves.track
    have meets : MeetsFull it s.atDetection := by
      refine ⟨ordered.of_touches leaves, bounded.of_tally leaves.tally, by rw [track, full], not_lt.mpr low,
        not_lt.mpr high, ?_, rfl⟩
      unfold State.commitLine
      rw [leaves.pos]
      exact ahead
    have target : mergeTarget it s.atDetection = none := mergeTarget_none (by
      unfold State.mergesInto
      rw [track]
      exact alone)
    refine ⟨placeDetection it s.atDetection, exec_detection head mounted extent granted, placeDetection_taken it head,
      placeDetection_shown it ordered bounded, placeDetection_lastResult.trans (if_neg (not_lt.mpr high)),
      fun pre post e listed opens after => ?_, fun none => ?_⟩
    · have listedThen : s.atDetection.listed pre e post := by
        unfold State.listed
        rw [track]
        exact listed
      obtain ⟨stored, once, handed⟩ := meets.placeDetection_stored target listedThen ((withdrawable_iff e).mpr opens)
        fun f hf => closed (after f hf)
      exact ⟨stored.seenFrom leaves, once.read (leaves.total _).symm rfl, handed.seenFrom leaves⟩
    · obtain ⟨lost, uncounted, handed⟩ := meets.placeDetection_lost target
        (by rw [track]; exact fun f hf => closed (none f hf))
      exact ⟨lost.seenFrom leaves, uncounted.trans (leaves.total _), handed.seenFrom leaves⟩

end Sys2Proof.Proofs
end

