-- ==== Sys2Proof/Proofs/MapRelease.lean ====
section
/-! SUPPORT. The release of the record at the cursor as an item (R37, R53 to R55). Settles O23. -/

-- One theorem at a time: kernel checks waiting for one another would each hold a thread and its memory.
set_option Elab.async false

namespace Sys2Proof.Machine

section
variable {s : State} {i : Nat} {r : MapRecord}

/-! ### The grant of a release (R54, R55) -/

/-- R54: the cursor stands at the first UNRELEASED record. -/
theorem cursor_first {m : PressMap} (record : m.records[i]? = some r) (unreleased : r.status = .unreleased)
    (before : ∀ j q, j < i → m.records[j]? = some q → q.status ≠ .unreleased) : m.cursor = some i := by
  obtain ⟨within, at_⟩ := List.getElem?_eq_some_iff.mp record
  unfold PressMap.cursor
  rw [List.findIdx?_eq_some_iff_getElem]
  refine ⟨within, by rw [at_, unreleased]; rfl, fun j earlier => ?_⟩
  exact mt eq_of_beq (before j m.records[j] earlier (List.getElem?_eq_getElem _))

theorem classFour_at (cursor : s.pmap.cursor = some i) (record : s.pmap.records[i]? = some r) (mounted : s.mounted = true)
    (near : s.predict r.m ≤ s.pos.p + s.pmap.horizon) (within : s.predict r.m ≤ posMax)
    (free : s.pmap.withheld = false) : s.classFour = true := by
  unfold State.classFour State.cursorQualifies State.mapRecord
  rw [cursor]
  dsimp only
  rw [record]
  simp [mounted, near, within, free]

theorem mapRelease_granted (granted : s.grantsFour = true) (asked : s.classFour = true) (cursor : s.pmap.cursor = some i)
    (record : s.pmap.records[i]? = some r) :
    mapRelease s = releaseRecord i (releaseItem s i r) (grantRelease s) := by
  unfold mapRelease State.mapRecord
  rw [if_pos ⟨granted, asked⟩, cursor]
  dsimp only
  rw [record]

/-- R55: the item of a record, its kind's fields written out. -/
theorem releaseItem_eq (s : State) (i : Nat) (r : MapRecord) : releaseItem s i r =
    if r.kind = .flag then ⟨.flag, .map, s.predict r.m, min (r.len * 10) 65535, clampInt 0 65535 (r.x0 + s.pmap.xOffset),
      clampInt 0 65535 (r.x1 + s.pmap.xOffset), r.cls, r.sev, some i, false⟩
    else ⟨.splice, if r.matchState = .matched then .confirmed else .map, s.predict r.m, 0, 0, 0, r.cls, r.sev, some i,
      false⟩ := by
  unfold releaseItem shiftEdge
  cases r.kind <;> simp

end

/-! ### The item placed (R30, R37, R53) -/

section
variable {s : State} {i : Nat} {it : Item}

/-- R37: a map item never withdraws an entry. -/
theorem placeItem_mapTouches (map : it.mapIndex = some i) :
    Touches (.entryCounters :: Part.resting) s (placeItem it s).1 := by
  unfold placeItem
  split
  · unfold storeOrMakeRoom Item.fromMap
    rw [map]
    split
    · exact (storeItem_touches it s).mono
    · exact Touches.refl _ s
  · split
    · exact (entryMade_touches s).trans (commitEntry_touches _ _)
    · exact (lateItem_touches _ _ _ _ s).mono

theorem releaseRecord_below (below : it.w < 0) :
    releaseRecord i it s = countTotal .released 1 (lateItem it.kind it.w it.cls it.mapIndex s) := if_pos below

theorem releaseRecord_stored (above : ¬ it.w < 0) (stored : (placeItem it s).2 = .stored) : releaseRecord i it s =
    completeOp true s (countTotal .released 1 (setStatus (some i) .released (placeItem it s).1)) := by
  unfold releaseRecord
  rw [if_neg above]
  dsimp only
  rw [stored]

theorem releaseRecord_committed (above : ¬ it.w < 0) (committed : (placeItem it s).2 = .committed) :
    releaseRecord i it s = completeOp true s (countTotal .released 1 (placeItem it s).1) := by
  unfold releaseRecord
  rw [if_neg above]
  dsimp only
  rw [committed]

theorem releaseRecord_late (above : ¬ it.w < 0) (late : (placeItem it s).2 = .late) :
    releaseRecord i it s = countTotal .released 1 (placeItem it s).1 := by
  unfold releaseRecord
  rw [if_neg above]
  dsimp only
  rw [late]

/-- R37: a release that finds the list full is held back, and its item placed nowhere. -/
theorem releaseRecord_heldBack (above : ¬ it.w < 0) (map : it.mapIndex = some i) (ahead : s.commitLine < it.w)
    (full : s.track.entries.length = 1024) : releaseRecord i it s = withholdRelease s := by
  have held : placeItem it s = (s, .heldBack) := by
    rw [placeItem_ahead ahead]
    unfold storeOrMakeRoom Item.fromMap
    rw [full, map]
    rfl
  unfold releaseRecord
  rw [if_neg above, held]

/-- A release changes nothing of the Alignment Unit: with its own mark cleared at the grant, every mark stands as it was. -/
theorem releaseRecord_align (map : it.mapIndex = some i) : (releaseRecord i it s).align = s.align := by
  have placed := placeItem_mapTouches (s := s) map
  have counted {ps : List Part} {t : State} (k : Touches ps s t)
      (hp : ∀ p ∈ ([.anchors, .writeQueue, .sightings, .yields, .alignConfig] : List Part), p ∉ ps := by decide) :
      (countTotal .released 1 t).align = s.align :=
    ((countTotal_touches _ _ _).align).trans (k.align hp)
  unfold releaseRecord
  split
  · exact counted (lateItem_touches _ _ _ _ s)
  · dsimp only
    split
    · exact (completeOp_touches _ _ _).align.trans
        (counted (placed.trans (rs := .entryCounters :: Part.moving) (setStatus_touches _ _ _)))
    · exact (completeOp_touches _ _ _).align.trans (counted placed)
    · exact counted placed
    · exact placed.align
    · exact (setWithheld_touches _ _).align.trans placed.align

/-- R55: what becomes of the item leaves the count of releases to the release itself. -/
theorem released_countedOnce (bounded : TalliesBounded s) :
    CountedOnce .released s (countTotal .released 1 (placeItem it s).1) :=
  (countTotal_countedOnce .released (placeItem_bounded it s bounded)).read
    (placeItem_total it s .released bounded.length (by decide) (by decide) (by decide) (by decide)).symm rfl

theorem releaseRecord_lateBelow (bounded : TalliesBounded s) (below : it.w < 0) :
    (releaseRecord i it s).track.entries = s.track.entries ∧
      FoundLate it.kind it.w it.cls it.mapIndex s (releaseRecord i it s) ∧
      CountedOnce .released s (releaseRecord i it s) ∧ HandedNone s (releaseRecord i it s) := by
  have late := lateItem_bounded it.kind it.w it.cls it.mapIndex s bounded
  have touched : Touches (.late :: .mapRecords :: Part.counting) s
      (countTotal .released 1 (lateItem it.kind it.w it.cls it.mapIndex s)) :=
    (lateItem_touches _ _ _ _ s).trans (countTotal_touches _ _ _)
  rw [releaseRecord_below below]
  exact ⟨touched.same .entries, (lateItem_foundLate _ _ _ _ s bounded.length).read (Touches.refl [] s).sameClaims
    (countTotal_sameClaims .released 1 late), (countTotal_countedOnce .released late).read
    (lateItem_total _ _ _ _ bounded _ (by decide)).symm rfl, touched.handedNone⟩

/-- Ahead of the commit line only the list and the count of late items speak of the item placed. -/
theorem PlacedIn.readAhead {t u : State} (h : PlacedIn it s t) (ahead : s.commitLine < it.w) (track : u.track = t.track)
    (late : u.total .late = t.total .late) : PlacedIn it s u := by
  unfold PlacedIn MadeOne at *
  rw [if_pos ahead] at h ⊢
  rw [track, late]
  exact h

/-- R44: behind the commit line an item's record is RETIRED, whether it reached a reel or was late. -/
theorem PlacedIn.retired {t : State} (h : PlacedIn it s t) (behind : it.w ≤ s.commitLine) :
    Reported it.mapIndex .retired s t := by
  unfold PlacedIn at h
  rw [if_neg (not_lt.mpr behind)] at h
  obtain ⟨-, h⟩ := h
  split at h
  · exact h.2.1
  · exact h.2.2.2.2

theorem releaseRecord_ahead (ordered : TrackOrdered s) (bounded : TalliesBounded s) (above : ¬ it.w < 0)
    (map : it.mapIndex = some i) (ahead : s.commitLine < it.w) (room : s.track.entries.length < 1024) :
    PlacedIn it s (releaseRecord i it s) ∧ CountedOnce .released s (releaseRecord i it s) ∧
      Reported (some i) .released s (releaseRecord i it s) ∧ HandedOn s (releaseRecord i it s) := by
  have stands : placeItem it s = (storeItem it s, .stored) := by
    rw [placeItem_ahead ahead]
    exact if_pos room
  have placed := placeItem_placedIn it s bounded.1.1 bounded.1.2.1 ordered.ascending (.inl room)
  have counted := released_countedOnce (it := it) bounded
  have recordsKept : (placeItem it s).1.pmap.records = s.pmap.records := by
    rw [stands]
    exact (storeItem_touches it s).same .mapRecords
  have reports := setStatus_touches (some i) .released (placeItem it s).1
  have reported : Reported (some i) .released s (setStatus (some i) .released (placeItem it s).1) :=
    (setStatus_reported _ _ _).of_records recordsKept
  have bounded' : TalliesBounded (setStatus (some i) .released (placeItem it s).1) :=
    (placeItem_bounded it s bounded).of_tally reports.tally
  have counts := countTotal_touches .released 1 (setStatus (some i) .released (placeItem it s).1)
  have done := completeOp_touches true s (countTotal .released 1 (setStatus (some i) .released (placeItem it s).1))
  have whole : Touches (.entryCounters :: Part.resting) s
      (countTotal .released 1 (setStatus (some i) .released (placeItem it s).1)) :=
    ((placeItem_mapTouches map).trans (rs := .entryCounters :: Part.resting) reports).trans counts
  have orderedThen : TrackOrdered (countTotal .released 1 (setStatus (some i) .released (placeItem it s).1)) :=
    ((placeItem_ordered it s ordered).of_touches reports).of_touches counts
  rw [releaseRecord_stored above (by rw [stands])]
  refine ⟨placed.readAhead ahead (done.track.trans (counts.track.trans reports.track)) ?_, ?_, ?_, whole.handedOn orderedThen⟩
  · exact (done.total _).trans (((countTotal_total _ _ _ _ bounded'.length).trans (if_neg (by decide))).trans (reports.total _))
  · refine (countTotal_countedOnce .released bounded').read ?_ (done.total _)
    exact ((reports.total _).trans
      (placeItem_total it s .released bounded.length (by decide) (by decide) (by decide) (by decide))).symm
  · unfold Reported
    exact (Eq.trans (done.same .mapRecords) (counts.same .mapRecords)).trans reported

theorem releaseRecord_behind (ordered : TrackOrdered s) (bounded : TalliesBounded s) (above : ¬ it.w < 0)
    (map : it.mapIndex = some i) (behind : it.w ≤ s.commitLine) :
    PlacedIn it s (releaseRecord i it s) ∧ CountedOnce .released s (releaseRecord i it s) ∧
      Reported (some i) .retired s (releaseRecord i it s) ∧
      if s.openFor it.w = true then HandedOn s (releaseRecord i it s) else HandedNone s (releaseRecord i it s) := by
  have placed := placeItem_placedIn it s bounded.1.1 bounded.1.2.1 ordered.ascending (.inr behind)
  have counted := released_countedOnce (it := it) bounded
  have counts := countTotal_touches .released 1 (placeItem it s).1
  have same := countTotal_sameClaims .released 1 (placeItem_bounded it s bounded)
  have done := completeOp_touches true s (countTotal .released 1 (placeItem it s).1)
  have whole : Touches (.entryCounters :: Part.resting) s
      (countTotal .released 1 (placeItem it s).1) := (placeItem_mapTouches map).trans counts
  rw [← map]
  split
  · rename_i taken
    rw [releaseRecord_committed above (by unfold placeItem; rw [if_neg (not_lt.mpr behind), if_pos taken])]
    have comes : PlacedIn it s (completeOp true s (countTotal .released 1 (placeItem it s).1)) :=
      placed.read (Touches.refl [] s).sameClaims rfl rfl (same.trans done.sameClaims) (done.track.trans counts.track)
    exact ⟨comes, counted.read rfl (done.total _), comes.retired behind,
      whole.handedOn ((placeItem_ordered it s ordered).of_touches counts)⟩
  · rename_i closed
    have late : placeItem it s = (lateItem it.kind it.w it.cls it.mapIndex s, .late) :=
      (if_neg (not_lt.mpr behind)).trans (if_neg closed)
    rw [releaseRecord_late above (by rw [late])]
    have comes : PlacedIn it s (countTotal .released 1 (placeItem it s).1) :=
      placed.read (Touches.refl [] s).sameClaims rfl rfl same counts.track
    refine ⟨comes, counted, comes.retired behind, ?_⟩
    rw [late]
    exact ((lateItem_touches _ _ _ _ s).trans (rs := .late :: .mapRecords :: Part.counting)
      (countTotal_touches _ _ _)).handedNone

end

end Sys2Proof.Machine

namespace Sys2Proof.Proofs

open Sys2Proof.Machine

/-- Settles O23: the record's item goes where its w lies, in the state that differs by the mark of class 4 alone. -/
theorem mapRelease : Obligations.MapRelease := by
  intro s i r record unreleased first mounted near within free granted ordered bounded w edge it
  have cursor := cursor_first record unreleased first
  have releases := mapRelease_granted granted (classFour_at cursor record mounted near within free) cursor record
  have shown := (mapRelease_countsFrom s).shown bounded
  have marks := grantRelease_touches s
  have orderedThen : TrackOrdered (grantRelease s) := ordered.of_touches marks
  have boundedThen : TalliesBounded (grantRelease s) := bounded.of_tally marks.tally
  have same := marks.sameClaims.symm
  have item : releaseItem s i r = it := releaseItem_eq s i r
  have map : it.mapIndex = some i := item ▸ rfl
  have depth : it.w = w := item ▸ rfl
  rw [releases] at shown
  rw [item] at releases shown
  refine ⟨_, congrArg Host.Outcome.next releases, shown, releaseRecord_align map, fun below => ?_,
    fun above ahead room => ?_, fun above behind => ?_, fun above ahead full => ?_⟩
  · obtain ⟨entries, late, counted, handed⟩ := releaseRecord_lateBelow (i := i) boundedThen (depth ▸ below)
    have kind : it.kind = r.kind := item ▸ rfl
    have cls : it.cls = r.cls := item ▸ rfl
    rw [kind, depth, cls, map] at late
    exact ⟨entries, late.read same (Touches.refl [] _).sameClaims, counted, handed.seenFrom marks⟩
  · obtain ⟨placed, counted, reported, handed⟩ := releaseRecord_ahead orderedThen boundedThen
      (depth ▸ not_lt.mpr above) map (depth ▸ ahead) room
    exact ⟨placed.read same rfl rfl (Touches.refl [] _).sameClaims rfl, counted, reported, handed.seenFrom marks⟩
  · obtain ⟨placed, counted, reported, handed⟩ := releaseRecord_behind orderedThen boundedThen
      (depth ▸ not_lt.mpr above) map (depth ▸ behind)
    rw [depth] at handed
    refine ⟨placed.read same rfl rfl (Touches.refl [] _).sameClaims rfl, counted, reported, ?_⟩
    by_cases open_ : s.openFor w = true
    · rw [if_pos open_]
      exact ((if_pos open_).mp handed).seenFrom marks
    · rw [if_neg open_]
      exact ((if_neg open_).mp handed).seenFrom marks
  · rw [releaseRecord_heldBack (s := grantRelease s) (depth ▸ not_lt.mpr above) map (depth ▸ ahead) full]
    exact ⟨rfl, rfl, rfl, rfl⟩

end Sys2Proof.Proofs
end

