-- ==== Sys2Proof/Proofs/Arbiter.lean ====
section
/-! SUPPORT. The order of the arbiter's classes, and the class 5 operations of the Line Port: a TRACK record latched, and the
marks STOPPED and SKIPPED written (R26, R28, R67, R144, R145, R161). Settles O24, O25 and O27. -/

-- One theorem at a time: kernel checks waiting for one another would each hold a thread and its memory.
set_option Elab.async false

namespace Sys2Proof.Machine

section
variable {s : State}

/-! ### What a request of a higher class holds back (R26) -/

theorem grantsTwo_false (h : s.classOne = true) : s.grantsTwo = false := by
  unfold State.grantsTwo
  rw [h]
  rfl

theorem grantsThree_false (h : s.classOne = true ∨ s.classTwo = true) : s.grantsThree = false := by
  unfold State.grantsThree
  rcases h with one | two
  · rw [one]
    rfl
  · rw [two, Bool.not_true, Bool.and_false]

theorem grantsFour_false (h : s.grantsThree = false ∨ s.classThree = true) : s.grantsFour = false := by
  show (s.grantsThree && !s.classThree) = false
  rcases h with waits | three
  · rw [waits, Bool.false_and]
  · rw [three, Bool.not_true, Bool.and_false]

theorem grantsFive_false (h : s.grantsFour = false ∨ s.classFour = true) : s.grantsFive = false := by
  show (s.grantsFour && !s.classFour) = false
  rcases h with waits | four
  · rw [waits, Bool.false_and]
  · rw [four, Bool.not_true, Bool.and_false]

theorem grantedWrite_none (h : s.grantsTwo = false) : s.grantedWrite = none := by
  unfold State.grantedWrite
  rw [h]
  rfl

theorem grantedAccess_none (h : s.grantsFive = false) : s.grantedAccess = none := by
  unfold State.grantedAccess
  rw [h]
  rfl

theorem grantedAccess_some {a : WaitingAccess} (granted : s.grantsFive = true) (access : s.port.access = some a) :
    s.grantedAccess = some a := (if_pos granted).trans access

/-- R67: no walk step is requested while a write is queued, or a request stands ahead of it. -/
theorem walkRequested_false (h : s.align.queue ≠ [] ∨ (s.align.yields.detection = true ∧ s.classThree = true) ∨
    (s.align.yields.release = true ∧ s.classFour = true) ∨ (s.align.yields.access = true ∧ s.classFive = true)) :
    s.walkRequested = false := by
  unfold State.walkRequested
  rcases h with queued | stands
  · have due : s.walkDue = false := by simp [State.walkDue, queued]
    rw [due, Bool.false_and]
  · have yields : s.yielding = true := by simpa [State.yielding, or_assoc] using stands
    rw [yields, Bool.not_true, Bool.and_false]

theorem walkStep_idle (h : s.grantsTwo = false ∨ s.walkRequested = false) : walkStep s = s := by
  refine if_neg fun granted => ?_
  rcases h with waits | unasked
  · exact Bool.false_ne_true (waits.symm.trans granted.1)
  · exact Bool.false_ne_true (unasked.symm.trans granted.2)

theorem mapRelease_idle (waits : s.grantsFour = false) : mapRelease s = s :=
  if_neg fun granted => Bool.false_ne_true (waits.symm.trans granted.1)

/-! ### The end of a class 5 operation (R161) -/

theorem finishAccess_window (d : Option Word) (timely : s.port.early = true → s.port.next = none) :
    (finishAccess d s).port.latch = s.port.latch ∧ (finishAccess d s).port.tableAddr = s.port.tableAddr := by
  unfold finishAccess
  split
  · rename_i early
    rw [timely early]
    exact ⟨rfl, rfl⟩
  · exact ⟨rfl, rfl⟩

theorem finishAccess_list (d : Option Word) (timely : s.port.early = true → s.port.next = none) :
    (finishAccess d s).track = s.track ∧ (finishAccess d s).align = s.align := by
  obtain ⟨-, frame⟩ := finishAccess_frame d s timely
  exact ⟨by rw [frame], by rw [frame]⟩

/-! ### A TRACK record (R28, R166) -/

theorem latchRecord_track (r : Nat) (s : State) : latchRecord .track r s = s.setPort { s.port with
    latch := some { table := .track, record := r, words := recordWords s .track r }
    tableAddr := nextAddr s.port.tableAddr } := by
  unfold latchRecord copyEffect
  exact if_neg fun peak => Table.noConfusion peak.1

theorem trackWords_within (s : State) (r : Nat) : (trackWords s r).length ≤ 16 := by
  unfold trackWords
  split
  · exact Nat.zero_le _
  · exact Nat.le_of_ble_eq_true rfl

theorem trackRecord_length (s : State) (r : Nat) : (recordWords s .track r).length = 16 := by
  show (trackWords s r ++ List.replicate (16 - (trackWords s r).length) 0).length = 16
  rw [List.length_append, List.length_replicate]
  exact Nat.add_sub_cancel' (trackWords_within s r)

theorem trackRecord_getElem? (s : State) (r k : Nat) (hk : k < 16) :
    (recordWords s .track r)[k]? = some ((recordWords s .track r).getD k 0) := by
  have within : k < (recordWords s .track r).length := by rw [trackRecord_length]; exact hk
  rw [List.getD_eq_getElem?_getD, List.getElem?_eq_getElem within]
  rfl

theorem trackRecord_entry {r : Nat} {e : Entry} (present : s.track.entries[r]? = some e) (k : Nat) (hk : k < 16) :
    (recordWords s .track r)[k]? = some (laidOut (trackLayout e) k) := by
  rw [trackRecord_getElem? s r k hk, ← entry_laidOut e k]
  show some ((padTo 16 (trackWords s r)).getD k 0) = _
  rw [padTo_getD]
  unfold trackWords
  rw [present]

theorem trackRecord_vacant {r : Nat} (absent : s.track.entries.length ≤ r) :
    recordWords s .track r = List.replicate 16 0 := by
  show padTo 16 (trackWords s r) = _
  unfold trackWords
  rw [List.getElem?_eq_none absent]
  rfl

/-- A TRACK record in the latch, and TABLE_ADDR behind it, before the access ends. -/
def latchedTrack (s : State) : State :=
  s.setPort { s.port with
    latch := some ⟨.track, s.port.recordNumber, recordWords s .track s.port.recordNumber⟩
    tableAddr := nextAddr s.port.tableAddr }

theorem latchTrack_eq (s : State) :
    latchTrack s = finishAccess (recordWords s .track s.port.recordNumber)[0]? (latchedTrack s) := by
  rw [trackRecord_getElem? s s.port.recordNumber 0 (by decide)]
  unfold latchTrack
  dsimp only
  rw [latchRecord_track]
  rfl

section
variable (timely : s.port.early = true → s.port.next = none)
include timely

theorem latchTrack_window : (latchTrack s).port.latch =
    some ⟨.track, s.port.recordNumber, recordWords s .track s.port.recordNumber⟩ ∧
    (latchTrack s).port.tableAddr = nextAddr s.port.tableAddr := by
  rw [latchTrack_eq]
  exact finishAccess_window (s := latchedTrack s) _ timely

/-- R28: the access ends with word 0 of the record. -/
theorem latchTrack_ended : AccessEnded (recordWords s .track s.port.recordNumber)[0]? s (latchTrack s) := by
  rw [latchTrack_eq]
  exact finishAccess_ended _ (latchedTrack s) timely

theorem latchTrack_frame : (latchTrack s).track = s.track ∧ (latchTrack s).align = s.align := by
  rw [latchTrack_eq]
  exact finishAccess_list (s := latchedTrack s) _ timely

end

/-! ### The marks of the stop commands (R144, R145) -/

/-- The list with the entry set aside marked, and the set-aside cleared, before the evaluation. -/
def markAside (mark : Entry → Entry) (ident : Nat) (s : State) : State :=
  (setEntries (s.track.entries.map fun e => if e.ident = ident then mark e else e) s).setPlanner
    { s.planner with setAside := none }

theorem writeMark_aside {mark : Entry → Entry} {ident : Nat} (aside : s.planner.setAside = some ident) :
    writeMark mark s = evaluate (markAside mark ident s) := by
  unfold writeMark
  rw [aside]
  rfl

/-- A mark leaves an entry its identity, which is all that an evaluation needs of the list. -/
theorem markAside_idents {mark : Entry → Entry} (keeps : ∀ e, (mark e).ident = e.ident) (ident : Nat) :
    ((markAside mark ident s).track.entries.map fun e => e.ident) = s.track.entries.map fun e => e.ident := by
  show (s.track.entries.map fun e => if e.ident = ident then mark e else e).map (fun e => e.ident) = _
  rw [List.map_map]
  refine List.map_congr_left fun e _ => ?_
  show (if e.ident = ident then mark e else e).ident = e.ident
  split
  · exact keeps e
  · rfl

/-- What the class 5 operation of a stop command comes to, for the mark that it writes. -/
theorem finishMark {mark : Entry → Entry} {ident : Nat} (keeps : ∀ e, (mark e).ident = e.ident)
    (timely : s.port.early = true → s.port.next = none) (aside : s.planner.setAside = some ident) :
    let t := finishAccess none (setResult .ok (writeMark mark (grantAccess s)))
    t.track.entries = s.track.entries.map (fun e => if e.ident = ident then mark e else e) ∧ t.planner.setAside = none ∧
      (TrackOrdered s → Evaluated { s with planner := { s.planner with setAside := none } } t) ∧
      t.align.yields = { s.align.yields with access := false } ∧ t.port.result = .ok ∧ AccessEnded none s t := by
  have marked : writeMark mark (grantAccess s) = evaluate (markAside mark ident (grantAccess s)) := writeMark_aside aside
  have evaluated := evaluate_touches (markAside mark ident (grantAccess s))
  have port : (setResult .ok (writeMark mark (grantAccess s))).port = { s.port with result := .ok } := by
    rw [marked]
    show { (evaluate (markAside mark ident (grantAccess s))).port with result := .ok } = _
    rw [evaluated.port]
    rfl
  have ended := finishAccess_ended none (setResult .ok (writeMark mark (grantAccess s)))
  have framed := finishAccess_frame none (setResult .ok (writeMark mark (grantAccess s)))
  rw [port] at framed
  rw [AccessEnded, port] at ended
  obtain ⟨result, frame⟩ := framed timely
  dsimp only
  rw [frame]
  refine ⟨?_, ?_, fun ordered => ?_, ?_, result, ended timely⟩
  · rw [marked]
    exact evaluated.same .entries
  · rw [marked]
    exact evaluated.same .setAside
  · have nodup : ((markAside mark ident (grantAccess s)).track.entries.map fun e => e.ident).Nodup := by
      rw [markAside_idents keeps]
      exact ordered.identsNodup
    rw [marked]
    exact (evaluate_evaluated _ nodup).of_same rfl rfl rfl rfl rfl rfl
  · rw [marked]
    exact congrArg (·.yields) evaluated.align

end

end Sys2Proof.Machine

namespace Sys2Proof.Proofs

open Sys2Proof.Machine

/-- Settles O24: each operation asks for its grant before it changes anything. -/
theorem arbiterOrder : Obligations.ArbiterOrder := by
  intro c s
  refine ⟨fun one asked => ?_, fun ahead => ?_, fun higher => ?_, fun three => ?_, fun higher asked => ?_⟩
  · have waits := grantsTwo_false one
    have unwritten := grantedWrite_none waits
    simp only [List.mem_cons, List.not_mem_nil, or_false] at asked
    rcases asked with rfl | rfl | rfl | rfl
    · exact congrArg Host.Outcome.next (walkStep_idle (.inl waits))
    · show Host.Outcome.next (confirmation s) = _
      unfold confirmation
      rw [unwritten]
    · show Host.Outcome.next (marking s) = _
      unfold marking
      rw [unwritten]
    · show Host.Outcome.next (liveSplicePlacement s) = _
      unfold liveSplicePlacement
      rw [unwritten]
  · exact congrArg Host.Outcome.next (walkStep_idle (.inr (walkRequested_false ahead)))
  · have waits := grantsThree_false higher
    refine ⟨fun m x0 x1 l k v rest head mounted extent => ?_, fun release => ?_⟩
    · exact congrArg Host.Outcome.next ((detection_tested head mounted extent).trans (if_neg (Bool.eq_false_iff.mp waits)))
    · subst release
      exact congrArg Host.Outcome.next (mapRelease_idle (grantsFour_false (.inl waits)))
  · rintro rfl
    exact congrArg Host.Outcome.next (mapRelease_idle (grantsFour_false (.inr three)))
  · have ungranted : s.grantedAccess = none := grantedAccess_none (by
      rcases higher with one | two | three | four
      · exact grantsFive_false (.inl (grantsFour_false (.inl (grantsThree_false (.inl one)))))
      · exact grantsFive_false (.inl (grantsFour_false (.inl (grantsThree_false (.inr two)))))
      · exact grantsFive_false (.inl (grantsFour_false (.inr three)))
      · exact grantsFive_false (.inr four))
    have other (a : WaitingAccess) : ¬ s.grantedAccess = some a := by
      rw [ungranted]
      nofun
    simp only [List.mem_cons, List.not_mem_nil, or_false] at asked
    rcases asked with rfl | rfl | rfl | rfl
    all_goals exact congrArg Host.Outcome.next (if_neg (other _))

/-- Settles O25: the record is copied from the list as it stands, and the access that asked for it ended. -/
theorem trackRecordLatched : Obligations.TrackRecordLatched := by
  intro s access timely granted i
  have window := latchTrack_window (s := grantAccess s) timely
  have frame := latchTrack_frame (s := grantAccess s) timely
  refine ⟨latchTrack (grantAccess s), ⟨.track, s.port.recordNumber, recordWords s .track s.port.recordNumber⟩,
    congrArg Host.Outcome.next (if_pos (grantedAccess_some granted access)), window.1, rfl, fun selected => ?_,
    latchTrack_ended (s := grantAccess s) timely, window.2, frame⟩
  have place : s.port.recordNumber = i := by
    show s.port.tableAddr / s.port.tableSelect.stride = _
    rw [selected]
    rfl
  rw [place]
  exact ⟨rfl, trackRecord_length s i, fun e present k hk => trackRecord_entry present k hk,
    fun absent => trackRecord_vacant absent⟩

/-- Settles O27: the two commands differ in their mark alone. -/
theorem stopMarksWritten : Obligations.StopMarksWritten := by
  intro s ident timely granted aside cleared
  refine ⟨fun access => ?_, fun access => ?_⟩
  · exact ⟨_, congrArg Host.Outcome.next (if_pos (grantedAccess_some granted access)),
      finishMark (mark := markStopped) (fun _ => rfl) timely aside⟩
  · exact ⟨_, congrArg Host.Outcome.next (if_pos (grantedAccess_some granted access)),
      finishMark (mark := markSkipped) (fun _ => rfl) timely aside⟩

end Sys2Proof.Proofs
end

