-- ==== Sys2Proof/Proofs/Prediction.lean ====
section
/-! SUPPORT. The predicted w of a press coordinate, row by row (R58). Settles O31. -/

-- One theorem at a time: kernel checks waiting for one another would each hold a thread and its memory.
set_option Elab.async false

namespace Sys2Proof.Machine

/-! ### The rows of R58 -/

theorem predictPast_eq (a : Anchor) (dLast m : Int) :
    predictPast a dLast m = a.w + roundHalfAway (((a.m - m) * 10 * (1000000 + dLast) : Int) / (1000000 : ℚ)) := by
  unfold predictPast
  rw [roundDiv_eq_roundHalfAway _ _ (by decide)]
  rfl

theorem predictBetween_eq (a b : Anchor) (m : Int) (h : a.m < b.m) : predictBetween a b m =
    b.w + roundHalfAway (((b.m - m) * (a.w - b.w) : Int) / (((b.m - a.m : Int)) : ℚ)) := by
  unfold predictBetween
  rw [roundDiv_eq_roundHalfAway _ _ (by omega)]

/-! ### The row for a press coordinate (R58) -/

/-- With a newest anchor at or before `m`, and an older one, the rows between the anchors apply. -/
theorem predictFrom_cons {a : Anchor} {l : List Anchor} {dLast m : Int} (nonempty : l ≠ []) (h : a.m ≤ m) :
    predictFrom (a :: l) dLast m = predictAmong (a :: l) m := by
  cases l with
  | nil => exact absurd rfl nonempty
  | cons b rest => exact if_neg (by omega)

theorem predictAmong_first {a b : Anchor} {older : List Anchor} {m : Int} (h : m < b.m ∨ older = []) :
    predictAmong (a :: b :: older) m = predictBetween a b m := by
  cases older with
  | nil => rfl
  | cons c rest => exact if_pos (h.resolve_right nofun)

/-- Beyond the second anchor, the newest has no part. -/
theorem predictAmong_skip {a b : Anchor} {l : List Anchor} {m : Int} (nonempty : l ≠ []) (h : b.m ≤ m) :
    predictAmong (a :: b :: l) m = predictAmong (b :: l) m := by
  cases l with
  | nil => exact absurd rfl nonempty
  | cons c rest => exact if_neg (by omega)

/-- Of anchors in order, those up to `a` lie at or before an `m` that `a` does. -/
theorem le_of_ordered {newer older : List Anchor} {a n : Anchor} {m : Int}
    (ordered : (newer ++ a :: older).Pairwise fun x y => x.m < y.m) (reached : a.m ≤ m) (hn : n ∈ newer) : n.m ≤ m :=
  ((List.pairwise_append.mp ordered).2.2 n hn a List.mem_cons_self).le.trans reached

theorem predictAmong_between {newer older : List Anchor} {a b : Anchor} {m : Int}
    (ordered : (newer ++ a :: b :: older).Pairwise fun x y => x.m < y.m) (reached : a.m ≤ m)
    (before : m < b.m ∨ older = []) : predictAmong (newer ++ a :: b :: older) m = predictBetween a b m := by
  induction newer with
  | nil => exact predictAmong_first before
  | cons n newer ih =>
    have rest := ih ordered.of_cons
    cases newer with
    | nil => exact (predictAmong_skip (List.cons_ne_nil b older) reached).trans rest
    | cons p newer =>
      exact (predictAmong_skip (by simp) (le_of_ordered ordered.of_cons reached List.mem_cons_self)).trans rest

theorem predictFrom_between {newer older : List Anchor} {a b : Anchor} {dLast m : Int}
    (ordered : (newer ++ a :: b :: older).Pairwise fun x y => x.m < y.m) (reached : a.m ≤ m)
    (before : m < b.m ∨ older = []) : predictFrom (newer ++ a :: b :: older) dLast m = predictBetween a b m := by
  rw [← predictAmong_between ordered reached before]
  cases newer with
  | nil => exact predictFrom_cons (List.cons_ne_nil b older) reached
  | cons n newer => exact predictFrom_cons (by simp) (le_of_ordered ordered reached List.mem_cons_self)

end Sys2Proof.Machine

namespace Sys2Proof.Proofs

open Sys2Proof.Machine

/-- Settles O31, row by row of R58, by induction on the anchors newer than the pair that `m` lies between. -/
theorem prediction : Obligations.Prediction := by
  refine ⟨fun s m none => ?_, fun s a older m anchors past => ?_,
    fun s newer older a b m anchors ordered reached before => ?_⟩
  · unfold State.predict
    rw [none]
    rfl
  · unfold State.predict
    rw [anchors, ← predictPast_eq]
    cases older with
    | nil => rfl
    | cons b rest => exact if_pos (past.resolve_right nofun)
  · unfold State.predict
    rw [anchors] at ordered ⊢
    have next : a.m < b.m :=
      List.rel_of_pairwise_cons (List.pairwise_append.mp ordered).2.1 List.mem_cons_self
    rw [predictFrom_between ordered reached before, predictBetween_eq a b m next]

end Sys2Proof.Proofs
end

