-- ==== Sys2Proof/Proofs/MapMessages.lean ====
section
/-! SUPPORT. The messages of the Press Map at the head of the DIQ (R49 to R51). Settles O32, O33 and O34. -/

-- One theorem at a time: kernel checks waiting for one another would each hold a thread and its memory.
set_option Elab.async false

namespace Sys2Proof.Machine

/-! ### A message of the map leaves the DIQ (R73, R75) -/

/-- The head leaves the DIQ with its result `r`, and the map becomes `m`. -/
def servedWith (r : ResultCode) (m : PressMap) (s : State) : State := (setLastResult r (popMessage s)).setPmap m

/-- R73: the head leaves by the DIQ and the link alone. -/
theorem popMessage_blocks (s : State) : ∃ d l, popMessage s = { s with diq := d, link := l } := by
  unfold popMessage signalResume
  dsimp only
  split
  · split <;> exact ⟨_, _, rfl⟩
  · exact ⟨_, _, rfl⟩

theorem servedWith_blocks (r : ResultCode) (m : PressMap) (s : State) :
    servedWith r m s = { s with diq := (servedWith r m s).diq, link := (servedWith r m s).link, pmap := m } := by
  obtain ⟨d, l, popped⟩ := popMessage_blocks s
  unfold servedWith
  rw [popped]
  rfl

@[simp] theorem servedWith_events (r : ResultCode) (m : PressMap) (s : State) : (servedWith r m s).events = s.events := by
  rw [servedWith_blocks]

/-- An event raised as the head leaves. -/
theorem raiseIf_served (c : Bool) (e : Event) (r : ResultCode) (m : PressMap) (s : State) :
    raiseIf c e (servedWith r m s) = { s with
      diq := (raiseIf c e (servedWith r m s)).diq, link := (raiseIf c e (servedWith r m s)).link
      pmap := (raiseIf c e (servedWith r m s)).pmap, events := (raiseIf c e (servedWith r m s)).events } := by
  rw [servedWith_blocks]
  cases c <;> rfl

theorem servedWith_taken {x : Message} {rest : List Message} {s : State} (head : s.diq.messages = x :: rest)
    (r : ResultCode) (m : PressMap) : TakenFromHead rest s (servedWith r m s) := by
  have taken := (popMessage_takenFromHead s).of_touches (setLastResult_touches r _)
  rw [head] at taken
  exact taken

/-- A message refused leaves the map as it was. -/
theorem servedWith_refused (r : ResultCode) (s : State) : servedWith r s.pmap s = setLastResult r (popMessage s) := by
  unfold servedWith
  rw [← popMessage_pmap s]
  rfl

/-! ### MAP BEGIN (R49) -/

section
variable {s : State} {rest : List Message}

theorem mapBegin_served {id : Nat} {mEnd d0 : Int} (head : s.diq.messages = .mapBegin id mEnd d0 :: rest) :
    mapBegin s = servedWith (beginResult s mEnd d0)
      (if beginResult s mEnd d0 = .ok then s.pmap.openedWith id mEnd d0 else s.pmap) s := by
  unfold mapBegin
  rw [head]
  show serveMapBegin id mEnd d0 s = _
  unfold serveMapBegin
  dsimp only
  split
  · rw [setLastResult, State.setDiq_pmap, popMessage_pmap]
    rfl
  · exact (servedWith_refused _ s).symm

/-! ### MAP RECORD (R50) -/

theorem mapRecord_served {m len x0 x1 : Int} {packed : Byte}
    (head : s.diq.messages = .mapRecord m len x0 x1 packed :: rest) : mapRecord s =
      servedWith (s.pmap.recordResult m x0 x1 packed)
        (s.pmap.afterRecord (s.pmap.recordResult m x0 x1 packed) (recordOf m len x0 x1 packed)) s := by
  unfold mapRecord
  rw [head]
  show serveMapRecord m len x0 x1 packed s = _
  unfold serveMapRecord
  dsimp only
  rw [setLastResult, State.setDiq_pmap, popMessage_pmap]
  rfl

end

/-- R50: the kinds that the packed byte can spell. -/
theorem packedKind_cases (packed : Byte) :
    (packed.toNat / 32 = 0 ∧ packedKind packed = some .flag) ∨
    (packed.toNat / 32 = 1 ∧ packedKind packed = some .splice) ∨
    (1 < packed.toNat / 32 ∧ packedKind packed = none) := by
  unfold packedKind
  generalize packed.toNat / 32 = k
  match k with
  | 0 => exact .inl ⟨rfl, rfl⟩
  | 1 => exact .inr (.inl ⟨rfl, rfl⟩)
  | k + 2 => exact .inr (.inr ⟨by omega, rfl⟩)

/-- R50: what makes a field bad. -/
theorem fieldsOk_false_iff (pm : PressMap) (m x0 x1 : Int) (packed : Byte) : (!pm.fieldsOk m x0 x1 packed) = true ↔
    1 < packed.toNat / 32 ∨ pm.mEnd < m ∨ (packed.toNat / 32 = 0 ∧ x1 < x0) := by
  unfold PressMap.fieldsOk
  rcases packedKind_cases packed with ⟨place, kind⟩ | ⟨place, kind⟩ | ⟨place, kind⟩
  · simp [kind, place, or_comm]
  · simp [kind, place]
  · rw [kind]
    simp [place]

/-- R50: a record out of order. -/
theorem inOrder_false_iff (pm : PressMap) (m : Int) :
    (!pm.inOrder m) = true ↔ ∃ r ∈ pm.records.getLast?, r.m < m := by
  unfold PressMap.inOrder
  cases pm.records.getLast? <;> simp

theorem recordResult_eq (pm : PressMap) (m x0 x1 : Int) (packed : Byte) : pm.recordResult m x0 x1 packed =
    if pm.state ≠ .opened then .mapState else if 4096 ≤ pm.records.length then .mapFull
    else if 1 < packed.toNat / 32 ∨ pm.mEnd < m ∨ (packed.toNat / 32 = 0 ∧ x1 < x0) then .badField
    else if ∃ r ∈ pm.records.getLast?, r.m < m then .mapOrder else .ok := by
  unfold PressMap.recordResult
  simp only [fieldsOk_false_iff, inOrder_false_iff]

/-- R50: a record taken is of a kind there is. -/
theorem recordResult_known {pm : PressMap} {m x0 x1 : Int} {packed : Byte} (ok : pm.recordResult m x0 x1 packed = .ok) :
    ¬ 1 < packed.toNat / 32 := by
  intro unknown
  rw [recordResult_eq] at ok
  split_ifs at ok with _ _ bad
  exact bad (.inl unknown)

theorem recordOf_eq (m len x0 x1 : Int) (packed : Byte) (known : ¬ 1 < packed.toNat / 32) : recordOf m len x0 x1 packed =
    if packed.toNat / 32 = 0 then
      ⟨.flag, m, len, x0, x1, classOf (packed.toNat / 4), severityOf packed.toNat, .unreleased, .unmatched⟩
    else ⟨.splice, m, 0, 0, 0, 0, 0, .unreleased, .unmatched⟩ := by
  unfold recordOf
  rcases packedKind_cases packed with ⟨place, kind⟩ | ⟨place, kind⟩ | ⟨place, kind⟩
  · rw [kind, if_pos place]
  · rw [kind, place]
    rfl
  · exact absurd place known

/-! ### MAP CLOSE (R51) -/

theorem closedWith_eq (pm : PressMap) (n : Nat) : pm.closedWith n =
    { pm with state := .closed, truncated := pm.truncated || decide (n ≠ pm.records.length) } := by
  have differ : decide (n ≠ pm.records.length) = (n != pm.records.length) := decide_not
  rw [differ]
  rfl

theorem mapClose_served {n : Nat} {rest : List Message} {s : State} (head : s.diq.messages = .mapClose n :: rest) :
    mapClose s = if s.pmap.state = .opened then
      raiseIf (s.pmap.closedWith n).truncated .mapTruncated (servedWith .ok (s.pmap.closedWith n) s)
      else servedWith .mapState s.pmap s := by
  unfold mapClose
  rw [head]
  show serveMapClose n s = _
  unfold serveMapClose
  dsimp only
  rw [popMessage_pmap, servedWith_refused]
  rfl

end Sys2Proof.Machine

namespace Sys2Proof.Proofs

open Sys2Proof.Machine

/-- Settles O32: the head leaves with the result of the checks, and the map is opened by OK alone. -/
theorem mapBegin : Obligations.MapBegin := fun s _ _ _ _ head =>
  ⟨_, congrArg Host.Outcome.next (mapBegin_served head), servedWith_taken head _ _, servedWith_blocks _ _ s, rfl, rfl⟩

/-- Settles O33: the head leaves with the result of the checks, and the record is appended by OK alone. -/
theorem mapRecordTaken : Obligations.MapRecordTaken := by
  intro s m len x0 x1 packed rest head k cls sev
  refine ⟨_, congrArg Host.Outcome.next (mapRecord_served head), servedWith_taken head _ _, servedWith_blocks _ _ s,
    recordResult_eq s.pmap m x0 x1 packed, ?_⟩
  show s.pmap.afterRecord (s.pmap.recordResult m x0 x1 packed) _ =
    if s.pmap.recordResult m x0 x1 packed = .mapFull then _
    else if s.pmap.recordResult m x0 x1 packed = .ok then _ else _
  unfold PressMap.afterRecord
  by_cases ok : s.pmap.recordResult m x0 x1 packed = .ok
  · rw [if_pos ok, ok, if_neg nofun, if_pos rfl, recordOf_eq _ _ _ _ _ (recordResult_known ok)]
    rfl
  · rw [if_neg ok, if_neg ok]

/-- Settles O34: a map that is open is closed as it leaves, and MAP_TRUNCATED shows its TRUNCATED. -/
theorem mapClose : Obligations.MapClose := by
  intro s n rest head
  have closed := mapClose_served head
  by_cases opened : s.pmap.state = .opened
  · rw [if_pos opened] at closed
    have raised := raiseIf_touches (s.pmap.closedWith n).truncated .mapTruncated (servedWith .ok (s.pmap.closedWith n) s)
    have pmap := raised.pmap
    refine ⟨_, congrArg Host.Outcome.next closed, (servedWith_taken head _ _).of_touches raised, raiseIf_served _ _ _ _ s,
      fun other => absurd opened other, fun _ => ⟨raised.same .lastResult, pmap.trans (closedWith_eq _ n), ?_⟩⟩
    · rw [raiseIf_flag, servedWith_events, pmap, decide_eq_true rfl, Bool.and_true]
      rfl
  · rw [if_neg opened] at closed
    exact ⟨_, congrArg Host.Outcome.next closed, servedWith_taken head _ _, raiseIf_served false .mapTruncated _ _ s,
      fun _ => ⟨rfl, rfl, servedWith_events _ _ s⟩, fun is => absurd is opened⟩

end Sys2Proof.Proofs
end

