-- ==== Sys2Proof/Proofs/SightingsTaken.lean ====
section
/-! SUPPORT. The commands that take a sighting, and what its handling leaves (R59 to R65, R84). Settles O28, O29 and O30. -/

-- One theorem at a time: kernel checks waiting for one another would each hold a thread and its memory.
set_option Elab.async false

namespace Sys2Proof.Machine

/-! ### A command that takes a sighting (R60, R84) -/

theorem selects_sensor_iff : (x : SpliceSource) → (x.selects .sensor = true ↔ x ≠ .camera)
  | .sensor => by decide
  | .camera => by decide
  | .both => by decide

theorem takesSighting_iff (s : State) : s.takesSighting = true ↔ s.align.queue.length ≤ 6 := by
  unfold State.takesSighting State.freeWrites
  rw [decide_eq_true_iff]
  omega

/-- R60: an edge of SPLC that is a sighting. -/
theorem sensorEdge_sighting {s : State} (mounted : s.mounted = true) (source : s.align.source ≠ .camera) :
    sensorEdge s = sensorSighting s := if_pos ⟨mounted, (selects_sensor_iff _).mpr source⟩

theorem sensorSighting_latched {s : State} (latched : s.align.latch ≠ none) :
    sensorSighting s = countTotal .sightingsIgnored 1 s := if_pos (Option.isSome_iff_ne_none.mpr latched)

theorem sensorSighting_open {s : State} (empty : s.align.latch = none) : sensorSighting s =
    if s.takesSighting = true then takeSighting s.sensorW .sensor false s
    else s.setAlign { s.align with latch := some s.sensorW } := by
  unfold sensorSighting
  rw [empty]
  rfl

theorem takeLatched_latched {s : State} {w : Int} (latched : s.align.latch = some w) : takeLatched s =
    if s.takesSighting = true then takeSighting w .sensor false (s.setAlign { s.align with latch := none }) else s := by
  unfold takeLatched
  rw [latched]

/-- R60: without a latched sighting, or without room for it, nothing is taken. -/
theorem takeLatched_waits {s : State} (waits : s.align.latch = none ∨ 7 ≤ s.align.queue.length) : takeLatched s = s := by
  cases latch : s.align.latch with
  | none =>
    unfold takeLatched
    rw [latch]
  | some w =>
    have full : 7 ≤ s.align.queue.length := waits.resolve_left (by rw [latch]; nofun)
    refine (takeLatched_latched latch).trans (if_neg ?_)
    rw [takesSighting_iff]
    omega

theorem spliceSighting_head {s : State} {stamp : Int} {rest : List Message}
    (head : s.diq.messages = .spliceSighting stamp :: rest) (mounted : s.mounted = true) :
    spliceSighting s = cameraSighting stamp s := by
  unfold spliceSighting
  rw [head]
  exact if_pos mounted

theorem cameraSighting_selected {s : State} (stamp : Int) (source : s.align.source ≠ .sensor) : cameraSighting stamp s =
    if s.holdsCamera = true then s
    else setLastResult .ok (takeSighting (s.cameraW stamp) .camera (!s.tracker.valid) (popMessage s)) := by
  unfold cameraSighting
  rw [(selects_camera_iff _).mpr source]
  rfl

theorem cameraSighting_unselected {s : State} (stamp : Int) (source : s.align.source = .sensor) :
    cameraSighting stamp s = setLastResult .ok (popMessage s) := by
  unfold cameraSighting
  rw [source]
  rfl

/-- R60: `v` is `s` as a sighting is handled: nothing is latched, and what the handling looks at stands as it did. -/
structure SightedFrom (s v : State) : Prop where
  align : v.align = { s.align with latch := none }
  pmap : v.pmap = s.pmap
  tally : v.tally = s.tally
  events : v.events = s.events

/-- Every command that takes a sighting handles it as R61 to R65 say, and a message leaves the DIQ with OK. -/
theorem exec_sighting {c : Instr} {s : State} {w : Int} {src : SightingSource} {u : Bool} (mounted : s.mounted = true)
    (taken : SightingTaken c s w src u) :
    ∃ v t, exec c s = .next t ∧ SightedFrom s v ∧ Touches [.lastResult] (takeSighting w src u v) t ∧
      (c = .spliceSighting → TakenFromHead s.diq.messages.tail s t ∧ t.diq.lastResult = .ok) := by
  obtain ⟨room, edge | latched | camera⟩ := taken
  · obtain ⟨rfl, source, empty, rfl, rfl, rfl⟩ := edge
    refine ⟨s, _, congrArg Host.Outcome.next ((sensorEdge_sighting mounted source).trans
      ((sensorSighting_open empty).trans (if_pos ((takesSighting_iff s).mpr room)))), ⟨?_, rfl, rfl, rfl⟩,
      Touches.refl _ _, nofun⟩
    rw [← empty]
  · obtain ⟨rfl, latched, rfl, rfl⟩ := latched
    exact ⟨s.setAlign { s.align with latch := none }, _, congrArg Host.Outcome.next ((takeLatched_latched latched).trans
      (if_pos ((takesSighting_iff s).mpr room))), ⟨rfl, rfl, rfl, rfl⟩, Touches.refl _ _, nofun⟩
  · obtain ⟨rfl, source, empty, ⟨stamp, rest, head, rfl⟩, rfl, rfl⟩ := camera
    have free : ¬ s.holdsCamera = true := fun holds =>
      ((holdsCamera_iff s).mp holds).elim (fun full => by omega) fun latched => latched empty
    have popped := popMessage_touches s
    refine ⟨popMessage s, _, congrArg Host.Outcome.next ((spliceSighting_head head mounted).trans
      ((cameraSighting_selected stamp source).trans (if_neg free))),
      ⟨popped.align.trans ?_, popped.pmap, popped.tally, popped.events⟩, setLastResult_touches _ _, fun _ => ⟨?_, rfl⟩⟩
    · rw [← empty]
    · exact ((popMessage_takenFromHead s).of_touches (takeSighting_touches _ _ _ _)).of_touches (setLastResult_touches _ _)

/-! ### What is left when a sighting has been handled (R61 to R65) -/

/-- R63: the writes of an accepted anchor. -/
theorem acceptAnchor_writes (i : Nat) (r : MapRecord) (a b : Anchor) (s : State) :
    (acceptAnchor i r a b s).align.queue =
      s.align.queue ++ (if r.status = .released then [.confirmation i b.w] else []) ++ [.marking a.m] := by
  by_cases released : r.status = .released
  · simp only [acceptAnchor, if_pos released]
    rfl
  · simp only [acceptAnchor, if_neg released, List.append_nil]
    rfl

/-- R63: an accepted anchor raises SPLICE_MATCHED. -/
theorem acceptAnchor_flag (i : Nat) (r : MapRecord) (a b : Anchor) (s : State) :
    (acceptAnchor i r a b s).events.flag .spliceMatched = true := by
  by_cases released : r.status = .released
  · simp only [acceptAnchor, if_pos released]
    exact (raise_flag .spliceMatched _ _).trans (Bool.or_true _)
  · simp only [acceptAnchor, if_neg released]
    exact (raise_flag .spliceMatched _ _).trans (Bool.or_true _)

section
variable {s v : State} {w : Int}

theorem SightedFrom.passesGuard (h : SightedFrom s v) (passes : s.passesGuard w) : v.passesGuard w := by
  unfold State.passesGuard at *
  rw [h.align]
  exact passes

theorem SightedFrom.matchesRecord (h : SightedFrom s v) {r : MapRecord} : v.matchesRecord w r ↔ s.matchesRecord w r := by
  unfold State.matchesRecord State.predict
  rw [h.align]

theorem SightedFrom.matchesNone (h : SightedFrom s v) {u : Bool} (none : s.matchesNone w u) : v.matchesNone w u := by
  unfold State.matchesNone at *
  rw [h.pmap]
  exact none.imp_right (.imp_right (.imp_right fun none r hr => mt h.matchesRecord.mp (none r hr)))

/-- R148: the counts and TALLY_SAT stand as they did. -/
theorem SightedFrom.countsFrom (h : SightedFrom s v) : CountsFrom s v := .of_same h.tally (by rw [h.events])

theorem SightedFrom.total (h : SightedFrom s v) (k : Total) : v.total k = s.total k := by
  unfold State.total
  rw [h.tally]

/-! ### The handling of a sighting (R61 to R65) -/

/-- R61, R62, R65: a sighting that passes the guard is queued as a live splice, with the event `e`. -/
structure LiveSpliceQueued (w : Int) (x : AlignWrite) (e : Event) (s t : State) : Prop where
  align : t.align = { s.align with latch := none, lastGuarded := some w, queue := s.align.queue ++ [x] }
  pmap : t.pmap = s.pmap
  total : ∀ k, t.total k = s.total k
  flag : ∀ f, t.events.flag f = (s.events.flag f || decide (e = f))

theorem SightedFrom.queued (h : SightedFrom s v) {t : State} {x : AlignWrite} {e : Event}
    (done : Touches [.lastResult] (appendWrite x (raise e (v.guardedAt w))) t) : LiveSpliceQueued w x e s t where
  align := by
    rw [done.align]
    show { v.align with lastGuarded := some w, queue := v.align.queue ++ [x] } = _
    rw [h.align]
  pmap := done.pmap.trans h.pmap
  total k := (done.total k).trans (h.total k)
  flag f := by
    rw [done.flag]
    show (raise e (v.guardedAt w)).events.flag f = _
    rw [raise_flag, ← h.events]
    rfl

/-- R63: a sighting accepted as the anchor of record `i` against the newest anchor `a`. -/
structure AnchorEntered (w : Int) (i : Nat) (r : MapRecord) (a : Anchor) (s t : State) : Prop where
  lastGuarded : t.align.lastGuarded = some w
  anchors : t.align.anchors = (⟨r.m, w⟩ :: s.align.anchors).take 8
  dLast : t.align.dLast = newRatio a ⟨r.m, w⟩
  records : t.pmap.records = s.pmap.records.modify i fun q => { q with matchState := .matched }
  matched : t.events.flag .spliceMatched = true
  queue : t.align.queue = s.align.queue ++ (if r.status = .released then [.confirmation i w] else []) ++ [.marking a.m]

theorem SightedFrom.accepted (h : SightedFrom s v) {t : State} {i : Nat} {r : MapRecord} {a : Anchor}
    (done : Touches [.lastResult] (acceptAnchor i r a ⟨r.m, w⟩ (v.guardedAt w)) t) : AnchorEntered w i r a s t := by
  have align := done.align
  have entered := acceptAnchor_anchors i r a ⟨r.m, w⟩ (v.guardedAt w)
  have before : v.guardedAt w = v.setAlign { s.align with latch := none, lastGuarded := some w } := by
    unfold State.guardedAt
    rw [h.align]
  exact {
    lastGuarded := by
      rw [align]
      exact ((acceptAnchor_touches _ _ _ _ _).same .sightings).2
    anchors := by rw [align, entered.1, before]; rfl
    dLast := by rw [align, entered.2]
    records := by rw [done.pmap, acceptAnchor_records, ← h.pmap]; rfl
    matched := by rw [done.flag, acceptAnchor_flag]
    queue := by rw [align, acceptAnchor_writes, before]; rfl }

end

theorem takeSighting_unexpected {s : State} {w : Int} {src : SightingSource} {u : Bool} (passes : s.passesGuard w)
    (none : s.matchesNone w u) :
    takeSighting w src u s = appendWrite (.liveSplice w src u) (raise .spliceUnexpected (s.guardedAt w)) := by
  rw [takeSighting_passed _ _ _ _ passes, matchFor_none _ _ _ none]

/-- R63, R64: with an anchor to offer, the ratio decides. -/
theorem takeSighting_matched {s : State} {w : Int} {src : SightingSource} {i : Nat} {r : MapRecord} {a : Anchor}
    {older : List Anchor} (passes : s.passesGuard w) (found : s.matchFor w false = some i)
    (record : s.pmap.records[i]? = some r) (anchors : s.align.anchors = a :: older) : takeSighting w src false s =
      if anchorAccepted a ⟨r.m, w⟩ = true then acceptAnchor i r a ⟨r.m, w⟩ (s.guardedAt w)
      else appendWrite (.liveSplice w src false) (raise .anchorRejected (s.guardedAt w)) := by
  have held : s.mapRecord i = some r := record
  rw [takeSighting_passed _ _ _ _ passes, found]
  dsimp only
  rw [held, anchors]

/-- R59: acceptance, with the ratio as the manual rounds it. -/
theorem anchorAccepted_iff (a b : Anchor) : anchorAccepted a b = true ↔
    b.m < a.m ∧ -50000 ≤ newRatio a b ∧ newRatio a b ≤ 50000 := by
  simp [anchorAccepted, and_assoc]

end Sys2Proof.Machine

namespace Sys2Proof.Proofs

open Sys2Proof.Machine

/-- Settles O28: the three ways lead to the same handling, which queues the live splice. -/
theorem sightingsUnexpected : Obligations.SightingsUnexpected := by
  intro c s w src u mounted taken passes none
  obtain ⟨v, t, made, stands, done, served⟩ := exec_sighting mounted taken
  rw [takeSighting_unexpected (stands.passesGuard passes) (stands.matchesNone none)] at done
  have queued := stands.queued done
  have align := queued.align
  refine ⟨t, made, ?_, ?_, ?_, ?_, ?_, congrArg (·.records) queued.pmap, queued.total _, served⟩
  · rw [align]
  · rw [align]
  · rw [queued.flag, decide_eq_true rfl, Bool.or_true]
  · rw [align]
  · rw [align]

/-- Settles O29: within the guard the count alone is made, and without a sighting taken each command does less. -/
theorem sightingsIgnoredOrHeld : Obligations.SightingsIgnoredOrHeld := by
  refine ⟨?_, ?_, ?_, ?_, ?_, ?_⟩
  · intro c s w last src u mounted bounded taken guarded near
    obtain ⟨v, t, made, stands, done, served⟩ := exec_sighting mounted taken
    have boundedV := stands.countsFrom.bounded bounded
    have align := stands.align
    have guardedV : v.align.lastGuarded = some last := by rw [align]; exact guarded
    have nearV : |w - last| ≤ v.align.spliceGuard := by rw [align]; exact near
    rw [takeSighting_guarded w last src u v guardedV nearV] at done
    have counted := countTotal_touches .sightingsIgnored 1 v
    have alignT : t.align = { s.align with latch := none } := (done.align.trans counted.align).trans align
    refine ⟨t, made, (countTotal_countedOnce _ boundedV).read (stands.total _).symm (done.total _),
      ((stands.countsFrom.trans (countTotal_countsFrom _ _ v)).trans (.of_touches done)).shown bounded, served, ?_⟩
    rw [alignT, done.pmap, counted.pmap, stands.pmap]
    exact ⟨rfl, guarded, rfl, rfl, rfl⟩
  · intro s mounted source empty full
    refine congrArg Host.Outcome.next ((sensorEdge_sighting mounted source).trans
      ((sensorSighting_open empty).trans (if_neg ?_)))
    rw [takesSighting_iff]
    omega
  · intro s mounted source latched bounded
    exact ⟨_, congrArg Host.Outcome.next ((sensorEdge_sighting mounted source).trans (sensorSighting_latched latched)),
      countTotal_countedOnce _ bounded, (countTotal_countsFrom _ _ s).shown bounded, (countTotal_touches _ _ s).align⟩
  · intro s none
    refine congrArg Host.Outcome.next (if_neg fun ⟨mounted, source⟩ => ?_)
    rcases none with off | camera
    · rw [off] at mounted
      exact absurd mounted Bool.false_ne_true
    · exact (selects_sensor_iff _).mp source camera
  · exact fun s waits => congrArg Host.Outcome.next (takeLatched_waits waits)
  · intro s stamp rest head mounted
    refine ⟨fun source waits => ?_, fun source => ?_⟩
    · exact congrArg Host.Outcome.next ((spliceSighting_head head mounted).trans
        ((cameraSighting_selected stamp source).trans (if_pos ((holdsCamera_iff s).mpr waits))))
    · have popped := popMessage_touches s
      have taken := (popMessage_takenFromHead s).of_touches (setLastResult_touches .ok _)
      rw [head] at taken
      exact ⟨_, congrArg Host.Outcome.next ((spliceSighting_head head mounted).trans
        (cameraSighting_unselected stamp source)), taken, rfl, popped.align, popped.tally, popped.events⟩

/-- Settles O30: the record found offers its anchor, which R59 accepts or rejects. -/
theorem anchorOffered : Obligations.AnchorOffered := by
  intro c s w src i r a older mounted taken passes low high record matched first anchors dNew
  obtain ⟨v, t, made, stands, done, served⟩ := exec_sighting mounted taken
  have found : v.matchFor w false = some i := matchFor_some v w i r low high (stands.pmap ▸ record)
    (stands.matchesRecord.mpr matched) fun j q before held =>
      mt stands.matchesRecord.mp (first j q before (stands.pmap ▸ held))
  have newest : v.align.anchors = a :: older := by rw [stands.align]; exact anchors
  have latch : t.align.latch = none := by rw [done.align, takeSighting_latch, stands.align]
  have accepted : anchorAccepted a ⟨r.m, w⟩ = true ↔ r.m < a.m ∧ -50000 ≤ dNew ∧ dNew ≤ 50000 := by
    rw [anchorAccepted_iff]
    exact and_congr_right fun order => by rw [newRatio_eq a ⟨r.m, w⟩ order]
  rw [takeSighting_matched (stands.passesGuard passes) found (stands.pmap ▸ record) newest] at done
  by_cases accept : anchorAccepted a ⟨r.m, w⟩ = true
  · rw [if_pos accept] at done
    obtain ⟨order, above, below⟩ := accepted.mp accept
    have entered := stands.accepted done
    refine ⟨t, made, latch, entered.lastGuarded, served, fun _ => ⟨?_, ?_, entered.records, entered.matched, entered.queue⟩,
      fun refused => by omega⟩
    · rw [entered.anchors, anchors]
    · rw [entered.dLast, newRatio_eq a ⟨r.m, w⟩ order]
  · rw [if_neg accept] at done
    have queued := stands.queued done
    have align := queued.align
    refine ⟨t, made, latch, by rw [align], served, fun within => absurd (accepted.mpr within) accept, fun _ =>
      ⟨by rw [align], by rw [align], by rw [queued.pmap], ?_, ?_, by rw [align]⟩⟩
    · rw [queued.flag, decide_eq_true rfl, Bool.or_true]
    · exact (queued.flag _).trans (Bool.or_false _)

end Sys2Proof.Proofs
end
